-- ==== Sys2Proof/Word.lean ====
section
/-! DEFINITION. The plain words of the P48 (R6, R7): bytes and 64-bit words. -/

namespace Sys2Proof

/-- One byte of memory. -/
abbrev Byte := BitVec 8

/-- A control-core register, a block payload, a memory doubleword. -/
abbrev Word := BitVec 64

end Sys2Proof
end

