-- ==== Sys2Proof/Machine/Bits.lean ====
section
/-! DEFINITION. Bit fields, sign extension and byte order (R6, R7, R11). -/

namespace Sys2Proof.Machine

/-- Bits [hi:lo] of a number (R6, R11). -/
def bits (x hi lo : Nat) : Nat := (x >>> lo) % 2 ^ (hi + 1 - lo)

/-- Bit i of a number. -/
def bitAt (x i : Nat) : Bool := x.testBit i

/-- A pattern of w bits read as two's complement. -/
def signed (w x : Nat) : Int :=
  let y := x % 2 ^ w
  if 2 ^ (w - 1) ≤ y then (y : Int) - 2 ^ w else y

/-- An integer as a pattern of w bits. -/
def pattern (w : Nat) (v : Int) : Nat := (v % (2 ^ w : Int)).toNat

/-- Clamp to a range (Sat of R11). -/
def sat (v lo hi : Int) : Int := if v < lo then lo else if hi < v then hi else v

/-- Ceiling division. -/
def cdiv (a b : Nat) : Nat := (a + b - 1) / b

/-- The n low bytes of a number, least significant first (R7). -/
def toBytes : Nat → Nat → List Byte
  | 0, _ => []
  | n + 1, x => BitVec.ofNat 8 x :: toBytes n (x / 256)

/-- The number that little-endian bytes stand for (R7). -/
def ofBytes : List Byte → Nat
  | [] => 0
  | b :: bs => b.toNat + 256 * ofBytes bs

/-- A 57-bit base field, sign-extended from its bit 56 (R150). -/
def base57 (b : BitVec 57) : Int := b.toInt

/-- A 51-bit record field: bits [56:6] of a 64-byte-aligned address (13, before R292). -/
def base51 (b : BitVec 51) : Int := b.toInt * 64

/-- The canonical virtual addresses (R101, R374). -/
def canonical (a : Int) : Bool := decide (-(2 ^ 56 : Int) ≤ a) && decide (a < 2 ^ 56)

/-- The 64-bit register pattern of an address. -/
def wordOf (a : Int) : Word := BitVec.ofInt 64 a

/-- Replace element i of a list. -/
def setAt {α : Type} (l : List α) (i : Nat) (a : α) : List α := l.set i a

/-- Split a list into pieces of n, with fuel. -/
def chunks {α : Type} (n : Nat) : Nat → List α → List (List α)
  | 0, _ => []
  | _ + 1, [] => []
  | k + 1, l => l.take n :: chunks n k (l.drop n)

/-- Doublewords of a byte list (R7). -/
def wordsOf (bs : List Byte) : List Word :=
  (chunks 8 bs.length bs).map fun c => BitVec.ofNat 64 (ofBytes c)

/-- The number of one bits among the low w bits. -/
def popcount (x : Nat) : Nat → Nat
  | 0 => 0
  | n + 1 => popcount x n + (if x.testBit n then 1 else 0)

end Sys2Proof.Machine
end

