-- ==== Sys2Proof/Machine/Num.lean ====
section
/-! DEFINITION. Number formats, rounding, conversion and flags (R31-R46), from exact dyadic values. -/

namespace Sys2Proof.Machine

/-- The five sticky flags, laid out as cr.FPS (R46). -/
abbrev Flags := BitVec 5

def flagX : Flags := 0b10000#5
def flagU : Flags := 0b01000#5
def flagO : Flags := 0b00100#5
def flagZ : Flags := 0b00010#5
def flagI : Flags := 0b00001#5

/-- The launch options that change arithmetic: flush mode (R36) and precision demotion (R57). -/
structure FEnv where
  flush : Bool
  dem   : Bool
  deriving DecidableEq, Repr

/-- Neither option. -/
def FEnv.plain : FEnv := ⟨false, false⟩

/-- A floating-point format: exponent bits, mantissa bits, whether it has infinities (R34). -/
structure Fmt where
  eb  : Nat
  mb  : Nat
  inf : Bool
  deriving DecidableEq, Repr

/-- The format of a code (R34); FP32 for any code that names none. -/
def fmtOf (code : Nat) : Fmt :=
  match code with
  | 8 => ⟨4, 3, false⟩
  | 9 => ⟨5, 2, true⟩
  | 11 => ⟨5, 10, true⟩
  | 12 => ⟨8, 7, true⟩
  | _ => ⟨8, 23, true⟩

/-- Codes of floating-point formats other than FW8 (R34). -/
def isFloat (code : Nat) : Bool := code == 8 || code == 9 || code == 11 || code == 12 || code == 13

/-- Codes of integer formats (R31). -/
def isInt (code : Nat) : Bool := (1 ≤ code && code ≤ 7) || code == 14

/-- The exponent bias (R34). -/
def Fmt.bias (f : Fmt) : Int := 2 ^ (f.eb - 1) - 1

/-- The exponent of the smallest normal (R34). -/
def Fmt.emin (f : Fmt) : Int := 1 - f.bias

/-- The width of a format's pattern. -/
def Fmt.width (f : Fmt) : Nat := 1 + f.eb + f.mb

/-- The largest finite magnitude's pattern without sign (R34). -/
def Fmt.maxBits (f : Fmt) : Nat :=
  if f.inf then (2 ^ f.eb - 2) * 2 ^ f.mb + (2 ^ f.mb - 1) else 0x7E

/-- The canonical NaN (R34, R35). -/
def Fmt.nan (f : Fmt) : Nat :=
  if f.inf then (2 ^ f.eb - 1) * 2 ^ f.mb + 2 ^ (f.mb - 1) else 0x7F

/-- The pattern of +infinity, for formats that have one. -/
def Fmt.infBits (f : Fmt) : Nat := (2 ^ f.eb - 1) * 2 ^ f.mb

/-- The sign bit of a pattern. -/
def Fmt.signBit (f : Fmt) (neg : Bool) : Nat := if neg then 2 ^ (f.eb + f.mb) else 0

/-- A value: a NaN, an infinity, or sign, magnitude m and exponent e for m times 2^e; zeros keep their sign. -/
inductive Val where
  | nan
  | inf (neg : Bool)
  | fin (neg : Bool) (m : Nat) (e : Int)
  deriving DecidableEq, Repr

/-- Formats whose subnormals flush mode acts on (R36). -/
def flushes (code : Nat) : Bool := code == 11 || code == 12 || code == 13

/-- The value of a pattern, flush mode not applied (R34). -/
def unpackRaw (code x : Nat) : Val :=
  let f := fmtOf code
  let neg := x.testBit (f.eb + f.mb)
  let e := (x >>> f.mb) % 2 ^ f.eb
  let m := x % 2 ^ f.mb
  if f.inf && e == 2 ^ f.eb - 1 then (if m == 0 then .inf neg else .nan)
  else if !f.inf && x % 128 == 0x7F then .nan
  else if e == 0 then .fin neg m (f.emin - f.mb)
  else .fin neg (2 ^ f.mb + m) ((e : Int) - f.bias - f.mb)

/-- The value an operand reads as, with flush mode (R36). -/
def unpack (v : FEnv) (code x : Nat) : Val :=
  match unpackRaw code x with
  | .fin neg m e =>
    if v.flush && flushes code && (m.log2 < (fmtOf code).mb) then .fin neg 0 e else .fin neg m e
  | r => r

/-- Whether a rounding of magnitude adds one: remainder against half, with the last kept bit (R43). -/
def roundUp (rnd : BitVec 2) (neg odd : Bool) (rem half : Nat) (sticky : Bool) : Bool :=
  match rnd.toNat with
  | 0 => half < rem || (rem == half && (sticky || odd))
  | 1 => false
  | 2 => neg && (rem != 0 || sticky)
  | _ => !neg && (rem != 0 || sticky)

/-- The integer that (m + sticky) times 2^(-sh) rounds to, and whether that is inexact. -/
def roundShift (rnd : BitVec 2) (neg : Bool) (m : Nat) (sh : Int) (sticky : Bool) : Nat × Bool :=
  if sh ≤ 0 then (m <<< (-sh).toNat, sticky)
  else
    let k := sh.toNat
    let q := m >>> k
    let rem := m % 2 ^ k
    let up := roundUp rnd neg (q % 2 == 1) rem (2 ^ (k - 1)) sticky
    (if up then q + 1 else q, rem != 0 || sticky)

/-- What an overflow delivers (R44). -/
def overflowBits (f : Fmt) (rnd : BitVec 2) (neg : Bool) : Nat :=
  let toInf := f.inf && (rnd == 0 || (rnd == 2 && neg) || (rnd == 3 && !neg))
  f.signBit neg + (if toInf then f.infBits else f.maxBits)

/-- Round a non-zero magnitude (m + sticky) times 2^e to a floating-point format (R43, R44, R46), flush mode included (R36). R43 rounds to the destination's precision and then applies R44; a tiny result is rounded once, at the precision of its subnormal, and not twice, which is the model's choice (DESIGN CHOICE, log 42). The sticky part lies strictly between 0 and 1; a caller that sets it gives m more bits than the format holds. -/
def packRound (v : FEnv) (code : Nat) (rnd : BitVec 2) (neg : Bool) (m : Nat) (e : Int) (sticky : Bool) : Nat × Flags :=
  let f := fmtOf code
  let top : Int := e + m.log2
  let tiny := top < f.emin
  if v.flush && flushes code && tiny then (f.signBit neg, flagU ||| flagX)
  else
    let q : Int := max top f.emin - f.mb
    let (sig, inex) := roundShift rnd neg m (q - e) sticky
    let fl := if inex then (if tiny then flagU ||| flagX else flagX) else 0
    -- sig = 2^(mb+1) after a carry belongs to the next exponent
    let bitsOf : Nat :=
      if sig < 2 ^ f.mb then sig
      else
        let (sig', q') := if sig == 2 ^ (f.mb + 1) then (2 ^ f.mb, q + 1) else (sig, q)
        ((q' + f.mb + f.bias).toNat) * 2 ^ f.mb + (sig' - 2 ^ f.mb)
    if f.maxBits < bitsOf then (overflowBits f rnd neg, flagO ||| flagX)
    else (f.signBit neg + bitsOf, fl)

/-- A value delivered in a floating-point format (R44): NaN canonical, infinities, zeros, and rounding. An infinity that FP8E4 takes as 448 sets I, and X, since what is delivered differs from it (R46). -/
def toFloat (v : FEnv) (code : Nat) (rnd : BitVec 2) (x : Val) (sticky : Bool := false) : Nat × Flags :=
  let f := fmtOf code
  match x with
  | .nan => (f.nan, 0)
  | .inf neg => if f.inf then (f.signBit neg + f.infBits, 0) else (f.signBit neg + f.maxBits, flagI ||| flagX)
  | .fin neg m e => if m == 0 && !sticky then (f.signBit neg, 0) else packRound v code rnd neg m e sticky

/-- Width and signedness of an integer format (R31); COORD and unknown codes as Z32. -/
def intFmt (code : Nat) : Nat × Bool :=
  match code with
  | 1 => (8, true) | 2 => (8, false) | 3 => (16, true) | 4 => (16, false)
  | 5 => (32, true) | 6 => (32, false) | 7 => (64, true) | 14 => (4, true)
  | _ => (32, false)

/-- Least and greatest value of an integer format (R31). -/
def intMin (code : Nat) : Int := let (w, s) := intFmt code; if s then -(2 ^ (w - 1) : Int) else 0
def intMax (code : Nat) : Int := let (w, s) := intFmt code; if s then 2 ^ (w - 1) - 1 else 2 ^ w - 1

/-- The integer in a payload (R31). -/
def intOf (code x : Nat) : Int := let (w, s) := intFmt code; if s then signed w x else (x % 2 ^ w : Nat)

/-- The payload of an integer, extended to 64 bits by its format (R31). -/
def intPayload (code : Nat) (v : Int) : Word :=
  let (w, s) := intFmt code
  if s then BitVec.ofInt 64 (signed w (pattern w v)) else BitVec.ofNat 64 (pattern w v)

/-- A value rounded to an integer format (R45): NaN 0 and I; out of range the bound and I; inexact X. -/
def toInt (code : Nat) (rnd : BitVec 2) (x : Val) : Int × Flags :=
  match x with
  | .nan => (0, flagI)
  | .inf neg => (if neg then intMin code else intMax code, flagI)
  | .fin neg m e =>
    let (q, inex) := roundShift rnd neg m (-e) false
    let i : Int := if neg then -(q : Int) else q
    if i < intMin code then (intMin code, flagI) else if intMax code < i then (intMax code, flagI)
    else (i, if inex then flagX else 0)

/-- An integer as an exact value. -/
def valOfInt (i : Int) : Val := .fin (decide (i < 0)) i.natAbs 0

/-- The exact value of a payload of a value format: codes 1-9, 11-14 (R31, R34). -/
def valOf (v : FEnv) (code x : Nat) : Val :=
  if isInt code then valOfInt (intOf code x) else unpack v code x

/-- The exact product of two values; the flag I for 0 times infinity (R46). -/
def vmul (a b : Val) : Val × Flags :=
  match a, b with
  | .nan, _ => (.nan, 0)
  | _, .nan => (.nan, 0)
  | .inf s, .inf t => (.inf (s != t), 0)
  | .inf s, .fin t m _ => if m == 0 then (.nan, flagI) else (.inf (s != t), 0)
  | .fin t m _, .inf s => if m == 0 then (.nan, flagI) else (.inf (s != t), 0)
  | .fin s m e, .fin t n f => (.fin (s != t) (m * n) (e + f), 0)

/-- Signed magnitude of a finite value as an integer at exponent e, for e not above its own. -/
def alignTo (neg : Bool) (m : Nat) (e0 e : Int) : Int :=
  let a : Int := (m <<< (e0 - e).toNat : Nat)
  if neg then -a else a

/-- The exact sum of two values (R44, R46): opposite infinities give I; an exact zero of opposite signs is +0, and -0 in RDN. -/
def vadd (rnd : BitVec 2) (a b : Val) : Val × Flags :=
  match a, b with
  | .nan, _ => (.nan, 0)
  | _, .nan => (.nan, 0)
  | .inf s, .inf t => if s == t then (.inf s, 0) else (.nan, flagI)
  | .inf s, _ => (.inf s, 0)
  | _, .inf t => (.inf t, 0)
  | .fin s m e, .fin t n f =>
    if m == 0 && n == 0 then (.fin (if s == t then s else rnd == 2) 0 0, 0)
    else
      let g := min e f
      let i := alignTo s m e g + alignTo t n f g
      if i == 0 then (.fin (rnd == 2) 0 0, 0) else (.fin (decide (i < 0)) i.natAbs g, 0)

/-- Negate a value. -/
def vneg : Val → Val
  | .nan => .nan
  | .inf s => .inf !s
  | .fin s m e => .fin (!s) m e

/-- An arithmetic result delivered in a format: the flags of the operation and of its rounding. -/
def deliver (v : FEnv) (code : Nat) (rnd : BitVec 2) (r : Val × Flags) : Nat × Flags :=
  let (x, fl) := toFloat v code rnd r.1
  (x, fl ||| r.2)

/-- Floating addition, multiplication and fused multiply-add, with one rounding (R217). -/
def fadd (v : FEnv) (code : Nat) (rnd : BitVec 2) (a b : Nat) : Nat × Flags :=
  deliver v code rnd (vadd rnd (unpack v code a) (unpack v code b))
def fsub (v : FEnv) (code : Nat) (rnd : BitVec 2) (a b : Nat) : Nat × Flags :=
  deliver v code rnd (vadd rnd (unpack v code a) (vneg (unpack v code b)))
def fmul (v : FEnv) (code : Nat) (rnd : BitVec 2) (a b : Nat) : Nat × Flags :=
  deliver v code rnd (vmul (unpack v code a) (unpack v code b))
def ffma (v : FEnv) (code : Nat) (rnd : BitVec 2) (a b c : Nat) : Nat × Flags :=
  let (p, f1) := vmul (unpack v code a) (unpack v code b)
  let (r, f2) := vadd rnd p (unpack v code c)
  deliver v code rnd (r, f1 ||| f2)

/-- The quotient of two values delivered in a format, correctly rounded (R44, R46). -/
def vdiv (v : FEnv) (code : Nat) (rnd : BitVec 2) (a b : Val) : Nat × Flags :=
  let f := fmtOf code
  match a, b with
  | .nan, _ => (f.nan, 0)
  | _, .nan => (f.nan, 0)
  | .inf _, .inf _ => (f.nan, flagI)
  | .inf s, .fin t _ _ => toFloat v code rnd (.inf (s != t))
  | .fin s _ _, .inf t => (f.signBit (s != t), 0)
  | .fin s m e, .fin t n g =>
    if n == 0 then
      if m == 0 then (f.nan, flagI)
      else (f.signBit (s != t) + (if f.inf then f.infBits else f.maxBits), flagZ)
    else if m == 0 then (f.signBit (s != t), 0)
    else
      let k := 64 + n.log2
      let num := m <<< k
      packRound v code rnd (s != t) (num / n) (e - g - k) (num % n != 0)

def fdiv (v : FEnv) (code : Nat) (rnd : BitVec 2) (a b : Nat) : Nat × Flags :=
  vdiv v code rnd (unpack v code a) (unpack v code b)

/-- Order of two values, neither a NaN; -0 and +0 equal. -/
def vlt (a b : Val) : Bool :=
  match a, b with
  | .inf s, .inf t => s && !t
  | .inf s, _ => s
  | _, .inf t => !t
  | .fin s m e, .fin t n f => let g := min e f; alignTo s m e g < alignTo t n f g
  | _, _ => false

def Val.isNan : Val → Bool
  | .nan => true
  | _ => false

/-- The sign of a value. -/
def Val.neg : Val → Bool
  | .nan => false
  | .inf s => s
  | .fin s _ _ => s

/-- Zero, of either sign. -/
def Val.isZero : Val → Bool
  | .fin _ m _ => m == 0
  | _ => false

/-- Floating MIN and MAX: a NaN gives the canonical NaN; -0 is less than +0; no flag (R217). -/
def fmin (v : FEnv) (code a b : Nat) : Nat :=
  let x := unpack v code a; let y := unpack v code b
  let r := if x.isNan || y.isNan then Val.nan
    else if vlt x y then x else if vlt y x then y else if x.neg then x else y
  (toFloat .plain code 0 r).1
def fmax (v : FEnv) (code a b : Nat) : Nat :=
  let x := unpack v code a; let y := unpack v code b
  let r := if x.isNan || y.isNan then Val.nan
    else if vlt x y then y else if vlt y x then x else if x.neg then y else x
  (toFloat .plain code 0 r).1

/-- A float pattern as a payload: zeros above the element. -/
def fpayload (x : Nat) : Word := BitVec.ofNat 64 x

/-- A value delivered as a payload of any value format: R44 for a float, R45 for an integer. -/
def toFmt (v : FEnv) (dst : Nat) (rnd : BitVec 2) (x : Val) : Word × Flags :=
  if isInt dst then let (i, fl) := toInt dst rnd x; (intPayload dst i, fl)
  else let (b, fl) := toFloat v dst rnd x; (fpayload b, fl)

/-- Conversion between value formats, codes 1-9 and 11-14 (R44, R45). A wider integer format takes the sign or the zeros of the source; a narrower one saturates with O. One of the same width, which R45 does not name, saturates with O as well, and no saturation here sets X beside O (DESIGN CHOICE, log 42). -/
def convert (v : FEnv) (src dst : Nat) (rnd : BitVec 2) (x : Word) : Word × Flags :=
  if isInt src && isInt dst then
    let i := intOf src x.toNat
    if (intFmt src).1 < (intFmt dst).1 then (intPayload dst i, 0) else
    let s := sat i (intMin dst) (intMax dst)
    (intPayload dst s, if s == i then 0 else flagO)
  else toFmt v dst rnd (valOf v src x.toNat)

/-- Conversion of the exact product with an FP32 scale (R153, R192): one rounding. -/
def convertScaled (v : FEnv) (src dst : Nat) (rnd : BitVec 2) (scale : BitVec 32) (x : Word) : Word × Flags :=
  let (p, f1) := vmul (valOf v src x.toNat) (unpack v 13 scale.toNat)
  let (r, f2) := toFmt v dst rnd p
  (r, f1 ||| f2)

/-- The element size of a format in memory, in bytes; INT4 is half a byte and counts as 1 here (R31-R34). -/
def fmtBytes (code : Nat) : Nat :=
  match code with
  | 1 => 1 | 2 => 1 | 3 => 2 | 4 => 2 | 5 => 4 | 6 => 4 | 7 => 8 | 8 => 1 | 9 => 1 | 10 => 1
  | 11 => 2 | 12 => 2 | 13 => 4 | 14 => 1 | 15 => 4 | 16 => 4 | 17 => 8 | 18 => 1 | _ => 8

/-- A memory element as a payload: extended by its format (R31-R34). -/
def payloadOf (code x : Nat) : Word :=
  if isInt code then intPayload code (intOf code x)
  else if code == 18 then BitVec.ofNat 64 (x % 2)
  else BitVec.ofNat 64 (x % 2 ^ (8 * fmtBytes code))

/-- An E8 scale k as an exact power of two (R37). -/
def e8 (k : Nat) : Val := .fin false 1 ((k : Int) - 127)

end Sys2Proof.Machine
end

