-- ==== Sys2Proof/Config.lean ====
section
/-! DEFINITION. What one P48 part fixes, and the free values: outcomes that the spec leaves open. A free value is an opaque constant; nothing can prove which value it has (log 5, log 7). -/

namespace Sys2Proof.Config

/-- A free choice between permitted outcomes (R3): the argument is the State's counter of choices. Log 5. -/
opaque freeBool : Nat → Bool

/-- A free word, for a value the spec does not state: the argument is the State's counter. Log 5. -/
opaque freeWord : Nat → Word

/-- Which fault code a scalar word that earns several of 0x10, 0x11 and 0x14 receives (R59 gives no order). Log 9. -/
opaque encodingPick : List (BitVec 8) → Nat

/-- SHAKE256 with 64 bytes of output (R406): a named function outside the spec. Log 7. -/
opaque shake256 : List Byte → List Byte

/-- Whether a Falcon-1024 signature verifies: key, digest, signature (R405, R406). Log 7. -/
opaque falconVerify : List Byte → List Byte → List Byte → Bool

/-- The Falcon-1024 signature that the device's identity key makes over a message (R407). Log 7. -/
opaque falconSign : List Byte → List Byte

/-- The hash of the vendor key that is fused into the part (R405). Log 7. -/
opaque fusedKeyHash : List Byte

/-- The 1,793-byte public key of the device's identity (R407). Log 7. -/
opaque identityKey : List Byte

/-- How many save areas of one core the porter's save pool holds (R391 names the pool and gives no size). Log 10. -/
opaque savePool : Nat

/-- The size of HBM in bytes: 12 stacks of 48 GiB (R27, R400). -/
def hbmBytes : Nat := 576 * 2 ^ 30

/-- Cores of the device (R16). -/
def numCores : Nat := 192

end Sys2Proof.Config
end

