-- ==== Sys2Proof/Syntax.lean ====
section
/-! DEFINITION. The instructions and events of the P48: one constructor of Instr for each row of spec/opcode_table.json. Scalar words carry their guard and their fields (R58-R64); stream commands carry every bit of their operands (R65, R67); matrix control tokens likewise (R74, R75); an event carries what picks the unit it happens at. -/

namespace Sys2Proof

/-- The guard of a scalar word, bits [31:28] (R58). -/
structure Guard where
  neg : Bool
  p   : BitVec 3
  deriving DecidableEq, Repr

/-- Bits [119:112] of a stream command (R65). -/
structure CmdHdr where
  tl     : BitVec 4
  rsv    : BitVec 3
  notice : Bool
  deriving DecidableEq, Repr

/-- Bits [57:0] of a matrix control token (R74). -/
structure MTok where
  m   : BitVec 7
  n   : BitVec 7
  k   : BitVec 7
  acc : Bool
  sa  : BitVec 4
  sb  : BitVec 4
  fa  : BitVec 5
  fb  : BitVec 5
  loc : BitVec 18
  deriving DecidableEq, Repr

/-- Bits [111:0] of LOADS and STORES (R157). -/
structure StreamOps where
  base   : BitVec 57
  f      : BitVec 5
  chain  : BitVec 6
  hint   : BitVec 2
  n0     : BitVec 20
  stride : BitVec 22
  deriving DecidableEq, Repr

/-- Bits [111:0] of GATHER, SCATTER and SCADD (R158). -/
structure IndexOps where
  base  : BitVec 57
  f     : BitVec 5
  chain : BitVec 6
  hint  : BitVec 2
  len   : BitVec 20
  count : BitVec 22
  deriving DecidableEq, Repr

/-- Bits [111:0] of PREFETCH, RESIDE and EVICT (R164). -/
structure HintOps where
  addr  : BitVec 57
  len   : BitVec 40
  level : BitVec 2
  rsv   : BitVec 13
  deriving DecidableEq, Repr

/-- Bits [111:0] of DRILLRUN (R310). -/
structure DrillOps where
  count    : BitVec 20
  src      : Bool
  dst      : Bool
  outFmt   : Bool
  inFmt    : Bool
  inOff    : BitVec 18
  inPitch  : BitVec 12
  outOff   : BitVec 18
  outPitch : BitVec 12
  rsv      : BitVec 28
  deriving DecidableEq, Repr

/-- An agent that reads memory and may be deferred (R338); remote and host requests come from outside the core (R357, R400). -/
inductive Agent where
  | strand
  | port (p : BitVec 6)
  | copy (c : BitVec 3)
  | matrix
  | drill
  | ap
  | loader
  | remote (dev : BitVec 6)
  | host
  deriving DecidableEq, Repr

/-- What the AP does in one stage step of a running ATTN (R260, R277, R284). -/
inductive ApAct where
  | takeQ                      -- take one token from the inbound ep2 link (R271)
  | block (b : Nat)            -- form the state of block b: FETCH to PV (R260)
  | cull (b : Nat)             -- omit a fully masked block (R278)
  | merge (i j row : Nat)      -- BLEND two states of one row (R264, R277)
  | emit                       -- EMIT the next row (R265)
  | sendOut                    -- send one token on the outbound ep2 link (R271)
  deriving DecidableEq, Repr

/-- Where a bit error arises (R390). -/
inductive ErrPlace where
  | hbm
  | cellar
  | loft
  | node           -- a plot's context registers: 16 times the node's index, and the register
  deriving DecidableEq, Repr

/-- One constructor per row of spec/opcode_table.json, in its order. -/
inductive Instr where
  /-- ADD (R92). -/
  | add (q : Guard) (gd ga gb : BitVec 5)
  /-- SUB (R92). -/
  | sub (q : Guard) (gd ga gb : BitVec 5)
  /-- AND (R92). -/
  | and (q : Guard) (gd ga gb : BitVec 5)
  /-- OR (R92). -/
  | or (q : Guard) (gd ga gb : BitVec 5)
  /-- XOR (R92). -/
  | xor (q : Guard) (gd ga gb : BitVec 5)
  /-- ANDN (R92). -/
  | andn (q : Guard) (gd ga gb : BitVec 5)
  /-- SLL (R92). -/
  | sll (q : Guard) (gd ga gb : BitVec 5)
  /-- SRL (R92). -/
  | srl (q : Guard) (gd ga gb : BitVec 5)
  /-- SRA (R92). -/
  | sra (q : Guard) (gd ga gb : BitVec 5)
  /-- MIN (R92). -/
  | min (q : Guard) (gd ga gb : BitVec 5)
  /-- MAX (R92). -/
  | max (q : Guard) (gd ga gb : BitVec 5)
  /-- MINU (R92). -/
  | minu (q : Guard) (gd ga gb : BitVec 5)
  /-- MAXU (R92). -/
  | maxu (q : Guard) (gd ga gb : BitVec 5)
  /-- ADDI (R93). -/
  | addi (q : Guard) (gd ga : BitVec 5) (imm : BitVec 12)
  /-- ANDI (R93). -/
  | andi (q : Guard) (gd ga : BitVec 5) (imm : BitVec 12)
  /-- ORI (R93). -/
  | ori (q : Guard) (gd ga : BitVec 5) (imm : BitVec 12)
  /-- XORI (R93). -/
  | xori (q : Guard) (gd ga : BitVec 5) (imm : BitVec 12)
  /-- SLLI (R93). -/
  | slli (q : Guard) (gd ga : BitVec 5) (n : BitVec 6)
  /-- SRLI (R93). -/
  | srli (q : Guard) (gd ga : BitVec 5) (n : BitVec 6)
  /-- SRAI (R93). -/
  | srai (q : Guard) (gd ga : BitVec 5) (n : BitVec 6)
  /-- MUL (R95). -/
  | mul (q : Guard) (gd ga gb : BitVec 5)
  /-- MULH (R95). -/
  | mulh (q : Guard) (gd ga gb : BitVec 5)
  /-- MULHU (R95). -/
  | mulhu (q : Guard) (gd ga gb : BitVec 5)
  /-- DIV (R95). -/
  | div (q : Guard) (gd ga gb : BitVec 5)
  /-- DIVU (R95). -/
  | divu (q : Guard) (gd ga gb : BitVec 5)
  /-- REM (R95). -/
  | rem (q : Guard) (gd ga gb : BitVec 5)
  /-- REMU (R95). -/
  | remu (q : Guard) (gd ga gb : BitVec 5)
  /-- LUI (R94). -/
  | lui (q : Guard) (gd : BitVec 5) (imm : BitVec 17)
  /-- ADDPC (R94). -/
  | addpc (q : Guard) (gd : BitVec 5) (imm : BitVec 17)
  /-- SEL (R96). -/
  | sel (q : Guard) (gd ga gb : BitVec 5) (neg : Bool) (p : BitVec 3)
  /-- CLZ (R97). -/
  | clz (q : Guard) (gd ga : BitVec 5)
  /-- POPC (R97). -/
  | popc (q : Guard) (gd ga : BitVec 5)
  /-- CMP with a register operand (R62, R98). -/
  | cmp (q : Guard) (pd : BitVec 3) (cmb : BitVec 2) (ga gb : BitVec 5) (cond : BitVec 3)
  /-- CMP with an immediate (R62, R98). -/
  | cmpImm (q : Guard) (pd : BitVec 3) (cmb : BitVec 2) (ga : BitVec 5) (imm : BitVec 5) (cond : BitVec 3)
  /-- BR (R99). -/
  | br (q : Guard) (off : BitVec 22)
  /-- CALL (R99). -/
  | call (q : Guard) (off : BitVec 22)
  /-- JMP (R100). -/
  | jmp (q : Guard) (gd ga : BitVec 5) (imm : BitVec 12)
  /-- ldS8 (R103). -/
  | ldS8 (q : Guard) (gd ga : BitVec 5) (imm : BitVec 12)
  /-- ldZ8 (R103). -/
  | ldZ8 (q : Guard) (gd ga : BitVec 5) (imm : BitVec 12)
  /-- ldS16 (R103). -/
  | ldS16 (q : Guard) (gd ga : BitVec 5) (imm : BitVec 12)
  /-- ldZ16 (R103). -/
  | ldZ16 (q : Guard) (gd ga : BitVec 5) (imm : BitVec 12)
  /-- ldS32 (R103). -/
  | ldS32 (q : Guard) (gd ga : BitVec 5) (imm : BitVec 12)
  /-- ldZ32 (R103). -/
  | ldZ32 (q : Guard) (gd ga : BitVec 5) (imm : BitVec 12)
  /-- ld64 (R103). -/
  | ld64 (q : Guard) (gd ga : BitVec 5) (imm : BitVec 12)
  /-- st8: gd is the data register (R104). -/
  | st8 (q : Guard) (gd ga : BitVec 5) (imm : BitVec 12)
  /-- st16: gd is the data register (R104). -/
  | st16 (q : Guard) (gd ga : BitVec 5) (imm : BitVec 12)
  /-- st32: gd is the data register (R104). -/
  | st32 (q : Guard) (gd ga : BitVec 5) (imm : BitVec 12)
  /-- st64: gd is the data register (R104). -/
  | st64 (q : Guard) (gd ga : BitVec 5) (imm : BitVec 12)
  /-- FENCE (R344). -/
  | fence (q : Guard) (scope : BitVec 3)
  /-- ldaZ8, acquire load (R344). -/
  | ldaZ8 (q : Guard) (gd ga : BitVec 5) (scope : BitVec 3)
  /-- ldaZ16, acquire load (R344). -/
  | ldaZ16 (q : Guard) (gd ga : BitVec 5) (scope : BitVec 3)
  /-- ldaZ32, acquire load (R344). -/
  | ldaZ32 (q : Guard) (gd ga : BitVec 5) (scope : BitVec 3)
  /-- lda64, acquire load (R344). -/
  | lda64 (q : Guard) (gd ga : BitVec 5) (scope : BitVec 3)
  /-- stl8, release store (R344). -/
  | stl8 (q : Guard) (gd ga : BitVec 5) (scope : BitVec 3)
  /-- stl16, release store (R344). -/
  | stl16 (q : Guard) (gd ga : BitVec 5) (scope : BitVec 3)
  /-- stl32, release store (R344). -/
  | stl32 (q : Guard) (gd ga : BitVec 5) (scope : BitVec 3)
  /-- stl64, release store (R344). -/
  | stl64 (q : Guard) (gd ga : BitVec 5) (scope : BitVec 3)
  /-- BAR (R361). -/
  | bar (q : Guard) (scope : BitVec 3)
  /-- ATOM.ADD; wide is fn[0] (R345). -/
  | atomAdd (q : Guard) (gd ga gb : BitVec 5) (scope : BitVec 3) (wide : Bool)
  /-- ATOM.AND; wide is fn[0] (R345). -/
  | atomAnd (q : Guard) (gd ga gb : BitVec 5) (scope : BitVec 3) (wide : Bool)
  /-- ATOM.OR; wide is fn[0] (R345). -/
  | atomOr (q : Guard) (gd ga gb : BitVec 5) (scope : BitVec 3) (wide : Bool)
  /-- ATOM.XOR; wide is fn[0] (R345). -/
  | atomXor (q : Guard) (gd ga gb : BitVec 5) (scope : BitVec 3) (wide : Bool)
  /-- ATOM.MIN; wide is fn[0] (R345). -/
  | atomMin (q : Guard) (gd ga gb : BitVec 5) (scope : BitVec 3) (wide : Bool)
  /-- ATOM.MAX; wide is fn[0] (R345). -/
  | atomMax (q : Guard) (gd ga gb : BitVec 5) (scope : BitVec 3) (wide : Bool)
  /-- ATOM.SWAP; wide is fn[0] (R345). -/
  | atomSwap (q : Guard) (gd ga gb : BitVec 5) (scope : BitVec 3) (wide : Bool)
  /-- ATOM.CAS; wide is fn[0] (R345). -/
  | atomCas (q : Guard) (gd ga gb : BitVec 5) (scope : BitVec 3) (wide : Bool)
  /-- CLEARW (R348). -/
  | clearw (q : Guard) (ga gb : BitVec 5) (scope : BitVec 3)
  /-- PRES (R348). -/
  | pres (q : Guard) (gd ga : BitVec 5) (scope : BitVec 3)
  /-- CMDF; width is the field, width - 1 (R106). -/
  | cmdf (q : Guard) (gd ga : BitVec 5) (pos width : BitVec 6)
  /-- ISSUE (R107). -/
  | issue (q : Guard) (qn : BitVec 3) (ga gb : BitVec 5)
  /-- WAITT (R363). -/
  | waitt (q : Guard) (sel : BitVec 5) (ga : BitVec 5) (imm : BitVec 12)
  /-- WAITC (R136). -/
  | waitc (q : Guard) (ga : BitVec 5)
  /-- PATCH (R123). -/
  | patch (q : Guard) (gd ga gb : BitVec 5)
  /-- ARM (R124). -/
  | arm (q : Guard) (gd ga : BitVec 5)
  /-- LSTAT (R126). -/
  | lstat (q : Guard) (gd ga : BitVec 5)
  /-- EXIT (R133). -/
  | exit (q : Guard) (ga : BitVec 5)
  /-- EXITX (R133). -/
  | exitx (q : Guard) (ga : BitVec 5)
  /-- YIELD (R135). -/
  | yield (q : Guard) (gd : BitVec 5)
  /-- WALL (R325). -/
  | wall (q : Guard) (gd ga : BitVec 5)
  /-- WQRY (R331). -/
  | wqry (q : Guard) (gd ga : BitVec 5)
  /-- STASH (R332). -/
  | stash (q : Guard) (gd ga gb : BitVec 5)
  /-- UNSTASH (R334). -/
  | unstash (q : Guard) (gd ga : BitVec 5)
  /-- DRAIN (R336). -/
  | drain (q : Guard) (gd ga : BitVec 5)
  /-- TRAP (R112, R113). -/
  | trap (q : Guard)
  /-- BRK (R112, R113). -/
  | brk (q : Guard)
  /-- ERET (R112, R113). -/
  | eret (q : Guard)
  /-- MFCR (R111). -/
  | mfcr (q : Guard) (gd : BitVec 5) (cr : BitVec 12)
  /-- MTCR (R111). -/
  | mtcr (q : Guard) (cr : BitVec 12) (ga : BitVec 5)
  /-- ASYNC_TRAP: a pending trapping record traps the control core (R367, R371). -/
  | asyncTrap
  /-- LOADS (R157). -/
  | loads (h : CmdHdr) (o : StreamOps)
  /-- STORES (R157). -/
  | stores (h : CmdHdr) (o : StreamOps)
  /-- DIMS (R156). -/
  | dims (h : CmdHdr) (d : BitVec 3) (body : BitVec 109)
  /-- GATHER (R158). -/
  | gather (h : CmdHdr) (o : IndexOps)
  /-- SCATTER (R158). -/
  | scatter (h : CmdHdr) (o : IndexOps)
  /-- SCADD (R158). -/
  | scadd (h : CmdHdr) (o : IndexOps)
  /-- PUSH (R159). -/
  | push (h : CmdHdr) (rsv : BitVec 32) (n : BitVec 16) (v : Word)
  /-- PUSHI (R159). -/
  | pushi (h : CmdHdr) (start : BitVec 32) (inc : BitVec 16) (n : BitVec 24) (rsv : BitVec 40)
  /-- MARK (R159). -/
  | mark (h : CmdHdr) (rsv : BitVec 40) (kind : BitVec 8) (count : BitVec 32) (rsv2 : BitVec 29) (level : BitVec 3)
  /-- ACCRST (R160). -/
  | accrst (h : CmdHdr) (base : BitVec 57) (n : BitVec 4) (rsv : BitVec 51)
  /-- ACCRD (R160). -/
  | accrd (h : CmdHdr) (base : BitVec 57) (n : BitVec 4) (rsv : BitVec 51)
  /-- RESUME (R161). -/
  | resume (h : CmdHdr) (rsv : BitVec 104) (ctx : BitVec 8)
  /-- COPY (R162). -/
  | copy (h : CmdHdr) (desc : BitVec 57) (rsv : BitVec 55)
  /-- COPY2 (R162). -/
  | copy2 (h : CmdHdr) (desc : BitVec 57) (rsv : BitVec 55)
  /-- FILL (R163). -/
  | fill (h : CmdHdr) (dst : BitVec 57) (len : BitVec 40) (space : BitVec 2) (byte : BitVec 8) (rsv : BitVec 5)
  /-- PREFETCH (R165). -/
  | prefetch (h : CmdHdr) (o : HintOps)
  /-- RESIDE (R165). -/
  | reside (h : CmdHdr) (o : HintOps)
  /-- EVICT (R165). -/
  | evict (h : CmdHdr) (o : HintOps)
  /-- CFGLD with INBAND 0 (R172). -/
  | cfgld (h : CmdHdr) (addr : BitVec 57) (regions : BitVec 16) (rsv : BitVec 38)
  /-- CFGLD with INBAND 1 (R172, R199). -/
  | cfgldInband (h : CmdHdr) (addr : BitVec 57) (port : BitVec 5) (rsv : BitVec 11) (words : BitVec 16) (rsv2 : BitVec 22)
  /-- SOW (R309). -/
  | sow (h : CmdHdr) (addr : BitVec 57) (rsv : BitVec 55)
  /-- REAP (R309). -/
  | reap (h : CmdHdr) (addr : BitVec 57) (rsv : BitVec 55)
  /-- DRILLRUN (R310). -/
  | drillrun (h : CmdHdr) (o : DrillOps)
  /-- BIND (R274). -/
  | bind (h : CmdHdr) (image : BitVec 57) (stage : BitVec 2) (dflt : Bool) (rsv : BitVec 52)
  /-- ATTN (R267). -/
  | attn (h : CmdHdr) (desc : BitVec 57) (rsv : BitVec 55)
  /-- KVSEQ (R292, R293). -/
  | kvseq (h : CmdHdr) (desc node : BitVec 51) (rsv : BitVec 10)
  /-- KVAPP (R292, R294). -/
  | kvapp (h : CmdHdr) (desc src : BitVec 51) (count : BitVec 6) (j : Bool) (rsv : BitVec 3)
  /-- KVBIAS (R292, R297). -/
  | kvbias (h : CmdHdr) (table : BitVec 51) (head : BitVec 6) (clr : Bool) (rsv : BitVec 54)
  /-- JMARK (R292, R296). -/
  | jmark (h : CmdHdr) (desc : BitVec 51) (rsv : BitVec 61)
  /-- JCOMMIT (R292, R296). -/
  | jcommit (h : CmdHdr) (desc : BitVec 51) (rsv : BitVec 61)
  /-- JROLL (R292, R296). -/
  | jroll (h : CmdHdr) (desc : BitVec 51) (mk : Bool) (n : BitVec 32) (rsv : BitVec 28)
  /-- MMA (R75, R245). -/
  | mma (t : MTok)
  /-- MMAZ (R75, R245). -/
  | mmaz (t : MTok)
  /-- MVEC (R75, R245). -/
  | mvec (t : MTok)
  /-- MMAC (R75, R245). -/
  | mmac (t : MTok)
  /-- MDRN (R75, R245). -/
  | mdrn (t : MTok)
  /-- SPMA (R75, R245). -/
  | spma (t : MTok)
  /-- SPMB (R75, R245). -/
  | spmb (t : MTok)
  /-- A taken token's results leave the array: its drain and its completion (R250). -/
  | matrixTokenComplete (ap : Bool)
  /-- A STOP, EOS, CTL or CFG token at ep0 (R242). -/
  | matrixEp0ControlToken
  /-- The drain queue sends one token on ep1 (R252). -/
  | drainQueueSend
  /-- Accumulator node acN takes one token, or sends one of a release (R253). -/
  | accumulatorToken (n : BitVec 4)
  /-- Node n of the core starts a firing (R187, R208). -/
  | nodeFire (n : Nat)
  /-- A predicated RECV of node n that waited takes its token (R209). -/
  | recvWaitTake (n : Nat)
  /-- The oldest firing of node n commits (R206). -/
  | firingCommit (n : Nat)
  /-- Node n passes one STOP from every input (R210). -/
  | stopForward (n : Nat)
  /-- Node n discards the STOP at the head of an input (R210). -/
  | stopAbsorb (n : Nat) (li : BitVec 3)
  /-- Node n takes an EOS from every input and sends one on every output (R211). -/
  | eosPropagate (n : Nat)
  /-- Node n passes a drain-request on (R211). -/
  | drainRequestPropagate (n : Nat)
  /-- A MERGE node's handling of EOS and drain-requests (R227). -/
  | mergeLoopClose (n : Nat)
  /-- A mode-3 JOIN node takes side b's EOS (R232). -/
  | joinEos (n : Nat)
  /-- Node n applies a CFG packet of hops 0 (R198). -/
  | cfgPacketApply (n : Nat)
  /-- Node n forwards a CFG packet (R198). -/
  | cfgPacketForward (n : Nat)
  /-- The steward of region r swaps contexts (R196). -/
  | contextSwap (r : BitVec 4)
  /-- The oldest token in flight on link l reaches its consumer's stile (R184). -/
  | linkTokenDelivery (l : Nat)
  /-- One credit of link l comes back to its producer (R185). -/
  | creditReturn (l : Nat)
  /-- The consumer of zero-slot link l pulls its token (R186). -/
  | zeroSlotPull (l : Nat)
  /-- ep5, or ep7 when loader, takes one token of its link and pairs CMD halves (R68, R148). -/
  | cmdPairAccept (loader : Bool)
  /-- Command num of an engine context completes (R146, R362). -/
  | commandComplete (ctx : BitVec 7) (num : Word)
  /-- A completion notice leaves on ep6 (R148). -/
  | noticeSend
  /-- Port context in p reads an element or sends a token (R144, R151). -/
  | headlandElementSend (p : BitVec 5)
  /-- Port context out p takes a token (R151). -/
  | headlandTokenTake (p : BitVec 5)
  /-- The loader's extent reply reaches port context p (R142). -/
  | extentReply (p : BitVec 6)
  /-- Port context in p reads a compressed slot again (R365). -/
  | expandReread (p : BitVec 5)
  /-- The loader loads one selected region (R174). -/
  | regionLoad (r : BitVec 4)
  /-- The drill takes one token of ep3 (R311). -/
  | drillTokenTake
  /-- A complete vector fires through the graph (R313). -/
  | drillVectorFire
  /-- The drill's output queue sends one token on ep4 (R312). -/
  | drillOutputSend
  /-- One stage step of the running ATTN (R284). -/
  | apBlockStage (a : ApAct)
  /-- A wall move runs to its switch (R327). -/
  | wallMoveComplete
  /-- The device writes back one dirty stash sector (R333). -/
  | stashLazyWriteBack (range sector : Nat)
  /-- A write of another agent reaches a ONCE location at its home (R346). -/
  | onceLocationFill (pa size : Nat) (data : Word)
  /-- A refused read of an agent retries with its ticket (R347, R360). -/
  | deferredReadRetry (a : Agent)
  /-- A cellar bank or LLC slice skips an unclaimed ticket (R347, R360). -/
  | ticketSkip (bank : Bool) (i : Nat)
  /-- A unit that waits on a full fault queue writes its record (R370). -/
  | faultRecordWrite
  /-- A write of cr.FQHEAD (R371). -/
  | fqheadWrite (v : Word)
  /-- A write of cr.INVAL (R378). -/
  | invalWrite (v : Word)
  /-- An invalidation ends (R378). -/
  | invalComplete
  /-- A read of cr.INVAL into gd (R378). -/
  | invalRead (gd : BitVec 5)
  /-- A write of cr.SVCRES with ABORT 0 (R386). -/
  | svcresContinue (target : BitVec 8)
  /-- A write of cr.SVCRES with ABORT 1 (R386). -/
  | svcresAbort (target : BitVec 8)
  /-- A write of cr.OCCRST (R321). -/
  | occrstWrite (v : Word)
  /-- A write of cr.HINTDROP (R166). -/
  | hintdropWrite (v : Word)
  /-- The detector of region r fires (R388, R389). -/
  | quiescenceDetectorFire (r : BitVec 4)
  /-- A unit missed its stopping point (R394). -/
  | watchdogFault (ctx : BitVec 8)
  /-- An operation exceeded its worst case (R140). -/
  | lateEvent (cls ctx : BitVec 8) (past : Word)
  /-- The budget of a launch elapses (R138). -/
  | deadlineBudgetElapsed (rec : BitVec 12)
  /-- The porter samples power and the wings' temperatures (R28, R408). -/
  | governorSample (watts : Nat) (t0 t1 t2 t3 : Nat)
  /-- The scheduler's pass; order is the order in which cores are tried (R127, log 8). -/
  | admissionPass (order : List Nat)
  /-- The control strand of the core starts (R26, R122). -/
  | strandStart
  /-- The last save of a pre-empted launch completes (R132). -/
  | preemptionSaveDone (rec : BitVec 12)
  /-- The device ends a launch whose cores have all exited (R133). -/
  | launchComplete (rec : BitVec 12)
  /-- A cold start (R405). -/
  | powerUp
  /-- The host writes MB.FWGO (R405). -/
  | mbFwgo
  /-- The ROM has verified the image (R405, R406). -/
  | firmwareVerifyDone
  /-- HBM and Volen training ends (R405). -/
  | trainingDone (ok : Bool)
  /-- A core ends its self-test (R405). -/
  | coreSelfTestDone (core : Nat) (pass narrow : Bool)
  /-- A PCI Express function reset (R408). -/
  | pcieFunctionReset
  /-- The host writes MB.ARM (R403). -/
  | mbArm (v : Word)
  /-- The host writes MB.END (R403). -/
  | mbEnd (v : Word)
  /-- The host writes MB.CAP (R401). -/
  | mbCap (v : Word)
  /-- The host writes MB.HFQHEAD (R401). -/
  | mbHfqhead (v : Word)
  /-- The host writes MB.INVAL (R401). -/
  | mbInval (v : Word)
  /-- The host writes MB.LINK (R404). -/
  | mbLink (v : Word)
  /-- The host writes MB.ATTEST (R407). -/
  | mbAttest (v : Word)
  /-- The porter finishes the report (R407). -/
  | attestReportDone
  /-- A Volen port trains (R404). -/
  | volenPortTrained (port : BitVec 4) (peer : BitVec 6) (heard : List (BitVec 6))
  /-- A Volen port goes down (R404). -/
  | volenPortDown (port : BitVec 4)
  /-- A word with a reserved encoding; the codes it earns (R59). -/
  | reservedEncoding (codes : List (BitVec 8))
  /-- A fetch that fails (R367). -/
  | fetchFault (code : BitVec 8) (addr : Word)
  /-- A command of an empty cell (R67). -/
  | unassignedStreamOpcode (h : CmdHdr) (op : BitVec 8) (body : BitVec 112)
  /-- A token of an unassigned operation (R75). -/
  | unassignedMatrixOperation (op : BitVec 6) (body : BitVec 58)
  /-- A waiting WAITC retires (R136). -/
  | waitcTargetReached
  /-- The host reads or writes device memory (R400). -/
  | hostMemoryAccess (pa size : Nat) (write : Bool) (data : Word)
  /-- A request of a linkset member (R357, R404). -/
  | remoteRequest (port : BitVec 4) (pa size : Nat) (write : Bool) (data : Word)
  /-- A peer's number arrives (R404). -/
  | numberExchange (port : BitVec 4) (peer : BitVec 6) (heard : List (BitVec 6))
  /-- The supply is lost (R405). -/
  | powerLoss
  /-- A bit error arises (R390). -/
  | bitError (place : ErrPlace) (word : Nat) (double : Bool)
  deriving DecidableEq, Repr

end Sys2Proof
end

