-- ==== Sys2Proof/Machine/State.lean ====
section
/-! DEFINITION. The state of the whole P48: the device, its 192 cores, the porter, and the model's own agenda. Plain data. INVENTORY.md lists every field with its rule and its reset value. -/

namespace Sys2Proof.Machine

/-- Bytes by address, addresses strictly rising, no entry equal to 0, which is what an unlisted address reads as (log 4). -/
abbrev Memory := List Host.Cell

/-- A set of numbers: strictly rising. -/
abbrev NatSet := List Nat

/-- A furrow token (R69): kind 0 DATA, 1 STOP, 2 CFG, 3 CTL. -/
structure Token where
  kind    : BitVec 2
  payload : Word
  deriving DecidableEq, Repr

/-- A cached translation (R377): virtual and physical start, length, and the leaf's bits. -/
structure Extent where
  va   : Int
  pa   : Nat
  len  : Nat
  r    : Bool
  w    : Bool
  x    : Bool
  u    : Bool
  once : Bool
  aff  : Bool
  deriving DecidableEq, Repr

/-! ## Deferred reads (R346, R347, R359, R360) -/

/-- A deferred read (R359): who asked, for which location, how many bytes, in which cycle first, and the value once the location has been written; page is the cached translation or leaf that it used (R378). -/
structure DEntry where
  core  : Nat
  agent : Agent
  loc   : Nat
  size  : Nat
  first : Nat
  page  : Option Extent
  val   : Option Word
  deriving DecidableEq, Repr

/-- A ticket of a refused read (R360): its number, the read, whether it has retried since next-to-serve named it, and whether its agent has abandoned the read. -/
structure Ticket where
  num   : Nat
  core  : Nat
  agent : Agent
  loc   : Nat
  size  : Nat
  first : Nat
  page  : Option Extent
  tried : Bool
  gone  : Bool
  deriving DecidableEq, Repr

/-- The deferral table of an LLC slice or of a cellar bank, with its tickets; since: the cycle in which next-to-serve took its value. -/
structure DeferTab where
  entries   : List DEntry
  nextIssue : Nat
  nextServe : Nat
  since     : Nat
  tickets   : List Ticket
  deriving DecidableEq, Repr

/-! ## The control core -/

/-- What the strand of a core is doing (R26, R113, R132, R133). -/
inductive Strand where
  | off            -- no launch, or images still loading
  | running
  | exited         -- retired EXIT or EXITX
  | dead           -- stopped by a double trap (R113)
  | halted         -- halted at an instruction boundary by a pre-emption (R132)
  deriving DecidableEq, Repr

/-- The wait of YIELD (R135). -/
inductive YieldSt where
  | none
  | waiting
  | refused        -- the pass admitted no record by this launch's pre-emption
  | taken          -- pre-empted at the YIELD and resumed
  deriving DecidableEq, Repr

/-- The control core's own state (R86-R89, R391). -/
structure Cpu where
  g        : Vector Word 32
  p        : BitVec 8
  pc       : Word
  status   : Word
  fps      : BitVec 5
  tvec     : Word
  tcause   : Word
  taddr    : Word
  epc      : Word
  ksave0   : Word
  ksave1   : Word
  hintdrop : Word
  hintlog  : Word
  late     : Word
  oref     : Word
  ecccnt   : Word
  qwin     : BitVec 32
  qsnap    : Word
  psel     : BitVec 7
  rsel     : BitVec 12
  tlb      : List Extent
  icache   : List (Nat × BitVec 32)
  run      : Strand
  yield    : YieldSt
  waitc    : Option Word    -- the target of a WAITC that waits (R136)
  exitVal  : Word
  exitX    : Bool
  dropped  : Nat
  episode  : Nat
  arrived  : List (Nat × Nat)   -- the level and the episode of each arrival at a BAR (R361)
  deriving DecidableEq, Repr

/-- What a core holds of its launch (R121, R122, R119, R370). -/
structure OnCore where
  recIx  : Option (BitVec 12)
  asid   : BitVec 16
  rank   : BitVec 8
  lvl    : Vector Word 8
  qmap   : Vector (BitVec 8) 8
  tlmap  : Vector (BitVec 8) 16
  fixw   : Bool
  ptroot : Word
  deriving DecidableEq, Repr

/-- A fault record before it is written (R372, R373). -/
structure FRec where
  code   : BitVec 8
  cls    : BitVec 8
  ctx    : BitVec 8
  cyc    : Word
  t      : Bool
  r      : Bool
  s      : Bool
  d      : Bool
  addr   : Word
  seq    : Word
  detail : Word
  node   : Word
  iaddr  : Word
  deriving DecidableEq, Repr

/-- The fault queue's registers (R370), the records that wait for room, and of each record written its index, code and T bit. -/
structure FaultQ where
  base    : Word
  e       : BitVec 4
  head    : BitVec 32
  tail    : BitVec 32
  waiting : List FRec
  written : List (BitVec 32 × BitVec 8 × Bool)
  deriving DecidableEq, Repr

/-! ## Commands -/

/-- A stream command on its way to an engine (R107, R108, R148): its number, the mode of its ISSUE, and whether the field sent it. -/
structure Cmd where
  word  : BitVec 128
  num   : Option Nat
  sup   : Bool
  field : Bool
  deriving DecidableEq, Repr

/-- What an engine needs to know of the command it is starting, beside its bits: the model's own. -/
structure Delivery where
  ctx   : BitVec 8
  num   : Option Nat
  sup   : Bool
  field : Bool
  deriving DecidableEq, Repr

/-- A command that has started: number, timeline, notice, opcode, mode (R146, R148, R376). -/
structure Tag where
  num    : Option Nat
  tl     : BitVec 4
  notice : Bool
  op     : BitVec 8
  sup    : Bool
  deriving DecidableEq, Repr

/-- Timelines, queues and notices (R107, R146, R148, R362); late: commands whose completion waits for their unit's fault record to be written (R147, R370). -/
structure Queues where
  q         : Vector (List Cmd) 8
  pairs     : List (BitVec 8 × Cmd)
  hi        : List (Nat × Word)
  notices   : List Word
  issued    : Vector Nat 16
  completed : Vector Nat 16
  above     : List (Nat × Nat)
  late      : List (Nat × Tag)
  drew      : List (Nat × Nat)   -- timelines with the cycle in which a pair from the field last drew a number (R148)
  dlv       : Delivery
  deriving DecidableEq, Repr

/-- Parameter set 0 of DIMS (R156). -/
structure Par where
  scale : BitVec 4
  rnd   : BitVec 2
  red   : BitVec 2
  stop  : BitVec 2
  dir   : BitVec 57
  blk   : BitVec 32
  deriving DecidableEq, Repr

/-- Which data command a port context runs (R157-R160). -/
inductive PKind where
  | loads
  | stores
  | gather
  | scatter
  | scadd
  | push
  | accrd
  deriving DecidableEq, Repr

/-- A running headland command (R141): its shape, captured values and progress. -/
structure PRun where
  tag     : Tag
  kind    : PKind
  base    : Int
  f       : Nat
  k       : Nat
  chain   : BitVec 6
  hint    : BitVec 2
  cnt     : List Nat
  str     : List Int
  par     : Par
  scale   : BitVec 32
  limit   : Nat            -- coordinates to take, 0 until an EOS (R158)
  idx     : Nat            -- next element of the command
  pos     : Nat            -- elements already given to the link or taken from it
  out     : List Token     -- tokens formed and not yet sent
  buf     : List Word      -- elements of a block, tile, fibre or packed run in hand
  slot    : List Word      -- the words of the compressed block that an expanding command has read (R154)
  acc     : Option Word    -- the reduce step's running element (R153)
  row     : Option Nat     -- the coordinate GATHER is sending the row of (R158)
  place   : Option Int     -- the compressed block in slot or buf (R154), or the next byte of an FW8 stream (R157)
  tries   : Nat            -- reads of the present compressed slot that failed (R365)
  due     : Option Nat     -- the STOP that an out stream expects next (R151)
  closed  : Bool           -- no element is left: only the tokens of out
  tile    : Option (Nat × Nat)   -- the PAD space that a transpose holds, as offset and length (R153)
  deriving DecidableEq, Repr

/-- A LOADS or GATHER that has made its last memory request: only its tokens are left, and the next command may start (R144). -/
def PRun.sending (r : PRun) : Bool := (r.kind == .loads || r.kind == .gather) && r.closed

/-- The states of a port context (R168). -/
inductive PState where
  | idle
  | running
  | stalled
  | extent
  | frozen
  deriving DecidableEq, Repr

/-- One port context (R141). -/
structure Port where
  run    : Option PRun
  prev   : List (PRun × BitVec 5)   -- commands before it, with their flags, that have made their last memory request and still send tokens (R144)
  dims   : List (Nat × Int)
  dset   : NatSet              -- the dimension sets that DIMS has written (R156, R158)
  par    : Par
  ext    : Option Extent
  held   : List Extent         -- extents received for the element under way (R142)
  spill  : List (Nat × Word)   -- element index, with its offset (in ports) or its payload (out ports)
  blk    : List (Nat × Int × List Byte)   -- spilled elements that stand for a block: index, address and bytes to write (R381)
  flags  : BitVec 5
  st     : PState
  code   : BitVec 8
  resum  : Bool
  short  : Bool
  done   : Nat
  discard : Bool
  want   : Int             -- the address that waits for an extent (R142)
  replay : Bool            -- service has released it: spilled elements are replayed (R382)
  before : PState          -- the state that a freeze returns to (R391)
  deriving DecidableEq, Repr

/-- A copy engine command in progress (R162, R384). -/
structure CRun where
  tag   : Tag
  fill  : Option Byte
  desc  : Option Nat       -- descriptor still to be read
  two   : Bool
  src   : Int
  dst   : Int
  loft  : Bool
  width : Nat              -- row bytes
  rows  : Nat
  sp    : Int
  dp    : Int
  row   : Nat
  off   : Nat
  hs    : BitVec 2         -- hint classes of the source and of the destination (R162)
  hd    : BitVec 2
  flt   : Option Bool      -- stopped on a fault, with the record's R bit (R384)
  deriving DecidableEq, Repr

/-- A copy engine context: up to four commands in progress (R146). -/
structure CopyCtx where
  runs   : List CRun
  frozen : Bool
  deriving DecidableEq, Repr

/-- An in-band load in progress (R199). -/
structure Inband where
  tag  : Tag
  addr : Int
  port : BitVec 5
  left : Nat
  deriving DecidableEq, Repr

/-- The loader's region load in progress: the image with its length, its words as the region being loaded found them, and the regions still to load (R172, R174). -/
structure LRun where
  tag   : Tag
  image : Int
  len   : Nat
  words : List Word
  bad   : List (Nat × BitVec 8)   -- words that could not be read, with the code (R409)
  sel   : List Nat                -- the regions selected
  left  : List Nat
  now   : Option Nat              -- the region that is LOADING
  deriving DecidableEq, Repr

/-- An entry of an image list (R170). -/
structure ListEntry where
  addr  : Int
  mask  : Nat
  last  : Nat
  first : Nat
  stage : Nat
  kind  : Nat
  deriving DecidableEq, Repr

/-- The images that an admitted core has still to load before its strand may start, and the code of the first failure in the entry under way (R170). -/
structure Boot where
  rest : List ListEntry
  code : Option (BitVec 8)
  deriving DecidableEq, Repr

/-- The configuration loader's context (R172), and the images of an admission (R170). -/
structure Loader where
  run    : Option LRun
  inband : Option Inband
  boot   : Option Boot
  deriving DecidableEq, Repr

/-! ## The matrix node (R237-R258) -/

/-- The partial store of one control port and its CARRY record (R243). -/
structure PStore where
  carry : Bool
  m     : Nat
  n     : Nat
  int   : Bool
  vals  : List (BitVec 32)
  deriving DecidableEq, Repr

/-- An item of a token's drain: an element or a STOP mark (R246, R252). -/
inductive QItem where
  | elem (v : BitVec 32)
  | stop (level count : Nat)
  deriving DecidableEq, Repr

/-- A taken ep0 token whose passes have not ended (R242, R251): what it captured at the take, and the cellar and loft bytes as they have stood since, oldest first. -/
structure MPend where
  op   : Nat
  tok  : MTok
  win  : Word
  sa   : BitVec 32
  sb   : BitVec 32
  dest : Word
  was  : List (Memory × Memory)
  deriving DecidableEq, Repr

/-- A token taken and not yet complete (R250). -/
structure MRun where
  ap    : Bool
  num   : Nat
  take  : Nat
  drain : Bool
  tomat : Bool
  items : List QItem
  off   : Nat              -- MAT byte of drained row 0, captured from cr.MDEST (R246)
  pitch : Nat
  fmt   : Nat
  rnd   : BitVec 2
  rows  : Nat
  n     : Nat
  int   : Bool
  flags : BitVec 5
  named : List (Nat × Nat)   -- MAT ranges that the token names, as first byte and length (R322)
  pend  : Option MPend
  deriving DecidableEq, Repr

/-- The matrix node. -/
structure Matrix where
  mawin   : Word
  mdest   : Word
  sc      : Vector (BitVec 32) 16
  taken   : BitVec 32
  lastAp  : Bool
  taking  : Bool           -- the port a token is being taken from; true the AP's (the model's own)
  ep      : PStore
  aps     : PStore
  runs    : List MRun
  dq      : List (Option (Nat × Nat))   -- the drain queue: an element in the queue's bank, or a mark, level and count, of its table (R252)
  qpos    : Nat                         -- the element's place in the bank at which the queue starts
  closes  : List (Nat × Nat × BitVec 5)   -- numbers, with their takes and flags, whose closing STOP is still in the queue (R250)
  eos     : Bool
  stopped : Bool
  stopAp  : Bool
  frozen  : Bool           -- R257
  deriving DecidableEq, Repr

/-! ## The drill (R303-R317) -/

/-- A loaded seed graph (R304). -/
structure Graph where
  nodes  : List Word
  v      : Nat
  w      : Nat
  scales : List (BitVec 32)
  depth  : Nat
  area   : Nat
  deriving DecidableEq, Repr

/-- What the drill's assembly buffer holds: whole vectors, and the tokens between them (R311). -/
inductive DItem where
  | vec (lanes : List Int)
  | stop (payload : Word)
  | eos
  deriving DecidableEq, Repr

/-- A running DRILLRUN (R310). -/
structure DRun where
  tag   : Tag
  ops   : DrillOps
  fired : Nat
  ended : Bool
  deriving DecidableEq, Repr

/-- The drill. -/
structure Drill where
  graph   : Option Graph
  total   : Nat
  flags   : BitVec 5
  run     : Option DRun
  asm     : List Int
  inq     : List DItem
  outq    : List Token
  code    : BitVec 8
  stopped : Bool
  frozen  : Bool
  lastRun : Nat
  reap    : Option (Tag × Int)   -- a REAP that stopped at its record (R316)
  deriving DecidableEq, Repr

/-! ## Blocks, the field and the AP -/

/-- A block instruction (R70). -/
structure BInstr where
  op  : BitVec 8
  ta  : BitVec 8
  tb  : BitVec 8
  fmt : BitVec 5
  pm  : BitVec 3
  imm : BitVec 32
  deriving DecidableEq, Repr

/-- A block: its header (R72) and its instructions. -/
structure Block where
  hdr : Word
  ins : List BInstr
  deriving DecidableEq, Repr

/-- An accumulator node's shape and sums (R177, R253). -/
structure Acc where
  num   : BitVec 4
  count : Nat
  m     : Nat
  n     : Nat
  sums  : List (BitVec 32)
  i     : Nat
  j     : Nat
  got   : Nat
  out   : List Token       -- a release in progress
  deriving DecidableEq, Repr

/-- The replay buffer of a JOIN (R230): the tokens of the replay side's fibre, and how many of them are presented again. -/
structure Replay where
  toks : List Token
  pos  : Nat
  live : Bool
  deriving DecidableEq, Repr

/-- An operand: a payload, or a marker with its STOP payload (R205). -/
inductive Opd where
  | val (w : Word)
  | mark (w : Word)
  deriving DecidableEq, Repr

/-- A firing as far as it has resolved (R204, R206): operands delivered, by 4 × instruction + slot; tokens taken by input; tokens to send with their instruction and output, in the order of R206; registers to write; flags; accumulators; replay buffer; its fault with the instruction; the instructions that have not resolved, since a RECV waits (R209); and the corrected words that it has read (R390). -/
structure Firing where
  del    : List (Nat × Opd)
  taken  : List Nat
  sends  : List (Nat × Nat × Token)
  writes : List (Nat × Word)
  flags  : BitVec 5
  red    : List (Nat × Word)
  replay : Replay
  fault  : Option (BitVec 8 × Nat)
  opens  : List Nat
  fixed  : Nat
  deriving DecidableEq, Repr

/-- A CFG packet that a node is taking or forwarding: its input, its lead, the body words taken so far, and how many are to come (R197, R198). -/
structure Packet where
  inp   : Nat
  lead  : Word
  words : List Word
  left  : Nat
  deriving DecidableEq, Repr

/-- A node: a block program on a plot for a context (R177). -/
structure Node where
  region  : Nat
  y       : Nat
  x       : Nat
  ctx     : Nat
  blk     : Block
  comm    : Bool
  acc     : Option Acc
  regs    : Vector Word 16
  red     : List (Nat × Word)
  replay  : Replay
  seen    : Bool
  packet  : Option Packet  -- a CFG packet under way (R198)
  closing : Bool           -- a MERGE node that has met the EOS of its entry (R227)
  eosIn   : List Nat
  eosOut  : List Nat
  fir     : List Firing
  stIn    : Nat
  stOut   : Nat
  stCtx   : Nat
  reason  : Nat
  last    : Option Nat     -- the cycle of its last firing start
  done    : Option (Nat × Nat)   -- the cycle of its last commit, and its commits in that cycle (R208, R235)
  err1    : NatSet         -- registers with a single bit error, and uncorrectable ones (R390)
  err2    : NatSet
  flags   : BitVec 5
  stopped : Bool
  deriving DecidableEq, Repr

/-- A filter entry of a stile, with the scale captured at arming (R182, R191). -/
structure Filter where
  y     : Nat
  x     : Nat
  vc    : Nat
  entry : Nat
  src   : Nat
  dst   : Nat
  op    : Nat
  se    : Bool
  scale : BitVec 4
  rnd   : BitVec 2
  rows  : Nat
  cols  : Nat
  sval  : BitVec 32
  deriving DecidableEq, Repr

/-- A link (R179, R184-R186, R194). -/
structure Link where
  edge   : Nat
  group  : Nat             -- the region whose group holds its record
  prod   : BitVec 20
  cons   : BitVec 20
  slots  : Nat
  fmt    : Nat
  vc     : Nat
  thresh : Nat
  filt   : Option Filter
  hops   : Nat
  fly    : List Token
  buf    : List (Token × Nat)
  credit : Nat             -- credits on their way back
  result : List Token      -- the result register of a zero-slot link
  dec    : List Token      -- tokens that the region-entry decoder has formed (R40)
  tile   : List Token      -- a tile that a transpose filter collects
  pos    : Nat             -- position count of a compact filter
  deriving DecidableEq, Repr

/-- A port binding with its edge buffer (R181, R323). -/
structure Binding where
  region : Nat
  engine : Bool
  port   : Nat
  once   : Bool
  size   : Nat             -- in 4 KiB units
  handle : Nat
  off    : Nat             -- byte offset in PAD
  dirty  : NatSet          -- bytes written since the last release, in 64-byte units
  deriving DecidableEq, Repr

/-- The states of a region (R173). -/
inductive RState where
  | empty
  | loading
  | armed
  | unarmed
  | frozen
  deriving DecidableEq, Repr

/-- A region and its steward (R173, R196, R383, R388, R395). -/
structure Region where
  st       : RState
  before   : RState        -- the state a freeze returns to
  ctr      : Nat           -- the context selected last (R130, R235)
  selAt    : Option Nat    -- the cycle of the last selection
  resident : List Nat
  pinned   : List Nat
  bound    : List Nat
  ready    : List (Nat × Nat)   -- context and the last cycle in which it had a ready node
  fcode    : BitVec 8
  fplot    : Nat
  fctx     : Nat
  finstr   : Nat
  fflags   : BitVec 5
  quiet    : Nat           -- the cycle since which no node has fired; while the core is frozen, how many cycles that is
  sinkEos  : Bool
  deriving DecidableEq, Repr

/-- The field (R170-R201). -/
structure Field where
  regions  : Vector Region 16
  nodes    : List Node
  links    : List Link
  filters  : List (Nat × Filter)
  bindings : List Binding
  deriving DecidableEq, Repr

/-- A stage image bound to the AP (R273). -/
structure Stage where
  declared : BitVec 16
  blk      : Block
  deriving DecidableEq, Repr

/-- The state of one row: m, l and acc (R260). -/
structure RowSt where
  m   : BitVec 32
  l   : BitVec 32
  acc : List (BitVec 32)
  deriving DecidableEq, Repr

/-- The descriptor of an ATTN (R268). -/
structure Desc where
  w : Vector Word 12
  deriving DecidableEq, Repr

/-- A fetched key: its K row, V row and scales, its segk word and its key tag (R269). -/
structure KeyF where
  k  : List (BitVec 16)
  v  : List (BitVec 16)
  ek : BitVec 8
  ev : BitVec 8
  x  : List Nat
  deriving DecidableEq, Repr

/-- A block between FETCH and its state: its keys; m, l and the weights of each row once QK, SCORE, MASK and EXP are done; the columns of the first PV token (R260-R263). -/
structure BRun where
  b    : Nat
  keys : List KeyF
  exps : Option (List (BitVec 32 × BitVec 32 × List (BitVec 16)))
  part : Option (List (BitVec 32))
  deriving DecidableEq, Repr

/-- A running ATTN (R281): what it captured, the blocks still to form and those being formed, the states of each row by block and row, and its progress. -/
structure ARun where
  tag    : Tag
  desc   : Desc
  stages : Vector (Option Stage) 3
  sa     : BitVec 32
  bias   : List (BitVec 16)
  path   : List (Nat × Int × Int)   -- SRC 1: start, address and page table of each node of the path (R291)
  q      : List (List (BitVec 16))  -- Q rows in hand
  segq   : List (BitVec 32)         -- segq words, once read
  qin    : List (BitVec 16)         -- elements of the row arriving on ep2
  qend   : Bool                     -- the group's closing STOP has been taken
  todo   : List Nat
  blks   : List BRun
  begun  : NatSet                   -- the blocks whose QK has run
  offer  : Option Nat               -- the block whose next token waits at the matrix node (R20)
  fresh  : List (Nat × Nat)         -- blocks and rows whose state stands unmerged
  merged : List (Nat × Nat)         -- blocks and rows that BLEND has merged (R283)
  states : List (Nat × Nat × RowSt)
  merges : Nat                      -- merges of a row's two states
  rows   : Nat
  put    : Nat                      -- elements of the row being emitted that are written
  out    : List Token
  deriving DecidableEq, Repr

/-- A kv command in progress (R294, R296, R299): tokens done; src is KVSEQ's node, KVAPP's source or KVBIAS's table, n JROLL's index or KVBIAS's head. -/
structure KvRun where
  tag  : Tag
  desc : Int
  src  : Int
  cnt  : Nat
  flag : Bool
  done : Nat
  n    : Nat
  deriving DecidableEq, Repr

/-- The AP's operand buffer (R260, R261, R263): rows of A, columns of B, the coordinates that form products, the E8 scale of each coordinate and of each column, and the factor of a drain; and what the array has drained to the AP. -/
structure OpBuf where
  a    : List (List (BitVec 16))
  b    : List (List (BitVec 16))
  used : Nat
  ks   : List (BitVec 8)
  cs   : List (BitVec 8)
  sa   : BitVec 32
  res  : List (BitVec 32)
  deriving DecidableEq, Repr

/-- The attention pipeline (R260, R285, R297). -/
structure Ap where
  bind   : Vector (Option Stage) 3
  bias   : List (Nat × List (BitVec 16))
  start  : Option (Tag × Int)    -- an ATTN that waits or has stopped before its start was complete
  run    : Option ARun
  kv     : Option KvRun
  flags  : BitVec 5
  rows   : Nat
  blocks : Nat
  code   : BitVec 8
  stopped : Bool
  frozen : Bool
  kvflt  : Word
  toks   : List Word       -- control tokens at the matrix node's reserved port (R20)
  opbuf  : OpBuf
  deriving DecidableEq, Repr

/-! ## The cellar and the loft -/

/-- A line of the CACHE room (R319): physical address, bank, hint class, order of last use, valid sectors, bytes written since the last write-back (a sector is dirty when one of its bytes is), uncorrectable words, words with a single error, data. -/
structure CLine where
  addr  : Nat
  bank  : Nat
  cls   : BitVec 2
  used  : Nat
  valid : BitVec 4
  dirty : BitVec 64
  err   : BitVec 8
  err1  : BitVec 8
  data  : BitVec 512
  deriving DecidableEq, Repr

/-- A stash range (R332): virtual start, length, PAD offset, physical pages, sectors filled and dirty. -/
structure StashR where
  va     : Int
  len    : Nat
  off    : Nat
  pages  : List Nat
  filled : NatSet
  dirty  : NatSet
  deriving DecidableEq, Repr

/-- A REG area (R322): offset, length, owner (a region, or the drill), the context whose state it backs (R195), and whether it holds saved state. -/
structure RegArea where
  off   : Nat
  len   : Nat
  owner : Nat
  ctx   : Nat
  live  : Bool
  deriving DecidableEq, Repr

/-- The cellar (R318-R337). -/
structure Cellar where
  w1    : Nat
  w2    : Nat
  w3    : Nat
  move  : Option (Nat × Nat)      -- wall and target of the move in progress
  bytes : Memory                  -- by bank times 65,536 plus byte
  full  : NatSet                  -- full ONCE locations, by cellar byte over 8
  err1  : NatSet
  err2  : NatSet
  cache : List CLine
  order : Nat
  stash : List StashR
  areas : List RegArea
  high  : Vector Nat 4
  banks : List (Nat × DeferTab)
  deriving DecidableEq, Repr

/-- The loft (R21, R22). -/
structure Loft where
  asid  : Option (BitVec 16)
  bytes : Memory
  err1  : NatSet
  err2  : NatSet
  deriving DecidableEq, Repr

/-- One core. -/
structure Core where
  cpu    : Cpu
  on     : OnCore
  fq     : FaultQ
  inval  : Bool × Bool            -- BUSY and DROPPED of cr.INVAL (R378)
  invalOf : Word × Nat            -- the word of the write that started the invalidation, and its cycle
  qs     : Queues
  ports  : Vector Port 64
  edge   : List Extent            -- the edge TLB (R377)
  copies : Vector CopyCtx 8
  loader : Loader
  mat    : Matrix
  drill  : Drill
  ap     : Ap
  field  : Field
  cellar : Cellar
  loft   : Loft
  deriving DecidableEq, Repr

/-! ## Device, scheduler and porter -/

/-- A launch that is ARMED or RUNNING (R124, R127, R132). -/
structure Launch where
  recIx   : BitVec 12
  arm     : Nat                   -- cr.CYC at the arm
  armT    : Nat                   -- device time at the arm
  args    : Vector Word 8
  pre     : Bool
  running : Bool
  cores   : List Nat              -- by rank
  order   : Nat                   -- admissions before it
  start   : Option Nat            -- cycle of the first strand start
  budget  : Bool                  -- the budget's late event has been raised
  ending  : Option (BitVec 8 × BitVec 8)   -- cause and code of an end by fault or host
  saved   : List (Nat × Core)
  deriving DecidableEq, Repr

/-- What self-test has found of a core (R405). -/
inductive CoreTest where
  | untested
  | online
  | failed
  deriving DecidableEq, Repr

/-- What the porter's firmware sets up at boot: the wing of each 1 GiB unit that lies in an affine pool, every other unit being interleaved (R24); the base of the launch pool, cr.TVEC, the fault queues, the snapshot areas and the page-table root of each ASID (R116, R370, R374, R389). The spec gives the image no layout for them: they come with the image (log 6). -/
structure Setup where
  affine : List (Nat × Nat)
  lpool  : Nat
  tvec   : Word
  fqbase : Nat
  fqe    : BitVec 4
  qsnap  : Nat
  roots  : List (BitVec 16 × Word)
  deriving DecidableEq, Repr

/-- What a firmware may set up: each affine unit lies in HBM and names one wing, and each ASID has one root (R24, R371). -/
def Setup.ok (x : Setup) : Bool :=
  (x.affine.all fun e => decide (e.1 * 2 ^ 30 < Config.hbmBytes) && decide (e.2 < 4)) && decide (x.affine.map (·.1)).Nodup &&
  decide (4 ≤ x.fqe.toNat) && decide (x.fqe.toNat ≤ 12) && decide (x.roots.map (·.1)).Nodup

/-- The porter, its mailbox, the clock and the links (R28-R30, R400-R408). -/
structure Porter where
  stage   : BitVec 4
  reason  : BitVec 8
  tests   : Vector CoreTest 192
  narrow  : Vector Bool 192
  step    : Nat
  cap     : Nat
  samples : List Nat              -- newest first, at most ten
  low     : Nat                   -- consecutive samples that allow a raise
  high    : Nat                   -- further samples above 3,200 W at 0.6 GHz
  armSt   : BitVec 4
  hfqBase : Word
  hfqE    : BitVec 4
  hfqHead : BitVec 32
  hfqTail : BitVec 32
  hfqWait : List (List Word)      -- records that wait for room in the host fault queue
  inval   : Bool × Bool
  invalOf : Word × Nat
  fwaddr  : Word
  fwlen   : Word
  image   : List Byte             -- the image read in stage 2
  digest  : List Byte
  fused   : Nat
  link    : BitVec 6
  ports   : Vector (Option (BitVec 6)) 16
  heard   : List (BitVec 4 × List (BitVec 6))
  downs   : List (BitVec 6)       -- members whose every direct port has gone down
  attest  : Option Word
  msix0   : Nat
  msix1   : Nat
  lpool   : Nat
  tvec    : Word                  -- what the firmware gives each admitted core (R370)
  fqbase  : Nat
  fqe     : BitVec 4
  qsnap   : Nat
  roots   : List (BitVec 16 × Word)
  affine  : List (Nat × Nat)      -- 1 GiB unit and wing (R24)
  setup   : Setup                 -- what the firmware image delivered sets up at boot
  deriving DecidableEq, Repr

/-- What moves next (log 1): the strand of a core, a command at an engine context, a matrix token, an event; or the host, which writes or reads a mailbox register that has no event of its own (R401), or stores into its own memory. -/
inductive Act where
  | strand
  | start (ctx : BitVec 8)
  | take (ap : Bool)
  | ev (i : Instr)
  | mbWrite (off : Nat) (v : Word)
  | mbRead (off : Nat)
  | hostStore (a : Nat) (bs : List Byte)
  | firmware (x : Setup)
  deriving DecidableEq, Repr

/-- One entry of the agenda: the cycles that pass before it, the core, the act. -/
structure Sched where
  dt   : Nat
  core : Fin 192
  act  : Act
  deriving DecidableEq, Repr

/-- The state of the device. -/
structure State where
  agenda   : List Sched
  cur      : Fin 192
  pick     : Nat
  cyc      : Nat
  time     : Nat                  -- device time in units of 1/18 ns: 12, 15, 20 or 30 a cycle (R28, R127)
  mem      : Memory
  full     : NatSet
  ecc1     : NatSet
  ecc2     : NatSet
  hostMem  : Memory
  slices   : Vector DeferTab 12
  far      : DeferTab             -- reads of this device deferred at other devices' homes (R359)
  pins     : List (BitVec 12 × Nat)
  owners   : List (Nat × Nat)
  launches : List Launch
  admits   : Nat
  cores    : Vector Core 192
  porter   : Porter
  deriving DecidableEq, Repr

/-- Why a step stops. -/
inductive Fault where
  /-- Raised by hostMemoryAccess and remoteRequest for an address outside HBM, which the spec says does not exist (R400). Safe: the model stops where the spec gives no access. -/
  | noSuchMemory
  deriving DecidableEq, Repr

/-- Why a step has no meaning. -/
inductive Refusal where
  /-- Raised by an arm of exec for an instruction that has no meaning yet. Safe. -/
  | notModelled (mnemonic : String)
  deriving DecidableEq, Repr

/-! ## Reset -/

/-- An empty deferral table (R360). -/
def DeferTab.reset : DeferTab := ⟨[], 0, 0, 0, []⟩

/-- The control core at reset: log 3. -/
def Cpu.reset : Cpu :=
  { g := .replicate 32 0, p := 0, pc := 0, status := 0, fps := 0, tvec := 0, tcause := 0, taddr := 0, epc := 0,
    ksave0 := 0, ksave1 := 0, hintdrop := 0, hintlog := 0, late := 0, oref := 0, ecccnt := 0, qwin := 65536,
    qsnap := 0, psel := 0, rsel := 0, tlb := [], icache := [], run := .off, yield := .none, waitc := none, exitVal := 0,
    exitX := false, dropped := 0, episode := 0, arrived := [] }

/-- No launch on the core. -/
def OnCore.reset : OnCore :=
  { recIx := none, asid := 0, rank := 0, lvl := .replicate 8 0, qmap := .replicate 8 0, tlmap := .replicate 16 0,
    fixw := false, ptroot := 0 }

/-- The fault queue: head and tail 0 (R370), the rest log 3. -/
def FaultQ.reset : FaultQ := ⟨0, 4, 0, 0, [], []⟩

/-- No delivery in hand. -/
def Delivery.reset : Delivery := ⟨0, none, false, false⟩

/-- Empty queues, counts 0 (R362). -/
def Queues.reset : Queues :=
  { q := .replicate 8 [], pairs := [], hi := [], notices := [], issued := .replicate 16 0,
    completed := .replicate 16 0, above := [], late := [], drew := [], dlv := .reset }

/-- Parameter set 0 cleared (R156). -/
def Par.reset : Par := ⟨0, 0, 0, 0, 0, 0⟩

/-- Dimension sets cleared: n 1, stride 0 (R156). -/
def Port.noDims : List (Nat × Int) := [(1, 0), (1, 0), (1, 0), (1, 0)]

/-- An idle port context. -/
def Port.reset : Port :=
  { run := none, prev := [], dims := Port.noDims, dset := [], par := .reset, ext := none, held := [], spill := [], blk := [], flags := 0,
    st := .idle, code := 0, resum := false, short := false, done := 0, discard := false, want := 0, replay := false, before := .idle }

/-- An idle copy context. -/
def CopyCtx.reset : CopyCtx := ⟨[], false⟩

/-- An empty partial store (R243). -/
def PStore.reset : PStore := ⟨false, 0, 0, false, []⟩

/-- The matrix node; the AP's port counts as served last (R20). -/
def Matrix.reset : Matrix :=
  { mawin := 0, mdest := 0, sc := .replicate 16 0, taken := 0, lastAp := true, taking := false, ep := .reset,
    aps := .reset, runs := [], dq := [], qpos := 0, closes := [], eos := false, stopped := false, stopAp := false, frozen := false }

/-- An empty drill. -/
def Drill.reset : Drill :=
  { graph := none, total := 0, flags := 0, run := none, asm := [], inq := [], outq := [], code := 0,
    stopped := false, frozen := false, lastRun := 0, reap := none }

/-- An empty operand buffer, factor 1.0 (log 3). -/
def OpBuf.reset : OpBuf := ⟨[], [], 0, [], [], 0x3F800000, []⟩

/-- The AP with its defaults bound (R274) and every bias table +0 (R297). -/
def Ap.reset : Ap :=
  { bind := .replicate 3 none, bias := [], start := none, run := none, kv := none, flags := 0, rows := 0, blocks := 0, code := 0,
    stopped := false, frozen := false, kvflt := 0, toks := [], opbuf := .reset }

/-- An EMPTY region (R173), its counter as if context 15 had been selected last (R235). -/
def Region.reset : Region :=
  { st := .empty, before := .empty, ctr := 15, selAt := none, resident := [], pinned := [], bound := [],
    ready := [], fcode := 0, fplot := 0, fctx := 0, finstr := 0, fflags := 0, quiet := 0, sinkEos := false }

/-- An empty field. -/
def Field.reset : Field := ⟨.replicate 16 .reset, [], [], [], []⟩

/-- The cellar: all bytes 0; the walls at the smallest rooms (log 3). -/
def Cellar.reset : Cellar :=
  { w1 := 2, w2 := 2, w3 := 2, move := none, bytes := [], full := [], err1 := [], err2 := [], cache := [],
    order := 0, stash := [], areas := [], high := .replicate 4 0, banks := [] }

/-- The loft at power-up: no ASID, every word zero (R22). -/
def Loft.reset : Loft := ⟨none, [], [], []⟩

/-- A core at reset. -/
def Core.reset : Core :=
  { cpu := .reset, on := .reset, fq := .reset, inval := (false, false), invalOf := (0, 0), qs := .reset, ports := .replicate 64 .reset,
    edge := [], copies := .replicate 8 .reset, loader := ⟨none, none, none⟩, mat := .reset, drill := .reset, ap := .reset,
    field := .reset, cellar := .reset, loft := .reset }

/-- The porter at power-good: stage 0 (R402), step 0 and cap 0 (R28, R30), number 0 (R357); the rest log 3, log 6. -/
def Porter.reset : Porter :=
  { stage := 0, reason := 0, tests := .replicate 192 .untested, narrow := .replicate 192 false, step := 0, cap := 0,
    samples := [], low := 0, high := 0, armSt := 0, hfqBase := 0, hfqE := 4, hfqHead := 0, hfqTail := 0, hfqWait := [],
    inval := (false, false), invalOf := (0, 0), fwaddr := 0, fwlen := 0, image := [], digest := [], fused := 0, link := 0,
    ports := .replicate 16 none, heard := [], downs := [], attest := none, msix0 := 0, msix1 := 0, lpool := 0,
    tvec := 0, fqbase := 0, fqe := 4, qsnap := 0, roots := [], affine := [],
    setup := { affine := [], lpool := 0, tvec := 0, fqbase := 0, fqe := 4, qsnap := 0, roots := [] } }

/-- The device at power-good, before its ROM has run (R405): every core held in reset, memory with nothing listed, nothing on the agenda. -/
def State.reset : State :=
  { agenda := [], cur := 0, pick := 0, cyc := 0, time := 0, mem := [], full := [], ecc1 := [], ecc2 := [], hostMem := [],
    slices := .replicate 12 .reset, far := .reset, pins := [], owners := [], launches := [], admits := 0,
    cores := .replicate 192 .reset, porter := .reset }

/-- The core in focus. -/
def State.core (s : State) : Core := s.cores[s.cur]

/-- The device with the core in focus replaced. -/
def State.setCore (s : State) (c : Core) : State := { s with cores := s.cores.set s.cur c }

end Sys2Proof.Machine
end

