-- ==== Sys2Proof/Machine/Ops.lean ====
section
/-! DEFINITION. The named operations over sets, memory, registers, the fault queue and traps: every meaning goes through them. -/

namespace Sys2Proof.Machine

/-! ## Sets of numbers -/

/-- Insert into a strictly rising list. -/
def insNat (x : Nat) : NatSet → NatSet
  | [] => [x]
  | y :: ys => if x < y then x :: y :: ys else if x = y then y :: ys else y :: insNat x ys

/-- Remove from a set. -/
def delNat (x : Nat) (l : NatSet) : NatSet := l.filter (· != x)

/-- Remove every member of [lo, hi). -/
def delRange (lo hi : Nat) (l : NatSet) : NatSet := l.filter fun y => !(decide (lo ≤ y) && decide (y < hi))

/-- Insert when b holds, remove when it does not. -/
def putNat (b : Bool) (x : Nat) (l : NatSet) : NatSet := if b then insNat x l else delNat x l

/-- The members of [lo, lo + n). -/
def rangeFrom (lo n : Nat) : List Nat := (List.range n).map (lo + ·)

/-! ## Memory as data -/

/-- What one byte reads as; an unlisted one reads 0 (log 4). -/
def memGet : Memory → Nat → Byte
  | [], _ => 0
  | (k, v) :: t, a => if k = a then v else memGet t a

/-- Write one byte; writing 0 removes the entry. -/
def memSet : Memory → Nat → Byte → Memory
  | [], a, b => if b = 0 then [] else [(a, b)]
  | (k, v) :: t, a, b =>
    if a < k then (if b = 0 then (k, v) :: t else (a, b) :: (k, v) :: t)
    else if a = k then (if b = 0 then t else (a, b) :: t)
    else (k, v) :: memSet t a b

/-- n bytes from an address. -/
def memBytes (m : Memory) (a n : Nat) : List Byte := (List.range n).map fun i => memGet m (a + i)

/-- The little-endian number in n bytes (R7). -/
def memNat (m : Memory) (a n : Nat) : Nat := ofBytes (memBytes m a n)

/-- Write bytes from an address upward. -/
def memPut (m : Memory) (a : Nat) : List Byte → Memory
  | [] => m
  | b :: bs => memPut (memSet m a b) (a + 1) bs

/-- Every byte of [lo, hi) to zero. -/
def memClear (m : Memory) (lo hi : Nat) : Memory := m.filter fun e => !(decide (lo ≤ e.1) && decide (e.1 < hi))

/-- The canonical form: addresses strictly rising, no byte 0. -/
def Memory.wf : Memory → Bool
  | [] => true
  | (_, v) :: [] => v != 0
  | (k, v) :: (k', v') :: t => v != 0 && decide (k < k') && Memory.wf ((k', v') :: t)

/-! ## Parts of the state -/

/-- Change the core in focus. -/
def State.modCore (s : State) (f : Core → Core) : State := s.setCore (f s.core)

/-- Change core i; no change for a number that names no core. -/
def State.modCoreAt (s : State) (i : Nat) (f : Core → Core) : State :=
  if h : i < 192 then { s with cores := s.cores.set i (f s.cores[i]) } else s

/-- Core i, or the core in focus for a number that names none. -/
def State.coreAt (s : State) (i : Nat) : Core := if h : i < 192 then s.cores[i] else s.core

/-- The same device with another core in focus. -/
def State.focus (s : State) (i : Nat) : State := if h : i < 192 then { s with cur := ⟨i, h⟩ } else s

def State.modCpu (s : State) (f : Cpu → Cpu) : State := s.modCore fun c => { c with cpu := f c.cpu }
def State.modQs (s : State) (f : Queues → Queues) : State := s.modCore fun c => { c with qs := f c.qs }
def State.modFq (s : State) (f : FaultQ → FaultQ) : State := s.modCore fun c => { c with fq := f c.fq }
def State.modCellar (s : State) (f : Cellar → Cellar) : State := s.modCore fun c => { c with cellar := f c.cellar }
def State.modMat (s : State) (f : Matrix → Matrix) : State := s.modCore fun c => { c with mat := f c.mat }
def State.modDrill (s : State) (f : Drill → Drill) : State := s.modCore fun c => { c with drill := f c.drill }
def State.modAp (s : State) (f : Ap → Ap) : State := s.modCore fun c => { c with ap := f c.ap }
def State.modField (s : State) (f : Field → Field) : State := s.modCore fun c => { c with field := f c.field }
def State.modLoader (s : State) (f : Loader → Loader) : State := s.modCore fun c => { c with loader := f c.loader }
def State.modPorter (s : State) (f : Porter → Porter) : State := { s with porter := f s.porter }

/-- The control core in focus. -/
def State.cpu (s : State) : Cpu := s.core.cpu

/-- Take one free choice (log 5). -/
def State.choose (s : State) : Bool × State := (Config.freeBool s.pick, { s with pick := s.pick + 1 })

/-- Take one free word (log 5). -/
def State.freeWord (s : State) : Word × State := (Config.freeWord s.pick, { s with pick := s.pick + 1 })

/-! ## Registers (R86) -/

/-- A general register; g0 reads 0. -/
def State.g (s : State) (r : BitVec 5) : Word := if r = 0 then 0 else s.cpu.g[r.toNat]

/-- Write a general register; a write of g0 is discarded. -/
def State.setG (s : State) (r : BitVec 5) (v : Word) : State :=
  if r = 0 then s else s.modCpu fun c => { c with g := c.g.set r.toNat v }

/-- A predicate; p0 reads 1. -/
def State.p (s : State) (n : BitVec 3) : Bool := if n = 0 then true else s.cpu.p.getLsbD n.toNat

/-- Write a predicate; a write of p0 is discarded. -/
def State.setP (s : State) (n : BitVec 3) (v : Bool) : State :=
  if n = 0 then s
  else s.modCpu fun c => { c with p := if v then c.p ||| (1#8 <<< n.toNat) else c.p &&& ~~~(1#8 <<< n.toNat) }

/-- The address of the instruction that runs. -/
def State.pc (s : State) : Word := s.cpu.pc

/-- Continue at an address. -/
def State.setPc (s : State) (v : Word) : State := s.modCpu fun c => { c with pc := v }

/-! ## Status (R89) -/

def Cpu.mode (c : Cpu) : Bool := c.status.getLsbD 0
def Cpu.pmode (c : Cpu) : Bool := c.status.getLsbD 1
def Cpu.nest (c : Cpu) : Bool := c.status.getLsbD 2
def Cpu.dl (c : Cpu) : Bool := c.status.getLsbD 8

/-- Whether the core runs in SUPER. -/
def State.super (s : State) : Bool := s.cpu.mode

/-- The arithmetic options of the core's launch (R36, R57, R89). -/
def Cpu.fenv (c : Cpu) : FEnv := ⟨c.status.getLsbD 3, c.status.getLsbD 4⟩
def State.fenv (s : State) : FEnv := s.cpu.fenv

/-- The status with MODE, PMODE and NEST replaced. -/
def statusWith (w : Word) (mode pmode nest : Bool) : Word :=
  (w &&& ~~~7#64) ||| ((BitVec.ofBool nest ++ BitVec.ofBool pmode ++ BitVec.ofBool mode).setWidth 64)

/-! ## Scopes (R339, R354) -/

/-- Fields of cr.LVLn (R122). -/
def lvlValid (w : Word) : Bool := w.getLsbD 63
def lvlDomain (w : Word) : Nat := bits w.toNat 34 32
def lvlExtent (w : Word) : Nat := bits w.toNat 31 16
def lvlIndex (w : Word) : Nat := bits w.toNat 15 0

/-- How many levels the running launch declares. -/
def OnCore.levels (o : OnCore) : Nat := o.lvl.toList.countP lvlValid

/-- The level that a scope acts as: an undeclared one acts as the outermost declared (R339). -/
def OnCore.scopeLevel (o : OnCore) (n : Nat) : Nat := if n < o.levels then n else o.levels - 1

/-- The domain of the level a scope names, 0 when no level is declared. -/
def OnCore.scopeDomain (o : OnCore) (n : Nat) : Nat := lvlDomain (o.lvl.toList.getD (o.scopeLevel n) 0)

/-- Whether a scope moves cache data: its level's domain is CORE or wider (R354). -/
def OnCore.scopeWide (o : OnCore) (n : Nat) : Bool := 2 ≤ o.scopeDomain n

/-- The outermost declared level. -/
def OnCore.outer (o : OnCore) : Nat := o.levels - 1

/-! ## Bit errors (R390) -/

/-- Count corrected words in cr.ECCCNT[31:0] and uncorrectable ones in [63:32], each half saturating. -/
def eccCount (w : Word) (single double : Nat) : Word :=
  let lo := min (bits w.toNat 31 0 + single) (2 ^ 32 - 1)
  let hi := min (bits w.toNat 63 32 + double) (2 ^ 32 - 1)
  BitVec.ofNat 64 (hi * 2 ^ 32 + lo)

def State.countEcc (s : State) (single double : Nat) : State :=
  if single = 0 && double = 0 then s else s.modCpu fun c => { c with ecccnt := eccCount c.ecccnt single double }

/-- The 8-byte words that n bytes from an address touch. -/
def locsOf (a n : Nat) : List Nat := if n = 0 then [] else rangeFrom (a / 8) ((a + n - 1) / 8 - a / 8 + 1)

/-- Whether a write of n bytes from a covers all of word loc. -/
def covers (a n loc : Nat) : Bool := decide (a ≤ loc * 8) && decide (loc * 8 + 8 ≤ a + n)

/-! ## The CACHE room (R319, R354, R155) -/

/-- The line that holds a physical address in the core's CACHE room. -/
def Cellar.line (c : Cellar) (pa : Nat) : Option CLine := c.cache.find? fun l => l.addr == pa / 64 * 64

/-- Whether the line's sector of this address is valid. -/
def CLine.has (l : CLine) (pa : Nat) : Bool := l.valid.getLsbD (pa / 16 % 4)

/-- One byte of a line. -/
def CLine.byte (l : CLine) (pa : Nat) : Byte := l.data.extractLsb' (8 * (pa % 64)) 8

/-- Whether sector k of a line is dirty. -/
def CLine.dirtySector (l : CLine) (k : Nat) : Bool := l.dirty.extractLsb' (16 * k) 16 != 0

/-- The number of dirty sectors of a line. -/
def CLine.dirtyCount (l : CLine) : Nat := (List.range 4).countP l.dirtySector

/-- Replace a line, or add it. -/
def Cellar.putLine (c : Cellar) (l : CLine) : Cellar :=
  { c with cache := l :: c.cache.filter fun x => x.addr != l.addr }

/-- Drop a line. -/
def Cellar.dropLine (c : Cellar) (addr : Nat) : Cellar := { c with cache := c.cache.filter fun x => x.addr != addr }

/-- One byte of a line replaced. -/
def CLine.setByte (l : CLine) (pa : Nat) (b : Byte) : CLine :=
  let k := 8 * (pa % 64)
  { l with data := (l.data &&& ~~~(0xFF#512 <<< k)) ||| ((b.setWidth 512) <<< k) }

/-- Write a line's dirty bytes to their homes; the check bits go with each word (R390). -/
def homePutLine (mem : Memory) (ecc1 ecc2 : NatSet) (l : CLine) : Memory × NatSet × NatSet :=
  (List.range 8).foldl (fun (m, e1, e2) k =>
    if l.dirty.extractLsb' (8 * k) 8 == 0 then (m, e1, e2)
    else
      let loc := l.addr / 8 + k
      let whole := e2.contains loc
      let m := (List.range 8).foldl (fun m i =>
        let a := l.addr + 8 * k + i
        if whole || l.dirty.getLsbD (8 * k + i) then memSet m a (l.byte a) else m) m
      (m, putNat (l.err1.getLsbD k) loc e1, putNat (l.err.getLsbD k) loc e2)) (mem, ecc1, ecc2)

/-! ## Stash ranges (R332, R333) -/

/-- The first bytes of the 16-byte sectors that n bytes from a touch. -/
def sectorsOf (a n : Nat) : List Nat :=
  if n = 0 then [] else (rangeFrom (a / 16) ((a + n - 1) / 16 - a / 16 + 1)).map (16 * ·)

/-- The core whose stash owns a physical address. -/
def State.ownerOf (s : State) (pa : Nat) : Option Nat := (s.owners.find? fun e => e.1 == pa / 4096).map (·.2)

/-- Byte of a stash range that a physical address is. -/
def StashR.byteOf (r : StashR) (pa : Nat) : Option Nat :=
  (r.pages.findIdx? (· == pa / 4096)).map fun i => 4096 * i + pa % 4096

/-- The stash range of a core that holds a physical address, with the byte in it. -/
def Cellar.stashOf (c : Cellar) (pa : Nat) : Option (StashR × Nat) :=
  c.stash.findSome? fun r => (r.byteOf pa).map fun b => (r, b)

/-- The cellar word that holds a stashed location, once its sector is filled. -/
def Cellar.stashWord (c : Cellar) (loc : Nat) : Option Nat :=
  (c.stashOf (loc * 8)).bind fun (r, b) => if r.filled.contains (b / 16) then some ((r.off + b) / 8) else none

/-- Whether a location is uncorrectable where it is held: in the owner's PAD once its sector is filled, else at its home (R333, R390). -/
def State.heldErr2 (s : State) (loc : Nat) : Bool :=
  match s.ownerOf (loc * 8) with
  | some o =>
    let c := (s.coreAt o).cellar
    match c.stashWord loc with | some w => c.err2.contains w | none => s.ecc2.contains loc
  | none => s.ecc2.contains loc

/-- Whether a location has a single error where it is held. -/
def State.heldErr1 (s : State) (loc : Nat) : Bool :=
  match s.ownerOf (loc * 8) with
  | some o =>
    let c := (s.coreAt o).cellar
    match c.stashWord loc with | some w => c.err1.contains w | none => s.ecc1.contains loc
  | none => s.ecc1.contains loc

/-- Mark the touched sectors of a stashed address filled, and dirty for a write. -/
def StashR.touch (r : StashR) (pa n : Nat) (write : Bool) : StashR :=
  (sectorsOf pa n).foldl (fun r a => match r.byteOf a with
    | none => r
    | some b => { r with filled := insNat (b / 16) r.filled, dirty := if write then insNat (b / 16) r.dirty else r.dirty }) r

/-- Copy one doubleword of memory, with its check bits, into the cellar word that is its place in the stash. -/
def Cellar.stashCopy (c : Cellar) (mem : Memory) (ecc1 ecc2 : NatSet) (loc w : Nat) : Cellar :=
  { c with bytes := memPut c.bytes (8 * w) (memBytes mem (8 * loc) 8),
           err1 := putNat (ecc1.contains loc) w c.err1, err2 := putNat (ecc2.contains loc) w c.err2 }

/-- A sector of a stash is filled from memory if it is not yet, and every word of [pa, pa + n) in it follows a write (R333). -/
def Cellar.stashFill (c : Cellar) (mem : Memory) (ecc1 ecc2 : NatSet) (pa n : Nat) (write : Bool) (a : Nat) : Cellar :=
  match c.stashOf a with
  | none => c
  | some (r, b) =>
    let old := r.filled.contains (b / 16)
    [0, 1].foldl (fun (c : Cellar) k =>
      if !old || (write && decide (pa < a + 8 * k + 8) && decide (a + 8 * k < pa + n)) then
        c.stashCopy mem ecc1 ecc2 (a / 8 + k) ((r.off + b) / 8 + k) else c) c

/-- The first access to a sector fills it; a write makes it dirty, and the owner's PAD holds what was written (R333). -/
def State.touchStash (s : State) (pa n : Nat) (write : Bool) : State :=
  match s.ownerOf pa with
  | none => s
  | some o => s.modCoreAt o fun c =>
    let x := (sectorsOf pa n).foldl (fun x a => x.stashFill s.mem s.ecc1 s.ecc2 pa n write a) c.cellar
    { c with cellar := { x with stash := x.stash.map (·.touch pa n write) } }

/-- The check bits of a stash range's sectors go home with their words (R390). -/
def State.stashBack (s : State) (i : Nat) (r : StashR) (sectors : NatSet) : State :=
  let c := (s.coreAt i).cellar
  sectors.foldl (fun s k => match r.pages[16 * k / 4096]? with
    | none => s
    | some p =>
      let loc := (4096 * p + 16 * k % 4096) / 8
      let w := (r.off + 16 * k) / 8
      { s with ecc1 := putNat (c.err1.contains w) loc (putNat (c.err1.contains (w + 1)) (loc + 1) s.ecc1),
               ecc2 := putNat (c.err2.contains w) loc (putNat (c.err2.contains (w + 1)) (loc + 1) s.ecc2) }) s

/-- Write back one line of the core in focus; the line stays, clean. A stashed line's bytes reach the owner (R333). -/
def State.cleanLine (s : State) (l : CLine) : State :=
  if l.dirty = 0 then s
  else
    let (m, e1, e2) := homePutLine s.mem s.ecc1 s.ecc2 l
    let s := ({ s with mem := m, ecc1 := e1, ecc2 := e2 }).modCellar fun c => c.putLine { l with dirty := 0 }
    ((List.range 8).filter fun k => l.dirty.extractLsb' (8 * k) 8 != 0).foldl (fun s k => s.touchStash (l.addr + 8 * k) 8 true) s

/-- Write back every dirty line that a test selects (R354, R336); the lines stay valid. -/
def State.cleanWhere (s : State) (f : CLine → Bool) : State :=
  (s.core.cellar.cache.filter fun l => f l && l.dirty != 0).foldl State.cleanLine s

/-- Write back every dirty sector of the CACHE room. -/
def State.cleanAll (s : State) : State := s.cleanWhere fun _ => true

/-- Write back and invalidate every line that a test selects. -/
def State.flushWhere (s : State) (f : CLine → Bool) : State :=
  (s.cleanWhere f).modCellar fun c => { c with cache := c.cache.filter fun l => !f l }

/-- The bytes of a line that a mask does not select, read again from their homes. -/
def CLine.refresh (mem : Memory) (l : CLine) : CLine :=
  (List.range 64).foldl (fun x i => if l.dirty.getLsbD i then x else x.setByte (l.addr + i) (memGet mem (l.addr + i))) l

/-- Sectors of a line that hold a written byte. -/
def CLine.dirtyMask (l : CLine) : BitVec 4 :=
  (List.range 4).foldl (fun m k => if l.dirtySector k then m ||| (1#4 <<< k) else m) 0

/-- Invalidate every line but for its dirty sectors (R354). A byte of a dirty sector that the core has not written is read again, so that it obeys R343 (log 11). -/
def State.discardClean (s : State) : State :=
  s.modCellar fun c => { c with cache := c.cache.filterMap fun l =>
    if l.dirty = 0 then none else some { (l.refresh s.mem) with valid := l.dirtyMask } }

/-- The release half of an ordering instruction at scope n (R354). -/
def State.release (s : State) (n : Nat) : State := if s.core.on.scopeWide n then s.cleanAll else s

/-- The acquire half of an ordering instruction at scope n (R354). -/
def State.acquire (s : State) (n : Nat) : State := if s.core.on.scopeWide n then s.discardClean else s

/-- The banks of the CACHE room that a fill may use: those that a move of w3 surrenders take none (R330). -/
def Cellar.fillBanks (c : Cellar) : List Nat :=
  let lo := match c.move with | some (3, t) => max t c.w3 | _ => c.w3
  rangeFrom lo (64 - lo)

/-- Replacement rank of a class: STREAM first, then NORMAL, KEEP last (R155). -/
def clsRank (h : BitVec 2) : Nat := match h.toNat with | 1 => 0 | 2 => 2 | _ => 1

/-- The frame a new line of address pa takes: a free bank, or the line that R155 and R319 choose. -/
def Cellar.frame (c : Cellar) (pa : Nat) : Nat × Option CLine :=
  let inSet := c.cache.filter fun l => l.addr / 64 % 1024 == pa / 64 % 1024
  let banks := c.fillBanks
  match (banks.filter fun b => inSet.all fun l => l.bank != b).getLast? with
  | some b => (b, none)
  | none =>
    let worse (a b : CLine) : Bool :=
      decide (clsRank a.cls < clsRank b.cls) || (clsRank a.cls == clsRank b.cls && decide (a.used < b.used))
    match (inSet.filter fun l => banks.contains l.bank).foldl
        (fun o l => match o with | none => some l | some m => if worse l m then some l else some m) none with
    | some l => (l.bank, some l)
    | none => (63, none)

/-- The class a line is placed with: KEEP beyond half the room's lines is NORMAL (R155). -/
def Cellar.placeCls (c : Cellar) (h : BitVec 2) : BitVec 2 :=
  if h = 2 && decide ((64 - c.w3) * 1024 / 2 ≤ c.cache.countP (fun l => l.cls == 2)) then 0 else h

/-- Copy the sector of pa from its home into a line; errors come with their words (R390). -/
def CLine.fillSector (mem : Memory) (ecc1 ecc2 : NatSet) (l : CLine) (pa : Nat) : CLine :=
  let k := pa / 16 % 4
  let base := l.addr + 16 * k
  let l := (List.range 16).foldl (fun x i => x.setByte (base + i) (memGet mem (base + i))) l
  let e (es : NatSet) (j : Nat) (m : BitVec 8) : BitVec 8 :=
    if es.contains (base / 8 + j) then m ||| (1#8 <<< (2 * k + j)) else m &&& ~~~(1#8 <<< (2 * k + j))
  { l with valid := l.valid ||| (1#4 <<< k), err := e ecc2 0 (e ecc2 1 l.err), err1 := e ecc1 0 (e ecc1 1 l.err1) }

/-- Place a new line for pa, in a free frame or in that of a line which goes, and fill its sector (R155, R319). -/
def State.placeLine (s : State) (h : BitVec 2) (pa : Nat) : State :=
  let c := s.core.cellar
  let (b, victim) := c.frame pa
  let s := match victim with
    | some v => (s.cleanLine v).modCellar fun c => c.dropLine v.addr
    | none => s
  let l : CLine := ⟨pa / 64 * 64, b, c.placeCls h, c.order, 0, 0, 0, 0, 0⟩
  s.modCellar fun c => { c.putLine (l.fillSector s.mem s.ecc1 s.ecc2 pa) with order := c.order + 1 }

/-- Bring the sector of pa into the CACHE room under a hint class. BYPASS uses a sector that is present and fills none (R155). A line in a bank that a move surrenders takes no fill: it is written back, and a line in a bank that stays takes its place (R330). A line already present keeps its class, whatever the command's (DESIGN CHOICE, log 15). -/
def State.fillOne (s : State) (h : BitVec 2) (pa : Nat) : State :=
  let c := s.core.cellar
  match c.line pa with
  | some l =>
    if l.has pa then s.modCellar fun c => { c.putLine { l with used := c.order } with order := c.order + 1 }
    else if h = 3 then s
    else if c.fillBanks.contains l.bank then
      s.modCellar fun c => { c.putLine (({ l with used := c.order } : CLine).fillSector s.mem s.ecc1 s.ecc2 pa) with order := c.order + 1 }
    else ((s.cleanLine l).modCellar fun c => c.dropLine l.addr).placeLine l.cls pa
  | none => if h = 3 then s else s.placeLine h pa

/-- One byte as the core in focus sees it. -/
def State.viewByte (s : State) (pa : Nat) : Byte :=
  match s.core.cellar.line pa with
  | some l => if l.has pa then l.byte pa else memGet s.mem pa
  | none => memGet s.mem pa

/-- n bytes as the core in focus sees them. -/
def State.view (s : State) (pa n : Nat) : List Byte := (List.range n).map fun i => s.viewByte (pa + i)

/-- Whether a word is uncorrectable where the core in focus would read it. -/
def State.viewErr (s : State) (loc : Nat) : Bool :=
  match s.core.cellar.line (loc * 8) with
  | some l => if l.has (loc * 8) then l.err.getLsbD (loc % 8) else s.heldErr2 loc
  | none => s.heldErr2 loc

/-- Words read with a single error, which is corrected and counted where it is read (R390). -/
def State.singles (s : State) (pa n : Nat) : Nat :=
  (locsOf pa n).countP fun loc => match s.core.cellar.line (loc * 8) with
    | some l => if l.has (loc * 8) then l.err1.getLsbD (loc % 8) else s.heldErr1 loc
    | none => s.heldErr1 loc

/-! ## Accesses to PLAIN global memory -/

/-- Read n bytes as a consumer through the CACHE room or the stash: none for an uncorrectable word (R390). -/
def State.readPlain (s : State) (pa n : Nat) (h : BitVec 2) : Option (List Byte) × State :=
  if (locsOf pa n).any s.viewErr then (none, s.countEcc 0 1)
  else
    let bs := s.view pa n
    let s := s.countEcc (s.singles pa n) 0
    match s.ownerOf pa with
    | some _ => (some bs, s.touchStash pa n false)
    | none => (some bs, (sectorsOf pa n).foldl (fun s a => s.fillOne h a) s)

/-- Put bytes into a line that holds their sectors; fresh check bits for the words written. Bytes that stand at their home as well are clean: an older store of the core comes before them (R343). -/
def CLine.putBytes (l : CLine) (pa : Nat) (bs : List Byte) (dirty : Bool) : CLine :=
  (bs.foldl (fun (x : CLine × Nat) b =>
    let (l, a) := x
    if l.addr == a / 64 * 64 && l.has a then
      let l := l.setByte a b
      ({ l with dirty := if dirty then l.dirty ||| (1#64 <<< (a % 64)) else l.dirty &&& ~~~(1#64 <<< (a % 64)),
                err := l.err &&& ~~~(1#8 <<< (a / 8 % 8)), err1 := l.err1 &&& ~~~(1#8 <<< (a / 8 % 8)) }, a + 1)
    else (l, a + 1)) (l, pa)).1

/-- Put bytes at their homes; the words written get fresh check bits (R390). -/
def State.homePut (s : State) (pa : Nat) (bs : List Byte) : State :=
  let ls := locsOf pa bs.length
  { s with mem := memPut s.mem pa bs, ecc1 := ls.foldl (fun e l => delNat l e) s.ecc1,
           ecc2 := ls.foldl (fun e l => delNat l e) s.ecc2 }

/-- Update every line of the core that holds bytes just written at their home (R146). -/
def State.lineUpdate (s : State) (pa : Nat) (bs : List Byte) : State :=
  s.modCellar fun c => { c with cache := c.cache.map fun l => l.putBytes pa bs false }

/-- A write at the home with the core's copy updated: engines, records and control structures. It does no check. -/
def State.writeThrough (s : State) (pa : Nat) (bs : List Byte) : State :=
  ((s.homePut pa bs).lineUpdate pa bs).touchStash pa bs.length true

/-- Whether a write must merge with an uncorrectable word (R390). -/
def State.mergeErr (s : State) (pa n : Nat) : Bool :=
  (locsOf pa n).any fun loc => !covers pa n loc && (s.viewErr loc || s.heldErr2 loc)

/-- Words with a single error that a write merges with: they are read, corrected and counted (R390). -/
def State.mergeSingles (s : State) (pa n : Nat) : Nat :=
  (locsOf pa n).countP fun loc => !covers pa n loc && (s.singles (loc * 8) 8 != 0 || s.heldErr1 loc)

/-- The bytes of word k of a line that the core has written go home; the line stays. -/
def State.settleWord (s : State) (l : CLine) (k : Nat) : State :=
  let d := l.dirty &&& (0xFF#64 <<< (8 * k))
  if d = 0 then s
  else
    let (m, e1, e2) := homePutLine s.mem s.ecc1 s.ecc2 { l with dirty := d }
    (({ s with mem := m, ecc1 := e1, ecc2 := e2 }).modCellar fun c => c.putLine { l with dirty := l.dirty &&& ~~~d }).touchStash (l.addr + 8 * k) 8 true

/-- Before an engine writes a part of a location at its home, what the core has written of that location goes home: one order holds for all writes to it (R343, R356). -/
def State.settle (s : State) (pa n : Nat) : State :=
  ((locsOf pa n).filter fun loc => !covers pa n loc).foldl (fun s loc => match s.core.cellar.line (loc * 8) with
    | some l => s.settleWord l (loc % 8)
    | none => s) s

/-- An engine's write to PLAIN memory: none when it would merge with an uncorrectable word. -/
def State.enginePut (s : State) (pa : Nat) (bs : List Byte) : Option State :=
  if s.mergeErr pa bs.length then none
  else some (((s.countEcc (s.mergeSingles pa bs.length) 0).settle pa bs.length).writeThrough pa bs)

/-- The strand's write to PLAIN memory: into the CACHE room, or through to the home of a stashed page. -/
def State.strandPut (s : State) (pa : Nat) (bs : List Byte) : Option State :=
  if s.mergeErr pa bs.length then none
  else
    let s := s.countEcc (s.mergeSingles pa bs.length) 0
    match s.ownerOf pa with
    | some _ => some (s.writeThrough pa bs)
    | none =>
      let s := (sectorsOf pa bs.length).foldl (fun s a => s.fillOne 0 a) s
      some (s.modCellar fun c => { c with cache := c.cache.map fun l => l.putBytes pa bs true })

/-! ## Doublewords of control structures in memory -/

/-- A doubleword as the core in focus sees it; no consumption is counted. -/
def State.word (s : State) (pa : Nat) : Word := BitVec.ofNat 64 (ofBytes (s.view pa 8))

/-- Write a doubleword at its home. -/
def State.setWord (s : State) (pa : Nat) (w : Word) : State := s.writeThrough pa (toBytes 8 w.toNat)

/-! ## The fault queue (R370-R373) -/

/-- Whether the queue holds 2^E records. -/
def FaultQ.isFull (f : FaultQ) : Bool := (f.tail - f.head).toNat == 2 ^ f.e.toNat

/-- Words 0 to 6 of a record (R372). -/
def FRec.words (r : FRec) (asid : BitVec 16) (core : Nat) : List Word :=
  [asid ++ BitVec.ofNat 16 core ++ (0#4 ++ BitVec.ofBool r.d ++ BitVec.ofBool r.s ++ BitVec.ofBool r.r ++ BitVec.ofBool r.t) ++
      r.ctx ++ r.cls ++ r.code,
   r.cyc, r.addr, r.seq, r.detail, r.node, r.iaddr]

/-- Write a record at FQTAIL (R370, R372). -/
def State.putRecord (s : State) (r : FRec) : State :=
  let f := s.core.fq
  let pa := f.base.toNat + 64 * (f.tail.toNat % 2 ^ f.e.toNat)
  let ws := r.words s.core.on.asid s.cur.val ++ [(1#1 ++ 0#31 ++ f.tail : Word)]
  let s := (ws.foldl (fun (x : State × Nat) w => (x.1.setWord x.2 w, x.2 + 8)) (s, pa)).1
  s.modFq fun f => { f with tail := f.tail + 1, written := f.written ++ [(f.tail, r.code, r.t)] }

/-- Write a record, or wait for room behind those that wait already (R370). -/
def State.report (s : State) (r : FRec) : State :=
  if s.core.fq.isFull || !s.core.fq.waiting.isEmpty then s.modFq fun f => { f with waiting := f.waiting ++ [r] }
  else s.putRecord r

/-- Whether the unit of an engine context waits for room for a record of its own (R370); a record of class 0, 7, 8 or 0xA is the control core's, a node's, the scheduler's or a steward's. -/
def FaultQ.holds (f : FaultQ) (ctx : Nat) : Bool :=
  f.waiting.any fun r => r.cls != 0 && r.cls != 7 && r.cls != 8 && r.cls != 0xA && r.ctx.toNat == ctx

/-- Whether the control core waits for room for a record of its own (R370). -/
def FaultQ.holdsStrand (f : FaultQ) : Bool := f.waiting.any fun r => r.cls == 0

/-- A record of the given code, class and context at this cycle, T = 1 and all else 0. -/
def State.mkRec (s : State) (code cls ctx : BitVec 8) : FRec :=
  ⟨code, cls, ctx, BitVec.ofNat 64 s.cyc, true, false, false, false, 0, 0, 0, 0, 0⟩

/-- Whether index i lies between FQHEAD and FQTAIL. -/
def FaultQ.live (f : FaultQ) (i : BitVec 32) : Bool := decide ((i - f.head).toNat < (f.tail - f.head).toNat)

/-- The code of the oldest trapping record at or beyond the head (R368, R371). -/
def FaultQ.pending (f : FaultQ) : Option (BitVec 8) :=
  (f.written.find? fun e => e.2.2 && f.live e.1).map (·.2.1)

/-- A write of FQHEAD, measured as an advance (R371). -/
def FaultQ.setHead (f : FaultQ) (v : BitVec 32) : FaultQ :=
  let d := (v - f.head).toNat
  let h := if d ≤ (f.tail - f.head).toNat then v else if d < 2 ^ 31 then f.tail else f.head
  let g := { f with head := h }
  { g with written := g.written.filter fun e => g.live e.1 }

/-! ## Deferral tables (R346, R347, R359, R360) -/

/-- Entries in use: reads that no write has served yet. -/
def DeferTab.used (t : DeferTab) : Nat := t.entries.countP fun e => e.val.isNone

/-- Step next-to-serve past tickets that are no longer outstanding. -/
def DeferTab.settle (t : DeferTab) (cyc : Nat) : Nat → DeferTab
  | 0 => t
  | n + 1 =>
    if t.nextServe < t.nextIssue && !(t.tickets.any fun x => x.num == t.nextServe) then
      DeferTab.settle { t with nextServe := t.nextServe + 1, since := cyc } cyc n
    else t

/-- Retire the tickets that a test selects. -/
def DeferTab.dropTickets (t : DeferTab) (cyc : Nat) (f : Ticket → Bool) : DeferTab :=
  let t := { t with tickets := t.tickets.filter fun x => !f x }
  t.settle cyc (t.nextIssue - t.nextServe)

/-- Retire an agent's tickets. -/
def DeferTab.dropTicket (t : DeferTab) (core : Nat) (a : Agent) (cyc : Nat) : DeferTab :=
  t.dropTickets cyc fun x => x.core == core && x.agent == a

/-- An agent abandons what it reads: every deferred read that it has at a table goes at once (R359), and a ticket of its is not retried any more. -/
def DeferTab.withdraw (t : DeferTab) (core : Nat) (a : Agent) : DeferTab :=
  { t with entries := t.entries.filter fun e => !(e.core == core && e.agent == a)
           tickets := t.tickets.map fun x => if x.core == core && x.agent == a then { x with tried := false, gone := true } else x }

/-- A read of one location has returned: its entry, and its ticket, are done with. -/
def DeferTab.taken (t : DeferTab) (core : Nat) (a : Agent) (loc cyc : Nat) : DeferTab :=
  ({ t with entries := t.entries.filter fun e => !(e.core == core && e.agent == a && e.loc == loc) } : DeferTab).dropTickets cyc fun x =>
    x.core == core && x.agent == a && x.loc == loc

/-- The read of a ticket, as an entry. -/
def Ticket.entry (x : Ticket) (val : Option Word) : DEntry := ⟨x.core, x.agent, x.loc, x.size, x.first, x.page, val⟩

/-- An agent reads an empty location: it waits in the table, or is refused and receives a ticket; one that holds a ticket for it waits to retry, and takes up again a ticket of a read that it had abandoned. The Bool says refused now. -/
def DeferTab.ask (t : DeferTab) (cap : Nat) (e : DEntry) : DeferTab × Bool :=
  let mine (x : Ticket) : Bool := x.core == e.core && x.agent == e.agent && x.loc == e.loc
  if t.entries.any fun y => y.core == e.core && y.agent == e.agent && y.loc == e.loc then (t, false)
  else if t.tickets.any mine then ({ t with tickets := t.tickets.map fun x => if mine x then { x with gone := false } else x }, false)
  else if t.tickets.isEmpty && decide (t.used < cap) then ({ t with entries := t.entries ++ [e] }, false)
  else
    ({ t with tickets := t.tickets ++ [⟨t.nextIssue, e.core, e.agent, e.loc, e.size, e.first, e.page, false, false⟩], nextIssue := t.nextIssue + 1,
              since := if t.tickets.isEmpty then e.first else t.since }, true)

/-- A refused read retries, carrying its ticket (R360): one whose location has become full is served at once, the one that next-to-serve names takes a free entry, any other is refused again. -/
def DeferTab.retryOne (t : DeferTab) (cap : Nat) (full : Nat → Option Word) (cyc : Nat) (x : Ticket) : DeferTab × Bool :=
  let take (v : Option Word) : DeferTab :=
    ({ t with entries := t.entries ++ [x.entry v] } : DeferTab).dropTickets cyc fun y => y.num == x.num
  match full x.loc with
  | some w => (take (some w), false)
  | none =>
    if x.num == t.nextServe && decide (t.used < cap) then (take none, false)
    else if x.num == t.nextServe then ({ t with tickets := t.tickets.map fun y => if y.num == x.num then { y with tried := true } else y }, true)
    else (t, true)

/-- Whether a ticket is one that an agent still retries: a read that has been abandoned does not. -/
def Ticket.live (x : Ticket) (core : Nat) (a : Agent) : Bool := x.core == core && x.agent == a && !x.gone

/-- The refused reads of an agent retry, the oldest ticket first; the count is of those refused again. -/
def DeferTab.retry (t : DeferTab) (cap core : Nat) (a : Agent) (full : Nat → Option Word) (cyc : Nat) : DeferTab × Nat :=
  (t.tickets.filter (·.live core a)).foldl (fun (y : DeferTab × Nat) x => let (t, r) := y.1.retryOne cap full cyc x; (t, y.2 + r.toNat)) (t, 0)

/-- Skip the ticket that next-to-serve names when it has not retried within 4,096 cycles (R360, log 33). -/
def DeferTab.skip (t : DeferTab) (cyc : Nat) : DeferTab :=
  if decide (t.since + 4096 ≤ cyc) && (t.tickets.any fun x => x.num == t.nextServe && !x.tried) then
    t.dropTickets cyc fun y => y.num == t.nextServe
  else t

/-- The written value serves the reads of its location (R346). -/
def DeferTab.serve (t : DeferTab) (loc : Nat) (w : Word) : DeferTab :=
  { t with entries := t.entries.map fun e => if e.loc == loc && e.val.isNone then { e with val := some w } else e }

/-- The value that an agent's deferred read has received. -/
def DeferTab.got (t : DeferTab) (core : Nat) (a : Agent) (loc : Nat) : Option Word :=
  (t.entries.find? fun e => e.core == core && e.agent == a && e.loc == loc).bind (·.val)

/-- The table of one bank of a cellar. -/
def Cellar.bank (c : Cellar) (b : Nat) : DeferTab := ((c.banks.find? (·.1 == b)).map (·.2)).getD .reset

/-- Replace the table of one bank. -/
def Cellar.setBank (c : Cellar) (b : Nat) (t : DeferTab) : Cellar :=
  { c with banks := (c.banks.filter (·.1 != b)) ++ [(b, t)] }

/-- Where a location is held (R338): an LLC slice, a bank of a core's PAD with a location number of its own there, or another device (R357). -/
inductive Home where
  | slice (i : Fin 12)
  | bank (core b : Nat)
  | far
  deriving DecidableEq, Repr

/-- The wing whose affine pool holds a physical address; none for the interleaved pool (R24). -/
def Porter.wingOf (p : Porter) (pa : Nat) : Option Nat := (p.affine.find? (·.1 == pa / 2 ^ 30)).map (·.2)

/-- The HBM stack of a physical address, whose LLC slice is its home (R24). -/
def Porter.stackOf (p : Porter) (pa : Nat) : Fin 12 :=
  let g := pa / 4096
  match p.wingOf pa with
  | some w => ⟨(3 * w + g % 3) % 12, Nat.mod_lt _ (by decide)⟩
  | none => ⟨g % 12, Nat.mod_lt _ (by decide)⟩

/-- The home of a location that no stash holds: its LLC slice, or the device that it names (R338, R357). -/
def Porter.homeOf (p : Porter) (loc : Nat) : Home := if (loc * 8).testBit 51 then .far else .slice (p.stackOf (loc * 8))

/-- The home of a global location (R338): the owner's PAD bank for a stashed one. -/
def State.homeOf (s : State) (loc : Nat) : Home :=
  match s.ownerOf (loc * 8) with
  | some o => match (s.coreAt o).cellar.stashOf (loc * 8) with
    | some (r, b) => .bank o ((r.off + b) / 65536)
    | none => s.porter.homeOf loc
  | none => s.porter.homeOf loc

/-- The deferral table of a home, with its capacity; how many entries another device has free is its own matter, and no read is refused there (log 12). -/
def State.tab (s : State) : Home → DeferTab × Nat
  | .slice i => (s.slices[i], 1024)
  | .bank o b => ((s.coreAt o).cellar.bank b, 64)
  | .far => (s.far, s.far.entries.length + 1)

/-- Replace the deferral table of a home. -/
def State.setTab (s : State) (h : Home) (t : DeferTab) : State :=
  match h with
  | .slice i => { s with slices := s.slices.set i t }
  | .bank o b => s.modCoreAt o fun c => { c with cellar := c.cellar.setBank b t }
  | .far => { s with far := t }

/-- Count refusals in cr.OREF of the core that asks (R360). -/
def State.countOref (s : State) (n : Nat) : State := if n = 0 then s else s.modCpu fun c => { c with oref := c.oref + BitVec.ofNat 64 n }

/-- A read of n bytes of an empty location waits at its home; page is the translation that it used. -/
def State.deferRead (s : State) (h : Home) (a : Agent) (loc n : Nat) (page : Option Extent) : State :=
  let (t, cap) := s.tab h
  let (t, refused) := t.ask cap ⟨s.cur.val, a, loc, n, s.cyc, page, none⟩
  let s := s.setTab h t
  s.countOref refused.toNat

/-- Withdraw every deferred read of an agent of core i (R359). -/
def State.withdrawAt (s : State) (i : Nat) (a : Agent) : State :=
  { s with
    slices := s.slices.map fun (t : DeferTab) => t.withdraw i a
    far := s.far.withdraw i a
    cores := s.cores.map fun (c : Core) =>
      if c.cellar.banks.isEmpty then c
      else { c with cellar := { c.cellar with banks := c.cellar.banks.map fun (e : Nat × DeferTab) => (e.1, e.2.withdraw i a) } } }

/-- Whether a table holds a read, or a ticket, of an agent. -/
def DeferTab.holds (t : DeferTab) (i : Nat) (a : Agent) : Bool :=
  (t.entries.any fun e => e.core == i && e.agent == a) || t.tickets.any fun x => x.core == i && x.agent == a

/-- Whether some table holds a read of this agent. -/
def State.hasDeferred (s : State) (i : Nat) (a : Agent) : Bool :=
  s.slices.any (·.holds i a) || s.far.holds i a || s.cores.any fun c => c.cellar.banks.any fun b => b.2.holds i a

/-- Every deferral table: of the LLC slices, of the other devices and of the cellars' banks. -/
def State.tabs (s : State) : List DeferTab := s.slices.toList ++ s.far :: s.cores.toList.flatMap fun (c : Core) => c.cellar.banks.map (·.2)

/-- Withdraw the deferred reads of an agent of the core in focus, if it has any. -/
def State.withdraw (s : State) (a : Agent) : State :=
  if s.hasDeferred s.cur.val a then s.withdrawAt s.cur.val a else s

/-! ## Launches -/

/-- The launch of a record. -/
def State.launch (s : State) (r : BitVec 12) : Option Launch := s.launches.find? (·.recIx == r)

/-- Change the launch of a record. -/
def State.modLaunch (s : State) (r : BitVec 12) (f : Launch → Launch) : State :=
  { s with launches := s.launches.map fun l => if l.recIx == r then f l else l }

/-- End a launch with a cause and a code: its strands stop, and LAUNCH_COMPLETE finishes it (R134). The first cause stays. -/
def State.endLaunch (s : State) (r : BitVec 12) (cause code : BitVec 8) : State :=
  let s := s.modLaunch r fun l => { l with ending := l.ending.orElse fun _ => some (cause, code) }
  match s.launch r with
  | none => s
  | some l => if l.running then l.cores.foldl (fun s i => s.modCoreAt i fun c =>
      if c.cpu.run = .exited then c else { c with cpu := { c.cpu with run := .dead } }) s else s

/-! ## Traps (R113, R367-R369) -/

/-- Codes whose trap has an address in cr.TADDR (R368). -/
def hasTaddr (code : BitVec 8) : Bool := code == 0x13 || (decide (0x20 ≤ code.toNat) && decide (code.toNat ≤ 0x24))

/-- Enter the handler: one step (R113). -/
def Cpu.enter (c : Cpu) (cause taddr epc : Word) : Cpu :=
  { c with epc := epc, tcause := cause, taddr := taddr, status := statusWith c.status true c.mode true, pc := c.tvec,
           yield := .none, waitc := none }

/-- A double trap: the core stops, its record has D = 1 and the faulting address, and the launch ends with cause 2 (R113, R369, R372). -/
def State.doubleTrap (s : State) (code : BitVec 8) (addr epc : Word) : State :=
  let s := s.report { s.mkRec code 0 0 with d := true, addr := if hasTaddr code then addr else 0, iaddr := epc }
  let s := s.modCpu fun c => { c with run := .dead }
  match s.core.on.recIx with
  | some r => s.endLaunch r 2 code
  | none => s

/-- A synchronous trap: code, the address for cr.TADDR, and the address for cr.EPC. An instruction that waited is abandoned (R115). -/
def State.trapAt (s : State) (code : BitVec 8) (addr epc : Word) : State :=
  let s := s.withdraw .strand
  if s.cpu.nest then s.doubleTrap code addr epc
  else s.modCpu fun c => c.enter (code.setWidth 64) (if hasTaddr code then addr else 0) epc

/-- A synchronous trap of the running instruction. -/
def State.trap (s : State) (code : BitVec 8) (addr : Word) : State := s.trapAt code addr s.pc

/-- The asynchronous trap of a pending record (R367, R368). -/
def State.trapAsync (s : State) (code : BitVec 8) : State :=
  (s.withdraw .strand).modCpu fun c => c.enter (1#56 ++ code) 0 c.pc

/-- Return from a trap (R113): the pc is checked first (R101). -/
def State.eret (s : State) : State :=
  let e := s.cpu.epc
  if !canonical e.toInt then s.trap 0x22 e
  else if e.extractLsb' 0 2 != 0 then s.trap 0x13 e
  else s.modCpu fun c => { c with pc := c.epc, status := statusWith c.status c.pmode c.pmode false }

/-- The instruction retires and the next in sequence follows; a step past the canonical range traps there (R101). -/
def State.retire (s : State) : State :=
  let n := s.pc + 4
  if canonical n.toInt then s.setPc n else (s.setPc n).trapAt 0x22 n n

/-- Continue at a branch target that has been checked. -/
def State.goto (s : State) (t : Word) : State := s.setPc t

/-! ## Sticky flags -/

/-- OR flags into cr.FPS of the core in focus. -/
def State.orFps (s : State) (f : Flags) : State := if f = 0 then s else s.modCpu fun c => { c with fps := c.fps ||| f }

end Sys2Proof.Machine
end

