-- ==== Sys2Proof/Machine/Flags.lean ====
section
/-! DEFINITION. The predicate computations of the control core: conditions, combine modes, the guard (R58, R59, R62, R91, R96, R98). The five sticky flags are computed in Num, Special and Fw8. -/

namespace Sys2Proof.Machine

/-- Whether a guard passes (R59): its predicate, negated by bit 31. -/
def State.guard (s : State) (q : Guard) : Bool := s.p q.p != q.neg

/-- The conditions of R62: EQ, NE, LT, GE, LTU, GEU, TST. -/
def condOf (cond : BitVec 3) (a b : Word) : Bool :=
  match cond.toNat with
  | 0 => a == b
  | 1 => a != b
  | 2 => a.slt b
  | 3 => !a.slt b
  | 4 => a.ult b
  | 5 => !a.ult b
  | _ => a &&& b != 0

/-- The combine modes of R62: SET, AND, OR, ANDN. -/
def combine (cmb : BitVec 2) (pd c : Bool) : Bool :=
  match cmb.toNat with
  | 0 => c
  | 1 => pd && c
  | 2 => pd || c
  | _ => pd && !c

/-- A guarded instruction: with a false guard it retires with no effect (R59, R91). -/
def State.guarded (s : State) (q : Guard) (f : State → State) : State := if s.guard q then f s else s.retire

end Sys2Proof.Machine
end

