-- ==== Sys2Proof/Machine/Xlate.lean ====
section
/-! DEFINITION. Address translation: page tables, protection, remote addresses, cached translations (R357, R374-R378). -/

namespace Sys2Proof.Machine

/-- What an access does to its page (R376). -/
inductive Kind where
  | load
  | store
  | fetch
  deriving DecidableEq, Repr

/-- Fields of a page-table entry (R374). -/
def pteValid (e : Nat) : Bool := e.testBit 0
def pteLeaf (e : Nat) : Bool := e.testBit 1
def pteC (e : Nat) : Bool := e.testBit 6
def pteAddr (e : Nat) : Nat := bits e 51 12 * 4096
def pteReserved (e : Nat) : Bool := bits e 63 52 != 0 || bits e 11 9 != 0

/-- Whether every 1 GiB unit of a frame lies in the kind of pool that AFF requires (R24). A remote frame is its own device's to check (log 12). -/
def Porter.poolOk (p : Porter) (pa len : Nat) (aff : Bool) : Bool :=
  if pa.testBit 51 then true
  else if Config.hbmBytes < pa + len then false
  else
    let units := rangeFrom (pa / 2 ^ 30) ((pa + len - 1) / 2 ^ 30 - pa / 2 ^ 30 + 1)
    if aff then units.all fun u => p.affine.any fun e => e.1 == u && some e.2 == p.wingOf pa
    else units.all fun u => !(p.affine.any fun e => e.1 == u)

/-- The extent of a leaf: frame, size and attribute bits (R375). -/
def leafExtent (p : Porter) (va57 size : Nat) (e : Nat) : Except (BitVec 8) Extent :=
  let pa := pteAddr e
  if pteReserved e || pa % size ≠ 0 then .error 0x21
  else if !p.poolOk pa size (e.testBit 8) then .error 0x21
  else .ok ⟨signed 57 (va57 / size * size), pa, size, e.testBit 2, e.testBit 3, e.testBit 4, e.testBit 5, e.testBit 7, e.testBit 8⟩

/-- How many entries of a group from entry i on, in steps of one upward or downward, are valid (R375). -/
def validRun (rd : Nat → Option Nat) (table i : Nat) (up : Bool) : Nat → Nat
  | 0 => 0
  | n + 1 =>
    match rd (table + 8 * i) with
    | some e => if pteValid e then 1 + (if !up && i = 0 then 0 else validRun rd table (if up then i + 1 else i - 1) up n) else 0
    | none => 0

/-- The part of a group's extent that its valid entries around entry i cover: an entry with V = 0 maps nothing (R375). -/
def groupPart (rd : Nat → Option Nat) (table i sh : Nat) (x : Extent) : Extent :=
  let k := i % 16
  let below := validRun rd table i false (k + 1) - 1
  let n := below + validRun rd table i true (16 - k)
  let off := (k - below) * 2 ^ sh
  { x with va := x.va + off, pa := x.pa + off, len := n * 2 ^ sh }

/-- The walk over the remaining levels: shift of the index, and whether the level may hold a leaf and a group (R374, R375). -/
def walkGo (p : Porter) (rd : Nat → Option Nat) (va57 : Nat) : Nat → List (Nat × Bool × Bool) → Except (BitVec 8) Extent
  | _, [] => .error 0x21
  | table, (sh, leafOk, groupOk) :: rest =>
    let i := va57 / 2 ^ sh % 512
    match rd (table + 8 * i) with
    | none => .error 0x32
    | some e =>
      if !pteValid e then .error 0x20
      else if pteLeaf e then
        if !leafOk then .error 0x21
        else if !pteC e then leafExtent p va57 (2 ^ sh) e
        else if !groupOk then .error 0x21
        else match rd (table + 8 * (i / 16 * 16)) with
          | none => .error 0x32
          | some f =>
            if !pteValid f then .error 0x20
            else if !pteC f || !pteLeaf f then .error 0x21
            else (leafExtent p va57 (16 * 2 ^ sh) f).map (groupPart rd table i sh)
      else if rest.isEmpty then .error 0x21
      else if bits e 8 2 ≠ 0 || pteReserved e then .error 0x21
      else walkGo p rd va57 (pteAddr e) rest

/-- The addresses of the entries that a walk reads. -/
def walkReads (rd : Nat → Option Nat) (va57 : Nat) : Nat → List (Nat × Bool × Bool) → List Nat
  | _, [] => []
  | table, (sh, leafOk, groupOk) :: rest =>
    let a := table + 8 * (va57 / 2 ^ sh % 512)
    match rd a with
    | none => [a]
    | some e =>
      if !pteValid e then [a]
      else if pteLeaf e then
        if leafOk && pteC e && groupOk then [a, table + 8 * (va57 / 2 ^ sh % 512 / 16 * 16)] else [a]
      else if rest.isEmpty || bits e 8 2 ≠ 0 || pteReserved e then [a]
      else a :: walkReads rd va57 (pteAddr e) rest

/-- The five levels (R374): a group only on the third and the last. -/
def walkLevels : List (Nat × Bool × Bool) :=
  [(48, false, false), (39, false, false), (30, true, true), (21, true, false), (12, true, true)]

/-- Read one entry as a consumer: none for an uncorrectable word (R390). -/
def State.readEntry (s : State) (pa : Nat) : Option Nat :=
  if s.viewErr (pa / 8) then none else some (ofBytes (s.view pa 8))


/-- An extent holds a virtual address. -/
def Extent.holds (x : Extent) (va : Int) : Bool := decide (x.va ≤ va) && decide (va < x.va + x.len)

/-- The physical address of a virtual one in an extent. -/
def Extent.pa' (x : Extent) (va : Int) : Nat := x.pa + (va - x.va).toNat

/-- The protection check (R376). -/
def Extent.allows (x : Extent) (k : Kind) (user : Bool) : Bool :=
  (match k with | .load => x.r | .store => x.w | .fetch => x.x) && (!user || x.u)

/-- The handle window (R323). -/
def inWindow (va : Int) : Bool := decide (-(2 ^ 56 : Int) ≤ va) && decide (va < -(2 ^ 56 : Int) + 2 ^ 36)

/-- Whether some trained port joins a member directly (R404). -/
def Porter.joined (p : Porter) (dev : BitVec 6) : Bool := p.ports.any (· == some dev)

/-- The numbers of the linkset as this device sees them (R357). -/
def Porter.isMember (p : Porter) (dev : BitVec 6) : Bool :=
  dev == p.link || p.joined dev || p.downs.contains dev || p.heard.any fun h => h.2.contains dev

/-- The check of a remote physical address (R357, R404): 0x21 for the own number, 0x20 for no member, 0xF1 for a member whose ports are all down, 0x21 for one that no port joins. -/
def Porter.remoteFault (p : Porter) (pa : Nat) : Option (BitVec 8) :=
  if !pa.testBit 51 then none
  else
    let dev := BitVec.ofNat 6 (bits pa 50 45)
    if dev == p.link then some 0x21
    else if !p.isMember dev then some 0x20
    else if p.joined dev then none
    else if p.downs.contains dev then some 0xF1
    else some 0x21

/-- Walk the page table of a root for a canonical address. An entry of another device is read there, under the check of a remote address (R357); it is as the walk found it. -/
def State.walk (s : State) (root : Word) (va : Int) : Except (BitVec 8) Extent :=
  let table := bits root.toNat 51 12 * 4096
  match walkGo s.porter s.readEntry (pattern 57 va) table walkLevels with
  | .error c => match (walkReads s.readEntry (pattern 57 va) table walkLevels).findSome? s.porter.remoteFault with
    | some f => .error f
    | none => .error c
  | .ok x => match (walkReads s.readEntry (pattern 57 va) table walkLevels).findSome? s.porter.remoteFault with
    | some f => .error f
    | none => .ok x

/-- Count what a walk met: the single errors that it corrected, or the uncorrectable one that stopped it (R390). -/
def State.countWalk (s : State) (va : Int) : State :=
  let as := walkReads s.readEntry (pattern 57 va) (bits s.core.on.ptroot.toNat 51 12 * 4096) walkLevels
  s.countEcc ((as.map fun a => s.singles a 8).sum) (as.countP fun a => (s.readEntry a).isNone)

/-- A translated access: physical address and the leaf. -/
structure Phys where
  pa   : Nat
  ext  : Extent
  deriving DecidableEq, Repr

/-- Check a leaf for an access and give its physical address (R376, R357). -/
def Porter.checkLeaf (p : Porter) (x : Extent) (va : Int) (k : Kind) (user : Bool) : Except (BitVec 8) Phys :=
  if !x.allows k user then .error 0x21
  else match p.remoteFault (x.pa' va) with
    | some c => .error c
    | none => .ok ⟨x.pa' va, x⟩

/-- Translate without a cache: engines that keep no translation (R376, R377). The address is canonical. -/
def State.xlate (s : State) (k : Kind) (user : Bool) (va : Int) : Except (BitVec 8) Phys :=
  if inWindow va then .error 0x20
  else match s.walk s.core.on.ptroot va with
    | .error c => .error c
    | .ok x => s.porter.checkLeaf x va k user

/-- Translate afresh, and count the bit errors that the walk met (R390). -/
def State.xlateNew (s : State) (k : Kind) (user : Bool) (va : Int) : Except (BitVec 8) Phys × State :=
  (s.xlate k user va, if inWindow va then s else s.countWalk va)

/-- The translation of a read that waits in a table, or goes on retrying: it used it before it was deferred, and goes on with it whatever an invalidation has discarded since (R378). -/
def DeferTab.page (t : DeferTab) (i : Nat) (a : Agent) (va : Int) : Option Extent :=
  let fits (core : Nat) (b : Agent) (loc : Nat) (x : Option Extent) : Option Extent :=
    if core == i && b == a then x.filter fun x => x.holds va && x.pa' va / 8 == loc else none
  (t.entries.findSome? fun e => fits e.core e.agent e.loc e.page).orElse fun _ =>
    t.tickets.findSome? fun x => if x.gone then none else fits x.core x.agent x.loc x.page

/-- The place of a deferred read of an agent at an address, as it was translated (R378). -/
def State.deferredAt (s : State) (a : Agent) (k : Kind) (va : Int) : Option Phys :=
  if k != .load then none
  else (s.tabs.findSome? fun t => t.page s.cur.val a va).map fun x => ⟨x.pa' va, x⟩

/-- Translate for an agent that keeps no translation: afresh, but for a read of it that is deferred (R376-R378). -/
def State.xlateFor (s : State) (a : Agent) (k : Kind) (user : Bool) (va : Int) : Except (BitVec 8) Phys × State :=
  match s.deferredAt a k va with
  | some q => (.ok q, s)
  | none => s.xlateNew k user va

/-- Find an entry of a translation cache, and the cache with it moved to the front. -/
def tlbFind (l : List Extent) (va : Int) : Option (Extent × List Extent) :=
  match l.find? (·.holds va) with
  | some x => some (x, x :: l.filter (· != x))
  | none => none

/-- Add an entry; the least recently used one of a full cache goes (R377, log 13). -/
def tlbAdd (cap : Nat) (x : Extent) (l : List Extent) : List Extent := (x :: l).take cap

/-- Translate a fetch or a scalar access through the control core's cache of 64 entries (R377); a deferred read keeps its translation (R378). A failed walk caches nothing. -/
def State.xlateStrand (s : State) (k : Kind) (va : Int) : Except (BitVec 8) Phys × State :=
  if inWindow va then (.error 0x20, s)
  else match s.deferredAt .strand k va, tlbFind s.cpu.tlb va with
    | some q, _ => (.ok q, s)
    | none, some (x, l) => (s.porter.checkLeaf x va k (!s.super), s.modCpu fun c => { c with tlb := l })
    | none, none => match s.walk s.core.on.ptroot va with
      | .error c => (.error c, s.countWalk va)
      | .ok x => (s.porter.checkLeaf x va k (!s.super), (s.countWalk va).modCpu fun c => { c with tlb := tlbAdd 64 x c.tlb })

/-- Translate through the edge TLB of 512 entries: GATHER, SCATTER and SCADD (R142, R377). -/
def State.xlateEdge (s : State) (k : Kind) (user : Bool) (va : Int) : Except (BitVec 8) Phys × State :=
  if inWindow va then (.error 0x20, s)
  else match tlbFind s.core.edge va with
    | some (x, l) => (s.porter.checkLeaf x va k user, s.modCore fun c => { c with edge := l })
    | none => match s.walk s.core.on.ptroot va with
      | .error c => (.error c, s.countWalk va)
      | .ok x => (s.porter.checkLeaf x va k user, (s.countWalk va).modCore fun c => { c with edge := tlbAdd 512 x c.edge })

/-- Two neighbouring leaves of one protection whose frames run on (R377). -/
def Extent.joins (x y : Extent) : Bool :=
  decide (y.va = x.va + x.len) && y.pa == x.pa + x.len && x.r == y.r && x.w == y.w && x.x == y.x && x.u == y.u &&
  x.once == y.once && x.aff == y.aff

/-- Extend an extent over the pages after it, at most n of them and 2^40 bytes (R377); each walk counts what it corrected (R390). -/
def State.growExtent (s : State) (x : Extent) : Nat → Extent × State
  | 0 => (x, s)
  | n + 1 =>
    let va := x.va + x.len
    if 2 ^ 40 ≤ x.len || !canonical va || inWindow va then (x, s)
    else match s.walk s.core.on.ptroot va with
      | .ok y =>
        if x.joins y && x.len + y.len ≤ 2 ^ 40 then (s.countWalk va).growExtent { x with len := x.len + y.len } n else (x, s.countWalk va)
      | .error _ => (x, s.countWalk va)

/-- Extend an extent over the pages before it, at most n of them and 2^40 bytes (R377); each walk counts what it corrected (R390). -/
def State.growBack (s : State) (x : Extent) : Nat → Extent × State
  | 0 => (x, s)
  | n + 1 =>
    let va := x.va - 1
    if 2 ^ 40 ≤ x.len || !canonical va || inWindow va then (x, s)
    else match s.walk s.core.on.ptroot va with
      | .ok y =>
        if y.joins x && x.len + y.len ≤ 2 ^ 40 then (s.countWalk va).growBack { x with va := y.va, pa := y.pa, len := x.len + y.len } n
        else (x, s.countWalk va)
      | .error _ => (x, s.countWalk va)

/-- More pages of 4 KiB than an extent of 2^40 bytes has: it ends at the first page that differs (R377). -/
def extentPages : Nat := 2 ^ 28

/-- The extent that holds an address, as the loader forms it: all the pages around it that run on, up to 2^40 bytes (R377); with the bit errors counted that its walks met (R390). -/
def State.extentOf (s : State) (va : Int) : Except (BitVec 8) Extent × State :=
  if inWindow va then (.error 0x20, s)
  else match s.walk s.core.on.ptroot va with
    | .error c => (.error c, s.countWalk va)
    | .ok x =>
      let (x, s) := (s.countWalk va).growExtent x extentPages
      let (x, s) := s.growBack x extentPages
      (.ok x, s)

end Sys2Proof.Machine
end

