-- ==== Sys2Proof/Machine/Access.lean ====
section
/-! DEFINITION. Reads and writes at their homes: PLAIN memory, the ONCE discipline, edge buffers (R323, R346, R355, R390). -/

namespace Sys2Proof.Machine

/-- What an access answers: a value, a wait at the home, or a fault with its code and virtual address. -/
inductive Got (α : Type) where
  | ok (v : α) (s : State)
  | wait (s : State)
  | fault (code : BitVec 8) (addr : Int) (s : State)

/-- Continue after an access. -/
def Got.bind {α β : Type} (x : Got α) (f : α → State → Got β) : Got β :=
  match x with
  | .ok v s => f v s
  | .wait s => .wait s
  | .fault c a s => .fault c a s

/-! ## ONCE locations of global memory -/

/-- A location's word at its home. -/
def State.homeWord (s : State) (loc : Nat) : Word := BitVec.ofNat 64 (memNat s.mem (loc * 8) 8)

/-- The value a ONCE read of an agent may return: a served deferral's, or the full location's. -/
def State.onceValue (s : State) (a : Agent) (loc : Nat) : Option Word :=
  match (s.tab (s.homeOf loc)).1.got s.cur.val a loc with
  | some w => some w
  | none => if s.full.contains loc then some (s.homeWord loc) else none

/-- A returned ONCE read leaves the table, and its ticket counts as retired (R360). -/
def State.onceDone (s : State) (a : Agent) (loc : Nat) : State :=
  let h := s.homeOf loc
  let (t, _) := s.tab h
  if t.entries.isEmpty && t.tickets.isEmpty then s else s.setTab h (t.taken s.cur.val a loc s.cyc)

/-- The acquire of a read that returns a ONCE value, at the outermost level (R355). -/
def State.onceAcquire (s : State) : State := s.acquire s.core.on.outer

/-- Read bytes of a ONCE page: an empty location defers the read at its home (R346). -/
def State.onceRead (s : State) (a : Agent) (va : Int) (pa n : Nat) (page : Extent) : Got (List Byte) :=
  let ls := locsOf pa n
  match ls.find? fun l => (s.onceValue a l).isNone with
  | some l => .wait (s.deferRead (s.homeOf l) a l n (some page))
  | none =>
    if ls.any s.heldErr2 then .fault 0x32 va (s.countEcc 0 1)
    else
      let ws := ls.flatMap fun l => toBytes 8 ((s.onceValue a l).getD 0).toNat
      let s := s.countEcc (ls.countP s.heldErr1) 0
      let s := ls.foldl (fun s l => s.onceDone a l) s
      .ok ((ws.drop (pa % 8)).take n) ((s.touchStash pa n false).onceAcquire)

/-- Fill an empty location: its written bytes, zeros elsewhere, full; its deferred reads are served (R346). -/
def State.onceFill (s : State) (loc : Nat) (bs : List Byte) : State :=
  let s := { s with mem := memPut s.mem (loc * 8) bs, full := insNat loc s.full, ecc1 := delNat loc s.ecc1, ecc2 := delNat loc s.ecc2 }
  let h := s.homeOf loc
  let (t, _) := s.tab h
  let s := if t.entries.isEmpty then s else s.setTab h (t.serve loc (BitVec.ofNat 64 (ofBytes bs)))
  s.touchStash (loc * 8) 8 true

/-- The eight bytes of a location after a write that covers some of them. -/
def onceBytes (loc pa : Nat) (bs : List Byte) : List Byte :=
  (List.range 8).map fun i => let a := loc * 8 + i; if pa ≤ a then bs.getD (a - pa) 0 else 0

/-- Write bytes of a ONCE page: each empty location is filled, each full one refuses; the lowest full one is named (R346). A filling write is a release at the outermost level (R355). -/
def State.onceWrite (s : State) (va : Int) (pa : Nat) (bs : List Byte) : Got Unit :=
  let ls := locsOf pa bs.length
  let fulls := ls.filter fun l => s.full.contains l
  let empties := ls.filter fun l => !s.full.contains l
  let s := if empties.isEmpty then s else s.release s.core.on.outer
  let s := empties.foldl (fun s l => s.onceFill l (onceBytes l pa bs)) s
  match fulls with
  | [] => .ok () s
  | l :: _ => .fault 0x30 (va - ((pa : Int) - (l * 8 : Nat))) s

/-! ## Any global location, once translated -/

/-- Read n bytes through a leaf. -/
def State.readPhys (s : State) (a : Agent) (x : Phys) (va : Int) (n : Nat) (h : BitVec 2) : Got (List Byte) :=
  if x.ext.once then s.onceRead a va x.pa n x.ext
  else match s.readPlain x.pa n h with
    | (some bs, s) => .ok bs s
    | (none, s) => .fault 0x32 va s

/-- Place the lines that an engine has written under a hint class; BYPASS places none, and stashed memory stands in PAD (R155, R333). -/
def State.placeWritten (s : State) (h : BitVec 2) (pa n : Nat) : State :=
  if h = 3 || (s.ownerOf pa).isSome then s else (sectorsOf pa n).foldl (fun s a => s.fillOne h a) s

/-- An engine's write through a leaf: performed at the home, with the core's copy updated, and its lines placed as the hint says (R146, R155, R354). -/
def State.writePhys (s : State) (x : Phys) (va : Int) (bs : List Byte) (h : BitVec 2) : Got Unit :=
  if x.ext.once then s.onceWrite va x.pa bs
  else match s.enginePut x.pa bs with
    | some s => .ok () (s.placeWritten h x.pa bs.length)
    | none => .fault 0x32 va (s.countEcc 0 1)

/-- Lengths of the pieces that n bytes from an address fall into at 4 KiB boundaries. -/
def pagePieces (va : Int) (n : Nat) : Nat → List (Int × Nat)
  | 0 => []
  | k + 1 =>
    if n = 0 then []
    else
      let room := (4096 - va % 4096).toNat
      if n ≤ room then [(va, n)] else (va, room) :: pagePieces (va + room) (n - room) k

/-- An engine's read of n bytes of virtual memory, page by page, its lines placed under a hint class (R155). -/
def State.readVirtAt (s : State) (a : Agent) (user : Bool) (va : Int) (n : Nat) (h : BitVec 2) : Got (List Byte) :=
  (pagePieces va n (n / 4096 + 2)).foldl (fun (g : Got (List Byte)) (p : Int × Nat) => g.bind fun acc s =>
    match s.xlateFor a .load user p.1 with
    | (.error c, s) => .fault c p.1 s
    | (.ok x, s) => (s.readPhys a x p.1 p.2 h).bind fun bs s => .ok (acc ++ bs) s) (.ok [] s)

/-- A read of an engine that has no hint: it allocates nothing in the CACHE room (log 15). -/
def State.readVirt (s : State) (a : Agent) (user : Bool) (va : Int) (n : Nat) : Got (List Byte) := s.readVirtAt a user va n 3

/-- Write bytes piece by piece. A full ONCE location refuses its part and no other: the write goes on, and the fault names the lowest one (R346). -/
def putPieces (put : State → Int → List Byte → Got Unit) : List (Int × Nat) → List Byte → State → Got Unit
  | [], _, s => .ok () s
  | q :: qs, bs, s => match put s q.1 (bs.take q.2) with
    | .ok _ s => putPieces put qs (bs.drop q.2) s
    | .wait s => .wait s
    | .fault c a s =>
      if c ≠ 0x30 then .fault c a s
      else match putPieces put qs (bs.drop q.2) s with
        | .ok _ s => .fault c a s
        | .wait s => .wait s
        | .fault _ _ s => .fault c a s

/-- An engine's write of bytes to virtual memory, page by page, its lines placed under a hint class. -/
def State.writeVirtAt (s : State) (user : Bool) (va : Int) (bs : List Byte) (h : BitVec 2) : Got Unit :=
  putPieces (fun s a part => match s.xlateNew .store user a with
    | (.error c, s) => .fault c a s
    | (.ok x, s) => s.writePhys x a part h) (pagePieces va bs.length (bs.length / 4096 + 2)) bs s

/-- A write of an engine that has no hint (log 15). -/
def State.writeVirt (s : State) (user : Bool) (va : Int) (bs : List Byte) : Got Unit := s.writeVirtAt user va bs 3

/-- Little-endian number read from virtual memory. -/
def State.readNat (s : State) (a : Agent) (user : Bool) (va : Int) (n : Nat) : Got Nat :=
  (s.readVirt a user va n).bind fun bs s => .ok (ofBytes bs) s

/-! ## Range checks (R379) -/

/-- The bound of the 64-bit address sum: a carry out of bit 63 (R150, R379). -/
def carries (a : Int) : Bool := decide (a < -(2 ^ 63 : Int)) || decide (2 ^ 63 ≤ a)

/-- The whole-range check of COPY, FILL and CLEARW: 0x23, 0x22, 0x24 in order. -/
def rangeFault (va : Int) (n : Nat) : Option (BitVec 8) :=
  if carries va || carries (va + n - 1) then some 0x23
  else if !canonical va then some 0x22
  else if !canonical (va + n - 1) then some 0x24
  else none

/-! ## Cellar bytes -/

/-- n bytes of a cellar by bank times 65,536 plus byte. -/
def Cellar.read (c : Cellar) (o n : Nat) : List Byte := memBytes c.bytes o n

/-- Write cellar bytes, with fresh check bits. -/
def Cellar.write (c : Cellar) (o : Nat) (bs : List Byte) : Cellar :=
  let ls := locsOf o bs.length
  { c with bytes := memPut c.bytes o bs, err1 := ls.foldl (fun e l => delNat l e) c.err1,
           err2 := ls.foldl (fun e l => delNat l e) c.err2 }

/-- Whether a cellar range holds an uncorrectable word. -/
def Cellar.bad (c : Cellar) (o n : Nat) : Bool := (locsOf o n).any fun l => c.err2.contains l

/-- Corrected words of a cellar range. -/
def Cellar.singles (c : Cellar) (o n : Nat) : Nat := (locsOf o n).countP fun l => c.err1.contains l

/-- Whether a cellar write must merge with an uncorrectable word. -/
def Cellar.mergeBad (c : Cellar) (o n : Nat) : Bool := (locsOf o n).any fun l => !covers o n l && c.err2.contains l

/-- Corrected words that a cellar write merges with. -/
def Cellar.mergeSingles (c : Cellar) (o n : Nat) : Nat := (locsOf o n).countP fun l => !covers o n l && c.err1.contains l

/-! ## Edge buffers (R323, R324) -/

/-- Location number of a cellar word in a bank's deferral table. -/
def padLoc (l : Nat) : Nat := 2 ^ 60 + l

/-- The bank of a PAD word as a home. -/
def State.padHome (s : State) (l : Nat) : Home := .bank s.cur.val (l * 8 / 65536)

/-- The buffer of a handle on the core. -/
def Field.buffer (f : Field) (h : Nat) : Option Binding := f.bindings.find? fun b => b.size != 0 && b.handle == h

/-- Mark a buffer's units written. -/
def Field.markDirty (f : Field) (h o n : Nat) : Field :=
  { f with bindings := f.bindings.map fun b =>
      if b.size != 0 && b.handle == h then
        { b with dirty := (rangeFrom (o / 64) ((o + n - 1) / 64 - o / 64 + 1)).foldl (fun d u => insNat u d) b.dirty }
      else b }

/-- The value a read of a buffer's ONCE word may return. -/
def State.padValue (s : State) (a : Agent) (l : Nat) : Option Word :=
  match (s.tab (s.padHome l)).1.got s.cur.val a (padLoc l) with
  | some w => some w
  | none => if s.core.cellar.full.contains l then some (BitVec.ofNat 64 (ofBytes (s.core.cellar.read (l * 8) 8))) else none

/-- The buffer and the byte in it that a window address names; 0x20 past the size or with no buffer (R323). -/
def State.padPlace (s : State) (va : Int) (n : Nat) : Option (Binding × Nat) :=
  let o := (va + 2 ^ 56).toNat
  match s.core.field.buffer (o / 2 ^ 32) with
  | none => none
  | some b => let i := o % 2 ^ 32; if i + n ≤ b.size * 4096 then some (b, i) else none

/-- A port's read of a buffer. -/
def State.padRead (s : State) (a : Agent) (va : Int) (n : Nat) : Got (List Byte) :=
  match s.padPlace va n with
  | none => .fault 0x20 va s
  | some (b, i) =>
    let o := b.off + i
    let ls := locsOf o n
    if b.once then
      match ls.find? fun l => (s.padValue a l).isNone with
      | some l => .wait (s.deferRead (s.padHome l) a (padLoc l) n none)
      | none =>
        if s.core.cellar.bad o n then .fault 0x32 va (s.countEcc 0 1)
        else
          let ws := ls.flatMap fun l => toBytes 8 ((s.padValue a l).getD 0).toNat
          let s := s.countEcc (s.core.cellar.singles o n) 0
          let s := ls.foldl (fun s l =>
            let h := s.padHome l
            s.setTab h ((s.tab h).1.taken s.cur.val a (padLoc l) s.cyc)) s
          .ok ((ws.drop (o % 8)).take n) s
    else if s.core.cellar.bad o n then .fault 0x32 va (s.countEcc 0 1)
    else .ok (s.core.cellar.read o n) (s.countEcc (s.core.cellar.singles o n) 0)

/-- Fill an empty word of a ONCE buffer. -/
def State.padFill (s : State) (l : Nat) (bs : List Byte) : State :=
  let s := s.modCellar fun c => { (c.write (l * 8) bs) with full := insNat l c.full }
  let h := s.padHome l
  s.setTab h ((s.tab h).1.serve (padLoc l) (BitVec.ofNat 64 (ofBytes bs)))

/-- A port's write of a buffer. -/
def State.padWrite (s : State) (va : Int) (bs : List Byte) : Got Unit :=
  match s.padPlace va bs.length with
  | none => .fault 0x20 va s
  | some (b, i) =>
    let o := b.off + i
    if b.once then
      let ls := locsOf o bs.length
      let fulls := ls.filter fun l => s.core.cellar.full.contains l
      let empties := ls.filter fun l => !s.core.cellar.full.contains l
      let s := empties.foldl (fun s l => s.padFill l (onceBytes l o bs)) s
      let s := if empties.isEmpty then s else s.modField fun f => f.markDirty b.handle i bs.length
      match fulls with
      | [] => .ok () s
      | l :: _ => .fault 0x30 (va - ((o : Int) - (l * 8 : Nat))) s
    else if s.core.cellar.mergeBad o bs.length then .fault 0x32 va (s.countEcc 0 1)
    else
      let s := s.countEcc (s.core.cellar.mergeSingles o bs.length) 0
      .ok () ((s.modCellar fun c => c.write o bs).modField fun f => f.markDirty b.handle i bs.length)

/-- Release a buffer: every byte zero, every word empty, live count 0 (R324). -/
def State.padRelease (s : State) (b : Binding) : State :=
  let lo := b.off
  let hi := b.off + b.size * 4096
  let s := s.modCellar fun c => { c with bytes := memClear c.bytes lo hi, full := delRange (lo / 8) (hi / 8) c.full,
                                         err1 := delRange (lo / 8) (hi / 8) c.err1, err2 := delRange (lo / 8) (hi / 8) c.err2 }
  s.modField fun f => { f with bindings := f.bindings.map fun x =>
    if x.size != 0 && x.handle == b.handle then { x with dirty := [] } else x }

/-! ## Agents and numbers of engine contexts (R121, R372) -/

/-- The source class of an engine context. -/
def ctxClass (ctx : Nat) : BitVec 8 :=
  if ctx < 0x40 then 1 else if ctx < 0x48 then 2 else if ctx = 0x48 then 3 else if ctx = 0x49 then 4 else if ctx = 0x4A then 5 else 6

/-- The agent of an engine context. -/
def ctxAgent (ctx : Nat) : Agent :=
  if ctx < 0x40 then .port (BitVec.ofNat 6 ctx) else if ctx < 0x48 then .copy (BitVec.ofNat 3 ctx)
  else if ctx = 0x48 then .matrix else if ctx = 0x49 then .drill else if ctx = 0x4A then .ap else .loader

/-- A record of an engine context for a command. -/
def State.engineRec (s : State) (code : BitVec 8) (ctx : Nat) (num : Option Nat) : FRec :=
  { s.mkRec code (ctxClass ctx) (BitVec.ofNat 8 ctx) with seq := BitVec.ofNat 64 (num.getD 0) }

end Sys2Proof.Machine
end

