-- ==== Sys2Proof/Machine/Queues.lean ====
section
/-! DEFINITION. Timelines, queues, completion and notices (R107, R108, R145-R148, R362). -/

namespace Sys2Proof.Machine

/-! ## Numbers -/

/-- The engine context that a selector maps (R121). -/
def OnCore.tlCtx (o : OnCore) (tl : BitVec 4) : Option Nat :=
  let b := o.tlmap[tl.toNat]
  if b.getLsbD 7 then some (bits b.toNat 6 0) else none

/-- The engine context that a queue is bound to (R121). -/
def OnCore.queueCtx (o : OnCore) (q : BitVec 3) : Option Nat :=
  let b := o.qmap[q.toNat]
  if b.getLsbD 7 then some (bits b.toNat 6 0) else none

/-- The selector that maps an engine context. -/
def OnCore.ctxTl (o : OnCore) (ctx : Nat) : Option (BitVec 4) :=
  ((List.range 16).find? fun i => o.tlCtx (BitVec.ofNat 4 i) == some ctx).map (BitVec.ofNat 4)

/-- The queue bound to an engine context. -/
def OnCore.ctxQueue (o : OnCore) (ctx : Nat) : Option (BitVec 3) :=
  ((List.range 8).find? fun i => o.queueCtx (BitVec.ofNat 3 i) == some ctx).map (BitVec.ofNat 3)

/-- Take the next number on a mapped selector (R108). -/
def Queues.take (q : Queues) (o : OnCore) (tl : BitVec 4) : Option Nat × Queues :=
  match o.tlCtx tl with
  | none => (none, q)
  | some _ => let n := q.issued[tl.toNat] + 1; (some n, { q with issued := q.issued.set tl.toNat n })

/-- Advance a completed prefix over the numbers completed above it. -/
def advancePrefix (above : List (Nat × Nat)) (tl : Nat) : Nat → Nat → Nat
  | 0, c => c
  | k + 1, c => if above.contains (tl, c + 1) then advancePrefix above tl k (c + 1) else c

/-- Number n of a selector completes: the prefix advances over every completed number (R362). -/
def Queues.complete (q : Queues) (tl n : Nat) (h : tl < 16 := by omega) : Queues :=
  let c := q.completed[tl]
  if n ≤ c || q.above.contains (tl, n) then q
  else
    let above := (tl, n) :: q.above
    let c' := advancePrefix above tl above.length c
    { q with completed := q.completed.set tl c', above := above.filter fun e => !(e.1 == tl && decide (e.2 ≤ c')) }

/-- Complete a number on a selector, when there is one. -/
def State.completeNum (s : State) (tl : BitVec 4) (n : Option Nat) : State :=
  match n with
  | none => s
  | some n => s.modQs fun q => q.complete tl.toNat n tl.isLt

/-! ## Notices (R148) -/

/-- Endpoint of engine port epN (R180). -/
def epEndpoint (n : Nat) : BitVec 20 := BitVec.ofNat 20 (2 * 2 ^ 18 + n * 2 ^ 15)

/-- Endpoint of headland node n: 0-31 in, 32-63 out (R180). -/
def headEndpoint (n : Nat) : BitVec 20 := BitVec.ofNat 20 (1 * 2 ^ 18 + n * 2 ^ 12)

/-- The link that an endpoint produces into, with its position. -/
def Field.linkFrom (f : Field) (e : BitVec 20) : Option Nat := f.links.findIdx? fun l => l.prod == e

/-- The link that an endpoint consumes from, with its position. -/
def Field.linkTo (f : Field) (e : BitVec 20) : Option Nat := f.links.findIdx? fun l => l.cons == e

/-- Whether an ARMED region binds an engine or headland port (R143, R148, R181). -/
def Field.bound (f : Field) (engine : Bool) (port : Nat) : Bool :=
  f.bindings.any fun b => b.engine == engine && b.port == port && (f.regions.toList.getD b.region .reset).st = .armed

/-- A notice token's payload (R148). -/
def noticeWord (t : Tag) (ctx : Nat) : Word :=
  t.op ++ BitVec.ofNat 8 ctx ++ BitVec.ofNat 48 (t.num.getD 0)

/-- A command completes: its number, and its notice when it asked for one and ep6 is bound. -/
def State.finishNow (s : State) (ctx : Nat) (t : Tag) : State :=
  let s := s.completeNum t.tl t.num
  if t.notice && s.core.field.bound true 6 && (s.core.field.linkFrom (epEndpoint 6)).isSome then
    s.modQs fun q => { q with notices := q.notices ++ [noticeWord t ctx] }
  else s

/-- A command completes, once its unit's fault record has been written (R147, R370). -/
def State.finish (s : State) (ctx : Nat) (t : Tag) : State :=
  if s.core.fq.holds ctx then s.modQs fun q => { q with late := q.late ++ [(ctx, t)] } else s.finishNow ctx t

/-- The completions that waited for records which are now written. -/
def State.finishLate (s : State) : State :=
  let go := s.core.qs.late.filter fun e => !s.core.fq.holds e.1
  go.foldl (fun s e => s.finishNow e.1 e.2) (s.modQs fun q => { q with late := q.late.filter fun e => s.core.fq.holds e.1 })

/-! ## Starting a command -/

/-- The class of an engine context's commands (R66): 0 headland, 1 copy, 2 loader, 3 drill, 4 AP. -/
def classOfCtx (ctx : Nat) : Option Nat :=
  if ctx < 0x40 then some 0 else if ctx < 0x48 then some 1 else if ctx = 0x49 then some 3
  else if ctx = 0x4A then some 4 else if ctx = 0x4B then some 2 else none

/-- The engine class of an opcode (R66). -/
def classOfOp (op : BitVec 8) : Nat := op.toNat / 16

/-- The tag of the command in hand. -/
def State.tag (s : State) (h : CmdHdr) (op : BitVec 8) : Tag := ⟨s.core.qs.dlv.num, h.tl, h.notice, op, s.core.qs.dlv.sup⟩

/-- The context of the command in hand. -/
def State.ctx (s : State) : Nat := s.core.qs.dlv.ctx.toNat

/-- Whether an engine checks accesses of the command in hand as USER (R376). -/
def Tag.user (t : Tag) : Bool := !t.sup

/-- The checks before the operands: flags, class, timeline and context (R145, R167 steps 2 and 3). -/
def State.preCheck (s : State) (h : CmdHdr) (op : BitVec 8) : Option (BitVec 8) :=
  if h.rsv ≠ 0 then some 0x50
  else if classOfCtx s.ctx ≠ some (classOfOp op) then some 0x53
  else if s.core.on.tlCtx h.tl ≠ some s.ctx then some 0x53
  else none

/-- The last fault code of the drill or of the AP (R285, R317). -/
def State.noteCode (s : State) (ctx : Nat) (code : BitVec 8) : State :=
  if ctx = 0x49 then s.modCore fun c => { c with drill := { c.drill with code := code } }
  else if ctx = 0x4A then s.modCore fun c => { c with ap := { c.ap with code := code } } else s

/-- A command that faults with 0x50-0x54: record, then its number counts as completed (R147). -/
def State.cmdFault (s : State) (h : CmdHdr) (op code : BitVec 8) (addr : Word := 0) : State :=
  ((s.report { s.engineRec code s.ctx s.core.qs.dlv.num with addr := addr }).noteCode s.ctx code).finish s.ctx (s.tag h op)

/-- Run a command after its checks: the first code that applies, or the effect. -/
def State.checked (s : State) (h : CmdHdr) (op : BitVec 8) (codes : List (Option (BitVec 8))) (f : State → State) : State :=
  match ((s.preCheck h op) :: codes).findSome? id with
  | some c => s.cmdFault h op c
  | none => f s

/-- A check as a code. -/
def failIf (b : Bool) (code : BitVec 8) : Option (BitVec 8) := if b then some code else none

end Sys2Proof.Machine
end

