-- ==== Sys2Proof/Machine/Operands.lean ====
section
/-! DEFINITION. Operand forms of the scalar words (R60-R64, R93, R94, R98, R102, R106) and the scalar accesses. -/

namespace Sys2Proof.Machine

/-- A 12-bit immediate, sign-extended. -/
def imm12s (imm : BitVec 12) : Word := imm.signExtend 64

/-- A 12-bit immediate, zero-extended. -/
def imm12z (imm : BitVec 12) : Word := imm.setWidth 64

/-- The 17-bit pattern at bits [28:12], sign-extended from bit 28 (R94). -/
def imm17v (imm : BitVec 17) : Word := (imm ++ 0#12).signExtend 64

/-- The 5-bit immediate of CMP, sign-extended (R98). -/
def imm5s (imm : BitVec 5) : Word := imm.signExtend 64

/-- The exact target of BR and CALL (R99). -/
def branchTarget (pc : Word) (off : BitVec 22) : Int := pc.toInt + 4 * off.toInt

/-- The exact effective address of a scalar access (R102). -/
def State.ea (s : State) (ga : BitVec 5) (imm : BitVec 12) : Int := (s.g ga).toInt + imm.toInt

/-- The two-register ALU functions (R92). -/
inductive AluOp where
  | add | sub | and | or | xor | andn | sll | srl | sra | min | max | minu | maxu
  deriving DecidableEq, Repr

/-- The result of an ALU function (R92). -/
def alu (op : AluOp) (a b : Word) : Word :=
  match op with
  | .add => a + b
  | .sub => a - b
  | .and => a &&& b
  | .or => a ||| b
  | .xor => a ^^^ b
  | .andn => a &&& ~~~b
  | .sll => a <<< (b.toNat % 64)
  | .srl => a >>> (b.toNat % 64)
  | .sra => a.sshiftRight (b.toNat % 64)
  | .min => if a.slt b then a else b
  | .max => if a.slt b then b else a
  | .minu => if a.ult b then a else b
  | .maxu => if a.ult b then b else a

/-- The multiply and divide functions (R95). -/
inductive MulOp where
  | mul | mulh | mulhu | div | divu | rem | remu
  deriving DecidableEq, Repr

/-- The result of a multiply or divide (R95). -/
def muldiv (op : MulOp) (a b : Word) : Word :=
  match op with
  | .mul => a * b
  | .mulh => BitVec.ofInt 64 (a.toInt * b.toInt / 2 ^ 64)
  | .mulhu => BitVec.ofNat 64 (a.toNat * b.toNat / 2 ^ 64)
  | .div => if b = 0 then BitVec.allOnes 64 else BitVec.ofInt 64 (a.toInt.tdiv b.toInt)
  | .divu => if b = 0 then BitVec.allOnes 64 else a / b
  | .rem => if b = 0 then a else BitVec.ofInt 64 (a.toInt.tmod b.toInt)
  | .remu => if b = 0 then a else a % b

/-- Leading zero bits among the low n bits of a word. -/
def leadZeros (x : Nat) : Nat → Nat
  | 0 => 0
  | n + 1 => if x.testBit n then 0 else 1 + leadZeros x n

/-- CMDF (R106). -/
def insertField (gd ga : Word) (pos width : Nat) : Word :=
  let mask : Word := BitVec.ofNat 64 ((2 ^ width - 1) * 2 ^ pos)
  (gd &&& ~~~mask) ||| ((ga <<< pos) &&& mask)

/-- An instruction that writes gd and retires. -/
def State.writeG (s : State) (gd : BitVec 5) (v : Word) : State := (s.setG gd v).retire

/-- Extension of a loaded value (R103). -/
def extend (sign : Bool) (n : Nat) (v : Nat) : Word :=
  if sign then BitVec.ofInt 64 (signed (8 * n) v) else BitVec.ofNat 64 v

/-- The address checks of a scalar access, then translation (R102): the leaf, or the trapped state. -/
def State.scalarPlace (s : State) (k : Kind) (ea : Int) (n : Nat) : Except State Phys × State :=
  if !canonical ea then (.error (s.trap 0x22 (wordOf ea)), s)
  else if ea % n ≠ 0 then (.error (s.trap 0x13 (wordOf ea)), s)
  else match s.xlateStrand k ea with
    | (.error c, s) => (.error (s.trap c (wordOf ea)), s)
    | (.ok x, s) => (.ok x, s)

/-- A scalar load of n bytes: the value goes on to f; a deferred load waits at its pc (R349, R115). -/
def State.scalarLoad (s : State) (ea : Int) (n : Nat) (f : Nat → State → State) : State :=
  match s.scalarPlace .load ea n with
  | (.error t, _) => t
  | (.ok x, s) =>
    match s.readPhys .strand x ea n 0 with
    | .ok bs s => f (ofBytes bs) s
    | .wait s => s
    | .fault c _ s => s.trap c (wordOf ea)

/-- The record of a scalar store that would merge with an uncorrectable word (R390). -/
def State.storeMergeRec (s : State) (ea : Int) : State :=
  (s.countEcc 0 1).report { s.mkRec 0x32 0 0 with addr := wordOf ea, iaddr := s.pc }

/-- A scalar store: it retires when accepted, but on a ONCE page its home decides first (R104, R346). -/
def State.scalarStore (s : State) (ea : Int) (bs : List Byte) : State :=
  match s.scalarPlace .store ea bs.length with
  | (.error t, _) => t
  | (.ok x, s) =>
    if x.ext.once then
      match s.onceWrite ea x.pa bs with
      | .ok _ s => s.retire
      | .wait s => s
      | .fault c _ s => s.trap c (wordOf ea)
    else match s.strandPut x.pa bs with
      | some s => s.retire
      | none => (s.storeMergeRec ea).retire

end Sys2Proof.Machine
end

