-- ==== Sys2Proof/Machine/Alu.lean ====
section
/-! DEFINITION. The meanings of the arithmetic scalar words: ALU, immediates, MULDIV, LUI and ADDPC, SEL, BITS, CMP, CMDF (R92-R98, R106). -/

namespace Sys2Proof.Machine

/-- What every meaning answers. -/
abbrev Out := Host.Outcome State Fault Refusal

/-- ADD (R92). -/
def execAdd (q : Guard) (gd ga gb : BitVec 5) (s : State) : Out :=
  .next (s.guarded q fun s => s.writeG gd (alu .add (s.g ga) (s.g gb)))

/-- SUB (R92). -/
def execSub (q : Guard) (gd ga gb : BitVec 5) (s : State) : Out :=
  .next (s.guarded q fun s => s.writeG gd (alu .sub (s.g ga) (s.g gb)))

/-- AND (R92). -/
def execAnd (q : Guard) (gd ga gb : BitVec 5) (s : State) : Out :=
  .next (s.guarded q fun s => s.writeG gd (alu .and (s.g ga) (s.g gb)))

/-- OR (R92). -/
def execOr (q : Guard) (gd ga gb : BitVec 5) (s : State) : Out :=
  .next (s.guarded q fun s => s.writeG gd (alu .or (s.g ga) (s.g gb)))

/-- XOR (R92). -/
def execXor (q : Guard) (gd ga gb : BitVec 5) (s : State) : Out :=
  .next (s.guarded q fun s => s.writeG gd (alu .xor (s.g ga) (s.g gb)))

/-- ANDN (R92). -/
def execAndn (q : Guard) (gd ga gb : BitVec 5) (s : State) : Out :=
  .next (s.guarded q fun s => s.writeG gd (alu .andn (s.g ga) (s.g gb)))

/-- SLL (R92). -/
def execSll (q : Guard) (gd ga gb : BitVec 5) (s : State) : Out :=
  .next (s.guarded q fun s => s.writeG gd (alu .sll (s.g ga) (s.g gb)))

/-- SRL (R92). -/
def execSrl (q : Guard) (gd ga gb : BitVec 5) (s : State) : Out :=
  .next (s.guarded q fun s => s.writeG gd (alu .srl (s.g ga) (s.g gb)))

/-- SRA (R92). -/
def execSra (q : Guard) (gd ga gb : BitVec 5) (s : State) : Out :=
  .next (s.guarded q fun s => s.writeG gd (alu .sra (s.g ga) (s.g gb)))

/-- MIN (R92). -/
def execMin (q : Guard) (gd ga gb : BitVec 5) (s : State) : Out :=
  .next (s.guarded q fun s => s.writeG gd (alu .min (s.g ga) (s.g gb)))

/-- MAX (R92). -/
def execMax (q : Guard) (gd ga gb : BitVec 5) (s : State) : Out :=
  .next (s.guarded q fun s => s.writeG gd (alu .max (s.g ga) (s.g gb)))

/-- MINU (R92). -/
def execMinu (q : Guard) (gd ga gb : BitVec 5) (s : State) : Out :=
  .next (s.guarded q fun s => s.writeG gd (alu .minu (s.g ga) (s.g gb)))

/-- MAXU (R92). -/
def execMaxu (q : Guard) (gd ga gb : BitVec 5) (s : State) : Out :=
  .next (s.guarded q fun s => s.writeG gd (alu .maxu (s.g ga) (s.g gb)))

/-- ADDI: the immediate sign-extended (R93). -/
def execAddi (q : Guard) (gd ga : BitVec 5) (imm : BitVec 12) (s : State) : Out :=
  .next (s.guarded q fun s => s.writeG gd (alu .add (s.g ga) (imm12s imm)))

/-- ANDI: the immediate sign-extended (R93). -/
def execAndi (q : Guard) (gd ga : BitVec 5) (imm : BitVec 12) (s : State) : Out :=
  .next (s.guarded q fun s => s.writeG gd (alu .and (s.g ga) (imm12s imm)))

/-- ORI: the immediate zero-extended (R93). -/
def execOri (q : Guard) (gd ga : BitVec 5) (imm : BitVec 12) (s : State) : Out :=
  .next (s.guarded q fun s => s.writeG gd (alu .or (s.g ga) (imm12z imm)))

/-- XORI: the immediate zero-extended (R93). -/
def execXori (q : Guard) (gd ga : BitVec 5) (imm : BitVec 12) (s : State) : Out :=
  .next (s.guarded q fun s => s.writeG gd (alu .xor (s.g ga) (imm12z imm)))

/-- SLLI (R93). -/
def execSlli (q : Guard) (gd ga : BitVec 5) (n : BitVec 6) (s : State) : Out :=
  .next (s.guarded q fun s => s.writeG gd (alu .sll (s.g ga) (n.setWidth 64)))

/-- SRLI (R93). -/
def execSrli (q : Guard) (gd ga : BitVec 5) (n : BitVec 6) (s : State) : Out :=
  .next (s.guarded q fun s => s.writeG gd (alu .srl (s.g ga) (n.setWidth 64)))

/-- SRAI (R93). -/
def execSrai (q : Guard) (gd ga : BitVec 5) (n : BitVec 6) (s : State) : Out :=
  .next (s.guarded q fun s => s.writeG gd (alu .sra (s.g ga) (n.setWidth 64)))

/-- MUL (R95). -/
def execMul (q : Guard) (gd ga gb : BitVec 5) (s : State) : Out :=
  .next (s.guarded q fun s => s.writeG gd (muldiv .mul (s.g ga) (s.g gb)))

/-- MULH (R95). -/
def execMulh (q : Guard) (gd ga gb : BitVec 5) (s : State) : Out :=
  .next (s.guarded q fun s => s.writeG gd (muldiv .mulh (s.g ga) (s.g gb)))

/-- MULHU (R95). -/
def execMulhu (q : Guard) (gd ga gb : BitVec 5) (s : State) : Out :=
  .next (s.guarded q fun s => s.writeG gd (muldiv .mulhu (s.g ga) (s.g gb)))

/-- DIV (R95). -/
def execDiv (q : Guard) (gd ga gb : BitVec 5) (s : State) : Out :=
  .next (s.guarded q fun s => s.writeG gd (muldiv .div (s.g ga) (s.g gb)))

/-- DIVU (R95). -/
def execDivu (q : Guard) (gd ga gb : BitVec 5) (s : State) : Out :=
  .next (s.guarded q fun s => s.writeG gd (muldiv .divu (s.g ga) (s.g gb)))

/-- REM (R95). -/
def execRem (q : Guard) (gd ga gb : BitVec 5) (s : State) : Out :=
  .next (s.guarded q fun s => s.writeG gd (muldiv .rem (s.g ga) (s.g gb)))

/-- REMU (R95). -/
def execRemu (q : Guard) (gd ga gb : BitVec 5) (s : State) : Out :=
  .next (s.guarded q fun s => s.writeG gd (muldiv .remu (s.g ga) (s.g gb)))

/-- LUI (R94). -/
def execLui (q : Guard) (gd : BitVec 5) (imm : BitVec 17) (s : State) : Out :=
  .next (s.guarded q fun s => s.writeG gd (imm17v imm))

/-- ADDPC: the address of the word plus the pattern, modulo 2^64 (R94). -/
def execAddpc (q : Guard) (gd : BitVec 5) (imm : BitVec 17) (s : State) : Out :=
  .next (s.guarded q fun s => s.writeG gd (s.pc + imm17v imm))

/-- SEL: ga when pN XOR fn[3] holds, else gb (R96). -/
def execSel (q : Guard) (gd ga gb : BitVec 5) (neg : Bool) (p : BitVec 3) (s : State) : Out :=
  .next (s.guarded q fun s => s.writeG gd (if s.p p != neg then s.g ga else s.g gb))

/-- CLZ (R97). -/
def execClz (q : Guard) (gd ga : BitVec 5) (s : State) : Out :=
  .next (s.guarded q fun s => s.writeG gd (BitVec.ofNat 64 (leadZeros (s.g ga).toNat 64)))

/-- POPC (R97). -/
def execPopc (q : Guard) (gd ga : BitVec 5) (s : State) : Out :=
  .next (s.guarded q fun s => s.writeG gd (BitVec.ofNat 64 (popcount (s.g ga).toNat 64)))

/-- CMP with a register (R98). -/
def execCmp (q : Guard) (pd : BitVec 3) (cmb : BitVec 2) (ga gb : BitVec 5) (cond : BitVec 3) (s : State) : Out :=
  .next (s.guarded q fun s => (s.setP pd (combine cmb (s.p pd) (condOf cond (s.g ga) (s.g gb)))).retire)

/-- CMP with an immediate (R98). -/
def execCmpImm (q : Guard) (pd : BitVec 3) (cmb : BitVec 2) (ga : BitVec 5) (imm : BitVec 5) (cond : BitVec 3) (s : State) : Out :=
  .next (s.guarded q fun s => (s.setP pd (combine cmb (s.p pd) (condOf cond (s.g ga) (imm5s imm)))).retire)

/-- CMDF; a word whose pos + width exceeds 64 never decodes to it (R106). -/
def execCmdf (q : Guard) (gd ga : BitVec 5) (pos width : BitVec 6) (s : State) : Out :=
  .next (s.guarded q fun s => s.writeG gd (insertField (s.g gd) (s.g ga) pos.toNat (width.toNat + 1)))

end Sys2Proof.Machine
end

