-- ==== Sys2Proof/Decode.lean ====
section
/-! DEFINITION. The decoder, total on any word, and the encoder, both from the encoding tables of 03 (R58-R75). -/

namespace Sys2Proof

/-! ## Control-register numbers -/

/-- The numbers that name a control register (R88, R122, R168, R241, R285, R299, R317, R321, R364, R395). -/
def crExists (n : BitVec 12) : Bool :=
  let k := n.toNat
  k ≤ 0x008 || k == 0x010 || k == 0x011 || (0x020 ≤ k && k ≤ 0x027) || (0x030 ≤ k && k ≤ 0x034) ||
  k == 0x040 || (0x080 ≤ k && k ≤ 0x084) || k == 0x100 || k == 0x101 || (0x180 ≤ k && k ≤ 0x185) ||
  (0x200 ≤ k && k ≤ 0x20B) || k == 0x280 || k == 0x281 || k == 0x2C0 || (0x300 ≤ k && k ≤ 0x303) ||
  (0x310 ≤ k && k ≤ 0x31F) || k == 0x340 || (0x380 ≤ k && k ≤ 0x39F) || k == 0x3A0

/-! ## Scalar words -/

/-- What the map of a word gives: the instruction, or none for an empty cell or fn (0x10), and whether a reserved field is non-zero (0x11). -/
abbrev Cell32 := Option Instr × Bool

/-- The instruction with a reserved field's value: non-zero earns 0x11 (R61). -/
def cell (i : Instr) (rsv : Bool) : Cell32 := (some i, rsv)

/-- An empty cell (R63). -/
def empty32 : Cell32 := (none, false)

section
variable (q : Guard) (gd ga gb : BitVec 5) (fn : BitVec 7)

/-- The ALU group (R64, R92). -/
def decAlu : Cell32 :=
  match fn.toNat with
  | 0 => cell (.add q gd ga gb) false
  | 1 => cell (.sub q gd ga gb) false
  | 2 => cell (.and q gd ga gb) false
  | 3 => cell (.or q gd ga gb) false
  | 4 => cell (.xor q gd ga gb) false
  | 5 => cell (.andn q gd ga gb) false
  | 6 => cell (.sll q gd ga gb) false
  | 7 => cell (.srl q gd ga gb) false
  | 8 => cell (.sra q gd ga gb) false
  | 9 => cell (.min q gd ga gb) false
  | 10 => cell (.max q gd ga gb) false
  | 11 => cell (.minu q gd ga gb) false
  | 12 => cell (.maxu q gd ga gb) false
  | _ => empty32

/-- The MULDIV group (R64, R95). -/
def decMulDiv : Cell32 :=
  match fn.toNat with
  | 0 => cell (.mul q gd ga gb) false
  | 1 => cell (.mulh q gd ga gb) false
  | 2 => cell (.mulhu q gd ga gb) false
  | 3 => cell (.div q gd ga gb) false
  | 4 => cell (.divu q gd ga gb) false
  | 5 => cell (.rem q gd ga gb) false
  | 6 => cell (.remu q gd ga gb) false
  | _ => empty32

/-- The SYNC group: scope in fn[6:4], instruction in fn[3:0] (R344, R361). -/
def decSync : Cell32 :=
  let scope := fn.extractLsb' 4 3
  let none3 := gd != 0 || ga != 0 || gb != 0
  match (fn.extractLsb' 0 4).toNat with
  | 0 => cell (.fence q scope) none3
  | 1 => cell (.ldaZ8 q gd ga scope) (gb != 0)
  | 2 => cell (.ldaZ16 q gd ga scope) (gb != 0)
  | 3 => cell (.ldaZ32 q gd ga scope) (gb != 0)
  | 4 => cell (.lda64 q gd ga scope) (gb != 0)
  | 5 => cell (.stl8 q gd ga scope) (gb != 0)
  | 6 => cell (.stl16 q gd ga scope) (gb != 0)
  | 7 => cell (.stl32 q gd ga scope) (gb != 0)
  | 8 => cell (.stl64 q gd ga scope) (gb != 0)
  | 9 => cell (.bar q scope) none3
  | _ => empty32

/-- The ATOM group: operation in fn[3:1], size in fn[0] (R345). -/
def decAtom : Cell32 :=
  let scope := fn.extractLsb' 4 3
  let wide := fn.getLsbD 0
  match (fn.extractLsb' 1 3).toNat with
  | 0 => cell (.atomAdd q gd ga gb scope wide) false
  | 1 => cell (.atomAnd q gd ga gb scope wide) false
  | 2 => cell (.atomOr q gd ga gb scope wide) false
  | 3 => cell (.atomXor q gd ga gb scope wide) false
  | 4 => cell (.atomMin q gd ga gb scope wide) false
  | 5 => cell (.atomMax q gd ga gb scope wide) false
  | 6 => cell (.atomSwap q gd ga gb scope wide) false
  | _ => cell (.atomCas q gd ga gb scope wide) false

/-- The ONCE group (R348). -/
def decOnce : Cell32 :=
  let scope := fn.extractLsb' 4 3
  match (fn.extractLsb' 0 4).toNat with
  | 0 => cell (.clearw q ga gb scope) (gd != 0)
  | 1 => cell (.pres q gd ga scope) (gb != 0)
  | _ => empty32

/-- The LAUNCH group (R123, R124, R126). -/
def decLaunch : Cell32 :=
  match fn.toNat with
  | 0 => cell (.patch q gd ga gb) false
  | 1 => cell (.arm q gd ga) (gb != 0)
  | 2 => cell (.lstat q gd ga) (gb != 0)
  | _ => empty32

/-- The EXIT group (R133, R135). -/
def decExit : Cell32 :=
  match fn.toNat with
  | 0 => cell (.exit q ga) (gd != 0 || gb != 0)
  | 1 => cell (.exitx q ga) (gd != 0 || gb != 0)
  | 2 => cell (.yield q gd) (ga != 0 || gb != 0)
  | _ => empty32

/-- The CELLAR group (R325, R331-R336). -/
def decCellar : Cell32 :=
  match fn.toNat with
  | 0 => cell (.wall q gd ga) (gb != 0)
  | 1 => cell (.wqry q gd ga) (gb != 0)
  | 2 => cell (.stash q gd ga gb) false
  | 3 => cell (.unstash q gd ga) (gb != 0)
  | 4 => cell (.drain q gd ga) (gb != 0)
  | _ => empty32

/-- The SYS group (R112). -/
def decSys : Cell32 :=
  let none3 := gd != 0 || ga != 0 || gb != 0
  match fn.toNat with
  | 0 => cell (.trap q) none3
  | 1 => cell (.brk q) none3
  | 2 => cell (.eret q) none3
  | _ => empty32

/-- BITS: gb is reserved (R97). -/
def decBits : Cell32 :=
  match fn.toNat with
  | 0 => cell (.clz q gd ga) (gb != 0)
  | 1 => cell (.popc q gd ga) (gb != 0)
  | _ => empty32

/-- SEL: fn[6:4] is reserved (R96). -/
def decSel : Cell32 :=
  cell (.sel q gd ga gb (fn.getLsbD 3) (fn.extractLsb' 0 3)) (fn.extractLsb' 4 3 != 0)

/-- CMP: fn[5:3] is reserved and condition 7 is no condition (R62, R98). -/
def decCmp : Cell32 :=
  let pd := gd.extractLsb' 2 3
  let cmb := gd.extractLsb' 0 2
  let cond := fn.extractLsb' 0 3
  let rsv := fn.extractLsb' 3 3 != 0
  if cond = 7 then (none, rsv)
  else if fn.getLsbD 6 then cell (.cmpImm q pd cmb ga gb cond) rsv
  else cell (.cmp q pd cmb ga gb cond) rsv

/-- ISSUE: Q form, bits [18:17] reserved, fn 0 (R64, R107). -/
def decIssue : Cell32 :=
  let rsv := gd.extractLsb' 0 2 != 0
  if fn = 0 then cell (.issue q (gd.extractLsb' 2 3) ga gb) rsv else (none, rsv)

/-- WAITC: fn 0, gd and gb reserved (R136). -/
def decWaitc : Cell32 :=
  if fn = 0 then cell (.waitc q ga) (gd != 0 || gb != 0) else empty32
end

/-- The immediate shifts: imm12[11:6] reserved (R93). -/
def decShift (f : BitVec 6 → Instr) (imm : BitVec 12) : Cell32 :=
  cell (f (imm.extractLsb' 0 6)) (imm.extractLsb' 6 6 != 0)

/-- CMDF: pos + width above 64 is a reserved encoding (R106). -/
def decCmdf (q : Guard) (gd ga : BitVec 5) (imm : BitVec 12) : Cell32 :=
  let pos := imm.extractLsb' 6 6
  let width := imm.extractLsb' 0 6
  cell (.cmdf q gd ga pos width) (64 < pos.toNat + width.toNat + 1)

/-- MFCR and MTCR: a number that names no register earns 0x10 (R61). -/
def decCr (i : Instr) (cr : BitVec 12) (rsv : Bool) : Cell32 :=
  if crExists cr then cell i rsv else (none, rsv)

/-- The scalar opcode map (R63). -/
def decodeCell (w : BitVec 32) (q : Guard) : Cell32 :=
  let gd := w.extractLsb' 17 5
  let ga := w.extractLsb' 12 5
  let gb := w.extractLsb' 7 5
  let fn := w.extractLsb' 0 7
  let imm := w.extractLsb' 0 12
  let imm17 := w.extractLsb' 0 17
  let off := w.extractLsb' 0 22
  match (w.extractLsb' 22 6).toNat with
  | 0x00 => decAlu q gd ga gb fn
  | 0x01 => cell (.addi q gd ga imm) false
  | 0x02 => cell (.andi q gd ga imm) false
  | 0x03 => cell (.ori q gd ga imm) false
  | 0x04 => cell (.xori q gd ga imm) false
  | 0x05 => decShift (.slli q gd ga) imm
  | 0x06 => decShift (.srli q gd ga) imm
  | 0x07 => decShift (.srai q gd ga) imm
  | 0x08 => decMulDiv q gd ga gb fn
  | 0x09 => cell (.lui q gd imm17) false
  | 0x0A => cell (.addpc q gd imm17) false
  | 0x0B => decSel q gd ga gb fn
  | 0x0C => decBits q gd ga gb fn
  | 0x10 => decCmp q gd ga gb fn
  | 0x18 => cell (.br q off) false
  | 0x19 => cell (.call q off) false
  | 0x1A => cell (.jmp q gd ga imm) false
  | 0x20 => cell (.ldS8 q gd ga imm) false
  | 0x21 => cell (.ldZ8 q gd ga imm) false
  | 0x22 => cell (.ldS16 q gd ga imm) false
  | 0x23 => cell (.ldZ16 q gd ga imm) false
  | 0x24 => cell (.ldS32 q gd ga imm) false
  | 0x25 => cell (.ldZ32 q gd ga imm) false
  | 0x26 => cell (.ld64 q gd ga imm) false
  | 0x28 => cell (.st8 q gd ga imm) false
  | 0x29 => cell (.st16 q gd ga imm) false
  | 0x2A => cell (.st32 q gd ga imm) false
  | 0x2B => cell (.st64 q gd ga imm) false
  | 0x2C => decSync q gd ga gb fn
  | 0x2D => decAtom q gd ga gb fn
  | 0x2E => decOnce q gd ga gb fn
  | 0x30 => decCmdf q gd ga imm
  | 0x31 => decIssue q gd ga gb fn
  | 0x32 => cell (.waitt q gd ga imm) (gd.getLsbD 4)
  | 0x33 => decWaitc q gd ga gb fn
  | 0x34 => decLaunch q gd ga gb fn
  | 0x35 => decExit q gd ga gb fn
  | 0x36 => decCellar q gd ga gb fn
  | 0x38 => decSys q gd ga gb fn
  | 0x39 => decCr (.mfcr q gd imm) imm (ga != 0)
  | 0x3A => decCr (.mtcr q imm ga) imm (gd != 0)
  | _ => empty32

/-- The guard of a word (R58). -/
def guardOf (w : BitVec 32) : Guard := ⟨w.getLsbD 31, w.extractLsb' 28 3⟩

/-- A negated guard of p0 is a reserved encoding (R58). -/
def Guard.ok (q : Guard) : Bool := !(q.neg && q.p == 0)

/-- The codes that a word earns at decode (R59): 0x10, 0x11, 0x14. -/
def encodingCodes (q : Guard) (c : Cell32) : List (BitVec 8) :=
  (if c.1.isNone then [0x10#8] else []) ++ (if c.2 then [0x11#8] else []) ++ (if q.ok then [] else [0x14#8])

/-- The scalar decoder: the instruction, or the codes of a reserved encoding (R59). -/
def decodeScalar (w : BitVec 32) : Except (List (BitVec 8)) Instr :=
  let q := guardOf w
  match decodeCell w q with
  | (some i, false) => if q.ok then .ok i else .error [0x14#8]
  | c => .error (encodingCodes q c)

/-! ## Stream commands -/

/-- Bits [119:112] of a command (R65). -/
def hdrOf (w : BitVec 128) : CmdHdr := ⟨w.extractLsb' 116 4, w.extractLsb' 113 3, w.getLsbD 112⟩

/-- Operands of LOADS and STORES (R157). -/
def streamOpsOf (w : BitVec 128) : StreamOps :=
  ⟨w.extractLsb' 55 57, w.extractLsb' 50 5, w.extractLsb' 44 6, w.extractLsb' 42 2, w.extractLsb' 22 20, w.extractLsb' 0 22⟩

/-- Operands of GATHER, SCATTER and SCADD (R158). -/
def indexOpsOf (w : BitVec 128) : IndexOps :=
  ⟨w.extractLsb' 55 57, w.extractLsb' 50 5, w.extractLsb' 44 6, w.extractLsb' 42 2, w.extractLsb' 22 20, w.extractLsb' 0 22⟩

/-- Operands of the hints (R164). -/
def hintOpsOf (w : BitVec 128) : HintOps :=
  ⟨w.extractLsb' 55 57, w.extractLsb' 15 40, w.extractLsb' 13 2, w.extractLsb' 0 13⟩

/-- Operands of DRILLRUN (R310). -/
def drillOpsOf (w : BitVec 128) : DrillOps :=
  ⟨w.extractLsb' 92 20, w.getLsbD 91, w.getLsbD 90, w.getLsbD 89, w.getLsbD 88, w.extractLsb' 70 18, w.extractLsb' 58 12,
   w.extractLsb' 40 18, w.extractLsb' 28 12, w.extractLsb' 0 28⟩

/-- The stream decoder (R65-R67), total: an empty cell is the table's own row. -/
def decodeStream (w : BitVec 128) : Instr :=
  let h := hdrOf w
  let a57 := w.extractLsb' 55 57
  let r55 := w.extractLsb' 0 55
  let d51 := w.extractLsb' 61 51
  match (w.extractLsb' 120 8).toNat with
  | 0x01 => .loads h (streamOpsOf w)
  | 0x02 => .stores h (streamOpsOf w)
  | 0x03 => .dims h (w.extractLsb' 109 3) (w.extractLsb' 0 109)
  | 0x04 => .gather h (indexOpsOf w)
  | 0x05 => .scatter h (indexOpsOf w)
  | 0x06 => .scadd h (indexOpsOf w)
  | 0x07 => .push h (w.extractLsb' 80 32) (w.extractLsb' 64 16) (w.extractLsb' 0 64)
  | 0x08 => .pushi h (w.extractLsb' 80 32) (w.extractLsb' 64 16) (w.extractLsb' 40 24) (w.extractLsb' 0 40)
  | 0x09 => .mark h (w.extractLsb' 72 40) (w.extractLsb' 64 8) (w.extractLsb' 32 32) (w.extractLsb' 3 29) (w.extractLsb' 0 3)
  | 0x0A => .accrst h a57 (w.extractLsb' 51 4) (w.extractLsb' 0 51)
  | 0x0B => .accrd h a57 (w.extractLsb' 51 4) (w.extractLsb' 0 51)
  | 0x0C => .resume h (w.extractLsb' 8 104) (w.extractLsb' 0 8)
  | 0x10 => .copy h a57 r55
  | 0x11 => .copy2 h a57 r55
  | 0x12 => .fill h a57 (w.extractLsb' 15 40) (w.extractLsb' 13 2) (w.extractLsb' 5 8) (w.extractLsb' 0 5)
  | 0x13 => .prefetch h (hintOpsOf w)
  | 0x14 => .reside h (hintOpsOf w)
  | 0x15 => .evict h (hintOpsOf w)
  | 0x20 =>
    if w.getLsbD 54 then
      .cfgldInband h a57 (w.extractLsb' 49 5) (w.extractLsb' 38 11) (w.extractLsb' 22 16) (w.extractLsb' 0 22)
    else .cfgld h a57 (w.extractLsb' 38 16) (w.extractLsb' 0 38)
  | 0x30 => .sow h a57 r55
  | 0x31 => .reap h a57 r55
  | 0x32 => .drillrun h (drillOpsOf w)
  | 0x40 => .bind h a57 (w.extractLsb' 53 2) (w.getLsbD 52) (w.extractLsb' 0 52)
  | 0x41 => .attn h a57 r55
  | 0x42 => .kvseq h d51 (w.extractLsb' 10 51) (w.extractLsb' 0 10)
  | 0x43 => .kvapp h d51 (w.extractLsb' 10 51) (w.extractLsb' 4 6) (w.getLsbD 3) (w.extractLsb' 0 3)
  | 0x44 => .kvbias h d51 (w.extractLsb' 55 6) (w.getLsbD 54) (w.extractLsb' 0 54)
  | 0x45 => .jmark h d51 (w.extractLsb' 0 61)
  | 0x46 => .jcommit h d51 (w.extractLsb' 0 61)
  | 0x47 => .jroll h d51 (w.getLsbD 60) (w.extractLsb' 28 32) (w.extractLsb' 0 28)
  | _ => .unassignedStreamOpcode h (w.extractLsb' 120 8) (w.extractLsb' 0 112)

/-! ## Matrix control tokens -/

/-- The fields of a matrix control token (R74). -/
def mtokOf (w : BitVec 64) : MTok :=
  ⟨w.extractLsb' 51 7, w.extractLsb' 44 7, w.extractLsb' 37 7, w.getLsbD 36, w.extractLsb' 32 4, w.extractLsb' 28 4,
   w.extractLsb' 23 5, w.extractLsb' 18 5, w.extractLsb' 0 18⟩

/-- The matrix decoder (R75), total: an unassigned operation is the table's own row. -/
def decodeMatrix (w : BitVec 64) : Instr :=
  match (w.extractLsb' 58 6).toNat with
  | 1 => .mma (mtokOf w)
  | 2 => .mmaz (mtokOf w)
  | 3 => .mvec (mtokOf w)
  | 4 => .mmac (mtokOf w)
  | 5 => .mdrn (mtokOf w)
  | 6 => .spma (mtokOf w)
  | 7 => .spmb (mtokOf w)
  | _ => .unassignedMatrixOperation (w.extractLsb' 58 6) (w.extractLsb' 0 58)

/-- The instruction the decoder reads from a row's bits: a scalar word of 32 bits, a matrix control token of 64, a stream command of 128. -/
def decodeTableWord (nbits w : Nat) : Option Instr :=
  match nbits with
  | 32 => match decodeScalar (BitVec.ofNat 32 w) with
    | .ok i => some i
    | .error _ => none
  | 64 => some (decodeMatrix (BitVec.ofNat 64 w))
  | 128 => some (decodeStream (BitVec.ofNat 128 w))
  | _ => none

/-! ## The encoder -/

/-- The words an instruction is written in. -/
inductive Words where
  | scalar (w : BitVec 32)
  | matrix (w : BitVec 64)
  | stream (w : BitVec 128)
  deriving DecidableEq, Repr

/-- R form (R60). -/
def encR (q : Guard) (op : BitVec 6) (gd ga gb : BitVec 5) (fn : BitVec 7) : Words :=
  .scalar (BitVec.ofBool q.neg ++ q.p ++ op ++ gd ++ ga ++ gb ++ fn)

/-- I and S form (R60). -/
def encI (q : Guard) (op : BitVec 6) (gd ga : BitVec 5) (imm : BitVec 12) : Words :=
  .scalar (BitVec.ofBool q.neg ++ q.p ++ op ++ gd ++ ga ++ imm)

/-- W form (R60). -/
def encW (q : Guard) (op : BitVec 6) (gd : BitVec 5) (imm : BitVec 17) : Words :=
  .scalar (BitVec.ofBool q.neg ++ q.p ++ op ++ gd ++ imm)

/-- B form (R60). -/
def encB (q : Guard) (op : BitVec 6) (off : BitVec 22) : Words :=
  .scalar (BitVec.ofBool q.neg ++ q.p ++ op ++ off)

/-- SYNC, ATOM and ONCE: scope above the four low bits of fn (R64). -/
def encScoped (q : Guard) (op : BitVec 6) (gd ga gb : BitVec 5) (scope : BitVec 3) (low : BitVec 4) : Words :=
  encR q op gd ga gb (scope ++ low)

/-- ATOM: operation and size (R345). -/
def encAtom (q : Guard) (gd ga gb : BitVec 5) (scope : BitVec 3) (op : BitVec 3) (wide : Bool) : Words :=
  encScoped q 0x2D gd ga gb scope (op ++ BitVec.ofBool wide)

/-- CMP: the P form (R62). -/
def encP (q : Guard) (pd : BitVec 3) (cmb : BitVec 2) (ga b : BitVec 5) (imm : Bool) (cond : BitVec 3) : Words :=
  .scalar (BitVec.ofBool q.neg ++ q.p ++ 0x10#6 ++ pd ++ cmb ++ ga ++ b ++ BitVec.ofBool imm ++ 0#3 ++ cond)

/-- A stream command: opcode, header, operands (R65). -/
def encS (op : BitVec 8) (h : CmdHdr) (body : BitVec 112) : Words :=
  .stream (op ++ h.tl ++ h.rsv ++ BitVec.ofBool h.notice ++ body)

/-- LOADS and STORES (R157). -/
def StreamOps.bits (o : StreamOps) : BitVec 112 := o.base ++ o.f ++ o.chain ++ o.hint ++ o.n0 ++ o.stride

/-- GATHER, SCATTER and SCADD (R158). -/
def IndexOps.bits (o : IndexOps) : BitVec 112 := o.base ++ o.f ++ o.chain ++ o.hint ++ o.len ++ o.count

/-- The hints (R164). -/
def HintOps.bits (o : HintOps) : BitVec 112 := o.addr ++ o.len ++ o.level ++ o.rsv

/-- DRILLRUN (R310). -/
def DrillOps.bits (o : DrillOps) : BitVec 112 :=
  o.count ++ BitVec.ofBool o.src ++ BitVec.ofBool o.dst ++ BitVec.ofBool o.outFmt ++ BitVec.ofBool o.inFmt ++
  o.inOff ++ o.inPitch ++ o.outOff ++ o.outPitch ++ o.rsv

/-- A matrix control token (R74). -/
def encM (op : BitVec 6) (t : MTok) : Words :=
  .matrix (op ++ t.m ++ t.n ++ t.k ++ BitVec.ofBool t.acc ++ t.sa ++ t.sb ++ t.fa ++ t.fb ++ t.loc)

/-- The words of an instruction; none for an event, which has no encoding. -/
def encode : Instr → Option Words
  | .add q gd ga gb => some (encR q 0x00 gd ga gb 0)
  | .sub q gd ga gb => some (encR q 0x00 gd ga gb 1)
  | .and q gd ga gb => some (encR q 0x00 gd ga gb 2)
  | .or q gd ga gb => some (encR q 0x00 gd ga gb 3)
  | .xor q gd ga gb => some (encR q 0x00 gd ga gb 4)
  | .andn q gd ga gb => some (encR q 0x00 gd ga gb 5)
  | .sll q gd ga gb => some (encR q 0x00 gd ga gb 6)
  | .srl q gd ga gb => some (encR q 0x00 gd ga gb 7)
  | .sra q gd ga gb => some (encR q 0x00 gd ga gb 8)
  | .min q gd ga gb => some (encR q 0x00 gd ga gb 9)
  | .max q gd ga gb => some (encR q 0x00 gd ga gb 10)
  | .minu q gd ga gb => some (encR q 0x00 gd ga gb 11)
  | .maxu q gd ga gb => some (encR q 0x00 gd ga gb 12)
  | .addi q gd ga imm => some (encI q 1 gd ga imm)
  | .andi q gd ga imm => some (encI q 2 gd ga imm)
  | .ori q gd ga imm => some (encI q 3 gd ga imm)
  | .xori q gd ga imm => some (encI q 4 gd ga imm)
  | .slli q gd ga n => some (encI q 5 gd ga (0#6 ++ n))
  | .srli q gd ga n => some (encI q 6 gd ga (0#6 ++ n))
  | .srai q gd ga n => some (encI q 7 gd ga (0#6 ++ n))
  | .mul q gd ga gb => some (encR q 0x08 gd ga gb 0)
  | .mulh q gd ga gb => some (encR q 0x08 gd ga gb 1)
  | .mulhu q gd ga gb => some (encR q 0x08 gd ga gb 2)
  | .div q gd ga gb => some (encR q 0x08 gd ga gb 3)
  | .divu q gd ga gb => some (encR q 0x08 gd ga gb 4)
  | .rem q gd ga gb => some (encR q 0x08 gd ga gb 5)
  | .remu q gd ga gb => some (encR q 0x08 gd ga gb 6)
  | .lui q gd imm => some (encW q 0x09 gd imm)
  | .addpc q gd imm => some (encW q 0x0A gd imm)
  | .sel q gd ga gb neg p => some (encR q 0x0B gd ga gb (0#3 ++ BitVec.ofBool neg ++ p))
  | .clz q gd ga => some (encR q 0x0C gd ga 0 0)
  | .popc q gd ga => some (encR q 0x0C gd ga 0 1)
  | .cmp q pd cmb ga gb cond => some (encP q pd cmb ga gb false cond)
  | .cmpImm q pd cmb ga imm cond => some (encP q pd cmb ga imm true cond)
  | .br q off => some (encB q 0x18 off)
  | .call q off => some (encB q 0x19 off)
  | .jmp q gd ga imm => some (encI q 0x1A gd ga imm)
  | .ldS8 q gd ga imm => some (encI q 0x20 gd ga imm)
  | .ldZ8 q gd ga imm => some (encI q 0x21 gd ga imm)
  | .ldS16 q gd ga imm => some (encI q 0x22 gd ga imm)
  | .ldZ16 q gd ga imm => some (encI q 0x23 gd ga imm)
  | .ldS32 q gd ga imm => some (encI q 0x24 gd ga imm)
  | .ldZ32 q gd ga imm => some (encI q 0x25 gd ga imm)
  | .ld64 q gd ga imm => some (encI q 0x26 gd ga imm)
  | .st8 q gd ga imm => some (encI q 0x28 gd ga imm)
  | .st16 q gd ga imm => some (encI q 0x29 gd ga imm)
  | .st32 q gd ga imm => some (encI q 0x2A gd ga imm)
  | .st64 q gd ga imm => some (encI q 0x2B gd ga imm)
  | .fence q scope => some (encScoped q 0x2C 0 0 0 scope 0)
  | .ldaZ8 q gd ga scope => some (encScoped q 0x2C gd ga 0 scope 1)
  | .ldaZ16 q gd ga scope => some (encScoped q 0x2C gd ga 0 scope 2)
  | .ldaZ32 q gd ga scope => some (encScoped q 0x2C gd ga 0 scope 3)
  | .lda64 q gd ga scope => some (encScoped q 0x2C gd ga 0 scope 4)
  | .stl8 q gd ga scope => some (encScoped q 0x2C gd ga 0 scope 5)
  | .stl16 q gd ga scope => some (encScoped q 0x2C gd ga 0 scope 6)
  | .stl32 q gd ga scope => some (encScoped q 0x2C gd ga 0 scope 7)
  | .stl64 q gd ga scope => some (encScoped q 0x2C gd ga 0 scope 8)
  | .bar q scope => some (encScoped q 0x2C 0 0 0 scope 9)
  | .atomAdd q gd ga gb scope wide => some (encAtom q gd ga gb scope 0 wide)
  | .atomAnd q gd ga gb scope wide => some (encAtom q gd ga gb scope 1 wide)
  | .atomOr q gd ga gb scope wide => some (encAtom q gd ga gb scope 2 wide)
  | .atomXor q gd ga gb scope wide => some (encAtom q gd ga gb scope 3 wide)
  | .atomMin q gd ga gb scope wide => some (encAtom q gd ga gb scope 4 wide)
  | .atomMax q gd ga gb scope wide => some (encAtom q gd ga gb scope 5 wide)
  | .atomSwap q gd ga gb scope wide => some (encAtom q gd ga gb scope 6 wide)
  | .atomCas q gd ga gb scope wide => some (encAtom q gd ga gb scope 7 wide)
  | .clearw q ga gb scope => some (encScoped q 0x2E 0 ga gb scope 0)
  | .pres q gd ga scope => some (encScoped q 0x2E gd ga 0 scope 1)
  | .cmdf q gd ga pos width => some (encI q 0x30 gd ga (pos ++ width))
  | .issue q qn ga gb => some (encR q 0x31 (qn ++ 0#2) ga gb 0)
  | .waitt q sel ga imm => some (encI q 0x32 sel ga imm)
  | .waitc q ga => some (encR q 0x33 0 ga 0 0)
  | .patch q gd ga gb => some (encR q 0x34 gd ga gb 0)
  | .arm q gd ga => some (encR q 0x34 gd ga 0 1)
  | .lstat q gd ga => some (encR q 0x34 gd ga 0 2)
  | .exit q ga => some (encR q 0x35 0 ga 0 0)
  | .exitx q ga => some (encR q 0x35 0 ga 0 1)
  | .yield q gd => some (encR q 0x35 gd 0 0 2)
  | .wall q gd ga => some (encR q 0x36 gd ga 0 0)
  | .wqry q gd ga => some (encR q 0x36 gd ga 0 1)
  | .stash q gd ga gb => some (encR q 0x36 gd ga gb 2)
  | .unstash q gd ga => some (encR q 0x36 gd ga 0 3)
  | .drain q gd ga => some (encR q 0x36 gd ga 0 4)
  | .trap q => some (encR q 0x38 0 0 0 0)
  | .brk q => some (encR q 0x38 0 0 0 1)
  | .eret q => some (encR q 0x38 0 0 0 2)
  | .mfcr q gd cr => some (encI q 0x39 gd 0 cr)
  | .mtcr q cr ga => some (encI q 0x3A 0 ga cr)
  | .asyncTrap => none
  | .loads h o => some (encS 0x01 h o.bits)
  | .stores h o => some (encS 0x02 h o.bits)
  | .dims h d body => some (encS 0x03 h (d ++ body))
  | .gather h o => some (encS 0x04 h o.bits)
  | .scatter h o => some (encS 0x05 h o.bits)
  | .scadd h o => some (encS 0x06 h o.bits)
  | .push h rsv n v => some (encS 0x07 h (rsv ++ n ++ v))
  | .pushi h start inc n rsv => some (encS 0x08 h (start ++ inc ++ n ++ rsv))
  | .mark h rsv kind count rsv2 level => some (encS 0x09 h (rsv ++ kind ++ count ++ rsv2 ++ level))
  | .accrst h base n rsv => some (encS 0x0A h (base ++ n ++ rsv))
  | .accrd h base n rsv => some (encS 0x0B h (base ++ n ++ rsv))
  | .resume h rsv ctx => some (encS 0x0C h (rsv ++ ctx))
  | .copy h desc rsv => some (encS 0x10 h (desc ++ rsv))
  | .copy2 h desc rsv => some (encS 0x11 h (desc ++ rsv))
  | .fill h dst len space byte rsv => some (encS 0x12 h (dst ++ len ++ space ++ byte ++ rsv))
  | .prefetch h o => some (encS 0x13 h o.bits)
  | .reside h o => some (encS 0x14 h o.bits)
  | .evict h o => some (encS 0x15 h o.bits)
  | .cfgld h addr regions rsv => some (encS 0x20 h (addr ++ 0#1 ++ regions ++ rsv))
  | .cfgldInband h addr port rsv words rsv2 => some (encS 0x20 h (addr ++ 1#1 ++ port ++ rsv ++ words ++ rsv2))
  | .sow h addr rsv => some (encS 0x30 h (addr ++ rsv))
  | .reap h addr rsv => some (encS 0x31 h (addr ++ rsv))
  | .drillrun h o => some (encS 0x32 h o.bits)
  | .bind h image stage dflt rsv => some (encS 0x40 h (image ++ stage ++ BitVec.ofBool dflt ++ rsv))
  | .attn h desc rsv => some (encS 0x41 h (desc ++ rsv))
  | .kvseq h desc node rsv => some (encS 0x42 h (desc ++ node ++ rsv))
  | .kvapp h desc src count j rsv => some (encS 0x43 h (desc ++ src ++ count ++ BitVec.ofBool j ++ rsv))
  | .kvbias h table head clr rsv => some (encS 0x44 h (table ++ head ++ BitVec.ofBool clr ++ rsv))
  | .jmark h desc rsv => some (encS 0x45 h (desc ++ rsv))
  | .jcommit h desc rsv => some (encS 0x46 h (desc ++ rsv))
  | .jroll h desc mk n rsv => some (encS 0x47 h (desc ++ BitVec.ofBool mk ++ n ++ rsv))
  | .mma t => some (encM 1 t)
  | .mmaz t => some (encM 2 t)
  | .mvec t => some (encM 3 t)
  | .mmac t => some (encM 4 t)
  | .mdrn t => some (encM 5 t)
  | .spma t => some (encM 6 t)
  | .spmb t => some (encM 7 t)
  | .matrixTokenComplete _ => none
  | .matrixEp0ControlToken => none
  | .drainQueueSend => none
  | .accumulatorToken _ => none
  | .nodeFire _ => none
  | .recvWaitTake _ => none
  | .firingCommit _ => none
  | .stopForward _ => none
  | .stopAbsorb _ _ => none
  | .eosPropagate _ => none
  | .drainRequestPropagate _ => none
  | .mergeLoopClose _ => none
  | .joinEos _ => none
  | .cfgPacketApply _ => none
  | .cfgPacketForward _ => none
  | .contextSwap _ => none
  | .linkTokenDelivery _ => none
  | .creditReturn _ => none
  | .zeroSlotPull _ => none
  | .cmdPairAccept _ => none
  | .commandComplete _ _ => none
  | .noticeSend => none
  | .headlandElementSend _ => none
  | .headlandTokenTake _ => none
  | .extentReply _ => none
  | .expandReread _ => none
  | .regionLoad _ => none
  | .drillTokenTake => none
  | .drillVectorFire => none
  | .drillOutputSend => none
  | .apBlockStage _ => none
  | .wallMoveComplete => none
  | .stashLazyWriteBack _ _ => none
  | .onceLocationFill _ _ _ => none
  | .deferredReadRetry _ => none
  | .ticketSkip _ _ => none
  | .faultRecordWrite => none
  | .fqheadWrite _ => none
  | .invalWrite _ => none
  | .invalComplete => none
  | .invalRead _ => none
  | .svcresContinue _ => none
  | .svcresAbort _ => none
  | .occrstWrite _ => none
  | .hintdropWrite _ => none
  | .quiescenceDetectorFire _ => none
  | .watchdogFault _ => none
  | .lateEvent _ _ _ => none
  | .deadlineBudgetElapsed _ => none
  | .governorSample _ _ _ _ _ => none
  | .admissionPass _ => none
  | .strandStart => none
  | .preemptionSaveDone _ => none
  | .launchComplete _ => none
  | .powerUp => none
  | .mbFwgo => none
  | .firmwareVerifyDone => none
  | .trainingDone _ => none
  | .coreSelfTestDone _ _ _ => none
  | .pcieFunctionReset => none
  | .mbArm _ => none
  | .mbEnd _ => none
  | .mbCap _ => none
  | .mbHfqhead _ => none
  | .mbInval _ => none
  | .mbLink _ => none
  | .mbAttest _ => none
  | .attestReportDone => none
  | .volenPortTrained _ _ _ => none
  | .volenPortDown _ => none
  | .reservedEncoding _ => none
  | .fetchFault _ _ => none
  | .unassignedStreamOpcode h op body => some (encS op h body)
  | .unassignedMatrixOperation op body => some (.matrix (op ++ body))
  | .waitcTargetReached => none
  | .hostMemoryAccess _ _ _ _ => none
  | .remoteRequest _ _ _ _ _ => none
  | .numberExchange _ _ _ => none
  | .powerLoss => none
  | .bitError _ _ _ => none

end Sys2Proof
end

