-- ==== Sys2Proof/Machine/LoadStore.lean ====
section
/-! DEFINITION. The meanings of branches, loads and stores (R99-R105). -/

namespace Sys2Proof.Machine

/-- BR: the target is checked before any effect (R99, R101). -/
def execBr (q : Guard) (off : BitVec 22) (s : State) : Out :=
  .next (s.guarded q fun s =>
    let t := branchTarget s.pc off
    if canonical t then s.goto (wordOf t) else s.trap 0x22 (wordOf t))

/-- CALL: g31 receives the address after the word (R99, R101). -/
def execCall (q : Guard) (off : BitVec 22) (s : State) : Out :=
  .next (s.guarded q fun s =>
    let t := branchTarget s.pc off
    if canonical t then (s.setG 31 (s.pc + 4)).goto (wordOf t) else s.trap 0x22 (wordOf t))

/-- JMP: ga is read before gd is written (R100, R101). -/
def execJmp (q : Guard) (gd ga : BitVec 5) (imm : BitVec 12) (s : State) : Out :=
  .next (s.guarded q fun s =>
    let t := s.ea ga imm
    if !canonical t then s.trap 0x22 (wordOf t)
    else if t % 4 ≠ 0 then s.trap 0x13 (wordOf t)
    else (s.setG gd (s.pc + 4)).goto (wordOf t))

/-- The shared body of the loads (R102, R103). -/
def State.loadTo (s : State) (sign : Bool) (n : Nat) (gd ga : BitVec 5) (imm : BitVec 12) : State :=
  s.scalarLoad (s.ea ga imm) n fun v s => s.writeG gd (extend sign n v)

/-- The shared body of the stores (R102, R104). -/
def State.storeFrom (s : State) (n : Nat) (gd ga : BitVec 5) (imm : BitVec 12) : State :=
  s.scalarStore (s.ea ga imm) (toBytes n (s.g gd).toNat)

/-- LD.s8 (R103). -/
def execLdS8 (q : Guard) (gd ga : BitVec 5) (imm : BitVec 12) (s : State) : Out :=
  .next (s.guarded q fun s => s.loadTo true 1 gd ga imm)

/-- LD.z8 (R103). -/
def execLdZ8 (q : Guard) (gd ga : BitVec 5) (imm : BitVec 12) (s : State) : Out :=
  .next (s.guarded q fun s => s.loadTo false 1 gd ga imm)

/-- LD.s16 (R103). -/
def execLdS16 (q : Guard) (gd ga : BitVec 5) (imm : BitVec 12) (s : State) : Out :=
  .next (s.guarded q fun s => s.loadTo true 2 gd ga imm)

/-- LD.z16 (R103). -/
def execLdZ16 (q : Guard) (gd ga : BitVec 5) (imm : BitVec 12) (s : State) : Out :=
  .next (s.guarded q fun s => s.loadTo false 2 gd ga imm)

/-- LD.s32 (R103). -/
def execLdS32 (q : Guard) (gd ga : BitVec 5) (imm : BitVec 12) (s : State) : Out :=
  .next (s.guarded q fun s => s.loadTo true 4 gd ga imm)

/-- LD.z32 (R103). -/
def execLdZ32 (q : Guard) (gd ga : BitVec 5) (imm : BitVec 12) (s : State) : Out :=
  .next (s.guarded q fun s => s.loadTo false 4 gd ga imm)

/-- LD.64 (R103). -/
def execLd64 (q : Guard) (gd ga : BitVec 5) (imm : BitVec 12) (s : State) : Out :=
  .next (s.guarded q fun s => s.loadTo false 8 gd ga imm)

/-- ST.8: gd is the data register (R104). -/
def execSt8 (q : Guard) (gd ga : BitVec 5) (imm : BitVec 12) (s : State) : Out :=
  .next (s.guarded q fun s => s.storeFrom 1 gd ga imm)

/-- ST.16: gd is the data register (R104). -/
def execSt16 (q : Guard) (gd ga : BitVec 5) (imm : BitVec 12) (s : State) : Out :=
  .next (s.guarded q fun s => s.storeFrom 2 gd ga imm)

/-- ST.32: gd is the data register (R104). -/
def execSt32 (q : Guard) (gd ga : BitVec 5) (imm : BitVec 12) (s : State) : Out :=
  .next (s.guarded q fun s => s.storeFrom 4 gd ga imm)

/-- ST.64: gd is the data register (R104). -/
def execSt64 (q : Guard) (gd ga : BitVec 5) (imm : BitVec 12) (s : State) : Out :=
  .next (s.guarded q fun s => s.storeFrom 8 gd ga imm)

end Sys2Proof.Machine
end

