-- ==== Sys2Proof/Machine/Sync.lean ====
section
/-! DEFINITION. The meanings of the ordering words: SYNC, BAR, ATOM, ONCE (R344-R348, R353-R355, R361). -/

namespace Sys2Proof.Machine

/-- FENCE: every earlier access is performed; a release and an acquire (R344, R354). -/
def execFence (q : Guard) (scope : BitVec 3) (s : State) : Out :=
  .next (s.guarded q fun s => ((s.release scope.toNat).acquire scope.toNat).retire)

/-- The shared body of the acquire loads (R344). -/
def State.acquireLoad (s : State) (n : Nat) (gd ga : BitVec 5) (scope : BitVec 3) : State :=
  s.scalarLoad (s.g ga).toInt n fun v s => (s.acquire scope.toNat).writeG gd (extend false n v)

/-- The data of a release store: performed at its home when the scope reaches other cores, so that an acquire there can read it (R354). -/
def State.releasePut (s : State) (scope pa : Nat) (bs : List Byte) : Option State :=
  if s.core.on.scopeWide scope then s.enginePut pa bs else s.strandPut pa bs

/-- The shared body of the release stores: the checks come first, then the release, then the store (R344, R354). -/
def State.releaseStore (s : State) (n : Nat) (gd ga : BitVec 5) (scope : BitVec 3) : State :=
  match s.scalarPlace .store (s.g ga).toInt n with
  | (.error t, _) => t
  | (.ok x, s) =>
    let bs := toBytes n (s.g gd).toNat
    let ea := (s.g ga).toInt
    let s := s.release scope.toNat
    if x.ext.once then
      match s.onceWrite ea x.pa bs with
      | .ok _ s => s.retire
      | .wait s => s
      | .fault c _ s => s.trap c (wordOf ea)
    else match s.releasePut scope.toNat x.pa bs with
      | some s => s.retire
      | none => (s.storeMergeRec ea).retire

/-- LDA.z8 (R344). -/
def execLdaZ8 (q : Guard) (gd ga : BitVec 5) (scope : BitVec 3) (s : State) : Out :=
  .next (s.guarded q fun s => s.acquireLoad 1 gd ga scope)

/-- LDA.z16 (R344). -/
def execLdaZ16 (q : Guard) (gd ga : BitVec 5) (scope : BitVec 3) (s : State) : Out :=
  .next (s.guarded q fun s => s.acquireLoad 2 gd ga scope)

/-- LDA.z32 (R344). -/
def execLdaZ32 (q : Guard) (gd ga : BitVec 5) (scope : BitVec 3) (s : State) : Out :=
  .next (s.guarded q fun s => s.acquireLoad 4 gd ga scope)

/-- LDA.64 (R344). -/
def execLda64 (q : Guard) (gd ga : BitVec 5) (scope : BitVec 3) (s : State) : Out :=
  .next (s.guarded q fun s => s.acquireLoad 8 gd ga scope)

/-- STL.8 (R344). -/
def execStl8 (q : Guard) (gd ga : BitVec 5) (scope : BitVec 3) (s : State) : Out :=
  .next (s.guarded q fun s => s.releaseStore 1 gd ga scope)

/-- STL.16 (R344). -/
def execStl16 (q : Guard) (gd ga : BitVec 5) (scope : BitVec 3) (s : State) : Out :=
  .next (s.guarded q fun s => s.releaseStore 2 gd ga scope)

/-- STL.32 (R344). -/
def execStl32 (q : Guard) (gd ga : BitVec 5) (scope : BitVec 3) (s : State) : Out :=
  .next (s.guarded q fun s => s.releaseStore 4 gd ga scope)

/-- STL.64 (R344). -/
def execStl64 (q : Guard) (gd ga : BitVec 5) (scope : BitVec 3) (s : State) : Out :=
  .next (s.guarded q fun s => s.releaseStore 8 gd ga scope)

/-! ## BAR (R361) -/

/-- Whether two cores of a launch lie in the same instance of level n (R120, R122). -/
def sameInstance (a b : OnCore) (n : Nat) : Bool :=
  (List.range 8).all fun k => decide (k < n) || a.lvl.toList.getD k 0 == b.lvl.toList.getD k 0

/-- The cores of the launch in focus that lie in the same instance of level n. -/
def State.party (s : State) (n : Nat) : List Nat :=
  let on := s.core.on
  match on.recIx.bind s.launch with
  | none => [s.cur.val]
  | some l => l.cores.filter fun i => sameInstance on (s.coreAt i).on (on.scopeLevel n)

/-- Whether a core has arrived at the BAR of a level in an episode, or has exited (R361). The instance of the level is the party's. -/
def Core.barArrived (c : Core) (level episode : Nat) : Bool := c.cpu.run == .exited || c.cpu.arrived.contains (level, episode)

/-- Record the arrival of a core at a BAR: once per core and episode (R361). -/
def Cpu.arrive (c : Cpu) (level : Nat) : Cpu :=
  if c.arrived.contains (level, c.episode) then c else { c with arrived := c.arrived ++ [(level, c.episode)] }

/-- Whether the party's cores on other devices have arrived: free, since this model holds one device (log 12). -/
def State.remoteArrived (s : State) (n : Nat) : Bool × State :=
  if s.core.on.scopeDomain n = 6 && 1 < lvlExtent (s.core.on.lvl.toList.getD (s.core.on.scopeLevel n) 0) then s.choose else (true, s)

/-- BAR: release, arrive once, wait for the party, acquire (R361). A party of one core makes it a FENCE. A BAR that runs again after a trap releases again, and its arrival stays. -/
def execBar (q : Guard) (scope : BitVec 3) (s : State) : Out :=
  .next (s.guarded q fun s =>
    let n := scope.toNat
    if s.core.on.scopeDomain n ≤ 2 then ((s.release n).acquire n).retire
    else
      let level := s.core.on.scopeLevel n
      let s := (s.release n).modCpu (·.arrive level)
      let (far, s) := s.remoteArrived n
      if far && (s.party n).all (fun i => (s.coreAt i).barArrived level s.cpu.episode) then
        ((s.acquire n).modCpu fun c => { c with episode := c.episode + 1 }).retire
      else s)

/-! ## ATOM (R345) -/

/-- The new value of an atomic operation: old value, gb and gd, in z bits; none when nothing is written. -/
def atomNew (op : BitVec 3) (z old b c : Nat) : Option Nat :=
  match op.toNat with
  | 0 => some ((old + b) % 2 ^ z)
  | 1 => some (old &&& b)
  | 2 => some (old ||| b)
  | 3 => some (old ^^^ b)
  | 4 => some (if signed z old < signed z b then old else b)
  | 5 => some (if signed z old < signed z b then b else old)
  | 6 => some b
  | _ => if old = c then some b else none

/-- The indivisible step at the location's home, with its release and its acquire (R345, R354). -/
def State.atomAt (s : State) (op : BitVec 3) (gd gb : BitVec 5) (scope n : Nat) (pa : Nat) : State :=
  let s := s.flushWhere fun l => l.addr == pa / 64 * 64
  if (locsOf pa n).any s.heldErr2 then (s.countEcc 0 1).trap 0x32 0
  else
    let s := s.countEcc ((locsOf pa n).countP s.heldErr1) 0
    let old := memNat s.mem pa n
    let m := 2 ^ (8 * n)
    let s := match atomNew op (8 * n) old ((s.g gb).toNat % m) ((s.g gd).toNat % m) with
      | none => s
      | some v => (s.release scope).writeThrough pa (toBytes n v)
    ((s.touchStash pa n false).acquire scope).writeG gd (BitVec.ofNat 64 old)

/-- The shared body of the atomic operations: checks of R102 for a load and a store, and 0x21 on a ONCE page. -/
def State.atom (s : State) (op : BitVec 3) (gd ga gb : BitVec 5) (scope : BitVec 3) (wide : Bool) : State :=
  let n := if wide then 8 else 4
  let ea := (s.g ga).toInt
  match s.scalarPlace .load ea n with
  | (.error t, _) => t
  | (.ok x, s) =>
    if !x.ext.allows .store (!s.super) || x.ext.once then s.trap 0x21 (wordOf ea)
    else s.atomAt op gd gb scope.toNat n x.pa

/-- ATOM.ADD (R345). -/
def execAtomAdd (q : Guard) (gd ga gb : BitVec 5) (scope : BitVec 3) (wide : Bool) (s : State) : Out :=
  .next (s.guarded q fun s => s.atom 0 gd ga gb scope wide)

/-- ATOM.AND (R345). -/
def execAtomAnd (q : Guard) (gd ga gb : BitVec 5) (scope : BitVec 3) (wide : Bool) (s : State) : Out :=
  .next (s.guarded q fun s => s.atom 1 gd ga gb scope wide)

/-- ATOM.OR (R345). -/
def execAtomOr (q : Guard) (gd ga gb : BitVec 5) (scope : BitVec 3) (wide : Bool) (s : State) : Out :=
  .next (s.guarded q fun s => s.atom 2 gd ga gb scope wide)

/-- ATOM.XOR (R345). -/
def execAtomXor (q : Guard) (gd ga gb : BitVec 5) (scope : BitVec 3) (wide : Bool) (s : State) : Out :=
  .next (s.guarded q fun s => s.atom 3 gd ga gb scope wide)

/-- ATOM.MIN (R345). -/
def execAtomMin (q : Guard) (gd ga gb : BitVec 5) (scope : BitVec 3) (wide : Bool) (s : State) : Out :=
  .next (s.guarded q fun s => s.atom 4 gd ga gb scope wide)

/-- ATOM.MAX (R345). -/
def execAtomMax (q : Guard) (gd ga gb : BitVec 5) (scope : BitVec 3) (wide : Bool) (s : State) : Out :=
  .next (s.guarded q fun s => s.atom 5 gd ga gb scope wide)

/-- ATOM.SWAP (R345). -/
def execAtomSwap (q : Guard) (gd ga gb : BitVec 5) (scope : BitVec 3) (wide : Bool) (s : State) : Out :=
  .next (s.guarded q fun s => s.atom 6 gd ga gb scope wide)

/-- ATOM.CAS (R345). -/
def execAtomCas (q : Guard) (gd ga gb : BitVec 5) (scope : BitVec 3) (wide : Bool) (s : State) : Out :=
  .next (s.guarded q fun s => s.atom 7 gd ga gb scope wide)

/-! ## CLEARW and PRES (R348) -/

/-- The frames of a range, page by page, each translated for writing and ONCE; or the first fault. -/
def State.clearRanges (s : State) : List (Int × Nat) → Except (BitVec 8 × Int) (List (Nat × Nat)) × State
  | [] => (.ok [], s)
  | (va, n) :: rest =>
    match s.xlateStrand .store va with
    | (.error c, s) => (.error (c, va), s)
    | (.ok x, s) =>
      if !x.ext.once then (.error (0x21, va), s)
      else match s.clearRanges rest with
        | (.ok rs, s) => (.ok ((x.pa, n) :: rs), s)
        | e => e

/-- Empty every location of physical ranges at their homes, and drop the copies in the given cores' CACHE rooms. Each word is read first, and a single error of it counted (R390). -/
def State.emptyRanges (s : State) (cores : List Nat) (rs : List (Nat × Nat)) : State :=
  rs.foldl (fun s (pa, n) =>
    let s := s.countEcc ((locsOf pa n).countP s.heldErr1) 0
    let s := { s with mem := memClear s.mem pa (pa + n), full := delRange (pa / 8) ((pa + n) / 8) s.full,
                      ecc1 := delRange (pa / 8) ((pa + n) / 8) s.ecc1 }
    let s := s.touchStash pa n true
    cores.foldl (fun s i => s.modCoreAt i fun c =>
      { c with cellar := { c.cellar with cache := c.cellar.cache.filter fun l => !(decide (pa < l.addr + 64) && decide (l.addr < pa + n)) } }) s) s

/-- CLEARW: every check comes before any effect (R348); the range check is that of R379, with 0x23 for a carry out of bit 63 (log 46). -/
def execClearw (q : Guard) (ga gb : BitVec 5) (scope : BitVec 3) (s : State) : Out :=
  .next (s.guarded q fun s =>
    let a := (s.g ga).toInt
    let n := (s.g gb).toNat
    if a % 8 ≠ 0 || n % 8 ≠ 0 || n = 0 || 2 ^ 32 < n then s.trap 0x13 (s.g ga)
    else match rangeFault a n with
    | some c => s.trap c (s.g ga)
    | none => match s.clearRanges (pagePieces a n (n / 4096 + 2)) with
      | (.error (c, va), s) => s.trap c (wordOf va)
      | (.ok rs, s) =>
        if rs.any fun (pa, n) => (locsOf pa n).any s.heldErr2 then (s.countEcc 0 1).trap 0x32 0
        else ((s.release scope.toNat).emptyRanges (s.party scope.toNat) rs).retire)

/-- PRES: never waits (R348). -/
def execPres (q : Guard) (gd ga : BitVec 5) (scope : BitVec 3) (s : State) : Out :=
  .next (s.guarded q fun s =>
    let ea := (s.g ga).toInt
    if !canonical ea then s.trap 0x22 (s.g ga)
    else match s.xlateStrand .load ea with
      | (.error c, s) => s.trap c (s.g ga)
      | (.ok x, s) =>
        if !x.ext.once then s.writeG gd 1
        else if s.full.contains (x.pa / 8) then (s.acquire scope.toNat).writeG gd 3
        else s.writeG gd 2)

end Sys2Proof.Machine
end

