-- ==== Sys2Proof/Machine/Records.lean ====
section
/-! DEFINITION. Launch records: layout, checks, exit record, effective priority (R116-R124, R127, R128, R134). -/

namespace Sys2Proof.Machine

/-- Physical address of a field of a record (R116, R118): the SUPER-mode address in cr.LPOOL and the pool's physical address are one number (DESIGN CHOICE, log 31). -/
def State.recAt (s : State) (r : BitVec 12) (off : Nat) : Nat := s.porter.lpool + 256 * r.toNat + off

/-- A doubleword of a record at its home. -/
def State.recHome (s : State) (r : BitVec 12) (off : Nat) : Nat := memNat s.mem (s.recAt r off) 8

/-- The core in focus hands a record over to its home: what it has stored there is written back, and no copy stays. PATCH, ARM and LSTAT then act on the record at its home, where the scheduler acts too (R123). -/
def State.syncRec (s : State) (r : BitVec 12) : State :=
  s.flushWhere fun l => decide (s.recAt r 0 < l.addr + 64) && decide (l.addr < s.recAt r 256)

/-- Write a doubleword of a record at its home. -/
def State.recPut (s : State) (r : BitVec 12) (off : Nat) (v : Nat) : State := s.setWord (s.recAt r off) (BitVec.ofNat 64 v)

/-- The state code of a control word (R117, R119). -/
def recState (ctl : Nat) : Nat := bits ctl 3 0
def recPrio (ctl : Nat) : Nat := bits ctl 6 4
def recDl (ctl : Nat) : Bool := ctl.testBit 7
def recDem (ctl : Nat) : Bool := ctl.testBit 8
def recFlush (ctl : Nat) : Bool := ctl.testBit 9
def recFixw (ctl : Nat) : Bool := ctl.testBit 10
def recUarm (ctl : Nat) : Bool := ctl.testBit 11
def recLoft (ctl : Nat) : Bool := ctl.testBit 12

/-- Write the state code of a record. -/
def State.recSetState (s : State) (r : BitVec 12) (st : Nat) : State :=
  s.recPut r 0 ((s.recHome r 0) / 16 * 16 + st)

/-! ## Levels (R120) -/

/-- A declared level: extent and domain. -/
structure Level where
  extent : Nat
  domain : Nat
  deriving DecidableEq, Repr

/-- Instances of domain d that one instance of domain w holds: the counts per step of R120. -/
def domainCount (d w : Nat) : Nat := (([16, 16, 8, 6, 4, 64].take w).drop d).foldl (· * ·) 1

/-- The limit of a domain of the list of used ones: what an instance of the next wider one holds, or the device (R120). -/
def domainLimit (doms : List Nat) (d : Nat) : Nat :=
  match doms.find? (decide <| d < ·) with
  | some w => domainCount d w
  | none => if d = 6 then 64 else domainCount d 5

/-- The descriptors' declared levels from level 0; none when one is malformed (R120). -/
def parseLevels (rd : Nat → Nat) : Option (List Level) :=
  let ds := (List.range 8).map fun n => rd (0x20 + 8 * n)
  let declared := ds.takeWhile fun v => v.testBit 0
  let ls := declared.map fun v => (⟨bits v 31 16, bits v 3 1⟩ : Level)
  let doms := ls.map (·.domain)
  if ds.any (fun v => bits v 63 32 != 0 || bits v 15 4 != 0) then none
  else if declared.isEmpty || (ds.drop declared.length).any (fun v => v.testBit 0) then none
  else if ls.any (fun l => l.extent == 0 || l.domain == 7) then none
  else if !((doms.zip (doms.drop 1)).all fun p => decide (p.1 ≤ p.2)) then none
  else if doms.any fun d => domainLimit doms d < ((ls.filter (·.domain == d)).map (·.extent)).foldl (· * ·) 1 then none
  else some ls

/-- The levels that place cores on this device: domain CORE to DEVICE. -/
def coreLevels (ls : List Level) : List Level := ls.filter fun l => decide (2 ≤ l.domain) && decide (l.domain ≤ 5)

/-- Cores that one instance of the narrowest placing level holds (R120). -/
def baseCores (ls : List Level) : Nat := match coreLevels ls with | [] => 1 | l :: _ => domainCount 2 l.domain

/-- The derived core count (R120). -/
def coreCount (ls : List Level) : Nat := (coreLevels ls).foldl (fun n l => n * l.extent) (baseCores ls)

/-- Cores that one instance of level n holds, from the narrowest up. -/
def coresPer (ls : List Level) (n : Nat) : Nat := (coreLevels (ls.take n)).foldl (fun k l => k * l.extent) (baseCores ls)

/-- The index of a core's instance of level n within its parent (R122); a LINKSET level's is the device's number. -/
def levelIndex (ls : List Level) (link rank n : Nat) : Nat :=
  match ls[n]? with
  | none => 0
  | some l => if l.domain < 2 then 0 else if l.domain = 6 then link else rank / coresPer ls n % l.extent

/-- cr.LVLn of a core (R122). -/
def lvlWord (ls : List Level) (link rank n : Nat) : Word :=
  match ls[n]? with
  | none => 0
  | some l => BitVec.ofNat 64 (2 ^ 63 + l.domain * 2 ^ 32 + l.extent * 2 ^ 16 + levelIndex ls link rank n % 2 ^ 16)

/-! ## The record's checks -/

/-- The bytes of a map word. -/
def mapBytes (v n : Nat) : List Nat := (List.range n).map fun i => bits v (8 * i + 7) (8 * i)

/-- A queue or timeline map: each byte 0 or a valid context, none twice (R121). -/
def mapOk (bs : List Nat) : Bool :=
  let ids := (bs.filter fun b => b.testBit 7).map (· % 128)
  bs.all (fun b => b == 0 || (b.testBit 7 && decide (b % 128 < 0x4C))) && decide ids.Nodup

/-- Room sizes of a record: REG, MAT, PAD, CACHE (R118). -/
def recRooms (v : Nat) : Nat × Nat × Nat × Nat := (bits v 7 0, bits v 15 8, bits v 23 16, bits v 31 24)

/-- Room sizes sum to 64 and meet the minimums (R118). -/
def roomsOk (v : Nat) : Bool :=
  let (r, m, p, c) := recRooms v
  bits v 63 32 == 0 && r + m + p + c == 64 && decide (2 ≤ r) && decide (1 ≤ c)

/-- Whether a record meets R118 to R121 and R128, read through rd; the state code apart. -/
def recOk (rd : Nat → Nat) : Bool :=
  match parseLevels rd with
  | none => false
  | some ls =>
    bits (rd 0) 63 13 == 0 && bits (rd 8) 63 16 == 0 && bits (rd 0x60) 63 8 == 0 && decide (bits (rd 0x60) 7 0 < 192) &&
    bits (rd 0x60) 7 0 + 1 == coreCount ls &&
    roomsOk (rd 0x68) && mapOk (mapBytes (rd 0x70) 8) && mapOk (mapBytes (rd 0x78 + rd 0x80 * 2 ^ 64) 16) &&
    bits (rd 0x88) 63 49 == 0 && bits (rd 0x90) 63 16 == 0 && rd 0x98 == 0

/-! ## Time, priority and gangs -/

/-- Device time of one cycle at a clock step, in units of 1/18 ns (R28). -/
def cycleTime (step : Nat) : Nat := match step with | 0 => 12 | 1 => 15 | 2 => 20 | _ => 30

/-- Let cycles pass. cr.CYC counts from the release of the wings, which stage 4 brings (R110, R405). -/
def State.pass (s : State) (n : Nat) : State :=
  { s with cyc := if 4 ≤ s.porter.stage.toNat && s.porter.stage ≠ 6 then s.cyc + n else s.cyc, time := s.time + n * cycleTime s.porter.step }

/-- One millisecond of device time. -/
def msTime : Nat := 18000000

/-- The effective priority of an ARMED record (R127). -/
def State.effective (s : State) (ctl : Nat) (l : Launch) : Nat := min 7 (recPrio ctl + (s.time - l.armT) / msTime)

/-- Whether two gang words name the same gang: valid, the same leader and count (R128). -/
def sameGang (a b : Nat) : Bool := a.testBit 15 && bits a 15 0 == bits b 15 0

/-- The members of a record's gang that are ARMED; all of the launch's own when it has no gang. -/
def State.gangArmed (s : State) (l : Launch) : List Launch :=
  let g := s.recHome l.recIx 0x90
  if g.testBit 15 then s.launches.filter fun m => !m.running && sameGang g (s.recHome m.recIx 0x90) else [l]

/-- Whether a gang is complete (R128). -/
def State.gangReady (s : State) (l : Launch) : Bool :=
  let g := s.recHome l.recIx 0x90
  !g.testBit 15 || (s.gangArmed l).length == bits g 14 12 + 1

/-! ## Arming (R124, R403) -/

/-- The device writes a doubleword of a record at its home, no core's copy along. -/
def State.schedPut (s : State) (r : BitVec 12) (off v : Nat) : State := s.homePut (s.recAt r off) (toBytes 8 v)

/-- Arm a record that has passed the checks: snapshot, cleared exit record, state ARMED, arm time; put is how the arming agent writes. -/
def State.armRecord (s : State) (r : BitVec 12) (rd : Nat → Nat) (put : State → BitVec 12 → Nat → Nat → State) : State :=
  let args : Vector Word 8 := Vector.ofFn fun i => BitVec.ofNat 64 (rd (0xC0 + 8 * i.val))
  let l : Launch := ⟨r, s.cyc, s.time, args, false, false, [], 0, none, false, none, []⟩
  let s := { s with launches := (s.launches.filter fun (x : Launch) => x.recIx != r) ++ [l] }
  let s := [0xA0, 0xA8, 0xB0, 0xB8].foldl (fun s o => put s r o 0) s
  put s r 0 ((rd 0) / 16 * 16 + 2)

/-- The status of an arm, from the record as rd reads it; user: the ASID that a USER arm must match (R124, R403). -/
def armStatus (rd : Nat → Nat) (user : Option (BitVec 16)) : Nat :=
  let st := recState (rd 0)
  let denied := match user with
    | some a => bits (rd 8) 15 0 != a.toNat || !recUarm (rd 0)
    | none => false
  if denied then 2 else if st = 0 then 3 else if 5 ≤ st then 5 else if st ≠ 1 && st ≠ 4 then 1
  else if !recOk rd then 5 else 0

end Sys2Proof.Machine
end

