-- ==== Sys2Proof/Machine/LaunchWords.lean ====
section
/-! DEFINITION. The meanings of ISSUE, WAITT, WAITC and of the LAUNCH and EXIT groups (R107, R108, R123-R126, R133, R135, R136, R363). -/

namespace Sys2Proof.Machine

/-! ## ISSUE and WAITT -/

/-- Append a command to a queue; it takes its number on a mapped selector (R107, R108). -/
def Queues.append (q : Queues) (o : OnCore) (qn : BitVec 3) (w : BitVec 128) (sup : Bool) : Queues :=
  let (num, q) := q.take o (w.extractLsb' 116 4)
  { q with q := q.q.set qn.toNat (q.q[qn.toNat] ++ [⟨w, num, sup, false⟩]) }

/-- Whether a pair from the field has drawn a number of the command's timeline in this cycle: the ISSUE then draws in the next one, since of two draws in one cycle the ISSUE has the lower number (R148). -/
def State.drawn (s : State) (w : BitVec 128) : Bool := s.core.qs.drew.contains ((w.extractLsb' 116 4).toNat, s.cyc)

/-- ISSUE: 0x53 on an unbound queue; it stalls while the queue holds 16 commands (R107). -/
def execIssue (q : Guard) (qn : BitVec 3) (ga gb : BitVec 5) (s : State) : Out :=
  .next (s.guarded q fun s =>
    if (s.core.on.queueCtx qn).isNone then s.trap 0x53 0
    else if decide (16 ≤ s.core.qs.q[qn.toNat].length) || s.drawn (s.g ga ++ s.g gb) then s
    else (s.modCore fun c => { c with qs := c.qs.append c.on qn (s.g ga ++ s.g gb) s.super }).retire)

/-- WAITT: 0x11 on an unmapped selector; it waits for the completed prefix (R363). -/
def execWaitt (q : Guard) (sel : BitVec 5) (ga : BitVec 5) (imm : BitVec 12) (s : State) : Out :=
  .next (s.guarded q fun s =>
    let tl := sel.extractLsb' 0 4
    if sel.getLsbD 4 || (s.core.on.tlCtx tl).isNone then s.trap 0x11 0
    else if (s.g ga + imm12s imm).toNat ≤ s.core.qs.completed[tl.toNat] then s.retire
    else s)

/-! ## Late events and WAITC (R136, R140) -/

/-- A late event: a record with code 0x70 and T = 0, and cr.LATE of the observing core (R140). -/
def State.late (s : State) (cls ctx : BitVec 8) (past : Word) (iaddr : Word) : State :=
  (s.report { s.mkRec 0x70 cls ctx with t := false, detail := past, iaddr := iaddr }).modCpu fun c => { c with late := c.late + 1 }

/-- WAITC: it waits until cr.CYC reaches ga; a target already passed at issue is late in deadline mode (R136). -/
def execWaitc (q : Guard) (ga : BitVec 5) (s : State) : Out :=
  .next (s.guarded q fun s =>
    let t := s.g ga
    if s.cyc % 2 ^ 64 < t.toNat then s.modCpu fun c => { c with waitc := some t }
    else
      let past := s.cyc % 2 ^ 64 - t.toNat
      let s := if s.cpu.waitc.isNone && 0 < past && s.cpu.dl then s.late 0 0 (BitVec.ofNat 64 past) s.pc else s
      (s.modCpu fun c => { c with waitc := none }).retire)

/-- A waiting WAITC retires once cr.CYC has reached its target (R136). -/
def execWaitcTargetReached (s : State) : Out :=
  .next (match s.cpu.waitc with
    | some t => if t.toNat ≤ s.cyc % 2 ^ 64 then (s.modCpu fun c => { c with waitc := none }).retire else s
    | none => s)

/-! ## PATCH, ARM, LSTAT -/

/-- The ASID that a USER handle must match. -/
def State.userAsid (s : State) : Option (BitVec 16) := if s.super then none else some s.core.on.asid

/-- PATCH: the statuses of R123 in order. -/
def execPatch (q : Guard) (gd ga gb : BitVec 5) (s : State) : Out :=
  .next (s.guarded q fun s =>
    let a := s.g ga
    let r := a.extractLsb' 0 12
    if a &&& 0xFFFFFFFFFFF8F000#64 != 0 then s.writeG gd 4
    else
    let s := s.syncRec r
    let rd := s.recHome r
    let denied := match s.userAsid with | some x => bits (rd 8) 15 0 != x.toNat || !recUarm (rd 0) | none => false
    if denied then s.writeG gd 2
    else if recState (rd 0) = 0 then s.writeG gd 3
    else if recState (rd 0) ≠ 1 && recState (rd 0) ≠ 4 then s.writeG gd 1
    else (s.recPut r (0xC0 + 8 * bits a.toNat 18 16) (s.g gb).toNat).writeG gd 0)

/-- Whether a record's outermost declared level is CORE or wider, so that the acquire of its exit moves cache data (R126, R354). -/
def recWide (rd : Nat → Nat) : Bool :=
  match parseLevels rd with
  | some ls => match ls.getLast? with | some l => decide (2 ≤ l.domain) | none => false
  | none => false

/-- ARM: the statuses of R124 in order. Status 0 is a release at the record's outermost level, and whatever that level, the first instruction of each child core sees every earlier write of the strand (R125). -/
def execArm (q : Guard) (gd ga : BitVec 5) (s : State) : Out :=
  .next (s.guarded q fun s =>
    let a := s.g ga
    let r := a.extractLsb' 0 12
    if a >>> 12 != 0 then s.writeG gd 4
    else
      let s := s.syncRec r
      let rd := s.recHome r
      match armStatus rd s.userAsid with
      | 0 => (s.cleanAll.armRecord r rd State.recPut).writeG gd 0
      | c => s.writeG gd (BitVec.ofNat 64 c))

/-- The word that LSTAT gives for a record at its home (R126). The priority of a record that is not ARMED has no waiting term (DESIGN CHOICE, log 31). -/
def State.lstat (s : State) (r : BitVec 12) : Nat :=
  let rd := s.recHome r
  let ctl := rd 0
  let st := recState ctl
  match st, s.launch r with
  | 2, some l => st + 16 * s.effective ctl l + (if s.gangReady l then 0 else 2 ^ 7) + (if l.pre then 2 ^ 24 else 0)
  | 4, _ => st + 16 * recPrio ctl + bits (rd 0xA0) 7 0 * 2 ^ 8 + bits (rd 0xA0) 15 8 * 2 ^ 16
  | _, _ => st + 16 * recPrio ctl

/-- LSTAT; one that reads DONE is an acquire of the exit release (R126). -/
def execLstat (q : Guard) (gd ga : BitVec 5) (s : State) : Out :=
  .next (s.guarded q fun s =>
    let a := s.g ga
    let r := a.extractLsb' 0 12
    if a >>> 12 != 0 then s.writeG gd 0xF
    else
    let s := s.syncRec r
    let rd := s.recHome r
    let other := match s.userAsid with | some x => bits (rd 8) 15 0 != x.toNat | none => false
    if other then s.writeG gd 0xF
    else
      let v := s.lstat r
      let s := if recState (rd 0) = 4 && recWide rd then s.discardClean else s
      s.writeG gd (BitVec.ofNat 64 v))

/-! ## EXIT, EXITX, YIELD -/

/-- Whether every queue is empty and every mapped timeline has completed what it issued (R133). -/
def Core.drained (c : Core) : Bool :=
  c.qs.q.all (·.isEmpty) && (List.range 16).all fun i => c.qs.completed.toList.getD i 0 == c.qs.issued.toList.getD i 0

/-- Flags that nodes and engines of a core have raised and that its cr.FPS does not hold yet (R233, R286). -/
def Core.flagsLeft (c : Core) : Flags := c.field.nodes.foldl (fun f n => f ||| n.flags) c.ap.flags

/-- The flags of nodes and of the AP are cleared. -/
def Core.clearFlags (c : Core) : Core :=
  { c with ap := { c.ap with flags := 0 }, field := { c.field with nodes := c.field.nodes.map fun n => { n with flags := 0 } } }

/-- The strand stops, its flags gathered; the retirement is a release at the outermost scope (R133, R233). -/
def State.exitWith (s : State) (v : Word) (x : Bool) : State :=
  (((s.release s.core.on.outer).orFps s.core.flagsLeft).modCore Core.clearFlags).modCpu fun c => { c with run := .exited, exitVal := v, exitX := x }

/-- EXIT: it waits for delivery and completion (R133). -/
def execExit (q : Guard) (ga : BitVec 5) (s : State) : Out :=
  .next (s.guarded q fun s => if s.core.drained then s.exitWith (s.g ga) false else s)

/-- Discard every command not yet delivered, counting it; its number no longer holds later ones back (R133). -/
def State.discardCommands (s : State) : State :=
  let qs := s.core.qs
  let cmds := qs.q.toList.flatten ++ qs.pairs.map (·.2)
  let s := s.modQs fun q => { q with q := .replicate 8 [], pairs := [] }
  let s := cmds.foldl (fun s c => s.completeNum (c.word.extractLsb' 116 4) c.num) s
  s.modCpu fun c => { c with dropped := c.dropped + cmds.length }

/-- EXITX: undelivered commands are discarded; it waits for those delivered (R133). -/
def execExitx (q : Guard) (ga : BitVec 5) (s : State) : Out :=
  .next (s.guarded q fun s =>
    let s := s.discardCommands
    if s.core.drained then s.exitWith (s.g ga) true else s)

/-- YIELD: it waits for the next pass, then gives 0, or 1 after a pre-emption at this instruction (R135). -/
def execYield (q : Guard) (gd : BitVec 5) (s : State) : Out :=
  .next (s.guarded q fun s =>
    match s.cpu.yield with
    | .none => s.modCpu fun c => { c with yield := .waiting }
    | .waiting => s
    | .refused => (s.modCpu fun c => { c with yield := .none }).writeG gd 0
    | .taken => (s.modCpu fun c => { c with yield := .none }).writeG gd 1)

end Sys2Proof.Machine
end

