-- ==== Sys2Proof/Machine/CellarWords.lean ====
section
/-! DEFINITION. The CELLAR group and the cellar's own events: rooms, walls, the stash (R318-R336). -/

namespace Sys2Proof.Machine

/-! ## Rooms and free space (R318, R322) -/

/-- Bytes of a bank. -/
def bankBytes : Nat := 65536

/-- Whether [a, a + n) and [b, b + m) share a byte. -/
def overlap (a n b m : Nat) : Bool := decide (a < b + m) && decide (b < a + n) && n != 0 && m != 0

/-- The lowest offset of [lo, hi) from which n free bytes start, given the areas in use (R322). -/
def lowestFree (lo hi n : Nat) (areas : List (Nat × Nat)) : Option Nat :=
  let fits (c : Nat) : Bool := decide (lo ≤ c) && decide (c + n ≤ hi) && areas.all fun a => !overlap c n a.1 a.2
  ((lo :: areas.map fun a => a.1 + a.2).filter fits).foldl
    (fun o c => match o with | none => some c | some d => some (min c d)) none

/-- The areas of the PAD room: edge buffers and stash ranges, as cellar bytes. -/
def Core.padAreas (c : Core) : List (Nat × Nat) :=
  ((c.field.bindings.filter fun b => b.size != 0).map fun b => (b.off, b.size * 4096)) ++
  c.cellar.stash.map fun r => (r.off, r.len)

/-- The tiles that transposes hold in the PAD room, as offset and length (R153). -/
def Port.tiles (x : Port) : List (Nat × Nat) := (x.run.toList ++ x.prev.map (·.1)).filterMap (·.tile)

/-- The bytes of the PAD room that are taken: its areas, and the tiles of transposes, which a wall move treats as it does the areas (DESIGN CHOICE, log 36). -/
def Core.padUsed (c : Core) : List (Nat × Nat) := c.padAreas ++ c.ports.toList.flatMap Port.tiles

/-- The banks that a move under way surrenders, as a byte range; nothing else allocates there (R325, R327). -/
def Cellar.closed (c : Cellar) : List (Nat × Nat) :=
  match c.move with
  | none => []
  | some (n, p) =>
    let w := if n = 1 then c.w1 else if n = 2 then c.w2 else c.w3
    [(min w p * bankBytes, (max w p - min w p) * bankBytes)]

/-- A place for a new PAD area of n bytes. -/
def Core.padAlloc (c : Core) (n : Nat) : Option Nat :=
  lowestFree (c.cellar.w2 * bankBytes) (c.cellar.w3 * bankBytes) n (c.padUsed ++ c.cellar.closed)

/-- A place for a new REG area of n bytes. -/
def Core.regAlloc (c : Core) (n : Nat) : Option Nat :=
  lowestFree 0 (c.cellar.w1 * bankBytes) n ((c.cellar.areas.map fun a => (a.off, a.len)) ++ c.cellar.closed)

/-! ## Wall moves (R325-R329) -/

/-- Whether a stream word is a DRILLRUN that reads or writes MAT: SRC or DST 1 (R310, R326). -/
def drillUsesMat (w : BitVec 128) : Bool := w.extractLsb' 120 8 == 0x32 && (w.getLsbD 91 || w.getLsbD 90)

/-- Whether MAT is in use (R326). -/
def Core.matInUse (c : Core) : Bool :=
  c.mat.dq.any (·.isNone) ||
  c.mat.runs.any (fun r => !r.ap) || !c.mat.closes.isEmpty ||
  (match c.field.linkTo (epEndpoint 0) with
    | some i => match c.field.links[i]? with
      | some l => l.buf.any fun t => t.1.kind == 0
      | none => false
    | none => false) ||
  (match c.drill.run with | some r => r.ops.src || r.ops.dst | none => false) ||
  (match c.on.ctxQueue 0x49 with | some q => (c.qs.q[q.toNat]).any fun x => drillUsesMat x.word | none => false) ||
  c.qs.pairs.any fun p => p.1 == 0x49 && drillUsesMat p.2.word

/-- The position of wall n. -/
def Cellar.wall (c : Cellar) (n : Nat) : Nat := if n = 1 then c.w1 else if n = 2 then c.w2 else c.w3

/-- The positions with wall n at p. -/
def Cellar.wallsAt (c : Cellar) (n p : Nat) : Nat × Nat × Nat :=
  (if n = 1 then p else c.w1, if n = 2 then p else c.w2, if n = 3 then p else c.w3)

/-- Where MOVE puts each PAD area of the surrendered bytes, in increasing offset; none when one finds no place (R326, R327). An area is in use where it stands until it has been copied, the part outside the surrendered banks as well. -/
def movePlan (lo hi slo slen : Nat) (areas : List (Nat × Nat)) : Option (List (Nat × Nat × Nat)) :=
  let moving := (areas.filter fun a => overlap a.1 a.2 slo slen).mergeSort fun a b => decide (a.1 ≤ b.1)
  (moving.foldl (fun (o : Option (List (Nat × Nat × Nat) × List (Nat × Nat))) a => o.bind fun (plan, used) =>
    (lowestFree lo hi a.2 ((slo, slen) :: used)).map fun d => (plan ++ [(a.1, a.2, d)], (d, a.2) :: used.filter (· != a))) (some ([], areas))).map (·.1)

/-- The plan of a move of wall n to p, when PAD loses banks. -/
def Core.padPlan (c : Core) (n p : Nat) : Option (List (Nat × Nat × Nat)) :=
  let w := c.cellar.wall n
  let slo := min w p * bankBytes
  movePlan (c.cellar.w2 * bankBytes) (c.cellar.w3 * bankBytes) slo ((max w p - min w p) * bankBytes) c.padUsed

/-- The code of the losing room's refusal, 0 for none (R326). -/
def Core.wallRefusal (c : Core) (n p : Nat) : Nat :=
  let w := c.cellar.wall n
  match n with
  | 1 =>
    if w < p then (if c.matInUse then 2 else 0)
    else if c.cellar.areas.any fun a => overlap a.off a.len (p * bankBytes) ((w - p) * bankBytes) then 1
    else if c.matInUse then 2 else 0
  | 2 =>
    if w < p then (if (c.padPlan n p).isNone then 3 else if c.matInUse then 2 else 0)
    else if c.matInUse then 2 else 0
  | _ => if p < w && (c.padPlan n p).isNone then 3 else 0

/-- Cases 1 to 6 of R325 in order, with case 2 giving 6; 0 for cases 5 and 7, and whether the move would run. -/
def Core.wallCode (c : Core) (n p : Nat) : Nat × Bool :=
  let (a, b, d) := c.cellar.wallsAt n p
  if c.on.fixw then (7, false)
  else if c.cellar.move.isSome then (6, false)
  else if 64 < p || b < a || d < b then (5, false)
  else if a < 2 || 63 < d then (4, false)
  else if c.cellar.wall n = p then (0, false)
  else match c.wallRefusal n p with
    | 0 => (0, true)
    | k => (k, false)

/-- Whether ga names a wall and a target and nothing else (R325). -/
def wallArgOk (a : Word) : Bool := a >>> 10 == 0 && a.extractLsb' 8 2 != 0

/-- WALL: the cases of R325; a move that runs, or one under way to the same target, is waited for. -/
def execWall (q : Guard) (gd ga : BitVec 5) (s : State) : Out :=
  .next (s.guarded q fun s =>
    let a := s.g ga
    let p := bits a.toNat 7 0
    let n := bits a.toNat 9 8
    if !wallArgOk a then s.trap 0x11 0
    else if !s.core.on.fixw && s.core.cellar.move == some (n, p) then s
    else match s.core.wallCode n p with
      | (_, true) => s.modCellar fun c => { c with move := some (n, p) }
      | (k, false) => s.writeG gd (BitVec.ofNat 64 k))

/-- Dirty sectors in the banks from lo up to hi. -/
def Cellar.dirtyIn (c : Cellar) (lo hi : Nat) : Nat :=
  ((c.cache.filter fun l => decide (lo ≤ l.bank) && decide (l.bank < hi)).map CLine.dirtyCount).sum

/-- WQRY: the code, and the dirty sectors that CACHE would surrender (R331). -/
def execWqry (q : Guard) (gd ga : BitVec 5) (s : State) : Out :=
  .next (s.guarded q fun s =>
    let a := s.g ga
    let p := bits a.toNat 7 0
    let n := bits a.toNat 9 8
    if !wallArgOk a then s.trap 0x11 0
    else
      let c := s.core.cellar
      let d := if n = 3 && c.w3 < p && p ≤ 64 then c.dirtyIn c.w3 p else 0
      s.writeG gd (BitVec.ofNat 64 ((s.core.wallCode n p).1 + d % 2 ^ 32 * 2 ^ 8)))

/-- Copy bytes, presence bits and error marks of an area within the cellar (R327, R390). -/
def Cellar.moveArea (c : Cellar) (o n d : Nat) : Cellar :=
  let shift (l : NatSet) : NatSet :=
    ((l.filter fun x => decide (o / 8 ≤ x) && decide (x < (o + n) / 8)).map fun x => x - o / 8 + d / 8).foldl (fun a x => insNat x a)
      (delRange (d / 8) ((d + n) / 8) l)
  let outside (x : Nat) : Bool := decide (d / 8 ≤ x) && decide (x < (d + n) / 8)
  { c with bytes := memPut (memClear c.bytes d (d + n)) d (memBytes c.bytes o n),
           full := (shift c.full).filter fun x => outside x || !(decide (o / 8 ≤ x) && decide (x < (o + n) / 8)), err1 := shift c.err1, err2 := shift c.err2,
           stash := c.stash.map fun r => if r.off = o && r.len != 0 then { r with off := d } else r }

/-- Deferred reads of buffer words follow the words to their new bank (R330). -/
def Cellar.moveDeferred (c : Cellar) (o n d : Nat) : Cellar :=
  let mine (e : DEntry) : Bool := decide (padLoc (o / 8) ≤ e.loc) && decide (e.loc < padLoc ((o + n) / 8))
  let moved := (c.banks.flatMap fun b => b.2.entries.filter mine).map fun e => { e with loc := e.loc - o / 8 + d / 8 }
  let c := { c with banks := c.banks.map fun b => (b.1, { b.2 with entries := b.2.entries.filter fun e => !mine e }) }
  moved.foldl (fun c e =>
    let b := (e.loc - padLoc 0) * 8 / bankBytes
    let t := c.bank b
    c.setBank b { t with entries := t.entries ++ [e] }) c

/-- Move every deferred read of given pages to the table of its present home. -/
def State.rehome (s : State) (pages : List Nat) : State :=
  let mine (e : DEntry) : Bool := decide (e.loc < 2 ^ 60) && pages.contains (e.loc / 512)
  let pick (t : DeferTab) : List DEntry := t.entries.filter mine
  let drop (t : DeferTab) : DeferTab := { t with entries := t.entries.filter fun e => !mine e }
  let es := s.slices.toList.flatMap pick ++ pick s.far ++ s.cores.toList.flatMap fun c => c.cellar.banks.flatMap fun b => pick b.2
  if es.isEmpty then s
  else
    let s := { s with
      slices := s.slices.map drop
      far := drop s.far
      cores := s.cores.map fun (c : Core) =>
        { c with cellar := { c.cellar with banks := c.cellar.banks.map fun (b : Nat × DeferTab) => (b.1, drop b.2) } } }
    es.foldl (fun s e =>
      let h := s.homeOf e.loc
      let (t, _) := s.tab h
      s.setTab h { t with entries := t.entries ++ [e] }) s

/-- A tile at offset o moves to d. -/
def PRun.moveTile (r : PRun) (o d : Nat) : PRun := { r with tile := r.tile.map fun t => if t.1 = o then (d, t.2) else t }

/-- One PAD area moves: bytes, deferred reads, handle, range or tile. -/
def State.moveOne (s : State) (m : Nat × Nat × Nat) : State :=
  let (o, n, d) := m
  let pages := (s.core.cellar.stash.filter fun r => r.off == o).flatMap (·.pages)
  let s := s.modCellar fun c => (c.moveArea o n d).moveDeferred o n d
  let s := s.modField fun f => { f with bindings := f.bindings.map fun b => if b.size != 0 && b.off == o then { b with off := d } else b }
  let s := s.modCore fun c => { c with ports := c.ports.map fun (x : Port) =>
    { x with run := x.run.map (·.moveTile o d), prev := x.prev.map fun e => (e.1.moveTile o d, e.2) } }
  s.rehome pages

/-- A wall move runs to its switch: CLEAN, MOVE, SWITCH (R327). A PAD plan is made again from the areas as they stand; while one of them finds no place, the move does not end. -/
def execWallMoveComplete (s : State) : Out :=
  .next (match s.core.cellar.move with
    | none => s
    | some (n, p) =>
      let c := s.core.cellar
      let s := if n = 3 && c.w3 < p then s.flushWhere fun l => decide (c.w3 ≤ l.bank) && decide (l.bank < p) else s
      let padLoses := (n == 2 && decide (c.w2 < p)) || (n == 3 && decide (p < c.w3))
      match if padLoses then s.core.padPlan n p else some [] with
      | none => s
      | some plan => (plan.foldl State.moveOne s).modCellar fun c => let (a, b, d) := c.wallsAt n p; { c with w1 := a, w2 := b, w3 := d, move := none })

/-! ## The stash (R332-R334) -/

/-- The frames of a range's pages, each translated for reading; or the first fault. -/
def State.stashPages (s : State) : List (Int × Nat) → Except (BitVec 8 × Int) (List Nat) × State
  | [] => (.ok [], s)
  | (va, _) :: rest =>
    match s.xlateStrand .load va with
    | (.error c, s) => (.error (c, va), s)
    | (.ok x, s) => match s.stashPages rest with
      | (.ok ps, s) => (.ok (x.pa / 4096 :: ps), s)
      | e => e

/-- STASH: operand checks, then a status (R332); the range check is that of R379, with 0x23 for a carry out of bit 63 (log 46). The area holds no data of the range yet, and its bytes stay as they were. -/
def execStash (q : Guard) (gd ga gb : BitVec 5) (s : State) : Out :=
  .next (s.guarded q fun s =>
    let a := (s.g ga).toInt
    let n := (s.g gb).toNat
    if a % 4096 ≠ 0 || n % 4096 ≠ 0 || n = 0 then s.trap 0x13 (s.g ga)
    else match rangeFault a n with
    | some c => s.trap c (s.g ga)
    | none => match s.stashPages (pagePieces a n (n / 4096 + 1)) with
      | (.error (c, va), s) => s.trap c (wordOf va)
      | (.ok pages, s) =>
        let me := s.cur.val
        let owner (p : Nat) : Option Nat := (s.owners.find? (·.1 == p)).map (·.2)
        match s.core.padAlloc n with
        | none => s.writeG gd 1
        | some off =>
          if pages.any fun p => match owner p with | some o => o != me | none => false then s.writeG gd 2
          else if pages.any fun p => owner p == some me then s.writeG gd 3
          else if 16 ≤ s.core.cellar.stash.length then s.writeG gd 4
          else
            let s := s.flushWhere fun l => pages.contains (l.addr / 4096)
            let s := s.modCellar fun c => { c with stash := c.stash ++ [⟨a, n, off, pages, [], []⟩] }
            let s := { s with owners := s.owners ++ pages.map fun p => (p, me) }
            (s.rehome pages).writeG gd 0)

/-- Give up a stash range of core i: its dirty sectors are written back, the owner goes, the area is free (R334, log 18). -/
def State.unstashAt (s : State) (i : Nat) (r : StashR) : State :=
  let s := s.stashBack i r r.dirty
  let s := { s with owners := s.owners.filter fun e => !(e.2 == i && r.pages.contains e.1) }
  (s.modCoreAt i fun c => { c with cellar := { c.cellar with stash := c.cellar.stash.filter fun x => x.va != r.va } }).rehome r.pages

/-- UNSTASH (R334). -/
def execUnstash (q : Guard) (gd ga : BitVec 5) (s : State) : Out :=
  .next (s.guarded q fun s =>
    match s.core.cellar.stash.find? fun r => r.va == (s.g ga).toInt with
    | none => s.writeG gd 1
    | some r => (s.unstashAt s.cur.val r).writeG gd 0)

/-- The device writes back one dirty stash sector (R333). -/
def execStashLazyWriteBack (range sector : Nat) (s : State) : Out :=
  .next (match s.core.cellar.stash[range]? with
    | none => s
    | some r =>
      if !r.dirty.contains sector then s
      else (s.stashBack s.cur.val r [sector]).modCellar fun c => { c with stash := c.stash.mapIdx fun i r =>
        if i = range then { r with dirty := delNat sector r.dirty } else r })

/-- DRAIN: each path retires once it is empty, with the sectors it wrote back (R336). The strand's stores stand in dirty sectors of the CACHE room until they are performed at their home, so that the STORE path writes back what the CACHE path does. -/
def execDrain (q : Guard) (gd ga : BitVec 5) (s : State) : Out :=
  .next (s.guarded q fun s =>
    let a := s.g ga
    if a >>> 2 != 0 then s.trap 0x11 0
    else match a.toNat with
      | 0 => s.cleanAll.writeG gd (BitVec.ofNat 64 ((s.core.cellar.cache.map CLine.dirtyCount).sum))
      | 1 => s.cleanAll.writeG gd (BitVec.ofNat 64 ((s.core.cellar.cache.map CLine.dirtyCount).sum))
      | 2 =>
        let n := (s.core.cellar.stash.map fun r => r.dirty.length).sum
        ((s.core.cellar.stash.foldl (fun s r => s.stashBack s.cur.val r r.dirty) s).modCellar fun c => { c with stash := c.stash.map fun r => { r with dirty := [] } }).writeG gd (BitVec.ofNat 64 n)
      | _ => if s.core.cellar.move.isSome then s else s.writeG gd 0)

end Sys2Proof.Machine
end

