-- ==== Sys2Proof/Machine/Special.lean ====
section
/-! DEFINITION. The special functions, step by step (R49-R57). -/

namespace Sys2Proof.Machine

/-- The constants of R50, FP32 patterns. -/
def cC1 : Nat := 0x3F317218
def cC2 : Nat := 0x3E75FDF0
def cC3 : Nat := 0x3D635847
def cC4 : Nat := 0x3C1D955B
def cC5 : Nat := 0x3AAEC3FF
def cC6 : Nat := 0x3921848D
def cD1 : Nat := 0x4038AA3B
def cD3 : Nat := 0x3F76384F
def cD5 : Nat := 0x3F13BB63
def cD7 : Nat := 0x3ED30BB2
def cH3 : Nat := 0xBEAAAAAB
def cH5 : Nat := 0x3E088889
def cH7 : Nat := 0xBD5D0DD1
def cH9 : Nat := 0x3CB327A4
def cL : Nat := 0x3FB8AA3B
def cT : Nat := 0x3FB504F3
def cOne : Nat := 0x3F800000
def pInf : Nat := 0x7F800000
def nInf : Nat := 0xFF800000
def fNan : Nat := 0x7FC00000

/-- One intermediate step: FP32, RNE, no flag, never flushed (R49). -/
def sadd (a b : Nat) : Nat := (fadd .plain 13 0 a b).1
def ssub (a b : Nat) : Nat := (fsub .plain 13 0 a b).1
def smul (a b : Nat) : Nat := (fmul .plain 13 0 a b).1
def sdiv (a b : Nat) : Nat := (fdiv .plain 13 0 a b).1
def sfma (a b c : Nat) : Nat := (ffma .plain 13 0 a b c).1

/-- A sign flip of an FP32 pattern. -/
def fneg32 (x : Nat) : Nat := if x.testBit 31 then x - 2 ^ 31 else x + 2 ^ 31

/-- The sign bit of an FP32 pattern and its magnitude. -/
def fabs32 (x : Nat) : Nat := x % 2 ^ 31

/-- Fused Horner steps p times f plus c, in the order of the list (R51). -/
def horner (f : Nat) : Nat → List Nat → Nat
  | p, [] => p
  | p, c :: cs => horner f (sfma p f c) cs

/-- The Horner chain of exp2, from c6, or from c3 under demotion (R51, R57). -/
def expPoly (dem : Bool) (f : Nat) : Nat :=
  if dem then horner f cC3 [cC2, cC1, cOne] else horner f cC6 [cC5, cC4, cC3, cC2, cC1, cOne]

/-- A flushed result: a zero of the sign with U and X (R36). -/
def flushed32 (neg : Bool) : Nat × Flags := ((fmtOf 13).signBit neg, flagU ||| flagX)

/-- exp2 of a finite value given exactly (R51). -/
def exp2Fin (v : FEnv) (neg : Bool) (m : Nat) (e : Int) : Nat × Flags :=
  let x := Val.fin neg m e
  if !vlt x (valOfInt 128) then (pInf, flagO ||| flagX)
  else if vlt x (valOfInt (-150)) then (0, flagU ||| flagX)
  else
    let (q, _) := roundShift 0 neg m (-e) false
    let n : Int := if neg then -(q : Int) else q
    let fv := (vadd 0 x (valOfInt (-n))).1
    let f := (toFloat .plain 13 0 fv).1
    let p := expPoly v.dem f
    let tiny := vlt x (valOfInt (-126))
    if v.flush && tiny then flushed32 false
    else
      let r := match unpackRaw 13 p with
        | .fin s pm pe => toFloat .plain 13 0 (.fin s pm (pe + n))
        | y => toFloat .plain 13 0 y
      let inex := !fv.isZero || r.2 &&& flagX != 0
      (r.1, (r.2 &&& flagO) ||| (if inex then flagX else 0) ||| (if inex && tiny then flagU else 0))

/-- exp2 (R51). -/
def fexp2 (v : FEnv) (a : Nat) : Nat × Flags :=
  match unpack v 13 a with
  | .nan => (fNan, 0)
  | .inf neg => (if neg then 0 else pInf, 0)
  | .fin neg m e => exp2Fin v neg m e

/-- log2 (R52). -/
def flog2 (v : FEnv) (a : Nat) : Nat × Flags :=
  match unpack v 13 a with
  | .nan => (fNan, 0)
  | .inf neg => if neg then (fNan, flagI) else (pInf, 0)
  | .fin neg m e =>
    if m == 0 then (nInf, flagZ)
    else if neg then (fNan, flagI)
    else
      let k := m.log2
      let ex : Int := e + k
      let mv := Val.fin false m (-(k : Int))                       -- 1 ≤ m < 2
      let big := vlt (unpackRaw 13 cT) mv
      let mv := if big then Val.fin false m (-(k : Int) - 1) else mv
      let ex := if big then ex + 1 else ex
      let t := (vdiv .plain 13 0 (vadd 0 mv (valOfInt (-1))).1 (vadd 0 mv (valOfInt 1)).1).1
      let s := smul t t
      let p := if v.dem then sfma' cD3 s cD1 else sfma' (sfma' (sfma' cD7 s cD5) s cD3) s cD1
      let r := smul t p
      let res := (toFloat .plain 13 0 (vadd 0 (valOfInt ex) (unpackRaw 13 r)).1).1
      (res, if m == 2 ^ k then 0 else flagX)
where
  /-- The Horner steps of log2 and tanh: one rounding of a × b + c (R49, R52). -/
  sfma' (a b c : Nat) : Nat := sfma a b c

/-- rcp (R53). -/
def frcp (v : FEnv) (a : Nat) : Nat × Flags :=
  vdiv v 13 0 (valOfInt 1) (unpack v 13 a)

/-- The integer square root, one bit at a time from bit n - 1 down. -/
def isqrtGo (x : Nat) : Nat → Nat → Nat
  | 0, r => r
  | n + 1, r => let c := r + 2 ^ n; isqrtGo x n (if c * c ≤ x then c else r)

/-- rsq (R53): the correctly rounded 1 over the square root. -/
def frsq (v : FEnv) (a : Nat) : Nat × Flags :=
  match unpack v 13 a with
  | .nan => (fNan, 0)
  | .inf neg => if neg then (fNan, flagI) else (0, 0)
  | .fin neg m e =>
    if m == 0 then (if neg then nInf else pInf, flagZ)
    else if neg then (fNan, flagI)
    else
      let odd := e % 2 != 0
      let m := if odd then 2 * m else m
      let h : Int := (if odd then e - 1 else e) / 2
      let r := isqrtGo (2 ^ 128 / m) 65 0
      packRound v 13 0 false r (-64 - h) (r * r * m != 2 ^ 128)

/-- A delivered FP32 result under flush mode: a non-zero subnormal is replaced (R36, R49). -/
def flushOut (v : FEnv) (r : Nat × Flags) : Nat × Flags :=
  if v.flush && fabs32 r.1 != 0 && fabs32 r.1 < 2 ^ 23 then flushed32 (r.1.testBit 31) else r

/-- tanh (R54, R57). -/
def ftanh (v : FEnv) (x : Nat) : Nat × Flags :=
  let neg := x.testBit 31
  let sgn (r : Nat) : Nat := if neg then r + 2 ^ 31 else r
  match unpack v 13 x with
  | .nan => (fNan, 0)
  | .inf _ => (sgn cOne, 0)
  | .fin _ m e =>
    let av := Val.fin false m e
    let a := (toFloat .plain 13 0 av).1
    let fx : Flags := if m == 0 then 0 else flagX
    if vlt av (.fin false 1 (-13)) then
      let r := flushOut v (sgn a, fx)
      (r.1, if m != 0 && a < 2 ^ 23 then r.2 ||| flagU else r.2)
    else if vlt av (.fin false 1 (-2)) then
      let s := smul a a
      let p := if v.dem then cH3 else sfma (sfma (sfma cH9 s cH7) s cH5) s cH3
      (sgn (sadd a (smul a (smul s p))), fx)
    else if vlt av (valOfInt 9) then
      let t := smul (fneg32 (sadd a a)) cL
      let u := (fexp2 ⟨false, v.dem⟩ t).1
      (sgn (sdiv (ssub cOne u) (sadd cOne u)), fx)
    else (sgn cOne, fx)

/-- sigmoid (R55, R57). -/
def fsigm (v : FEnv) (x : Nat) : Nat × Flags :=
  match unpack v 13 x with
  | .nan => (fNan, 0)
  | .inf neg => (if neg then 0 else cOne, 0)
  | .fin neg m e =>
    let a := (toFloat .plain 13 0 (.fin neg m e)).1
    let u := (fexp2 ⟨false, v.dem⟩ (smul (fneg32 a) cL)).1
    let r := sdiv cOne (sadd cOne u)
    let tiny := r < 2 ^ 23
    let fl : Flags := if m == 0 then 0 else if tiny then flagX ||| flagU else flagX
    flushOut v (r, fl)

/-- e(x, m), the AP's exponent rule, with the case that applied (R56). -/
def apExp (v : FEnv) (x m : Nat) : Nat × Flags × Nat :=
  let xv := unpack v 13 x; let mv := unpack v 13 m
  if xv == .inf true then (0, 0, 1)
  else if !xv.isNan && !mv.isNan && !vlt xv mv && !vlt mv xv then (cOne, 0, 2)
  else if xv.isNan || mv.isNan then (fNan, 0, 3)
  else
    let d := (toFloat .plain 13 0 (vadd 0 xv (vneg mv)).1).1
    let (r, fl) := fexp2 ⟨false, v.dem⟩ (smul d cL)
    let (r, fl) := if v.flush && fabs32 r != 0 && fabs32 r < 2 ^ 23 then flushed32 false else (r, fl)
    (r, fl, 4)

end Sys2Proof.Machine
end

