-- ==== Sys2Proof/Machine/Block.lean ====
section
/-! DEFINITION. Block programs: the load checks and one firing, from its operands to its tokens (R70-R73, R202-R231, R272-R276). Pure: no state of the device. -/

namespace Sys2Proof.Machine

/-! ## Fields of an instruction and of a header -/

/-- A block instruction from its word (R70). -/
def BInstr.ofWord (w : Word) : BInstr :=
  ⟨w.extractLsb' 56 8, w.extractLsb' 48 8, w.extractLsb' 40 8, w.extractLsb' 35 5, w.extractLsb' 32 3, w.extractLsb' 0 32⟩

def BInstr.opn (i : BInstr) : Nat := i.op.toNat
def BInstr.fm (i : BInstr) : Nat := i.fmt.toNat

/-- Fields of the immediate. -/
def BInstr.ib (i : BInstr) (hi lo : Nat) : Nat := bits i.imm.toNat hi lo

/-- Header fields (R72). -/
def Block.count (b : Block) : Nat := bits b.hdr.toNat 63 59 + 1
def Block.var (b : Block) : Bool := b.hdr.getLsbD 58
def Block.li (b : Block) (n : Nat) : Nat := bits b.hdr.toNat (41 + 2 * n) (40 + 2 * n)
def Block.lo (b : Block) (n : Nat) : Nat := bits b.hdr.toNat (25 + 2 * n) (24 + 2 * n)
def Block.policy (b : Block) : Nat := bits b.hdr.toNat 23 22

/-- Declared inputs and outputs. -/
def Block.ins' (b : Block) : List Nat := (List.range 8).filter fun n => b.li n != 0
def Block.outs (b : Block) : List Nat := (List.range 8).filter fun n => b.lo n != 0

/-- A target byte (R71): none, a slot of an instruction, an output link, a context register. -/
inductive Target where
  | none
  | slot (k i : Nat)
  | lo (n : Nat)
  | c (n : Nat)
  | bad
  deriving DecidableEq, Repr

/-- Read a target byte. -/
def targetOf (b : BitVec 8) : Target :=
  let i := bits b.toNat 4 0
  if !b.getLsbD 7 then (if b = 0 then .none else .bad)
  else if bits b.toNat 6 5 < 3 then .slot (bits b.toNat 6 5) i
  else if i < 8 then .lo i else if i < 24 then .c (i - 8) else .bad

/-- Every target of a block, with the index of its instruction. -/
def Block.targets (b : Block) : List (Nat × Target) :=
  (b.ins.zipIdx.map fun (i, k) => [(k, targetOf i.ta), (k, targetOf i.tb)]).flatten

/-! ## Formats and slots (R214-R228, R275, R276) -/

def fInt (f : Nat) : Bool := decide (1 ≤ f) && decide (f ≤ 7)
def fFlt (f : Nat) : Bool := f == 8 || f == 9 || f == 11 || f == 12 || f == 13
def fAny (f : Nat) : Bool := decide (1 ≤ f) && decide (f ≤ 19) && f != 10

/-- Opcodes of R73 with their formats; an opcode with no format is unassigned. -/
def fmtOk (op f : Nat) : Bool :=
  if op == 0x01 || op == 0x53 || op == 0x54 || op == 0x55 then f == 0
  else if op == 0x02 || op == 0x05 || op == 0x06 || op == 0x24 || op == 0x38 || op == 0x60 || op == 0x61 then fAny f
  else if op == 0x03 then f == 20
  else if op == 0x04 then (fAny f && decide (f ≤ 15)) || f == 18 || f == 19
  else if op == 0x10 || op == 0x11 || op == 0x12 || op == 0x15 || op == 0x16 then fInt f || fFlt f || f == 15
  else if op == 0x14 || op == 0x17 || op == 0x18 then fInt f || fFlt f
  else if op == 0x13 || op == 0x1A || op == 0x1B || op == 0x1C || op == 0x37 then fInt f
  else if op == 0x19 then fFlt f
  else if decide (0x20 ≤ op) && decide (op ≤ 0x23) then fInt f || fFlt f || f == 15
  else if decide (0x30 ≤ op) && decide (op ≤ 0x33) then fInt f || f == 18 || f == 19
  else if decide (0x34 ≤ op) && decide (op ≤ 0x36) then fInt f || f == 19
  else if decide (0x40 ≤ op) && decide (op ≤ 0x45) then f == 13
  else if decide (0x50 ≤ op) && decide (op ≤ 0x52) then fInt f || fFlt f
  else if op == 0x62 then f == 15 || f == 16 || f == 17
  else if op == 0xE0 then f == 6 || f == 13
  else if op == 0xE1 then f == 13
  else false

/-- Assigned cells of R73. -/
def opAssigned (op : Nat) : Bool := (List.range 21).any (fmtOk op)

/-- Instructions marked ◆: never in a stage program. -/
def opDiamond (op : Nat) : Bool := op == 0x06 || (decide (0x50 ≤ op) && decide (op ≤ 0x62))

/-- Whether slot a is needed. -/
def needsA (op : Nat) : Bool :=
  !(op == 0x01 || op == 0x02 || op == 0x04 || op == 0x06 || op == 0x53 || op == 0x55 || op == 0x61 || op == 0x62)

/-- Whether slot b is marked "b or imm". -/
def bOrImm (op : Nat) : Bool :=
  (decide (0x10 ≤ op) && decide (op ≤ 0x16)) || op == 0x1A || op == 0x1B || (decide (0x20 ≤ op) && decide (op ≤ 0x23)) ||
  (decide (0x30 ≤ op) && decide (op ≤ 0x36) && op != 0x33)

/-- Whether slot b is needed from a target. -/
def needsB (op f : Nat) : Bool :=
  op == 0x03 || op == 0x19 || op == 0x1C || op == 0x24 || (op == 0x38 && (f == 16 || f == 17)) || op == 0xE0 || op == 0xE1

/-- Shifts, whose immediate is a shift count. -/
def isShift (op : Nat) : Bool := op == 0x34 || op == 0x35 || op == 0x36

/-- Whether an FP32 pattern is exactly representable in a format; a NaN is (R203). -/
def fpFits (f imm : Nat) : Bool :=
  match unpackRaw 13 imm with
  | .nan => true
  | x => (toFloat .plain f 0 x).2 == 0

/-- Whether an immediate is exactly representable in a format (R203). -/
def immFits (f imm : Nat) : Bool :=
  if fFlt f then fpFits f imm
  else if f == 18 then decide (imm ≤ 1)
  else if isInt f && (intFmt f).2 then decide (intMin f ≤ signed 32 imm) && decide (signed 32 imm ≤ intMax f)
  else if isInt f then decide ((imm : Int) ≤ intMax f)
  else true

/-- An immediate read in a format, as a payload (R203). -/
def immVal (f imm : Nat) : Word :=
  if fFlt f then fpayload (toFloat .plain f 0 (unpackRaw 13 imm)).1
  else if isInt f && (intFmt f).2 then BitVec.ofInt 64 (signed 32 imm)
  else BitVec.ofNat 64 imm

/-- Whether a slot of an instruction is named by some target. -/
def Block.named (b : Block) (k i : Nat) : Bool := b.targets.any fun t => t.2 == .slot k i

/-- The immediate's check, given whether a target names slot b. -/
def immOk (i : BInstr) (bNamed : Bool) : Bool :=
  let op := i.opn
  let f := i.fm
  let imm := i.imm.toNat
  if bOrImm op then
    if bNamed then imm == 0 else if isShift op then decide (imm < 64) else immFits f imm
  else match op with
    | 0x02 | 0x03 => decide (imm < 8)
    | 0x04 => immFits f imm
    | 0x06 => decide (imm < 16)
    | 0x19 => fpFits f imm
    | 0x1C => decide (imm < min 64 (2 * (intFmt f).1))
    | 0x37 => decide (imm < 256)
    | 0x38 =>
      let src := i.ib 4 0
      i.ib 31 8 == 0 && fAny src && (i.ib 7 7 == 0 || src == 16 || src == 17)
    | 0x50 | 0x51 | 0x52 | 0x53 | 0x54 => decide (imm < 8)
    | 0x61 => i.ib 31 6 == 0 && i.ib 2 0 != i.ib 5 3
    | 0x62 => i.ib 31 10 == 0 && i.ib 2 0 != i.ib 5 3 && !(i.ib 9 9 == 1 && i.ib 8 8 == 0) && !(i.ib 8 8 == 1 && i.ib 7 6 == 3)
    | _ => imm == 0

/-! ## The load checks (R70-R73, R209) -/

/-- The kind of a stage program: 0 score, 1 mask, 2 blend, with its declared inputs; none on a plot. -/
abbrev StageOf := Option (Nat × BitVec 16)

/-- The format of a stage input (R272); none for a number that the stage does not have. -/
def stageInput (kind n : Nat) : Option Nat :=
  if kind = 2 then (if n < 4 then some 13 else none)
  else match n with
    | 0 | 4 => some 13
    | 1 | 2 => some 5
    | _ => if n < 11 then some 6 else none

/-- The outputs of a stage and their format (R272). -/
def stageOut (kind n : Nat) : Bool := if kind = 2 then decide (n < 3) else n == 0

/-- The check of one target of instruction k (R71, R73). -/
def targetCheck (b : Block) (st : StageOf) (k : Nat) (t : Target) : Option (BitVec 8) :=
  match t with
  | .none => none
  | .bad => some 0x43
  | .slot s i =>
    if b.count ≤ i then some 0x48
    else if i ≤ k then some 0x43
    else match b.ins[i]? with
      | none => some 0x48
      | some j =>
        if s = 2 then (if j.pm = 0 then some 0x43 else none)
        else if s = 0 then (if needsA j.opn then none else some 0x43)
        else if needsB j.opn j.fm || bOrImm j.opn then none else some 0x43
  | .lo n => if b.lo n = 0 then some 0x44 else none
  | .c _ => if st.isSome then some 0x45 else none

/-- The check of an instruction's operands of a stage program, or of one on a plot. -/
def stageCheck (i : BInstr) (st : StageOf) : Option (BitVec 8) :=
  match st with
  | none => if 0xE0 ≤ i.opn then some 0x43 else if i.opn == 0x02 && decide (8 ≤ i.imm.toNat) then some 0x43 else none
  | some (kind, decl) =>
    if opDiamond i.opn then some 0x45
    else if i.opn = 0x03 then some 0x43
    else if i.opn = 0x02 then
      if 16 ≤ i.imm.toNat then some 0x43
      else match stageInput kind i.imm.toNat with
        | none => some 0x43
        | some f => if f ≠ i.fm then some 0x43 else if decl.getLsbD i.imm.toNat then none else some 0x44
    else none

/-- The checks of one instruction. -/
def instrCheck (b : Block) (st : StageOf) (k : Nat) (i : BInstr) : Option (BitVec 8) :=
  let op := i.opn
  let ta := targetOf i.ta
  let tb := targetOf i.tb
  let isLo (t : Target) : Bool := match t with | .lo _ => true | _ => false
  if !opAssigned op then some 0x43
  else ((stageCheck i st).orElse fun _ =>
    if !fmtOk op i.fm || 2 < i.pm.toNat then some 0x43
    else if !(op == 0x02 && st.isSome) && !immOk i (b.named 1 k) then some 0x43
    else if (op == 0x24 || op == 0x60) && i.pm = 0 then some 0x43
    else if (op == 0x01 || op == 0x03) && (ta != .none || tb != .none) then some 0x43
    else if op == 0x55 && !((ta == .none || isLo ta) && (tb == .none || isLo tb)) then some 0x43
    else if op == 0x60 && !(isLo ta && isLo tb && ta != tb) then some 0x43
    else if op == 0x03 && b.lo (i.ib 2 0) < 2 then some 0x43
    else if needsA op && !b.named 0 k then some 0x43
    else if needsB op i.fm && !b.named 1 k then some 0x43
    else if i.pm != 0 && !b.named 2 k then some 0x43
    else none).orElse fun _ => (targetCheck b st k ta).orElse fun _ => targetCheck b st k tb

/-- The RECVs of a link; mode 000 only, or all. -/
def Block.recvs (b : Block) (n : Nat) (uncond : Bool) : Nat :=
  b.ins.countP fun i => i.opn == 0x02 && i.ib 2 0 == n && (!uncond || i.pm == 0)

/-- The tokens that a fixed-rate block sends on a link: its targets, and two for a SEND. -/
def Block.sendsOn (b : Block) (n : Nat) : Nat :=
  b.targets.countP (fun t => t.2 == .lo n) + 2 * b.ins.countP fun i => i.opn == 0x03 && i.ib 2 0 == n

/-- The MERGE or JOIN of a block, with its index. -/
def Block.walker (b : Block) : Option (Nat × BInstr) :=
  (b.ins.zipIdx.find? fun x => x.1.opn == 0x61 || x.1.opn == 0x62).map fun x => (x.2, x.1)

/-- Whether the block holds a mode-3 JOIN. -/
def Block.join3 (b : Block) : Option BInstr := b.ins.find? fun i => i.opn == 0x62 && i.ib 7 6 == 3

/-- The checks over the whole block (R209). -/
def blockRules (b : Block) (st : StageOf) : Bool :=
  let walkers := b.ins.filter fun i => i.opn == 0x61 || i.opn == 0x62
  let rows56 := b.ins.any fun i => decide (0x50 ≤ i.opn) && decide (i.opn ≤ 0x62)
  walkers.length ≤ 1 &&
  (walkers.all fun w => b.policy == 2 && b.recvs (w.ib 2 0) false == 0 && b.recvs (w.ib 5 3) false == 0) &&
  (!(rows56 || b.policy == 2) || b.var) &&
  (match st with
    | some _ => true
    | none => (List.range 8).all fun n => if b.var then decide (b.recvs n true ≤ b.li n) else b.recvs n false == b.li n) &&
  (b.var || ((b.ins.all fun i => i.pm == 0 || i.opn == 0x24) && (List.range 8).all fun n => b.sendsOn n == b.lo n))

/-- The header's own check (R72, R273). -/
def headerOk (b : Block) (st : StageOf) : Bool :=
  bits b.hdr.toNat 57 56 == 0 && bits b.hdr.toNat 21 0 == 0 && b.policy != 3 && b.ins.length == b.count &&
  match st with
  | none => true
  | some (kind, _) => b.ins'.isEmpty && !b.var && b.policy == 0 &&
      (List.range 8).all (fun n => b.lo n == (if stageOut kind n then 1 else 0))

/-- The checks of a block at load or bind (R70-R73, R209, R273, R274). Which code a block receives that breaks several rules the spec leaves open: the header is checked first, then each instruction in index order (the stage, the format, the immediate, the slots, target A, target B), then the whole block (DESIGN CHOICE, log 43). -/
def Block.check (b : Block) (st : StageOf) : Option (BitVec 8) :=
  if !headerOk b st then some 0x43
  else match b.ins.zipIdx.findSome? fun x => instrCheck b st x.2 x.1 with
    | some c => some c
    | none =>
      let slots := b.targets.filter fun t => match t.2 with | .slot _ _ => true | _ => false
      if st.isSome && !decide ((slots.map (·.2)).Nodup) then some 0x43
      else if blockRules b st then none else some 0x43

/-- The formats that an instruction sends to its targets (R212). -/
def BInstr.outFmt (i : BInstr) : Nat :=
  if (decide (0x20 ≤ i.opn) && decide (i.opn ≤ 0x23)) || i.opn == 0x54 then 18 else i.fm

/-- The producer formats on an output link (R212): one, for a block that the loader accepts. -/
def Block.prodFmts (b : Block) (n : Nat) : List Nat :=
  (b.ins.flatMap fun i =>
    if i.opn == 0x03 then (if i.ib 2 0 == n then [20] else [])
    else if i.opn == 0x53 || i.opn == 0x55 then []
    else
      (if targetOf i.ta == .lo n then [i.outFmt] else []) ++
      (if targetOf i.tb == .lo n && !(decide (0x50 ≤ i.opn) && decide (i.opn ≤ 0x52)) then [i.outFmt] else [])).eraseDups

/-- The consumer formats on an input link (R212). -/
def Block.consFmts (b : Block) (n : Nat) : List Nat :=
  (b.ins.filterMap fun i =>
    if i.opn == 0x02 && i.ib 2 0 == n then some i.fm
    else if (i.opn == 0x61 || i.opn == 0x62) && (i.ib 2 0 == n || i.ib 5 3 == n) then some i.fm else none).eraseDups

/-! ## Element arithmetic (R215-R222) -/

/-- The integer format that an element is computed in: COORD as Z32, RAW64 as 64 bits (R215, R220). -/
def intAs (f : Nat) : Nat := if f == 15 then 6 else if f == 19 then 7 else f

/-- An integer result, delivered in its format. -/
def intRes (f : Nat) (v : Int) : Word := intPayload (intAs f) v

/-- A saturated integer result, with O when it saturates. -/
def satRes (f : Nat) (v : Int) : Word × Flags :=
  let s := sat v (intMin f) (intMax f)
  (intPayload f s, if s = v then 0 else flagO)

/-- ADD to MULQ for an integer format (R216). -/
def intOp (op f : Nat) (a b : Int) (imm : Nat) : Word × Flags :=
  let w := (intFmt (intAs f)).1
  match op with
  | 0x10 => (intRes f (a + b), 0)
  | 0x11 => (intRes f (a - b), 0)
  | 0x12 => (intRes f (a * b), 0)
  | 0x13 => (intRes f (a * b / 2 ^ w), 0)
  | 0x14 => (if b = 0 then intRes f (-1) else intRes f (a.tdiv b), 0)
  | 0x15 => (intRes f (min a b), 0)
  | 0x16 => (intRes f (max a b), 0)
  | 0x17 => (intRes f a.natAbs, 0)
  | 0x18 => (intRes f (-a), 0)
  | 0x1A => satRes f (a + b)
  | 0x1B => satRes f (a - b)
  | _ => satRes f (if imm = 0 then a * b else (a * b + 2 ^ (imm - 1)) / 2 ^ imm)

/-- ADD to FMA for a floating-point format (R217). -/
def fltOp (v : FEnv) (op f a b imm : Nat) : Word × Flags :=
  let fm := fmtOf f
  let r (x : Nat × Flags) : Word × Flags := (fpayload x.1, x.2)
  let signless := if (unpack v f a).isZero then 0 else a % 2 ^ (fm.eb + fm.mb)
  let isNan := (unpackRaw f a).isNan
  match op with
  | 0x10 => r (fadd v f 0 a b)
  | 0x11 => r (fsub v f 0 a b)
  | 0x12 => r (fmul v f 0 a b)
  | 0x14 => r (fdiv v f 0 a b)
  | 0x15 => r (fmin v f a b, 0)
  | 0x16 => r (fmax v f a b, 0)
  | 0x17 => r (if isNan then fm.nan else signless, 0)
  | 0x18 => r (if isNan then fm.nan else signless + (if a.testBit (fm.eb + fm.mb) then 0 else fm.signBit true), 0)
  | _ => r (ffma v f 0 a b (immVal f imm).toNat)

/-- The relation of a comparison (R218). -/
def cmpOp (v : FEnv) (op f : Nat) (a b : Word) : Bool :=
  if fFlt f then
    let x := unpack v f a.toNat
    let y := unpack v f b.toNat
    let un := x.isNan || y.isNan
    let eq := !un && !vlt x y && !vlt y x
    match op with
    | 0x20 => eq
    | 0x21 => !eq
    | 0x22 => !un && vlt x y
    | _ => !un && !vlt y x
  else
    let x := intOf (intAs f) a.toNat
    let y := intOf (intAs f) b.toNat
    match op with
    | 0x20 => x == y
    | 0x21 => x != y
    | 0x22 => decide (x < y)
    | _ => decide (x ≤ y)

/-- Logic and shifts (R220). -/
def bitOp (op f : Nat) (a b : Word) (imm : Nat) : Word :=
  if f == 18 then
    let x := a.getLsbD 0
    let y := b.getLsbD 0
    (BitVec.ofBool (match op with | 0x30 => x && y | 0x31 => x || y | 0x32 => x != y | _ => !x)).setWidth 64
  else
    let c := intAs f
    let w := (intFmt c).1
    let u := a.toNat % 2 ^ w
    let n := b.toNat % 64
    match op with
    | 0x30 => intRes f (a &&& b).toNat
    | 0x31 => intRes f (a ||| b).toNat
    | 0x32 => intRes f (a ^^^ b).toNat
    | 0x33 => intRes f (~~~a).toNat
    | 0x34 => intRes f (u * 2 ^ n : Nat)
    | 0x35 => intRes f (u / 2 ^ n : Nat)
    | 0x36 => intRes f (signed w u / 2 ^ n)
    | _ =>
      let x := intOf c a.toNat
      let (q, _) := roundShift (BitVec.ofNat 2 (bits imm 7 6)) (decide (x < 0)) x.natAbs (bits imm 5 0) false
      intRes f (if x < 0 then -(q : Int) else q)

/-- The value format and payload that a CVT source stands for (R221). -/
def cvtSrc (src : Nat) (part : Bool) (w : Word) : Nat × Word :=
  match src with
  | 15 => (6, w)
  | 16 => if part then (4, w >>> 16) else (11, w.extractLsb' 0 16 |>.setWidth 64)
  | 17 => if part then (6, w >>> 32) else (13, w.extractLsb' 0 32 |>.setWidth 64)
  | 18 => (2, w &&& 1)
  | _ => (src, w)

/-- CVT to a format that is no pair (R221). -/
def cvtOp (v : FEnv) (d src : Nat) (part : Bool) (rnd : BitVec 2) (w : Word) : Word × Flags :=
  let (s, x) := cvtSrc src part w
  if d == 19 then (payloadOf s x.toNat, 0)
  else if src == 19 then (payloadOf d w.toNat, 0)
  else
    if d == 18 then (if (valOf v s x.toNat).isZero then 0 else 1, 0)
    else convert v s (if d == 15 then 6 else d) rnd x

/-- The coordinate of a COORD or pair, and a pair's value with its format. -/
def coordOf (f : Nat) (w : Word) : Nat := if f == 16 then bits w.toNat 31 16 else if f == 17 then bits w.toNat 63 32 else bits w.toNat 31 0
def pairVal (f : Nat) (w : Word) : Nat := if f == 16 then bits w.toNat 15 0 else bits w.toNat 31 0

/-- A pair of a coordinate and a value. -/
def pairOf (f c x : Nat) : Word :=
  if f == 16 then BitVec.ofNat 64 (c % 2 ^ 16 * 2 ^ 16 + x % 2 ^ 16) else BitVec.ofNat 64 (c % 2 ^ 32 * 2 ^ 32 + x % 2 ^ 32)

/-- The special functions (R222). -/
def specialOp (v : FEnv) (op a : Nat) : Nat × Flags :=
  match op with
  | 0x40 => fexp2 v a
  | 0x41 => flog2 v a
  | 0x42 => frcp v a
  | 0x43 => frsq v a
  | 0x44 => ftanh v a
  | _ => fsigm v a

/-- The identity of a reduction (R223). -/
def redId (op f : Nat) : Word :=
  let m := if f == 8 then 0x7E else (fmtOf f).infBits
  match op with
  | 0x50 => 0
  | 0x51 => if fFlt f then fpayload ((fmtOf f).signBit true + m) else intPayload f (intMin f)
  | _ => if fFlt f then fpayload m else intPayload f (intMax f)

/-- One step of a reduction (R223). -/
def redStep (v : FEnv) (op f : Nat) (acc x : Word) : Word × Flags :=
  if fFlt f then fltOp v (match op with | 0x50 => 0x10 | 0x51 => 0x16 | _ => 0x15) f acc.toNat x.toNat 0
  else intOp (match op with | 0x50 => 0x1A | 0x51 => 0x16 | _ => 0x15) f (intOf f acc.toNat) (intOf f x.toNat) 0

/-! ## One firing (R202-R206) -/

/-- What a firing reads: the arithmetic options, the context registers with their single and uncorrectable bit errors, the tokens at each input, whether STOPs enter, the accumulators, the replay buffer; for a stage program its inputs and its RELB. -/
structure BEnv where
  fenv   : FEnv
  regs   : Nat → Word
  err1   : Nat → Bool
  err2   : Nat → Bool
  heads  : Nat → List Token
  fire   : Bool
  stage  : Option (Nat → Word)
  relb   : Nat → Word → Word → Word

/-- A firing at its start. -/
def Firing.start (red : List (Nat × Word)) (rp : Replay) : Firing := ⟨[], .replicate 8 0, [], [], 0, red, rp, none, [], 0⟩

/-- The operand that stands in a slot. -/
def Firing.slot (s : Firing) (i k : Nat) : Option Opd := (s.del.find? (·.1 == 4 * i + k)).map (·.2)

/-- A fault of instruction i; the first stays. -/
def Firing.fail (s : Firing) (code : BitVec 8) (i : Nat) : Firing := { s with fault := s.fault.orElse fun _ => some (code, i) }

/-- A STOP payload with its reserved bits 0 (R69). -/
def stopPayload (level count : Nat) : Word := BitVec.ofNat 64 (count % 2 ^ 32 * 2 ^ 32 + level % 8)

/-- The level of a STOP payload. -/
def stopLevel (w : Word) : Nat := bits w.toNat 2 0

/-- A STOP token that passes on a payload. -/
def stopToken (w : Word) : Token := ⟨1, w &&& 0xFFFFFFFF00000007#64⟩

/-- EOS and drain-request (R69). -/
def eosToken : Token := ⟨3, 0⟩
def drainToken : Token := ⟨3, 1⟩

/-- Instruction i sends a token on output n: behind the tokens of the instructions before it, whenever those resolve (R206). -/
def Firing.send (s : Firing) (i n : Nat) (t : Token) : Firing :=
  { s with sends := s.sends.takeWhile (fun x => decide (x.1 ≤ i)) ++ (i, n, t) :: s.sends.dropWhile fun x => decide (x.1 ≤ i) }

/-- Deliver an operand of instruction i to a target (R202, R205, R214). -/
def Firing.deliver (s : Firing) (i : Nat) (t : Target) (o : Opd) : Firing :=
  match t with
  | .none | .bad => s
  | .slot k j =>
    match o with
    | .mark _ => if k = 0 then (if (s.slot j 0).isSome then s.fail 0x43 i else { s with del := (4 * j, o) :: s.del }) else s
    | .val _ => if (s.slot j k).isSome then s.fail 0x43 i else { s with del := (4 * j + k, o) :: s.del }
  | .lo n => s.send i n (match o with | .val w => ⟨0, w⟩ | .mark w => stopToken w)
  | .c n => match o with
    | .mark _ => s.fail 0x43 i
    | .val w => if s.writes.any (·.1 == n) then s.fail 0x43 i else { s with writes := s.writes ++ [(n, w)] }

/-- Deliver to both targets of an instruction, A before B. -/
def Firing.out (s : Firing) (i : Nat) (b : BInstr) (o : Opd) : Firing := (s.deliver i (targetOf b.ta) o).deliver i (targetOf b.tb) o

/-- Deliver a computed result. -/
def Firing.res (s : Firing) (i : Nat) (b : BInstr) (r : Word × Flags) : Firing :=
  ({ s with flags := s.flags ||| r.2 }).out i b (.val r.1)

/-- The token that a taker of input n meets next in this firing. -/
def Firing.head (s : Firing) (e : BEnv) (n : Nat) : Option Token := (e.heads n)[s.taken.getD n 0]?

/-- Count one token of input n as taken. -/
def Firing.take (s : Firing) (n : Nat) : Firing := { s with taken := s.taken.set n (s.taken.getD n 0 + 1) }

/-- A DATA token or, under "fire", a STOP as an operand (R205, R210). -/
def opdOf (fire : Bool) (t : Token) : Option Opd :=
  if t.kind = 0 then some (.val t.payload) else if t.kind = 1 && fire then some (.mark t.payload) else none

/-- The accumulator of instruction i. -/
def Firing.acc (s : Firing) (i op f : Nat) : Word := ((s.red.find? (·.1 == i)).map (·.2)).getD (redId op f)

/-- Set the accumulator of instruction i. -/
def Firing.setAcc (s : Firing) (i : Nat) (w : Word) : Firing := { s with red := (i, w) :: s.red.filter (·.1 != i) }

/-- REDADD, REDMAX, REDMIN (R223). -/
def Firing.reduce (s : Firing) (e : BEnv) (i : Nat) (b : BInstr) : Firing :=
  let acc := s.acc i b.opn b.fm
  match s.slot i 0 with
  | none => s
  | some (.val w) =>
    let (r, fl) := redStep e.fenv b.opn b.fm acc w
    ({ s with flags := s.flags ||| fl }).setAcc i r
  | some (.mark w) =>
    if b.ib 2 0 ≤ stopLevel w then
      ((s.setAcc i (redId b.opn b.fm)).deliver i (targetOf b.ta) (.val acc)).deliver i (targetOf b.tb) (.mark w)
    else s.deliver i (targetOf b.tb) (.mark w)

/-! ### JOIN (R228-R232) -/

/-- A side's head: DATA, a STOP of a level, or an EOS as level 8. -/
inductive JHead where
  | data (w : Word)
  | stop (level : Nat)
  deriving DecidableEq, Repr

/-- Read a token as a head of a JOIN. -/
def jHead (t : Token) : Option JHead :=
  if t.kind = 0 then some (.data t.payload) else if t.kind = 1 then some (.stop (stopLevel t.payload))
  else if t = eosToken then some (.stop 8) else none

/-- The head of a side: from the replay buffer, or from the link. -/
def Firing.joinHead (s : Firing) (e : BEnv) (b : BInstr) (side : Nat) : Option JHead :=
  let n := if side = 0 then b.ib 2 0 else b.ib 5 3
  if b.ib 8 8 = 1 && b.ib 9 9 = side && s.replay.live then (s.replay.toks[s.replay.pos]?).bind jHead
  else (s.head e n).bind jHead

/-- Consume a side's head: a token of the replay buffer, or of the link, which a replay side keeps (R230). -/
def Firing.joinTake (s : Firing) (e : BEnv) (i : Nat) (b : BInstr) (side : Nat) : Firing :=
  let n := if side = 0 then b.ib 2 0 else b.ib 5 3
  if b.ib 8 8 = 1 && b.ib 9 9 = side then
    if s.replay.live then
      let p := s.replay.pos + 1
      { s with replay := { s.replay with pos := p, live := decide (p < s.replay.toks.length) } }
    else match s.head e n with
      | none => s
      | some t =>
        if t.kind = 0 && decide (64 ≤ s.replay.toks.countP fun x => x.kind == 0) then s.fail 0x63 i
        else { s.take n with replay := { s.replay with toks := s.replay.toks ++ [t] } }
  else s.take n

/-- Consume sides, and deliver a, b, or a marker. -/
def Firing.joinA (s : Firing) (i : Nat) (b : BInstr) (o : Opd) : Firing := s.deliver i (targetOf b.ta) o
def Firing.joinB (s : Firing) (i : Nat) (b : BInstr) (o : Opd) : Firing := s.deliver i (targetOf b.tb) o

/-- Whether the replay side meets the rows of R230 instead of the table's last two. -/
def joinReplays (b : BInstr) (la lb : Nat) : Bool := b.ib 8 8 == 1 && la != 8 && lb != 8

/-- Both heads STOPs (R229, R230). -/
def Firing.joinStops (s : Firing) (e : BEnv) (i : Nat) (b : BInstr) (la lb : Nat) : Firing :=
  let m (l : Nat) : Opd := .mark (stopPayload l 0)
  let ta := fun (s : Firing) => s.joinTake e i b 0
  let tb := fun (s : Firing) => s.joinTake e i b 1
  -- a STOP of the replay side that an EOS meets ends its fibre: the next one starts with an empty buffer
  let ends (side : Nat) (s : Firing) : Firing := if b.ib 8 8 = 1 && b.ib 9 9 = side then { s with replay := ⟨[], 0, false⟩ } else s
  if la = 8 then (ends 1 (tb s)).joinA i b (m lb)
  else if lb = 8 then (ends 0 (ta s)).joinA i b (m la)
  else if joinReplays b la lb then
    let r := b.ib 9 9
    let other := if r = 0 then lb else la
    -- the STOP that closes the replay side's fibre is consumed once and kept
    if other = 0 then
      let s := s.joinTake e i b r
      let s := s.joinTake e i b (1 - r)
      ({ s with replay := { s.replay with pos := 0, live := true } }).joinA i b (m 0)
    else
      let s := (tb (ta s))
      ({ s with replay := ⟨[], 0, false⟩ }).joinA i b (m (max la lb))
  else if la = lb then (tb (ta s)).joinA i b (m la)
  else if b.ib 7 6 = 3 then (tb (ta s)).joinA i b (m (max la lb))
  else s.fail 0x61 i

/-- Both heads DATA (R229). -/
def Firing.joinData (s : Firing) (e : BEnv) (i : Nat) (b : BInstr) (a c : Word) : Firing :=
  let ca := coordOf b.fm a
  let cb := coordOf b.fm c
  let mode := b.ib 7 6
  if ca < cb then
    let s := s.joinTake e i b 0
    if mode = 0 then s else s.joinA i b (.val a)
  else if cb < ca then
    let s := s.joinTake e i b 1
    match mode with | 0 => s | 1 => s.joinB i b (.val c) | _ => s.joinA i b (.val c)
  else if mode = 2 then (s.joinTake e i b 0).joinA i b (.val a)
  else
    let s := (s.joinTake e i b 0).joinTake e i b 1
    if mode = 3 then
      if b.fm = 15 then s.joinA i b (.val a)
      else
        let vf := if b.fm = 16 then 11 else 13
        let (x, fl) := fadd e.fenv vf 0 (pairVal b.fm a) (pairVal b.fm c)
        ({ s with flags := s.flags ||| fl }).joinA i b (.val (pairOf b.fm ca x))
    else (s.joinA i b (.val a)).joinB i b (.val c)

/-- One JOIN (R229). -/
def Firing.join (s : Firing) (e : BEnv) (i : Nat) (b : BInstr) : Firing :=
  let mode := b.ib 7 6
  match s.joinHead e b 0, s.joinHead e b 1 with
  | some ha, some hb =>
    let final := match hb with | .stop l => decide (1 ≤ l) | _ => false
    let s := match ha, hb with
      | .data a, .data c => s.joinData e i b a c
      | .data a, .stop _ => let s := s.joinTake e i b 0; if mode = 0 then s else s.joinA i b (.val a)
      | .stop _, .data c =>
        let s := s.joinTake e i b 1
        match mode with | 0 => s | 1 => s.joinB i b (.val c) | _ => s.joinA i b (.val c)
      | .stop la, .stop lb => s.joinStops e i b la lb
    if mode = 3 then s.joinB i b (.val (if final then 1 else 0)) else s
  | _, _ => s

/-! ### Every instruction -/

/-- The value of slot b: what was delivered, else the immediate where no target names the slot. -/
def Firing.bVal (s : Firing) (blk : Block) (i : Nat) (b : BInstr) : Option Word :=
  match s.slot i 1 with
  | some (.val w) => some w
  | some (.mark _) => none
  | none => if bOrImm b.opn && !blk.named 1 i then some (if isShift b.opn then BitVec.ofNat 64 b.imm.toNat else immVal b.fm b.imm.toNat) else none

/-- The instructions that compute a result from slots a and b (R215-R222, R275, R276). -/
def elemRes (e : BEnv) (b : BInstr) (x y : Word) : Word × Flags :=
  let op := b.opn
  let f := b.fm
  let imm := b.imm.toNat
  if decide (0x10 ≤ op) && decide (op ≤ 0x1C) then
    if fFlt f then fltOp e.fenv op f x.toNat y.toNat imm
    else intOp op f (intOf (intAs f) x.toNat) (intOf (intAs f) y.toNat) imm
  else if decide (0x20 ≤ op) && decide (op ≤ 0x23) then (if cmpOp e.fenv op f x y then 1 else 0, 0)
  else if decide (0x30 ≤ op) && decide (op ≤ 0x37) then (bitOp op f x y imm, 0)
  else if decide (0x40 ≤ op) && decide (op ≤ 0x45) then
    let r := specialOp e.fenv op (x.toNat % 2 ^ 32)
    (fpayload r.1, r.2)
  else if op = 0xE0 then (e.relb f x y, 0)
  else if op = 0xE1 then
    let r := apExp e.fenv (x.toNat % 2 ^ 32) (y.toNat % 2 ^ 32)
    (fpayload r.1, if r.2.2 = 3 then flagI else if r.2.2 = 4 then r.2.1 else 0)
  else (x, 0)

/-- CVT, with the pairing form (R221). -/
def Firing.cvt (s : Firing) (e : BEnv) (i : Nat) (b : BInstr) (x : Word) : Firing :=
  let src := b.ib 4 0
  let part := b.ib 7 7 == 1
  let rnd := BitVec.ofNat 2 (b.ib 6 5)
  if b.fm = 16 || b.fm = 17 then
    match s.slot i 1 with
    | some (.val y) =>
      let c := bits x.toNat 31 0
      if b.fm = 16 && 65535 < c then s.fail 0x61 i
      else
        let (z, fl) := cvtOp e.fenv (if b.fm = 16 then 11 else 13) src part rnd y
        s.res i b (pairOf b.fm c z.toNat, fl)
    | _ => s
  else s.res i b (cvtOp e.fenv b.fm src part rnd x)

/-- Resolve instruction i once it is not nullified by its predicate. -/
def Firing.run (s : Firing) (e : BEnv) (blk : Block) (i : Nat) (b : BInstr) : Firing :=
  let op := b.opn
  match op with
  | 0x01 => s
  | 0x02 =>
    match e.stage with
    | some f => s.out i b (.val (f b.imm.toNat))
    | none =>
      let n := b.ib 2 0
      match (s.head e n).bind (opdOf e.fire) with
      | some o => (s.take n).out i b o
      | none => { s with opens := s.opens ++ [i] }
  | 0x03 =>
    match s.slot i 0, s.slot i 1 with
    | some (.val x), some (.val y) =>
      let n := b.ib 2 0
      (s.send i n ⟨0, x⟩).send i n ⟨0, y⟩
    | _, _ => s
  | 0x04 => s.out i b (.val (immVal b.fm b.imm.toNat))
  | 0x06 =>
    let j := b.ib 3 0
    if e.err2 j then s.fail 0x32 i
    else ({ s with fixed := s.fixed + (e.err1 j).toNat }).out i b (.val (payloadOf b.fm (e.regs j).toNat))
  | 0x50 | 0x51 | 0x52 => s.reduce e i b
  | 0x53 => s.out i b (.mark (stopPayload (b.ib 2 0) 0))
  | 0x54 =>
    match s.slot i 0 with
    | none => s
    | some (.val _) => s.out i b (.val 0)
    | some (.mark w) => s.out i b (.val (if b.ib 2 0 ≤ stopLevel w then 1 else 0))
  | 0x55 =>
    let eos (s : Firing) (t : Target) : Firing := match t with | .lo n => s.send i n eosToken | _ => s
    eos (eos s (targetOf b.ta)) (targetOf b.tb)
  | 0x61 =>
    let x := b.ib 2 0
    let y := b.ib 5 3
    match (s.head e y).bind (opdOf true) with
    | some o => (s.take y).out i b o
    | none => match (s.head e x).bind (opdOf true) with
      | some o => (s.take x).out i b o
      | none => s
  | 0x62 => s.join e i b
  | _ =>
    match s.slot i 0 with
    | none => s
    | some (.mark w) =>
      if op = 0x60 then
        match s.slot i 2 with
        | some (.val p) => s.deliver i (if p.getLsbD 0 == (b.pm == 1) then targetOf b.ta else targetOf b.tb) (.mark w)
        | _ => s
      else s.out i b (.mark w)
    | some (.val x) =>
      match op with
      | 0x05 => s.out i b (.val x)
      | 0x24 =>
        match s.slot i 1, s.slot i 2 with
        | some (.val y), some (.val p) => s.out i b (.val (if p.getLsbD 0 == (b.pm == 1) then x else y))
        | _, _ => s
      | 0x60 =>
        match s.slot i 2 with
        | some (.val p) => s.deliver i (if p.getLsbD 0 == (b.pm == 1) then targetOf b.ta else targetOf b.tb) (.val x)
        | _ => s
      | 0x38 => s.cvt e i b x
      | _ =>
        if bOrImm op || needsB op b.fm then
          match s.bVal blk i b with
          | some y => s.res i b (elemRes e b x y)
          | none => s
        else s.res i b (elemRes e b x 0)

/-- Whether the predicate lets an instruction execute (R204): SEL and SWITCH read it as a selector. -/
def Firing.allowed (s : Firing) (i : Nat) (b : BInstr) : Bool :=
  if b.pm = 0 then true
  else match s.slot i 2 with
    | some (.val p) => b.opn == 0x24 || b.opn == 0x60 || p.getLsbD 0 == (b.pm == 1)
    | _ => false

/-- Tokens sent on a link. -/
def Firing.sent (s : Firing) (n : Nat) : Nat := s.sends.countP fun x => x.2.1 == n

/-- What a firing sends, link and token. -/
def Firing.outs (s : Firing) : List (Nat × Token) := s.sends.map (·.2)

/-- Whether a target of an instruction names a slot of instruction i. -/
def BInstr.feeds (b : BInstr) (i : Nat) : Bool :=
  [targetOf b.ta, targetOf b.tb].any fun t => match t with | .slot _ j => j == i | _ => false

/-- Whether instruction i depends on one that has not resolved: on a slot of its own, or, for a RECV, on a RECV of the same link that comes before it (R209). -/
def Firing.blocked (s : Firing) (blk : Block) (i : Nat) (b : BInstr) : Bool :=
  s.opens.any fun k => match blk.ins[k]? with
    | some c => c.feeds i || (b.opn == 0x02 && c.opn == 0x02 && c.ib 2 0 == b.ib 2 0)
    | none => false

/-- Over a maximum of the header instruction i faults (R209). -/
def Firing.limit (s : Firing) (blk : Block) (i : Nat) : Firing :=
  if s.fault.isNone && (List.range 8).any (fun n => decide (blk.li n < s.taken.getD n 0) || decide (blk.lo n < s.sent n)) then s.fail 0x43 i else s

/-- An unconditional RECV resolves in cycle 0, before the predicate of any other is settled (R209, R213). -/
def BInstr.plainRecv (b : BInstr) : Bool := b.opn == 0x02 && b.pm == 0

/-- The order in which instructions resolve: the unconditional RECVs, then the others by index: every target names a later one (R71). -/
def Block.order (b : Block) : List (BInstr × Nat) :=
  (b.ins.zipIdx.filter fun x => x.1.plainRecv) ++ b.ins.zipIdx.filter fun x => !x.1.plainRecv

/-- Resolve instructions in order. One that depends on a RECV that waits stays open, and the others go on (R209). -/
def Firing.runAll (e : BEnv) (blk : Block) : List (BInstr × Nat) → Firing → Firing
  | [], s => s
  | (b, i) :: rest, s =>
    if s.fault.isSome then s
    else if s.blocked blk i b then Firing.runAll e blk rest { s with opens := s.opens ++ [i] }
    else Firing.runAll e blk rest (if s.allowed i b then (s.run e blk i b).limit blk i else s)

/-- A firing of a block, from its start as far as its tokens let it resolve. -/
def Block.fire (blk : Block) (e : BEnv) (red : List (Nat × Word)) (rp : Replay) : Firing :=
  Firing.runAll e blk blk.order (Firing.start red rp)

/-- A firing that waited goes on with its open instructions (R209). -/
def Firing.resume (s : Firing) (blk : Block) (e : BEnv) : Firing :=
  Firing.runAll e blk (blk.order.filter fun x => s.opens.contains x.2) { s with opens := [] }

end Sys2Proof.Machine
end

