-- ==== Sys2Proof/Machine/Fw8.lean ====
section
/-! DEFINITION. FW8 blocks: decoder and encoder (R37-R42). -/

namespace Sys2Proof.Machine

/-- Bit j of a byte string (R38). -/
def strBit (bs : List Byte) (j : Nat) : Bool := (bs.getD (j / 8) 0).getLsbD (j % 8)

/-- n bits of a byte string from position j, the first one most significant (R39). -/
def strBits (bs : List Byte) (j : Nat) : Nat → Nat
  | 0 => 0
  | n + 1 => 2 * strBits bs j n + (if strBit bs (j + n) then 1 else 0)

/-- The count of leading ones from position j, at most n (R40). -/
def leadOnes (bs : List Byte) (j : Nat) : Nat → Nat
  | 0 => 0
  | n + 1 => if strBit bs j then 1 + leadOnes bs (j + 1) n else 0

/-- One element of an FW8 block: its value before the block scale, or fault 0x92, and the next position (R40). -/
def fw8Elem (bs : List Byte) (emax pos : Nat) : Except (BitVec 8) Val × Nat :=
  let neg := strBit bs pos
  let n := leadOnes bs (pos + 1) 6
  let pos := pos + 1 + n + (if n < 6 then 1 else 0)
  if n = 6 then (.ok (.fin neg 0 0), pos)
  else
    let (d, pos) := if n ≤ 3 then (n, pos) else if n = 4 then (4 + strBits bs pos 2, pos + 2)
      else (8 + strBits bs pos 3, pos + 3)
    let m := strBits bs pos 3
    let pos := pos + 3
    if emax < d || (emax - d == 15 && m == 7) then (.error 0x92, pos)
    else
      let e := emax - d
      (.ok (if e == 0 then .fin neg m (-9) else .fin neg (8 + m) ((e : Int) - 10)), pos)

/-- The elements of a block from position pos, with the position after them (R40); none when the bytes in hand end first. -/
def fw8Elems (bs : List Byte) (emax : Nat) : Nat → Nat → List Val → Option (Except (BitVec 8) (List Val × Nat))
  | 0, pos, acc => some (.ok (acc.reverse, pos))
  | n + 1, pos, acc =>
    let (x, pos) := fw8Elem bs emax pos
    if 8 * bs.length < pos then none
    else match x with
      | .ok v => fw8Elems bs emax n pos (v :: acc)
      | .error c => some (.error c)

/-- Multiply a value by an E8 scale, exactly. -/
def scaleE8 (k : Nat) : Val → Val
  | .fin s m e => .fin s m (e + ((k : Int) - 127))
  | v => v

/-- The bytes that a block's header says it takes (R38). -/
def fw8Len (bs : List Byte) : Nat := cdiv (24 + ofBytes (bs.take 3) / 2 ^ 12) 8

/-- Decode the FW8 block that a byte string starts with, in the order of R40: 32 exact values and the bytes taken, or the fault; none while more bytes are needed to say. The block scale is looked at first (R37), and an element as soon as its bits are there. -/
def fw8Try (bs : List Byte) : Option (Except (BitVec 8) (List Val × Nat)) :=
  let h := ofBytes (bs.take 3)
  let k := h % 256
  let emax := bits h 11 8
  let len := h / 2 ^ 12
  if bs.isEmpty then none
  else if k = 255 then some (.error 0x90)
  else if bs.length < 3 then none
  else match fw8Elems bs emax 32 24 [] with
    | none => none
    | some (.error c) => some (.error c)
    | some (.ok (vs, pos)) =>
      if pos - 24 ≠ len then some (.error 0x91) else some (.ok (vs.map (scaleE8 k), cdiv (24 + len) 8))

/-- Decode a block whose bytes are all at hand; a stream that ends inside it faults with 0x91 (R40). -/
def fw8Decode (bs : List Byte) : Except (BitVec 8) (List Val × Nat) := (fw8Try bs).getD (.error 0x91)

/-- The most bytes that the decoder looks at in one block: a header and 32 elements of the longest code. -/
def fw8Most : Nat := 55

/-- Bits appended in order to a reversed bit list. -/
def pushBits (n v : Nat) (acc : List Bool) : List Bool :=
  match n with
  | 0 => acc
  | k + 1 => pushBits k v (((v >>> k) % 2 == 1) :: acc)

/-- The code of an exponent delta (R39), appended. -/
def pushDelta (d : Nat) (acc : List Bool) : List Bool :=
  match d with
  | 0 => pushBits 1 0b0 acc
  | 1 => pushBits 2 0b10 acc
  | 2 => pushBits 3 0b110 acc
  | 3 => pushBits 4 0b1110 acc
  | d => if d < 8 then pushBits 2 (d - 4) (pushBits 5 0b11110 acc) else pushBits 3 (d - 8) (pushBits 6 0b111110 acc)

/-- Eight bits at a time, the first least significant, padded with zeros (R38). -/
def packBits : List Bool → Nat → List Byte
  | _, 0 => []
  | bs, n + 1 =>
    BitVec.ofNat 8 ((bs.take 8).foldr (fun b a => 2 * a + (if b then 1 else 0)) 0) :: packBits (bs.drop 8) n

/-- One FP8E4 element of the encoder: pattern and flags; none for a NaN (R42, step 3). An infinity sets I, and X, since 448 differs from it. -/
def fw8Quant (k : Nat) (x : Val) : Option (Nat × Flags) :=
  match x with
  | .nan => none
  | .inf s => some ((if s then 0xFE else 0x7E), flagI ||| flagX)
  | .fin s m e =>
    let r := toFloat .plain 8 0 (.fin s m (e + (127 - (k : Int))))
    some r

/-- Encode 32 FP32 values as an FW8 block: its bytes and flags, or none for a NaN input (R42). When M is not 0 and every qi rounds to zero, R42's largest exponent is of an empty set; emax is then written 0 (DESIGN CHOICE, log 42). -/
def fw8Encode (v : FEnv) (xs : List Nat) : Option (List Byte × Flags) :=
  let vs := xs.map (unpack v 13)
  let magLog (x : Val) : Option Int := match x with
    | .fin _ m e => if m == 0 then none else some (e + m.log2)
    | _ => none
  if vs.any Val.isNan then none
  else
    let infs := vs.any fun x => match x with | .inf _ => true | _ => false
    let top := (vs.filterMap magLog).foldl (fun a b => match a with | none => some b | some c => some (max b c)) none
    let k : Nat := if infs then 254 else match top with
      | none => 127
      | some l => (sat (l - 7 + 127) 0 254).toNat
    match vs.mapM (fw8Quant k) with
    | none => none
    | some qs =>
      let fl := qs.foldl (fun a q => a ||| q.2) 0
      let exps := (qs.filter (fun q => q.1 % 128 != 0)).map fun q => (q.1 >>> 3) % 16
      let emax := exps.foldl max 0
      let body := qs.foldl (fun acc q =>
        let acc := pushBits 1 (q.1 / 128) acc
        if q.1 % 128 == 0 then pushBits 6 0b111111 acc
        else pushBits 3 (q.1 % 8) (pushDelta (emax - (q.1 >>> 3) % 16) acc)) []
      let len := body.length
      let hdr := len * 2 ^ 12 + emax * 2 ^ 8 + k
      some (toBytes 3 hdr ++ packBits body.reverse (cdiv (24 + len) 8 - 3), fl)

end Sys2Proof.Machine
end

