-- ==== Sys2Proof/Machine/Links.lean ====
section
/-! DEFINITION. Links: slots, credits, buffers, filters, the region-entry decoder, node faults, and what ports and engines do at a link (R40, R184-R186, R190-R194, R324, R383). -/

namespace Sys2Proof.Machine

/-! ## Endpoints (R180) -/

def epKind (e : BitVec 20) : Nat := bits e.toNat 19 18
def epY (e : BitVec 20) : Nat := bits e.toNat 17 14
def epX (e : BitVec 20) : Nat := bits e.toNat 13 10
def epCtx (e : BitVec 20) : Nat := bits e.toNat 9 6
def epLink (e : BitVec 20) : Nat := bits e.toNat 5 3
def epHead (e : BitVec 20) : Nat := bits e.toNat 17 12
def epPort (e : BitVec 20) : Nat := bits e.toNat 17 15

/-- The endpoint of link l of the node at (y, x, c). -/
def nodeEndpoint (y x c l : Nat) : BitVec 20 := BitVec.ofNat 20 (y * 2 ^ 14 + x * 2 ^ 10 + c * 2 ^ 6 + l * 2 ^ 3)

/-- The region of a plot (R18), and the plot within it in row-major order. -/
def plotRegion (y x : Nat) : Nat := 4 * (y / 4) + x / 4
def plotIndex (y x : Nat) : Nat := 4 * (y % 4) + x % 4

/-- The region of a node endpoint. -/
def epRegion (e : BitVec 20) : Nat := plotRegion (epY e) (epX e)

/-- The node of an endpoint. -/
def Field.nodeAt (f : Field) (e : BitVec 20) : Option Nat :=
  f.nodes.findIdx? fun n => n.y == epY e && n.x == epX e && n.ctx == epCtx e

/-! ## One link -/

/-- Whether the region-entry decoder expands this link (R190). -/
def Link.expands (l : Link) : Bool := l.fmt == 10 && epKind l.cons == 0

/-- Entries and slots that are not free: tokens under way, buffered, collected by a transpose, and credits on their way back. -/
def Link.used (l : Link) : Nat :=
  l.fly.length + l.buf.length + l.credit + (if l.filt.isSome then l.tile.length else 0)

/-- Slots that the producer has credit for; a zero-slot link has room while its result register is empty (R185, R186). -/
def Link.free (l : Link) : Nat := if l.slots = 0 then (if l.result.isEmpty then 1 else 0) else l.slots - l.used

/-- The producer places a token. -/
def Link.place (l : Link) (t : Token) : Link :=
  if l.slots = 0 then { l with result := l.result ++ [t] } else { l with fly := l.fly ++ [t] }

/-- The tokens that the consumer sees, oldest first. -/
def Link.avail (l : Link) : List Token :=
  if l.expands then l.dec else l.buf.flatMap fun e => List.replicate e.2 e.1

/-- The first token that the consumer sees. -/
def Link.head (l : Link) : Option Token := l.avail.head?

/-- One entry is freed: its credit starts back. -/
def Link.credit1 (l : Link) : Link := if l.slots = 0 then l else { l with credit := l.credit + 1 }

/-- Merge the first pair of adjacent DATA entries of one payload that carry at most 4 tokens together (R194). -/
def mergePair : List (Token × Nat) → Option (List (Token × Nat))
  | (t, m) :: (u, n) :: rest =>
    if t.kind = 0 && t = u && decide (m + n ≤ 4) then some ((t, m + n) :: rest)
    else (mergePair ((u, n) :: rest)).map fun r => (t, m) :: r
  | _ => none

/-- Compress the buffer while it stands at its threshold (R194). -/
def Link.compress (l : Link) : Nat → Link
  | 0 => l
  | n + 1 =>
    if l.thresh != 0 && decide (l.thresh * l.slots ≤ 16 * l.buf.length) then
      match mergePair l.buf with
      | some b => Link.compress ({ l with buf := b }).credit1 n
      | none => l
    else l

/-- The head entry gives up one token (R194). -/
def Link.dropHead (l : Link) : Link :=
  match l.buf with
  | [] => l
  | (_, 0) :: rest | (_, 1) :: rest => ({ l with buf := rest }).credit1
  | (t, n + 2) :: rest => { l with buf := (t, n + 1) :: rest }

/-! ### The region-entry decoder (R40, R190) -/

/-- The packed bytes that the decoder holds. -/
def Link.bytes (l : Link) : List Byte := (l.tile.flatMap fun t => toBytes 8 t.payload.toNat).drop l.pos

/-- Drop n bytes from the decoder. -/
def Link.dropBytes (l : Link) (n : Nat) : Link :=
  let p := l.pos + n
  { l with tile := l.tile.drop (p / 8), pos := p % 8 }

/-- One step of the decoder: a token taken in, or a block expanded to FP32 tokens; the flags, or the fault. None when it can do nothing. -/
def Link.decodeStep (v : FEnv) (l : Link) : Option (Except (BitVec 8) (Link × Flags)) :=
  match fw8Try l.bytes with
  | some (.error c) => some (.error c)
  | some (.ok (vs, n)) =>
    let rs := vs.map fun x => toFloat v 13 0 x
    let l := { l.dropBytes n with dec := l.dec ++ rs.map fun r => ⟨0, fpayload r.1⟩ }
    some (.ok (l, rs.foldl (fun f r => f ||| r.2) 0))
  | none => match l.buf.head? with
    | none => none
    | some (t, _) =>
      if t.kind = 0 then some (.ok ({ l.dropHead with tile := l.tile ++ [t] }, 0))
      -- the end of a tensor: what is left is padding (R41)
      else if t.kind = 2 then some (.ok ({ l.dropHead with dec := l.dec ++ [t] }, 0))
      else if decide (8 ≤ l.bytes.length) || l.bytes.any (fun b => b != 0) then some (.error 0x91)
      else some (.ok ({ l.dropHead with tile := [], pos := 0, dec := l.dec ++ [t] }, 0))

/-- Run the decoder until three tokens stand ready. -/
def Link.decode (v : FEnv) (l : Link) (fl : Flags) : Nat → Except (BitVec 8) (Link × Flags)
  | 0 => .ok (l, fl)
  | n + 1 =>
    if 3 ≤ l.dec.length then .ok (l, fl)
    else match l.decodeStep v with
      | none => .ok (l, fl)
      | some (.error c) => .error c
      | some (.ok (l, f)) => Link.decode v l (fl ||| f) n

/-! ### Filters (R191-R193) -/

/-- Convert one payload by a filter entry (R192). A compact entry whose source is the pair's value format converts nothing: the value, a NaN's pattern too, passes unchanged (DESIGN CHOICE, log 42). -/
def Filter.convert (v : FEnv) (f : Filter) (dst : Nat) (w : Word) : Word × Flags :=
  let rnd := f.rnd
  if f.src == 15 || f.dst == 15 then (w, 0)
  else if f.src == 16 && f.dst == 17 then
    let (x, fl) := toFloat v 13 0 (unpack v 11 (bits w.toNat 15 0))
    (pairOf 17 (bits w.toNat 31 16) x, fl)
  else if f.se then convertScaled v f.src dst rnd f.sval w
  else if f.src == dst then (payloadOf dst w.toNat, 0)
  else Sys2Proof.Machine.convert v f.src dst rnd w

/-- Deliver tokens into the buffer. -/
def Link.push (l : Link) (ts : List Token) : Link := { l with buf := l.buf ++ ts.map fun t => (t, 1) }

/-- The tile of a transpose, column by column (R193). -/
def tileColumns (rows cols : Nat) (tile : List Token) : List Token :=
  (List.range cols).flatMap fun j =>
    ((List.range rows).filterMap fun i => tile[i * cols + j]?) ++ (if j + 1 = cols then [] else [⟨1, 0⟩])

/-- A transpose entry takes a token (R193); pos counts the rows closed, and is one more than the rows while a tile's columns have gone on and its last row's STOP is due. The columns go on with the tile's last element, so that a link of rows × cols slots is enough; a CFG token or drain-request that came inside the tile goes on behind its columns, and an EOS at once behind those, since no more of the tile may come (log 29). -/
def Link.transpose (l : Link) (f : Filter) (t : Token) : Except (BitVec 8) Link :=
  let data := l.tile.filter fun (x : Token) => x.kind == 0
  let n := data.length
  let gone := decide (f.rows ≤ l.pos)
  if t.kind = 0 then
    if gone || decide ((l.pos + 1) * f.cols ≤ n) then .error 0x61
    else if n + 1 = f.rows * f.cols then
      .ok (({ l with tile := [], pos := f.rows + 1 }).push (tileColumns f.rows f.cols (data ++ [t]) ++ l.tile.filter fun (x : Token) => x.kind != 0))
    else .ok { l with tile := l.tile ++ [t] }
  else if t.kind = 1 then
    let lv := stopLevel t.payload
    if gone then
      if l.pos = f.rows + 1 && lv = 0 then .ok (({ l with pos := f.rows }).push [t])
      else if l.pos = f.rows && lv = 1 then .ok (({ l with pos := 0 }).push [t])
      else .error 0x61
    else if n = 0 && l.pos = 0 then (if 2 ≤ lv then .ok (l.push [t]) else .error 0x61)
    else if (l.pos + 1) * f.cols = n && lv = 0 then .ok (({ l with pos := l.pos + 1 }).credit1)
    else .error 0x61
  else if t = eosToken then .ok (({ l with tile := data }).push ((l.tile.filter fun (x : Token) => x.kind != 0) ++ [t]))
  else if n = 0 then .ok (l.push [t])
  else .ok { l with tile := l.tile ++ [t] }

/-- The stile takes a token from the furrow: its filter acts, and the result stands in the buffer (R191). The flags are the consumer's. -/
def Link.arrive (v : FEnv) (l : Link) (t : Token) : Except (BitVec 8) (Link × Flags) :=
  match l.filt with
  | none => .ok (l.push [t], 0)
  | some f =>
    match f.op with
    | 0 =>
      if t.kind = 0 then
        let (w, fl) := f.convert v f.dst t.payload
        .ok (l.push [⟨0, w⟩], fl)
      else .ok (l.push [t], 0)
    | 1 =>
      if t.kind = 0 then
        let p := l.pos
        let l := { l with pos := p + 1 }
        if f.dst == 16 && 65535 < p then .error 0x61
        else if (valOf v f.src t.payload.toNat).isZero then .ok (l.credit1, 0)
        else
          let (w, fl) := f.convert v (if f.dst == 16 then 11 else 13) t.payload
          .ok (l.push [⟨0, pairOf f.dst p w.toNat⟩], fl)
      else .ok (({ l with pos := if t.kind = 1 then 0 else l.pos }).push [t], 0)
    | _ => (l.transpose f t).map fun l => (l, 0)

/-! ## Links of a field -/

/-- Change link i. -/
def Field.modLink (f : Field) (i : Nat) (g : Link → Link) : Field :=
  { f with links := f.links.mapIdx fun j l => if j = i then g l else l }

/-- Change node i. -/
def Field.modNode (f : Field) (i : Nat) (g : Node → Node) : Field :=
  { f with nodes := f.nodes.mapIdx fun j n => if j = i then g n else n }

/-- Region r. -/
def Field.region (f : Field) (r : Nat) : Region := f.regions.toList.getD r .reset

/-- Change region r. -/
def Field.modRegion (f : Field) (r : Nat) (g : Region → Region) : Field :=
  if h : r < 16 then { f with regions := f.regions.set r (g f.regions[r]) } else f

/-- Slots that a link's producer may use: none into a LOADING region (R200). -/
def Field.freeOf (f : Field) (i : Nat) : Nat :=
  match f.links[i]? with
  | none => 0
  | some l => if epKind l.cons = 0 && (f.region (epRegion l.cons)).st = .loading then 0 else l.free

/-- Slots free at the link that an endpoint produces into; none without a link (R200). -/
def Field.freeFrom (f : Field) (e : BitVec 20) : Nat := match f.linkFrom e with | some i => f.freeOf i | none => 0

/-- The tokens at the link that an endpoint consumes from. -/
def Field.availTo (f : Field) (e : BitVec 20) : List Token :=
  match (f.linkTo e).bind fun i => f.links[i]? with | some l => l.avail | none => []

/-- Place a token in the link that an endpoint produces into. -/
def Field.sendFrom (f : Field) (e : BitVec 20) (t : Token) : Field :=
  match f.linkFrom e with | some i => f.modLink i fun l => l.place t | none => f

/-! ## Faults of nodes and freezes (R207, R383) -/

/-- A firing that waits is abandoned, with those after it (R207). -/
def Node.abandon (n : Node) : Node := { n with fir := n.fir.takeWhile fun x => x.opens.isEmpty }

/-- Freeze a region for a fault: no firing starts, and a waiting one is abandoned (R207). -/
def Field.freeze (f : Field) (r : Nat) : Field :=
  let f := f.modRegion r fun g =>
    if g.st = .armed then { g with st := .frozen, before := .armed }
    -- a pre-emption holds it already: it thaws FROZEN
    else if g.st = .frozen then { g with before := .frozen } else g
  { f with nodes := f.nodes.map fun n => if n.region = r then n.abandon else n }

/-- Word 5 of a node's record (R372). -/
def nodeWord (n : Node) (instr : Nat) : Word :=
  BitVec.ofNat 64 (n.region + plotIndex n.y n.x * 2 ^ 4 + n.ctx * 2 ^ 8 + instr % 32 * 2 ^ 12 + n.flags.toNat * 2 ^ 17)

/-- Node i faults: it stops consuming, its region freezes, the fault is latched, and a record of class 0x7 is written (R383). -/
def State.nodeFault (s : State) (i : Nat) (code : BitVec 8) (instr : Nat) (detail : Word := 0) : State :=
  match s.core.field.nodes[i]? with
  | none => s
  | some n =>
    let s := s.modField fun f =>
      ((f.modNode i fun n => { n with stopped := true }).freeze n.region).modRegion n.region fun g =>
        { g with fcode := code, fplot := plotIndex n.y n.x, fctx := n.ctx, finstr := instr, fflags := n.flags }
    s.report { s.mkRec code 7 (BitVec.ofNat 8 n.region) with node := nodeWord n instr, detail := detail }

/-! ## Delivery -/

/-- Fuel for the decoder: each step takes a token in or expands a block. -/
def Link.fuel (l : Link) : Nat := l.buf.length + l.tile.length + 4

/-- Run the region-entry decoder of a link (R40). -/
def State.runDecoder (s : State) (i : Nat) : State :=
  match s.core.field.links[i]? with
  | none => s
  | some l =>
    if !l.expands then s
    else match l.decode s.fenv 0 l.fuel with
      | .ok (l, fl) =>
        let s := s.modField fun f => f.modLink i fun _ => l
        if fl = 0 then s
        else match s.core.field.nodeAt l.cons with
          | some k => s.modField fun f => f.modNode k fun n => { n with flags := n.flags ||| fl }
          | none => s
      | .error c => match s.core.field.nodeAt l.cons with
        | some k => s.nodeFault k c 0
        | none => s

/-- The oldest token under way on link i reaches its consumer's stile (R184, R191, R194). -/
def State.deliver (s : State) (i : Nat) : State :=
  match s.core.field.links[i]? with
  | none => s
  | some l => match l.fly with
    | [] => s
    | t :: rest =>
      match ({ l with fly := rest }).arrive s.fenv t with
      | .ok (l, fl) =>
        let s := s.modField fun f => f.modLink i fun _ => l.compress l.buf.length
        let s := match s.core.field.nodeAt l.cons with
          | some k => if epKind l.cons = 0 && fl != 0 then s.modField fun f => f.modNode k fun n => { n with flags := n.flags ||| fl } else s
          | none => s
        s.runDecoder i
      | .error c => match s.core.field.nodeAt l.cons with
        | some k => (s.modField fun f => f.modLink i fun l => { l with fly := rest }).nodeFault k c 0
        | none => s

/-- The consumer of link i takes its first token. -/
def State.takeLink (s : State) (i : Nat) : State :=
  match s.core.field.links[i]? with
  | none => s
  | some l =>
    if l.expands then (s.modField fun f => f.modLink i fun l => { l with dec := l.dec.tail }).runDecoder i
    else s.modField fun f => f.modLink i fun l => let l := l.dropHead; l.compress l.buf.length

/-! ## Ports and engines at their links -/

/-- The binding of a headland or engine port. -/
def Field.binding (f : Field) (engine : Bool) (port : Nat) : Option Binding :=
  f.bindings.find? fun b => b.engine == engine && b.port == port

/-- The binding that stands at a port endpoint. -/
def Field.bindingAt (f : Field) (e : BitVec 20) : Option Binding :=
  if epKind e = 1 then f.binding false (epHead e) else if epKind e = 2 then f.binding true (epPort e) else none

/-- An EOS passes a port: the buffer of its binding is released (R324). -/
def State.passEos (s : State) (e : BitVec 20) : State :=
  match s.core.field.bindingAt e with
  | some b => if b.size = 0 then s else s.padRelease b
  | none => s

/-- A port or engine sends a token on its link; there must be room. -/
def State.portSend (s : State) (e : BitVec 20) (t : Token) : State :=
  let s := s.modField fun f => f.sendFrom e t
  if t = eosToken then s.passEos e else s

/-- The token at the head of a port's or engine's link. -/
def State.portHead (s : State) (e : BitVec 20) : Option Token := (s.core.field.availTo e).head?

/-- A sink takes an EOS: its producer's region notes it (R388). -/
def Field.noteSink (f : Field) (i : Nat) : Field :=
  match f.links[i]? with
  | some l => if epKind l.prod = 0 then f.modRegion (epRegion l.prod) fun g => { g with sinkEos := true } else f
  | none => f

/-- Whether an endpoint is an in headland: what it takes is its index link's, no sink's and no EOS that releases its buffer (R324, R388). -/
def indexEnd (e : BitVec 20) : Bool := epKind e == 1 && decide (epHead e < 32)

/-- A port or engine takes the token at the head of its link. -/
def State.portTake (s : State) (e : BitVec 20) : State :=
  match s.core.field.linkTo e with
  | none => s
  | some i =>
    let eos := s.portHead e == some eosToken
    let s := s.takeLink i
    if eos && !indexEnd e then (s.modField fun f => f.noteSink i).passEos e else s

/-- A CFG token that reaches an out headland or an engine port faults there with 0x43 and is gone (R199); the record names the running command and the place in it (R373). -/
def State.portCfg (s : State) (e : BitVec 20) (ctx : Nat) (num : Option Nat := none) (detail : Word := 0) : State :=
  (s.portTake e).report { s.engineRec 0x43 ctx num with detail := detail }

/-! ## The events of links -/

/-- The meaning's answer. -/
abbrev LinkOut := Host.Outcome State Fault Refusal

/-- LINK_TOKEN_DELIVERY (R184). -/
def execLinkTokenDelivery (l : Nat) (s : State) : LinkOut := .next (s.deliver l)

/-- CREDIT_RETURN (R185). -/
def execCreditReturn (l : Nat) (s : State) : LinkOut :=
  .next (s.modField fun f => f.modLink l fun x => { x with credit := x.credit - 1 })

end Sys2Proof.Machine
end

