-- ==== Sys2Proof/Machine/Nodes.lean ====
section
/-! DEFINITION. Nodes of the field: firing conditions, selection, commits, STOP and EOS handling, CFG packets, context swaps (R130, R187, R196-R198, R206-R211, R227, R232, R233, R235). -/

namespace Sys2Proof.Machine

/-! ## What a node sees -/

/-- The endpoint of a node's link l. -/
def Node.ep (n : Node) (l : Nat) : BitVec 20 := nodeEndpoint n.y n.x n.ctx l

/-- The tokens at input l: none after an EOS has been taken there (R211). -/
def Field.nodeIn (f : Field) (n : Node) (l : Nat) : List Token := if n.eosIn.contains l then [] else f.availTo (n.ep l)

/-- The inputs and outputs of a node: those that its header declares; li0 and lo0 of an accumulator (R253). -/
def Node.inputs (n : Node) : List Nat := if n.acc.isSome then [0] else n.blk.ins'
def Node.outputs (n : Node) : List Nat := if n.acc.isSome then [0] else n.blk.outs

/-- Whether a node is idle (R174). -/
def Node.idle (n : Node) : Bool :=
  n.fir.isEmpty &&
  (if n.inputs.isEmpty then !n.outputs.isEmpty && n.outputs.all fun l => n.eosOut.contains l
   else n.inputs.all fun l => n.eosIn.contains l)

/-- Whether a node may have several firings in progress (R208). -/
def Node.pipelined (n : Node) : Bool :=
  !n.blk.var && n.blk.targets.all (fun t => match t.2 with | .c _ => false | _ => true) &&
  n.blk.ins.all fun i => !(decide (0x50 ≤ i.opn) && decide (i.opn ≤ 0x52))

/-- What a firing of the node reads when k earlier firings are in progress: the tokens beyond theirs (R208). -/
def State.nodeEnv (s : State) (n : Node) (k : Nat) : BEnv :=
  { fenv := s.fenv, regs := fun j => n.regs.toList.getD j 0, err1 := n.err1.contains, err2 := n.err2.contains,
    heads := fun l => (s.core.field.nodeIn n l).drop (k * n.blk.li l),
    fire := n.blk.policy == 2, stage := none, relb := fun _ _ _ => 0 }

/-! ## Firing conditions (R187, R209, R210, R226, R229) -/

/-- A token that a firing may take: DATA, and STOP under "fire". -/
def Node.takable (n : Node) (t : Token) : Bool := t.kind == 0 || (n.blk.policy == 2 && t.kind == 1)

/-- The heads that a MERGE or JOIN needs. -/
def Node.walkerReady (n : Node) (e : BEnv) : Bool :=
  match n.blk.walker with
  | none => true
  | some (_, w) =>
    if w.opn = 0x61 then
      ([w.ib 2 0, w.ib 5 3].any fun l => match (e.heads l).head? with | some t => t.kind == 0 || t.kind == 1 | none => false)
    else
      let st := Firing.start n.red n.replay
      match st.joinHead e w 0, st.joinHead e w 1 with
      | some a, some b => !(a == .stop 8 && b == .stop 8)
      | _, _ => false

/-- Whether input l holds what a firing takes of it at its start: a fixed-rate block its rate of tokens, a variable-rate one as many DATA tokens, or markers under "fire", as it has unconditional RECVs (R187, R209). What stands behind a CTL or CFG token does not count; "absorb" discards the STOPs among them, and under "forward" none may stand at the head (R210, log 37). -/
def Node.holdsFor (n : Node) (e : BEnv) (l need : Nat) : Bool :=
  let ts := (e.heads l).takeWhile fun t => t.kind == 0 || t.kind == 1
  if n.blk.var || n.blk.policy == 1 then decide (need ≤ ts.countP n.takable) && (need == 0 || n.blk.policy != 0 || ts.head?.any n.takable)
  else decide (need ≤ ts.length) && (ts.take need).all n.takable

/-- Whether input l holds a DATA token or a marker that a firing could take (R209). -/
def Node.offers (n : Node) (e : BEnv) (l : Nat) : Bool :=
  let ts := (e.heads l).takeWhile fun t => t.kind == 0 || t.kind == 1
  if n.blk.policy == 0 then ts.head?.any n.takable else ts.any n.takable

/-- Condition 1 of R187, with that of R209. Behind a firing that waits for a STOP to be absorbed none starts. -/
def Node.inputsOk (n : Node) (e : BEnv) : Bool :=
  let b := n.blk
  n.walkerReady e && (b.policy != 1 || n.fir.all (·.opens.isEmpty)) &&
  (b.ins'.all fun l => n.holdsFor e l (if b.var then b.recvs l true else b.li l)) &&
  (!b.var || b.ins'.isEmpty || (n.replay.live && b.walker.isSome) || b.ins'.any (n.offers e))

/-- A STOP behind DATA within the first rate tokens of a fixed-rate input under "forward" (R210). -/
def Node.strayStop (n : Node) (e : BEnv) : Bool :=
  !n.blk.var && n.blk.policy == 0 && n.blk.ins'.any fun l =>
    match (e.heads l).take (n.blk.li l) with
    | t :: rest => t.kind == 0 && (rest.takeWhile (fun u => u.kind == 0)).length < rest.length &&
        ((rest.dropWhile fun u => u.kind == 0).head?.map (·.kind)) == some 1
    | [] => false

/-- Condition 2 of R187: k earlier firings count as having sent. -/
def Field.outputsOk (f : Field) (n : Node) (k : Nat) : Bool :=
  n.blk.outs.all fun l => decide ((k + 1) * n.blk.lo l ≤ f.freeFrom (n.ep l))

/-- Whether every declared output has a free slot. -/
def Field.roomEach (f : Field) (n : Node) (ls : List Nat) : Bool := ls.all fun l => decide (1 ≤ f.freeFrom (n.ep l))

/-- The heads of every declared input, when each has one. -/
def Field.heads (f : Field) (n : Node) : List Token := n.blk.ins'.filterMap fun l => (f.nodeIn n l).head?

/-- Whether every declared input has a STOP at its head, under "forward" (R210). -/
def Field.stopsReady (f : Field) (n : Node) : Bool :=
  let hs := f.heads n
  n.blk.policy == 0 && n.fir.isEmpty && !n.blk.ins'.isEmpty && hs.length == n.blk.ins'.length && hs.all fun t => t.kind == 1

/-- A CTL token that no node handles, or a drain-request at a mode-3 JOIN (R69, R232, R234). -/
def Field.badCtl (f : Field) (n : Node) : Bool :=
  n.blk.ins'.any fun l => match (f.nodeIn n l).head? with
    | some t => t.kind == 3 && (t != eosToken && t != drainToken || (t == drainToken && n.blk.join3.isSome))
    | none => false

/-- Whether a node acts at all: of an ARMED region, not stopped on a fault, resident, not idle, no accumulator. -/
def Field.active (f : Field) (n : Node) : Bool :=
  let g := f.region n.region
  g.st == .armed && !n.stopped && g.resident.contains n.ctx && !n.idle && n.acc.isNone

/-- The firings of a node that commit in cycle t. -/
def Node.commitsIn (n : Node) (t : Nat) : Nat := match n.done with | some (c, k) => if c = t then k else 0 | none => 0

/-- Whether R208 and R235 permit a firing to start in cycle t: one start a cycle; up to 4 in progress, those that commit in this cycle among them; another node's only after the cycle of its last commit. -/
def Node.mayStart (n : Node) (t : Nat) : Bool :=
  n.last != some t && (if n.pipelined then decide (n.fir.length + n.commitsIn t < 4) else n.fir.isEmpty && n.commitsIn t == 0)

/-- A mode-3 JOIN node closes: side a holds one token, a STOP, and side b's EOS is at its head (R232). -/
def Field.joinCloses (f : Field) (n : Node) : Bool :=
  match n.blk.join3 with
  | none => false
  | some w =>
    let inFly := match (f.linkTo (n.ep (w.ib 2 0))).bind fun i => f.links[i]? with | some k => k.fly.length | none => 0
    (match f.nodeIn n (w.ib 2 0) with | [t] => t.kind == 1 && inFly == 0 | _ => false) && (f.nodeIn n (w.ib 5 3)).head? == some eosToken

/-- An accumulator's work (R253): it takes a token of li0, or sends the next token of a release. -/
def Field.accHas (f : Field) (n : Node) (a : Acc) : Bool := !a.out.isEmpty || (f.nodeIn n 0).head?.any fun t => t.kind != 2

/-- Condition 1 of R187 for a node, whatever it does next: a firing, a STOP passed on, an accumulator's token. The node that closes by R232 starts no firing. -/
def State.has (s : State) (n : Node) : Bool :=
  let f := s.core.field
  match n.acc with
  | some a => f.accHas n a
  | none => f.stopsReady n || (n.inputsOk (s.nodeEnv n n.fir.length) && !f.joinCloses n)

/-- Condition 2 of R187 for a node; a release and a STOP passed on need one free slot on each output (R210, R253). -/
def State.room (s : State) (n : Node) : Bool :=
  let f := s.core.field
  if n.acc.isSome || f.stopsReady n then f.roomEach n n.outputs else f.outputsOk n n.fir.length

/-- Conditions 1 and 2 of R187 for a node, with R208 and R235, whatever its residence. -/
def State.canFire (s : State) (n : Node) : Bool := s.has n && s.room n && n.mayStart s.cyc

/-- Whether a token has come for a RECV of the node's firing that waits (R209). -/
def State.recvCame (s : State) (n : Node) : Bool :=
  n.fir.head?.any fun r => !r.opens.isEmpty && (r.resume n.blk (s.nodeEnv n 0)).opens != r.opens

/-- Whether some node of context c of region r, not stopped and not idle, meets a test: an accumulator node, too, which fires as others do (R177, R253). -/
def Field.anyNode (f : Field) (r c : Nat) (p : Node → Bool) : Bool :=
  f.nodes.any fun n => n.region == r && n.ctx == c && !n.stopped && !n.idle && p n

/-- Whether context c of region r has a ready node as its steward asks: one for which conditions 1 and 2 of R187 hold, or whose firing can take the token it has waited for (R196, log 37). -/
def State.readyCtx (s : State) (r c : Nat) : Bool := s.core.field.anyNode r c fun n => (s.has n && s.room n) || s.recvCame n

/-- Whether context c of region r has a ready node as the region's counter asks: one that could start a firing in this cycle (R235). -/
def State.startCtx (s : State) (r c : Nat) : Bool := s.core.field.anyNode r c s.canFire

/-- The context that the region's counter selects in this cycle (R130, R235): one selected already stays. -/
def State.selected (s : State) (r : Nat) : Option Nat :=
  let g := s.core.field.region r
  if g.selAt = some s.cyc then some g.ctr
  else ((List.range 16).map fun k => (g.ctr + 1 + k) % 16).find? fun c => g.resident.contains c && s.startCtx r c

/-- Note the selection and, for a firing, the region's count and the node's cycle. -/
def State.noteFire (s : State) (i : Nat) (n : Node) : State :=
  s.modField fun f => (f.modRegion n.region fun g => { g with ctr := n.ctx, selAt := some s.cyc, quiet := s.cyc }).modNode i
    fun n => { n with last := some s.cyc, reason := 0 }

/-! ## Sending and taking -/

/-- The node's flags go to cr.FPS and are cleared (R233). -/
def State.flushNode (s : State) (i : Nat) : State :=
  match s.core.field.nodes[i]? with
  | none => s
  | some n => (s.orFps n.flags).modField fun f => f.modNode i fun n => { n with flags := 0 }

/-- Node i sends a token on output l; an EOS is preceded by its flags and noted (R233). -/
def State.nodeSend (s : State) (i : Nat) (n : Node) (l : Nat) (t : Token) : State :=
  let s := if t = eosToken then (s.flushNode i).modField fun f => f.modNode i fun n => { n with eosOut := insNat l n.eosOut } else s
  s.modField fun f => f.sendFrom (n.ep l) t

/-- Node i takes k tokens of input l. -/
def State.nodeTake (s : State) (n : Node) (l : Nat) : Nat → State
  | 0 => s
  | k + 1 =>
    match s.core.field.linkTo (n.ep l) with
    | none => s
    | some i => State.nodeTake (s.takeLink i) n l k

/-- Node i takes one token from each of a list of inputs. -/
def State.nodeTakeEach (s : State) (n : Node) (ls : List Nat) : State := ls.foldl (fun s l => s.nodeTake n l 1) s

/-- Node i has taken an EOS on these inputs (R211). -/
def State.noteEosIn (s : State) (i : Nat) (ls : List Nat) : State :=
  s.modField fun f => f.modNode i fun n => { n with eosIn := ls.foldl (fun e l => insNat l e) n.eosIn }

/-! ## Firings -/

/-- A firing of node i as far as it has resolved: its fault, or it stands among those in progress. -/
def State.hold (s : State) (i : Nat) (r : Firing) (set : Firing → List Firing) : State :=
  match r.fault with
  | some (code, j) => (if code = 0x32 then s.countEcc 0 1 else s).nodeFault i code j
  | none => s.modField fun f => f.modNode i fun n => { n with fir := set r }

/-- Node n starts a firing (R187, R208, R209, R234). -/
def execNodeFire (n : Nat) (s : State) : LinkOut :=
  .next (match s.core.field.nodes[n]? with
    | none => s
    | some d =>
      let f := s.core.field
      if !f.active d then s
      else if f.badCtl d then s.nodeFault n 0x62 0
      else
        let e := s.nodeEnv d d.fir.length
        if d.mayStart s.cyc && d.strayStop e then s.nodeFault n 0x61 0
        else if f.stopsReady d || !s.canFire d || s.selected d.region != some d.ctx then s
        else (s.noteFire n d).hold n (d.blk.fire e d.red d.replay) fun x => d.fir ++ [x])

/-- Predicated RECVs that waited take the tokens that have come (R209): the firing goes on. -/
def execRecvWaitTake (n : Nat) (s : State) : LinkOut :=
  .next (match s.core.field.nodes[n]? with
    | none => s
    | some d =>
      if !s.core.field.active d then s
      else match d.fir with
        | r :: rest => if r.opens.isEmpty then s else s.hold n (r.resume d.blk (s.nodeEnv d 0)) fun x => x :: rest
        | [] => s)

/-- Apply a firing that has resolved (R206): tokens out and in, registers, accumulators, flags. -/
def State.commit (s : State) (i : Nat) (n : Node) (r : Firing) : State :=
  let merged := match n.blk.walker with
    | some (_, w) => w.opn == 0x61 && r.taken.getD (w.ib 5 3) 0 != 0
    | none => false
  let s := (List.range 8).foldl (fun s l => s.nodeTake n l (r.taken.getD l 0)) (s.countEcc r.fixed 0)
  let s := s.modField fun f => f.modNode i fun n =>
    { n with
      fir := n.fir.tail
      done := some (s.cyc, n.commitsIn s.cyc + 1)
      err1 := n.err1.filter fun j => !r.writes.any (·.1 == j)
      err2 := n.err2.filter fun j => !r.writes.any (·.1 == j)
      regs := r.writes.foldl (fun v w => if h : w.1 < 16 then v.set w.1 w.2 else v) n.regs
      red := r.red
      replay := r.replay
      seen := n.seen || (n.closing && merged)
      flags := n.flags ||| r.flags }
  r.outs.foldl (fun s x => s.nodeSend i n x.1 x.2) s

/-- The oldest firing of node n commits once it has resolved (R206); also in a region that freezes, for a pre-emption or for this node's own fault (R207). -/
def execFiringCommit (n : Nat) (s : State) : LinkOut :=
  .next (match s.core.field.nodes[n]? with
    | none => s
    | some d =>
      let g := (s.core.field.region d.region).st
      match d.fir with
      | r :: _ => if r.opens.isEmpty && (g == .armed || g == .frozen) then s.commit n d r else s
      | [] => s)

/-! ## STOP, EOS and drain-request (R210, R211, R227, R232) -/

/-- One STOP from every input, one on every output (R210). -/
def execStopForward (n : Nat) (s : State) : LinkOut :=
  .next (match s.core.field.nodes[n]? with
    | none => s
    | some d =>
      let f := s.core.field
      if !f.active d || !f.stopsReady d then s
      else match f.heads d with
        | [] => s
        | t :: ts =>
          if ts.any fun u => stopLevel u.payload != stopLevel t.payload then s.nodeFault n 0x61 0
          else if !s.canFire d || s.selected d.region != some d.ctx then s
          else
            let s := (s.noteFire n d).nodeTakeEach d d.blk.ins'
            d.blk.outs.foldl (fun s l => s.nodeSend n d l (stopToken t.payload)) s)

/-- Take out token k of the tokens that the consumer of link i sees. -/
def Link.cut (l : Link) (k : Nat) : Link :=
  if l.expands then { l with dec := l.dec.eraseIdx k }
  else
    let rec go : List (Token × Nat) → Nat → List (Token × Nat)
      | [], _ => []
      | (t, m) :: rest, k => if k < m then (if m = 1 then rest else (t, m - 1) :: rest) else (t, m) :: go rest (k - m)
    let b := go l.buf k
    let l' := { l with buf := b }
    if b.length < l.buf.length then l'.credit1 else l'

/-- Node n discards the STOP behind the tokens that its firings have taken of input l: the head of the input to what comes next (R210). -/
def State.absorb (s : State) (n : Node) (l k : Nat) : State :=
  if k = 0 then s.nodeTake n l 1
  else match s.core.field.linkTo (n.ep l) with
    | none => s
    | some i => (s.modField fun f => f.modLink i fun x => let x := x.cut k; x.compress x.buf.length).runDecoder i

/-- The tokens of an input that the firings in progress have taken, and will remove at their commits. -/
def Node.held (n : Node) (l : Nat) : Nat := (n.fir.map fun r => r.taken.getD l 0).sum

/-- Under "absorb" a STOP at the head of an input is taken and discarded (R210); to a firing in progress, the head is the token it would take next. -/
def execStopAbsorb (n : Nat) (li : BitVec 3) (s : State) : LinkOut :=
  .next (match s.core.field.nodes[n]? with
    | none => s
    | some d =>
      let f := s.core.field
      match (f.nodeIn d li.toNat)[d.held li.toNat]? with
      | some t =>
        if f.active d && d.blk.policy == 1 && d.blk.li li.toNat != 0 && t.kind == 1 then s.absorb d li.toNat (d.held li.toNat) else s
      | none => s)

/-- Whether every declared input has this CTL token at its head, with no firing in progress. -/
def Field.allHeads (f : Field) (n : Node) (t : Token) : Bool :=
  n.fir.isEmpty && !n.blk.ins'.isEmpty && n.blk.ins'.all fun l => (f.nodeIn n l).head? == some t

/-- The MERGE of a node's block. -/
def Node.merge (n : Node) : Option BInstr := (n.blk.walker.map (·.2)).filter fun w => w.opn == 0x61

/-- An EOS from every input, one on every output (R211). -/
def execEosPropagate (n : Nat) (s : State) : LinkOut :=
  .next (match s.core.field.nodes[n]? with
    | none => s
    | some d =>
      let f := s.core.field
      if !f.active d || d.merge.isSome || !f.allHeads d eosToken || !f.roomEach d d.blk.outs then s
      else
        let s := (s.nodeTakeEach d d.blk.ins').noteEosIn n d.blk.ins'
        d.blk.outs.foldl (fun s l => s.nodeSend n d l eosToken) (s.flushNode n))

/-- The outputs that a drain-request leaves on: a SWITCH node's target A alone (R211). -/
def Node.drainOuts (n : Node) : List Nat :=
  match n.blk.ins.find? fun i => i.opn == 0x60 with
  | some i => match targetOf i.ta with | .lo l => [l] | _ => n.blk.outs
  | none => n.blk.outs

/-- A drain-request from every input goes on (R211); a mode-3 JOIN node faults (R232). -/
def execDrainRequestPropagate (n : Nat) (s : State) : LinkOut :=
  .next (match s.core.field.nodes[n]? with
    | none => s
    | some d =>
      let f := s.core.field
      if !f.active d || d.merge.isSome then s
      else if f.badCtl d then s.nodeFault n 0x62 0
      else if !f.allHeads d drainToken || !f.roomEach d d.drainOuts then s
      else
        let s := s.nodeTakeEach d d.blk.ins'
        d.drainOuts.foldl (fun s l => s.nodeSend n d l drainToken) s)

/-- A MERGE node closes its loop, one step at a time (R227). -/
def execMergeLoopClose (n : Nat) (s : State) : LinkOut :=
  .next (match s.core.field.nodes[n]? with
    | none => s
    | some d =>
      let f := s.core.field
      match d.merge with
      | none => s
      | some w =>
        let x := w.ib 2 0
        let y := w.ib 5 3
        let hx := (f.nodeIn d x).head?
        let hy := (f.nodeIn d y).head?
        let sendAll (t : Token) (s : State) : State := d.blk.outs.foldl (fun s l => s.nodeSend n d l t) s
        let set (seen closing : Bool) (s : State) : State := s.modField fun f => f.modNode n fun d => { d with seen := seen, closing := closing }
        if !f.active d || !d.fir.isEmpty then s
        else if d.eosIn.contains x then
          (if hy == some eosToken then ((s.nodeTake d y 1).noteEosIn n [y]) else s)
        else if !f.roomEach d d.blk.outs then s
        else if !d.closing then (if hx == some eosToken then sendAll drainToken (set false true s) else s)
        else if hy == some drainToken then
          let s := s.nodeTake d y 1
          if d.seen then sendAll drainToken (set false true s)
          else sendAll eosToken ((set false false ((s.nodeTake d x 1).noteEosIn n [x])).flushNode n)
        else s)

/-- A mode-3 JOIN node takes side b's EOS against a lone STOP at side a (R232). -/
def execJoinEos (n : Nat) (s : State) : LinkOut :=
  .next (match s.core.field.nodes[n]? with
    | none => s
    | some d =>
      let f := s.core.field
      match d.blk.join3 with
      | none => s
      | some w =>
        let a := w.ib 2 0
        let b := w.ib 5 3
        let own (l : Nat) : Bool := match (f.linkFrom (d.ep l)).bind fun i => f.links[i]? with
          | some k => epKind k.cons == 0 && epY k.cons == d.y && epX k.cons == d.x && epCtx k.cons == d.ctx
          | none => false
        let outs := d.blk.outs.filter fun l => !own l
        if !f.active d || !d.fir.isEmpty || !f.joinCloses d || !f.roomEach d outs then s
        else
          let s := ((s.nodeTake d a 1).nodeTake d b 1).noteEosIn n [a, b]
          outs.foldl (fun s l => s.nodeSend n d l eosToken) (s.flushNode n))

/-! ## CFG packets (R197, R198) -/

/-- The input whose head is a CFG lead, the lowest-numbered one. An idle node has taken an EOS on its inputs, so its links are read as they stand. -/
def Field.leadAt (f : Field) (n : Node) : Option (Nat × Word) :=
  n.inputs.findSome? fun l => match f.availTo (n.ep l) with
    | t :: _ => if t.kind = 2 then some (l, t.payload) else none
    | [] => none

/-- Fields of a lead (R197). -/
def leadBody (w : Word) : Nat := bits w.toNat 47 36
def leadKind (w : Word) : Nat := bits w.toNat 35 32
def leadHops (w : Word) : Nat := bits w.toNat 58 54
def leadOut (w : Word) : Nat := bits w.toNat 61 59

/-- The lead's own check (R197). -/
def leadOk (n : Node) (w : Word) : Bool :=
  bits w.toNat 63 62 == 2 && bits w.toNat 53 48 == 0 && bits w.toNat 31 0 == 0 && decide (leadKind w ≤ 1) && leadBody w != 0 &&
  (leadHops w == 0 || n.outputs.contains (leadOut w))

/-- Whether a link's format agrees with what a node's end takes or sends (R190). -/
def linkAgrees (l : Link) (prod cons : Option (List Nat)) : Bool :=
  (match prod with | some fs => fs.all (· == l.fmt) | none => true) &&
  (match cons with
   | some fs => fs.all fun f =>
      if l.fmt = 10 then f == 13 && l.filt.isNone
      else f == l.fmt || (match l.filt with | some x => x.src == l.fmt && x.dst == f | none => false)
   | none => true)

/-- The first link of a node whose format a new block does not meet, by edge number. -/
def Field.blockMismatch (f : Field) (n : Node) (b : Block) : Option Nat :=
  (f.links.find? fun l =>
    let p := b.outs.any fun k => l.prod == n.ep k && !linkAgrees l (some (b.prodFmts k)) none
    let c := b.ins'.any fun k => l.cons == n.ep k && !linkAgrees l none (some (b.consFmts k))
    p || c).map (·.edge)

/-- A block from a packet's or an image's words: the header, then its instructions. -/
def blockOfWords : List Word → Block
  | [] => ⟨0, []⟩
  | h :: is => ⟨h, is.map BInstr.ofWord⟩

/-- The fault that a packet of hops 0 raises, with the edge it concerns (R198). An accumulator has no block and no registers to write (R177). -/
def Field.packetFault (f : Field) (n : Node) (lead : Word) (ws : List Word) : Option (BitVec 8 × Nat) :=
  if leadKind lead = 1 then
    let mask := (ws.headD 0).toNat
    if 2 ^ 16 ≤ mask || ws.length ≠ popcount mask 16 + 1 || (n.acc.isSome && mask != 0) then some (0x43, 0) else none
  else
    let b := blockOfWords ws
    if ws.length ≠ b.count + 1 || n.acc.isSome then some (0x43, 0)
    else match b.check none with
      | some c => some (c, 0)
      | none =>
        if !(b.ins'.all fun l => (f.linkTo (n.ep l)).isSome) || !(b.outs.all fun l => (f.linkFrom (n.ep l)).isSome) then some (0x43, 0)
        else (f.blockMismatch n b).map fun e => (0x40, e)

/-- A node in the state that its block starts from (R174, R198). -/
def Node.restart (n : Node) : Node :=
  { n with red := [], replay := ⟨[], 0, false⟩, seen := false, packet := none, closing := false, eosIn := [], eosOut := [], fir := [] }

/-- The registers that a mask selects, from a word for each set bit, c0 upward. -/
def maskedRegs (regs : Vector Word 16) (mask : Nat) (ws : List Word) : Vector Word 16 :=
  ((List.range 16).foldl (fun (x : Vector Word 16 × List Word) j =>
    if mask.testBit j then (if h : j < 16 then x.1.set j (x.2.headD 0) else x.1, x.2.tail) else x) (regs, ws)).1

/-- A packet of hops 0 applied. -/
def Node.apply (n : Node) (lead : Word) (ws : List Word) : Node :=
  if leadKind lead = 1 then
    let mask := (ws.headD 0).toNat
    { n.restart with
      regs := maskedRegs n.regs mask ws.tail, err1 := n.err1.filter fun j => !mask.testBit j, err2 := n.err2.filter fun j => !mask.testBit j }
  else { n.restart with blk := blockOfWords ws }

/-- Whether node d may handle a CFG packet now (R198). -/
def Field.packetReady (f : Field) (d : Node) : Bool :=
  (f.region d.region).st == .armed && !d.stopped && (f.region d.region).resident.contains d.ctx && d.idle

/-- Note the CFG packet of node i. -/
def State.notePacket (s : State) (i : Nat) (p : Option Packet) : State := s.modField fun f => f.modNode i fun n => { n with packet := p }

/-- Apply a packet whose body is whole, or fault (R198). -/
def State.packetDone (s : State) (i : Nat) (d : Node) (p : Packet) : State :=
  match s.core.field.packetFault d p.lead p.words with
  | some (c, e) => (s.notePacket i (some p)).nodeFault i c 0 (BitVec.ofNat 64 e)
  | none => s.modField fun f => f.modNode i fun n => n.apply p.lead p.words

/-- The next body word of the packet under way: none while nothing has arrived, an error where another token stands. -/
def Field.packetWord (f : Field) (d : Node) (p : Packet) : Option (Except Unit Word) :=
  (f.availTo (d.ep p.inp)).head?.map fun t => if t.kind = 2 then .ok t.payload else .error ()

/-- An idle node takes one token of a CFG packet of hops 0, and applies the packet with its last (R198). -/
def execCfgPacketApply (n : Nat) (s : State) : LinkOut :=
  .next (match s.core.field.nodes[n]? with
    | none => s
    | some d =>
      let f := s.core.field
      if !f.packetReady d then s
      else match d.packet with
        | some p =>
          if leadHops p.lead ≠ 0 then s
          else if p.left = 0 then s.packetDone n d p
          else match f.packetWord d p with
            | none => s
            | some (.error _) => s.nodeFault n 0x43 0
            | some (.ok w) =>
              let p : Packet := { p with words := p.words ++ [w], left := p.left - 1 }
              let s := s.nodeTake d p.inp 1
              if p.left = 0 then s.packetDone n d p else s.notePacket n (some p)
        | none => match f.leadAt d with
          | none => s
          | some (l, w) =>
            if !leadOk d w then s.nodeFault n 0x43 0
            else if leadHops w ≠ 0 then s
            else (s.nodeTake d l 1).notePacket n (some ⟨l, w, [], leadBody w⟩))

/-- An idle node forwards one token of a CFG packet with hops above 0: the lead with one hop less, or a body word of the packet under way (R198). -/
def execCfgPacketForward (n : Nat) (s : State) : LinkOut :=
  .next (match s.core.field.nodes[n]? with
    | none => s
    | some d =>
      let f := s.core.field
      if !f.packetReady d then s
      else match d.packet with
        | some p =>
          let out := leadOut p.lead
          if leadHops p.lead = 0 || f.freeFrom (d.ep out) = 0 then s
          else match f.packetWord d p with
            | none => s
            | some (.error _) => s.nodeFault n 0x43 0
            | some (.ok w) =>
              ((s.nodeTake d p.inp 1).nodeSend n d out ⟨2, w⟩).notePacket n (if p.left ≤ 1 then none else some { p with left := p.left - 1 })
        | none => match f.leadAt d with
          | none => s
          | some (l, w) =>
            if !leadOk d w then s.nodeFault n 0x43 0
            else if leadHops w = 0 || f.freeFrom (d.ep (leadOut w)) = 0 then s
            else
              let h := leadHops w - 1
              let w' : Word := (w &&& ~~~(31#64 <<< 54)) ||| (BitVec.ofNat 64 h <<< 54)
              ((s.nodeTake d l 1).nodeSend n d (leadOut w) ⟨2, w'⟩).notePacket n (some ⟨l, w, [], leadBody w⟩))

/-! ## Context swaps (R196) -/

/-- The last cycle in which a context had a ready node. -/
def Region.lastReady (g : Region) (c : Nat) : Nat := ((g.ready.find? (·.1 == c)).map (·.2)).getD 0

/-- Context w leaves its REG area for the plots, and context v takes the area: the area's corrected words are counted, and each node whose words hold an uncorrectable one meets the error as it takes its state; the spill writes the words anew (R195, R337, R390). -/
def State.swapArea (s : State) (r w v : Nat) : State :=
  match s.core.cellar.areas.find? fun a => a.owner == r && a.ctx == w with
  | none => s
  | some a =>
    let c := s.core.cellar
    let hurt := (List.range s.core.field.nodes.length).filter fun i => match s.core.field.nodes[i]? with
      | some n => n.region == r && n.ctx == w && c.bad (a.off + 256 * plotIndex n.y n.x) 256
      | none => false
    let s := (s.countEcc (c.singles a.off a.len) hurt.length).modCellar fun c => { c with
      areas := c.areas.map fun (x : RegArea) => if x.owner = r && x.ctx = w then { x with ctx := v } else x
      err1 := delRange (a.off / 8) ((a.off + a.len) / 8) c.err1, err2 := delRange (a.off / 8) ((a.off + a.len) / 8) c.err2 }
    hurt.foldl (fun s i => s.nodeFault i 0x32 0) s

/-- The steward spills the resident context that has waited longest and fills a waiting one (R196). -/
def execContextSwap (r : BitVec 4) (s : State) : LinkOut :=
  .next (
    let g := s.core.field.region r.toNat
    let waiting := g.bound.filter fun c => !g.resident.contains c && s.readyCtx r.toNat c
    let idle := g.resident.filter fun c => !g.pinned.contains c && !s.readyCtx r.toNat c && decide (g.lastReady c + 64 ≤ s.cyc)
    let victim := idle.foldl (fun o c => match o with
      | none => some c
      | some d => if g.lastReady c < g.lastReady d then some c else some d) none
    match g.st, waiting, victim with
    | .armed, w :: _, some v =>
      (s.modField fun f => f.modRegion r.toNat fun g => { g with resident := insNat w (delNat v g.resident) }).swapArea r.toNat w v
    | _, _, _ => s)

/-! ## Zero-slot links (R186) -/

/-- The result of zero-slot link l crosses to its consumer: the stile's filter acts on it, and the result register is empty. -/
def State.pulled (s : State) (l : Nat) : State :=
  match s.core.field.links[l]? with
  | none => s
  | some k =>
    if k.slots != 0 || !k.buf.isEmpty then s
    else match k.result with
      | [] => s
      | t :: rest => (s.modField fun f => f.modLink l fun k => { k with result := rest, fly := [t] }).deliver l

/-- A zero-slot link with its result at the consumer, before any filter. -/
def Link.offered (l : Link) : Link :=
  if l.expands then { l with dec := l.dec ++ l.result } else { l with buf := l.buf ++ l.result.map fun t => (t, 1) }

/-- Whether node n would act on what stands at its inputs: an idle one on a CFG packet, another by a firing or a STOP in its selected context, by an absorbed STOP, an EOS, a drain-request, its firing's waiting RECV, or by a fault. -/
def State.acts (s : State) (n : Node) : Bool :=
  let f := s.core.field
  let t (l : Nat) : Option Token := (f.nodeIn n l)[n.held l]?
  (f.region n.region).st == .armed && !n.stopped && (f.region n.region).resident.contains n.ctx &&
  (if n.idle then (f.leadAt n).isSome || n.packet.isSome
   else
    (s.canFire n && s.selected n.region == some n.ctx) || f.badCtl n ||
    (n.blk.policy == 1 && n.blk.ins'.any fun l => (t l).any fun u => u.kind == 1) ||
    s.recvCame n ||
    ((f.allHeads n eosToken || f.allHeads n drainToken) && f.roomEach n n.blk.outs) ||
    (n.merge.isSome && n.fir.isEmpty && n.blk.ins'.any fun l => (t l).any fun u => u.kind == 3) ||
    (f.joinCloses n && n.fir.isEmpty))

/-- Whether the consumer of a zero-slot link asks for its result: a port or engine always; a node when every other firing condition of its own holds (R186), that is when it would act with this result, and those of its other zero-slot links, at its inputs. -/
def State.wants (s : State) (k : Link) : Bool :=
  if epKind k.cons != 0 then true
  else match s.core.field.nodeAt k.cons with
    | none => false
    | some i =>
      let mine := (List.range s.core.field.links.length).filter fun j =>
        s.core.field.links[j]?.any fun x => x.slots == 0 && epKind x.cons == 0 && s.core.field.nodeAt x.cons == some i
      let s := mine.foldl (fun s j => s.modField fun f => f.modLink j Link.offered) s
      match s.core.field.nodes[i]? with
      | some n => s.acts n
      | none => false

/-- The consumer pulls a zero-slot producer's result (R186). -/
def execZeroSlotPull (l : Nat) (s : State) : LinkOut :=
  .next (match s.core.field.links[l]? with
    | none => s
    | some k => if s.wants k then s.pulled l else s)

/-! ## What passing time does to the field -/

/-- Why a node starts no firing: 0 when it is idle or stopped, 1 IN, 2 OUT, else 3 CTX (R187, R397). A RECV that waits lacks its token, and a node that is busy with its own firing counts under CTX where conditions 1 and 2 hold: exactly one counter rises (log 28). -/
def State.stall (s : State) (n : Node) : Nat :=
  if n.idle || n.stopped then 0
  else if (n.fir.any fun x => !x.opens.isEmpty) || !(s.has n || (n.fir.isEmpty && s.core.field.joinCloses n)) then 1
  else if !s.room n then 2
  else 3

/-- Add to a 32-bit counter that saturates. -/
def sat32 (x n : Nat) : Nat := min (x + n) (2 ^ 32 - 1)

/-- n cycles from cycle t pass for a node: the counter of its reason grows, but for a cycle in which it fired. -/
def Node.tick (d : Node) (t n why : Nat) : Node :=
  let k := if d.last = some t then n - 1 else n
  if k = 0 then d
  else match why with
    | 1 => { d with stIn := sat32 d.stIn k, reason := 1 }
    | 2 => { d with stOut := sat32 d.stOut k, reason := 2 }
    | 3 => { d with stCtx := sat32 d.stCtx k, reason := 3 }
    | _ => { d with reason := 0 }

/-- n cycles pass for the field of the core in focus. -/
def State.tickField (s : State) (n : Nat) : State :=
  let f := s.core.field
  let nodes := f.nodes.map fun d => if (f.region d.region).st = .armed then d.tick s.cyc n (s.stall d) else d
  let regions := f.regions.mapIdx fun r g =>
    if g.st = .armed then
      { g with ready := g.bound.map fun c => (c, if s.readyCtx r c then s.cyc + n else g.lastReady c) }
    else g
  s.modField fun f => { f with nodes := nodes, regions := regions }

/-- n cycles pass: every field that holds nodes counts its stalls, then the clock moves on. -/
def State.tick (s : State) (n : Nat) : State :=
  let cur := s.cur
  let busy := (List.range 192).filter fun i => !(s.coreAt i).field.nodes.isEmpty
  let s := busy.foldl (fun s i => (s.focus i).tickField n) s
  ({ s with cur := cur }).pass n

end Sys2Proof.Machine
end

