-- ==== Sys2Proof/Machine/Headland.lean ====
section
/-! DEFINITION. The headland: port contexts, element addresses, half-chains, data commands and their events, spilling and replay (R141-R161, R365, R379-R382, R386, R398). -/

namespace Sys2Proof.Machine

/-- The meaning's answer. -/
abbrev PortOut := Host.Outcome State Fault Refusal

/-! ## Port contexts -/

/-- Port context p. -/
def State.port (s : State) (p : Nat) : Port := if h : p < 64 then s.core.ports[p] else .reset

/-- Change port context p. -/
def State.modPort (s : State) (p : Nat) (f : Port → Port) : State :=
  if h : p < 64 then s.modCore fun c => { c with ports := c.ports.set p (f c.ports[p]) } else s

/-- Change the run of port context p. -/
def State.modRun (s : State) (p : Nat) (f : PRun → PRun) : State := s.modPort p fun x => { x with run := x.run.map f }

/-- The link of a port's node: an in node's output link, an out node's input link (R143). -/
def Field.portLink (f : Field) (p : Nat) : Option Link :=
  (if p < 32 then f.linkFrom (headEndpoint p) else f.linkTo (headEndpoint p)).bind fun i => f.links[i]?

/-- Whether the loaded image binds a port's node to a link (R143). -/
def Field.portBound (f : Field) (p : Nat) : Bool :=
  (f.portLink p).isSome &&
  match f.binding false p with
  | some b => let st := (f.region b.region).st; st == .armed || st == .frozen
  | none => false

/-- The format of a port's link; behind a filter, what the filter delivers. -/
def Field.portFmt (f : Field) (p : Nat) : Nat :=
  match f.portLink p with
  | some l => match l.filt with | some x => if p < 32 then l.fmt else x.dst | none => l.fmt
  | none => 0

/-! ## Shapes (R149, R151) -/

/-- Digits of an element index over the counts, dimension 0 first. -/
def digitsOf : List Nat → Nat → List Nat
  | [], _ => []
  | n :: ns, i => i % n :: digitsOf ns (i / n)

/-- The element offset of an index (R149). -/
def offsetOf (cnt : List Nat) (str : List Int) (i : Nat) : Int :=
  ((digitsOf cnt i).zip str).foldl (fun a p => a + p.1 * p.2) 0

/-- The product of the counts. -/
def totalOf (cnt : List Nat) : Nat := cnt.foldl (· * ·) 1

/-- How many leading dimensions of an index stand at their last values. -/
def lastDims (cnt : List Nat) (i : Nat) : Nat :=
  (((digitsOf cnt i).zip cnt).takeWhile fun p => p.1 + 1 == p.2).length

/-- The highest dimension with more than one element. -/
def topDim (cnt : List Nat) : Option Nat := ((List.range cnt.length).filter fun d => cnt.getD d 1 != 1).getLast?

/-- The level of the STOP that follows element i (R151). -/
def stopAfter (cnt : List Nat) (i : Nat) : Option Nat :=
  match lastDims cnt i with
  | 0 => none
  | n + 1 => some (min n ((topDim cnt).getD 0))

/-- Steps of the chain field (R152). -/
def PRun.expand (r : PRun) : Bool := r.chain.getLsbD 5
def PRun.dequant (r : PRun) : Bool := r.chain.getLsbD 4
def PRun.transp (r : PRun) : Bool := r.chain.getLsbD 3
def PRun.reduce (r : PRun) : Bool := r.chain.getLsbD 2
def PRun.quant (r : PRun) : Bool := r.chain.getLsbD 1
def PRun.compress (r : PRun) : Bool := r.chain.getLsbD 0

/-- Whether STOPs are sent or expected, and whether an EOS is (R151). -/
def PRun.stops (r : PRun) : Bool := r.par.stop == 0 || r.par.stop == 1
def PRun.eos (r : PRun) : Bool := r.par.stop == 0 || r.par.stop == 2

/-- Whether the stream carries packed FW8 bytes: format FW8 and no chain step (R157). -/
def PRun.packed (r : PRun) : Bool := r.f == 10 && r.chain == 0 && (r.kind == .loads || r.kind == .stores)

/-- The STOP after element i of the command; packed FW8 ends with a level-1 STOP (R41). -/
def PRun.stopAt (r : PRun) (i : Nat) : Option Nat :=
  if r.packed then (if i + 1 = totalOf r.cnt then some 1 else none) else stopAfter r.cnt i

/-- The STOP that ends the fibre of reduced element i: that of a stream with one more dimension inside (R151, R153). -/
def PRun.fibreStop (r : PRun) (i : Nat) : Nat :=
  min (lastDims r.cnt i) (match topDim r.cnt with | some d => d + 1 | none => 0)

/-- Whether every element of the command has been dealt with; an index stream with count 0 has no last one. -/
def PRun.full (r : PRun) : Bool := r.limit != 0 && decide (r.limit ≤ r.idx)

/-- Bytes of one element in memory; a token of packed FW8 holds eight (R157). -/
def PRun.size (r : PRun) : Nat := if r.packed then 8 else fmtBytes r.f

/-- The byte address of the element at an offset (R149). -/
def PRun.addr (r : PRun) (t : Int) : Int := if r.f = 14 then r.base + t / 2 else r.base + r.size * t

/-- The checks of an element's address (R150). -/
def addrFault (a : Int) (n : Nat) : Option (BitVec 8) :=
  if carries a then some 0x23 else if !canonical a then some 0x22 else if !canonical (a + n - 1) then some 0x24 else none

/-! ## Element accesses (R142) -/

/-- The port asks the loader for the extent that holds an address (R142). -/
def State.askExtent (s : State) (p : Nat) (va : Int) : State := s.modPort p fun x => { x with st := .extent, want := va }

/-- The extent of the port that holds an address: its entry, or one that the loader has sent for the element under way (R142). -/
def Port.extentFor (x : Port) (va : Int) : Option Extent := (x.ext.toList ++ x.held).find? (·.holds va)

/-- Translate one piece of an access: through the edge TLB for the index commands, in an extent of the context, or afresh when direct; a read that is deferred keeps its translation. None: the extent must be asked for (R142). -/
def State.portXlate (s : State) (p : Nat) (r : PRun) (k : Kind) (va : Int) (direct : Bool) : Option (Except (BitVec 8) Phys × State) :=
  match s.deferredAt (ctxAgent p) k va with
  | some q => some (.ok q, s)
  | none =>
    if r.kind == .gather || r.kind == .scatter || r.kind == .scadd then some (s.xlateEdge k r.tag.user va)
    else match (s.port p).extentFor va with
      | some x => some (s.porter.checkLeaf x va k r.tag.user, s)
      | none => if direct then some (s.xlateNew k r.tag.user va) else none

/-- The pieces of an access at 4 KiB boundaries, checked and translated before the first of them is accessed: a port that must ask for an extent, or faults, has touched nothing of it (R142, R150). In a buffer's window there are none. -/
def State.portPieces (s : State) (p : Nat) (r : PRun) (k : Kind) (va : Int) (n : Nat) (direct : Bool) : Got (List (Int × Nat × Phys)) :=
  match addrFault va n with
  | some c => .fault c va s
  | none =>
    if inWindow va then (if (s.padPlace va n).isNone then .fault 0x20 va s else .ok [] s)
    else (pagePieces va n (n / 4096 + 2)).foldl (fun (g : Got (List (Int × Nat × Phys))) (q : Int × Nat) => g.bind fun acc s =>
      match s.portXlate p r k q.1 direct with
      | none => .wait (s.askExtent p q.1)
      | some (.error c, s) => .fault c q.1 s
      | some (.ok x, s) => .ok (acc ++ [(q.1, q.2, x)]) s) (.ok [] s)

/-- A port reads n bytes, after the checks of R150. -/
def State.portGet (s : State) (p : Nat) (r : PRun) (va : Int) (n : Nat) (direct : Bool) : Got (List Byte) :=
  (s.portPieces p r .load va n direct).bind fun ps s =>
    if inWindow va then s.padRead (ctxAgent p) va n
    else ps.foldl (fun (g : Got (List Byte)) (q : Int × Nat × Phys) => g.bind fun acc s =>
      (s.readPhys (ctxAgent p) q.2.2 q.1 q.2.1 r.hint).bind fun bs s => .ok (acc ++ bs) s) (.ok [] s)

/-- A port writes bytes, after the checks of R150. -/
def State.portPut (s : State) (p : Nat) (r : PRun) (va : Int) (bs : List Byte) (direct : Bool) : Got Unit :=
  (s.portPieces p r .store va bs.length direct).bind fun ps s =>
    if inWindow va then s.padWrite va bs
    else putPieces (fun s a part => match ps.find? (·.1 == a) with
      | some q => s.writePhys q.2.2 a part r.hint
      | none => .ok () s) (ps.map fun q => (q.1, q.2.1)) bs s

/-- A port writes one nibble: on a ONCE page or buffer the other nibble is zero, else it stays (R32). -/
def State.portNibble (s : State) (p : Nat) (r : PRun) (va : Int) (high : Bool) (v : Nat) (direct : Bool) : Got Unit :=
  let alone : Byte := BitVec.ofNat 8 (if high then v % 16 * 16 else v % 16)
  let merge (b : Byte) : Byte := BitVec.ofNat 8 (if high then b.toNat % 16 + v % 16 * 16 else b.toNat / 16 * 16 + v % 16)
  (s.portPieces p r .store va 1 direct).bind fun ps s =>
    match ps.head?, s.padPlace va 1 with
    | some q, _ =>
      if q.2.2.ext.once then s.writePhys q.2.2 va [alone] r.hint
      else (s.readPhys (ctxAgent p) q.2.2 va 1 r.hint).bind fun bs s => s.writePhys q.2.2 va [merge (bs.headD 0)] r.hint
    | none, some (b, _) =>
      if b.once then s.padWrite va [alone]
      else (s.padRead (ctxAgent p) va 1).bind fun bs s => s.padWrite va [merge (bs.headD 0)]
    | none, none => .ok () s

/-! ## The load half-chain (R153, R154, R365) -/

/-- The acquire and the release of a port context: at its launch's outermost level. -/
def State.portAcquire (s : State) : State := s.acquire s.core.on.outer
def State.portRelease (s : State) : State := s.release s.core.on.outer

/-- Whole words of one group in the masked form: the mask, then a word for each set bit. -/
def groupWords (mask : Nat) (ws : List Word) : List Word :=
  ((List.range 64).foldl (fun (x : List Word × List Word) j =>
    if mask.testBit j then (x.2.headD 0 :: x.1, x.2.tail) else (0 :: x.1, x.2)) ([], ws)).1.reverse

/-- The words of a masked payload, and the bytes it takes (R154). -/
def maskedWords : Nat → List Byte → List Word × Nat
  | 0, _ => ([], 0)
  | g + 1, bs =>
    let mask := ofBytes (bs.take 8)
    let n := popcount mask 64
    let (ws, len) := maskedWords g (bs.drop (8 + 8 * n))
    (groupWords mask (wordsOf ((bs.drop 8).take (8 * n))) ++ ws, 8 + 8 * n + len)

/-- The 512 logical words of a slot, when its generations agree and L fits a form (R154, R365). -/
def slotWords (header payload trailer : List Byte) : Option (List Word) :=
  let len := ofBytes (header.take 4)
  if ofBytes ((header.drop 4).take 2) ≠ ofBytes (trailer.take 2) then none
  else if len = 4096 then some (wordsOf payload)
  else
    let (ws, n) := maskedWords 8 payload
    if n = len && decide (len ≤ 4088) then some ws else none

/-- Read a slot: trailer, payload, header, each as an acquire (R154). -/
def State.readSlot (s : State) (p : Nat) (r : PRun) (a : Int) (direct : Bool) : Got (Option (List Word)) :=
  (s.portGet p r (a + 4112) 16 direct).bind fun trailer s =>
  (s.portAcquire.portGet p r (a + 16) 4096 direct).bind fun payload s =>
  (s.portAcquire.portGet p r a 16 direct).bind fun header s => .ok (slotWords header payload trailer) s.portAcquire

/-- The bytes of a logical element of an expanded stream. A slot whose read failed is read again by EXPAND_REREAD, four times at most (R365). -/
def State.expandElem (s : State) (p : Nat) (r : PRun) (t : Int) (direct again : Bool) : Got (List Byte) :=
  let lb := if r.f = 14 then t / 2 else r.size * t
  let b := lb / 4096
  let pick (ws : List Word) : List Byte := ((ws.flatMap fun w => toBytes 8 w.toNat).drop (lb % 4096).toNat).take r.size
  if r.place = some b then .ok (pick r.slot) s
  else if r.tries != 0 && !again then .wait s
  else (s.readSlot p r (r.base + 4128 * b) direct).bind fun o s => match o with
    | some ws => .ok (pick ws) (s.modRun p fun r => { r with slot := ws, place := some b, tries := 0 })
    | none =>
      if 4 ≤ r.tries then .fault 0x31 (r.base + 4128 * b) (s.modRun p fun r => { r with tries := 0 })
      else .wait (s.modRun p fun r => { r with tries := r.tries + 1 })

/-- The FW8 block at an address, decoded: its bytes are read word by word, as far as the decoder needs them (R40). -/
def State.fw8Scan (s : State) (p : Nat) (r : PRun) (a : Int) (direct : Bool) : Nat → List Byte → Got (List Val)
  | 0, bs => match fw8Decode bs with | .error c => .fault c a s | .ok (vs, _) => .ok vs s
  | n + 1, bs =>
    match fw8Try bs with
    | some (.error c) => .fault c a s
    | some (.ok (vs, _)) => .ok vs s
    | none =>
      let q := a + bs.length
      (s.portGet p r q (8 - q % 8).toNat direct).bind fun more s => s.fw8Scan p r a direct n (bs ++ more)

/-- The length of the FW8 block at an address, from its header. -/
def State.fw8LenAt (s : State) (p : Nat) (r : PRun) (a : Int) (direct : Bool) : Got Nat :=
  (s.portGet p r a 3 direct).bind fun bs s => .ok (fw8Len bs) s

/-- The bytes of the FW8 block at an address. -/
def State.fw8BlockAt (s : State) (p : Nat) (r : PRun) (a : Int) (direct : Bool) : Got (List Byte) :=
  (s.fw8LenAt p r a direct).bind fun n s => s.portGet p r a n direct

/-- Where block b of an FW8 tensor starts: its directory entry, then the blocks before it in its group of 64 (R41). The blocks passed over are stepped by their headers' len, and none of their faults is looked for (DESIGN CHOICE, log 42). -/
def State.fw8Start (s : State) (p : Nat) (r : PRun) (b : Int) (direct : Bool) : Got Int :=
  (s.portGet p r (base57 r.par.dir + 4 * (b / 64)) 4 direct).bind fun bs s =>
    (List.range (b % 64).toNat).foldl (fun (g : Got Int) _ => g.bind fun a s =>
      (s.fw8LenAt p r a direct).bind fun n s => .ok (a + n) s) (.ok (r.base + ofBytes bs) s)

/-- One element of an FW8 tensor, dequantised: block start + t div 32, element t mod 32 (R37-R41, R153). R157 places blocks for a stream without a chain step only; that the start block and the directory serve this one too is the model's (DESIGN CHOICE, log 19). -/
def State.fw8Read (s : State) (p : Nat) (r : PRun) (t : Int) (direct : Bool) : Got (Word × Flags) :=
  (s.fw8Start p r (r.par.blk.toNat + t / 32) direct).bind fun a s =>
  (s.fw8Scan p r a direct 8 []).bind fun vs s =>
    let (x, f1) := vmul (vs.getD (t % 32).toNat .nan) (unpack s.fenv 13 r.scale.toNat)
    let (w, f2) := toFmt s.fenv r.k r.par.rnd x
    .ok (w, f1 ||| f2) s

/-- Dequantise, or copy (R153). -/
def PRun.loadStep (r : PRun) (v : FEnv) (w : Word) : Word × Flags :=
  if r.dequant then convertScaled v r.f r.k r.par.rnd r.scale w else (w, 0)

/-- The payload of a memory element; INT4 takes its nibble (R32). -/
def PRun.elemWord (r : PRun) (t : Int) (bs : List Byte) : Word :=
  let x := ofBytes bs
  payloadOf r.f (if r.f = 14 then (if t % 2 = 0 then x % 16 else x / 16) else x)

/-- Read the element at an offset: its payload on the link, and the flags. FW8 elements that no rule places have a free value (log 19). -/
def State.readElem (s : State) (p : Nat) (r : PRun) (t : Int) (direct again : Bool) : Got (Word × Flags) :=
  if r.f = 10 && r.dequant && !r.expand && r.kind == .loads then s.fw8Read p r t direct
  else
    let got := if r.expand then s.expandElem p r t direct again else s.portGet p r (r.addr t) r.size direct
    got.bind fun bs s =>
      if r.f = 10 then let (w, s) := s.freeWord; .ok (payloadOf r.k w.toNat, 0) s
      else .ok (r.loadStep s.fenv (r.elemWord t bs)) s

/-! ## The store half-chain (R153, R154) -/

/-- The format in which an element reaches the store: reduced values are FP32 or INT64, a pair gives its value. -/
def PRun.valFmt (r : PRun) : Nat :=
  if r.kind == .scatter || r.kind == .scadd then (if r.k = 16 then 11 else 13)
  else if r.reduce then (if isInt r.k then 7 else 13) else r.k

/-- Quantise: the scaled value rounded to FP32. -/
def PRun.scaled (r : PRun) (v : FEnv) (w : Word) : Nat × Flags :=
  let (x, f1) := vmul (valOf v r.valFmt w.toNat) (unpack v 13 r.scale.toNat)
  let (b, f2) := toFloat v 13 r.par.rnd x
  (b, f1 ||| f2)

/-- The value of an element in format F, with flags. -/
def PRun.storeStep (r : PRun) (v : FEnv) (w : Word) : Word × Flags :=
  if r.quant then
    let (b, f1) := r.scaled v w
    let (x, f2) := toFmt v r.f r.par.rnd (unpack v 13 b)
    (x, f1 ||| f2)
  else if r.reduce then Sys2Proof.Machine.convert v r.valFmt r.f 0 w
  else (w, 0)

/-- The reduce step's start from the first element of a fibre, and its step: FP32 rounded RNE, INT64 saturating (R153). -/
def PRun.accStep (r : PRun) (v : FEnv) (acc : Option Word) (w : Word) : Word × Flags :=
  let (x, f0) := Sys2Proof.Machine.convert v r.k r.valFmt 0 w
  match acc with
  | none => (x, f0)
  | some a =>
    if isInt r.k then
      let i := intOf 7 a.toNat; let j := intOf 7 x.toNat
      match r.par.red.toNat with
      | 0 => let y := sat (i + j) (intMin 7) (intMax 7); (intPayload 7 y, if y = i + j then 0 else flagO)
      | 1 => (if i < j then x else a, 0)
      | _ => (if j < i then x else a, 0)
    else match r.par.red.toNat with
      | 0 => let (b, f) := fadd v 13 0 a.toNat x.toNat; (fpayload b, f0 ||| f)
      | 1 => (fpayload (fmax v 13 a.toNat x.toNat), f0)
      | _ => (fpayload (fmin v 13 a.toNat x.toNat), f0)

/-- The masked form of 512 words (R154). -/
def maskWords (ws : List Word) : List Byte :=
  (List.range 8).flatMap fun g =>
    let grp := (ws.drop (64 * g)).take 64
    let mask := (List.range 64).foldl (fun m j => if (grp.getD j 0) != 0 then m + 2 ^ j else m) 0
    toBytes 8 mask ++ (grp.filter (· != 0)).flatMap fun w => toBytes 8 w.toNat

/-- Write one compressed block: generation G + 1; header, payload, trailer, each as a release (R154). The whole slot is translated first, so that no part of it is written by a block that waits or faults there. -/
def State.writeSlot (s : State) (p : Nat) (r : PRun) (a : Int) (bytes : List Byte) (direct : Bool) : Got Unit :=
  (s.portPieces p r .store a 4128 direct).bind fun _ s =>
  (s.portGet p r a 16 direct).bind fun old s =>
    let g := (ofBytes ((old.drop 4).take 2) + 1) % 65536
    let m := maskWords (wordsOf bytes)
    let body := if m.length ≤ 4088 then m else bytes
    (s.portRelease.portPut p r a (toBytes 4 body.length ++ toBytes 12 g) direct).bind fun _ s =>
    (s.portRelease.portPut p r (a + 16) body direct).bind fun _ s =>
    s.portRelease.portPut p r (a + 4112) (toBytes 16 g) direct

/-- Bytes of consecutive elements in memory form. -/
def elemsBytes (f : Nat) (ws : List Word) : List Byte :=
  if f = 14 then (chunks 2 ws.length ws).map fun c => BitVec.ofNat 8 ((c.headD 0).toNat % 16 + (c.getD 1 0).toNat % 16 * 16)
  else ws.flatMap fun w => toBytes (fmtBytes f) w.toNat

/-- Elements of a compressed block. -/
def PRun.perBlock (r : PRun) : Nat := if r.f = 14 then 8192 else 4096 / fmtBytes r.f

/-- Whether elements collect in hand until a block of them is written. -/
def PRun.blocks (r : PRun) : Bool := r.compress || (r.f == 10 && r.quant && r.kind == .stores)

/-- A block of elements to be written: its address, its bytes, where the next one starts, and the flags it raised. -/
structure OutBlock where
  addr  : Int
  bytes : List Byte
  next  : Int
  flags : Flags
  deriving DecidableEq, Repr

/-- What an element makes of a block in hand: it joins it, it completes it, or the block cannot be encoded. -/
inductive Hand where
  | more (x : Word) (fl : Flags) (s : State)
  | full (b : OutBlock) (s : State)
  | bad (code : BitVec 8) (addr : Int) (s : State)

/-- An element for a block: it collects, or the block is whole (R42, R154). -/
def State.blockStep (s : State) (r : PRun) (w : Word) : Hand :=
  if r.compress then
    let (x, fl) := r.storeStep s.fenv w
    let (x, s) := if r.f = 10 then s.freeWord else (x, s)
    let b := r.place.getD 0
    if r.buf.length + 1 < r.perBlock then .more x fl s
    else .full ⟨r.base + 4128 * b, elemsBytes r.f (r.buf ++ [x]), b + 1, fl⟩ s
  else
    let (x, fl) := r.scaled s.fenv w
    let o := r.place.getD 0
    if r.buf.length + 1 < 32 then .more (BitVec.ofNat 64 x) fl s
    else match fw8Encode s.fenv ((r.buf.map BitVec.toNat) ++ [x]) with
      | none => .bad 0x92 (r.base + o) s
      | some (bs, f2) => .full ⟨r.base + o, bs, o + bs.length, fl ||| f2⟩ s

/-- Write the bytes of a block at its place. -/
def State.putBlock (s : State) (p : Nat) (r : PRun) (a : Int) (bytes : List Byte) (direct : Bool) : Got Unit :=
  if r.compress then s.writeSlot p r a bytes direct else s.portPut p r a bytes direct

/-- The run with its block gone from its hands. -/
def PRun.nextBlock (r : PRun) (b : OutBlock) : PRun := { r with buf := [], place := some b.next }

/-- An element for a block: it collects, or the whole block is written (R42, R154). -/
def State.writeBlock (s : State) (p : Nat) (r : PRun) (w : Word) (direct : Bool) : Got Flags :=
  match s.blockStep r w with
  | .more x fl s => .ok fl (s.modRun p fun r => { r with buf := r.buf ++ [x] })
  | .bad c a s => .fault c a s
  | .full b s => (s.putBlock p r b.addr b.bytes direct).bind fun _ s => .ok b.flags (s.modRun p (·.nextBlock b))

/-- The offset of element i with this payload: a pair's coordinate, or the shape's (R149, R158). -/
def PRun.outOffset (r : PRun) (i : Nat) (w : Word) : Int :=
  if r.kind == .scatter || r.kind == .scadd then (coordOf r.k w : Int) else offsetOf r.cnt r.str i

/-- SCADD: add at the element's home, rounded RNE, as one step; the core's copies of the lines go first, and the hint then places them (R155, R158). The page must allow both a read and a write, and on a ONCE page the read waits and the write then faults with 0x30 (DESIGN CHOICE, log 35). -/
def State.addElem (s : State) (p : Nat) (r : PRun) (a : Int) (w : Word) (direct : Bool) : Got Flags :=
  (s.portPieces p r .store a r.size direct).bind fun ps s =>
  let s := s.flushWhere fun l => ps.any fun q => l.addr == q.2.2.pa / 64 * 64 || l.addr == (q.2.2.pa + q.2.1 - 1) / 64 * 64
  (s.portGet p { r with hint := 3 } a r.size direct).bind fun bs s =>
    let (x, f1) := vadd 0 (unpack s.fenv r.f (ofBytes bs)) (unpack s.fenv r.valFmt w.toNat)
    let (b, f2) := toFloat s.fenv r.f 0 x
    (s.portPut p r a (toBytes r.size b) direct).bind fun _ s => .ok (f1 ||| f2) s

/-- Write element i with a payload (R149, R153, R158). -/
def State.writeElem (s : State) (p : Nat) (r : PRun) (i : Nat) (w : Word) (direct : Bool) : Got Flags :=
  if r.blocks then s.writeBlock p r w direct
  else
    let t := r.outOffset i w
    let v : Word := if r.kind == .scatter || r.kind == .scadd then BitVec.ofNat 64 (pairVal r.k w) else w
    if r.kind == .scadd then s.addElem p r (r.addr t) v direct
    else
      let (x, fl) := r.storeStep s.fenv v
      let (x, s) := if r.f = 10 && !r.packed then s.freeWord else (x, s)
      let done := if r.f = 14 then s.portNibble p r (r.addr t) (t % 2 != 0) x.toNat direct
        else s.portPut p r (r.addr t) (toBytes r.size x.toNat) direct
      done.bind fun _ s => .ok fl s

/-! ## Element faults (R380, R381) -/

/-- Whether a fault of an element is resumable. -/
def resumable (code : BitVec 8) : Bool := code == 0x20 || code == 0x21

/-- Nodes that tokens of node i go to. -/
def Field.successors (f : Field) (i : Nat) : List Nat :=
  f.links.filterMap fun l =>
    if epKind l.prod = 0 && f.nodeAt l.prod == some i && epKind l.cons == 0 then f.nodeAt l.cons else none

/-- Nodes that can be reached from a list of nodes. -/
def Field.reach (f : Field) : Nat → List Nat → List Nat
  | 0, ns => ns
  | k + 1, ns => Field.reach f k ((ns.flatMap f.successors).foldl (fun a x => insNat x a) ns)

/-- CONT of an in port (R381). -/
def Field.cont (f : Field) (p : Nat) : Bool :=
  match f.portLink p with
  | none => true
  | some l =>
    if epKind l.cons != 0 then true
    else (f.reach f.nodes.length ((f.nodeAt l.cons).toList)).all fun i => match f.nodes[i]? with | some n => n.comm | none => true

/-- Whether a faulting element may be spilled: room in the queue, and CONT (R381). -/
def State.maySpill (s : State) (p : Nat) : Bool :=
  decide ((s.port p).spill.length < 16) && (decide (32 ≤ p) || s.core.field.cont p)

/-- The record of an element fault, and the state that the port enters (R380, R381). -/
def State.portRecord (s : State) (p : Nat) (r : PRun) (i : Nat) (code : BitVec 8) (addr : Int) (spilled : Bool) : State :=
  let s := s.report { s.engineRec code p r.tag.num with
    addr := wordOf addr, detail := BitVec.ofNat 64 i, r := resumable code, s := spilled }
  s.modPort p fun x =>
    if spilled then { x with code := code, held := [] }
    else { x with code := code, held := [], resum := resumable code, st := .stalled, replay := false }

/-- The command of a port context completes: flags to cr.FPS, number, notice (R146, R153). -/
def State.portFinish (s : State) (p : Nat) : State :=
  match (s.port p).run with
  | none => s
  | some r =>
    let s := s.orFps (s.port p).flags
    (s.modPort p fun x => { x with run := none, flags := 0, spill := [], blk := [], st := .idle, replay := false }).finish p r.tag

/-- Add flags and an element done; the extents that came for it go (R142). -/
def State.portDone (s : State) (p : Nat) (fl : Flags) : State := s.modPort p fun x => { x with flags := x.flags ||| fl, done := x.done + 1, held := [] }

/-- Bring a stalled port to state 2 without a record: it holds back (R381). -/
def State.portHold (s : State) (p : Nat) : State := s.modPort p fun x => { x with st := .stalled, resum := true }

/-! ## In ports -/

/-- The tokens behind element idx: its STOP, and after the last element the EOS (R151). A packed FW8 stream in a stop mode without STOPs sends no level-1 STOP either: R151 is taken to rule over R41 there (DESIGN CHOICE, log 35). -/
def PRun.behind (r : PRun) : List Token :=
  let last := decide (totalOf r.cnt ≤ r.idx + 1)
  (if r.stops then (match r.stopAt r.idx with | some l => [⟨1, stopPayload l 0⟩] | none => []) else []) ++
  (if last && r.eos then [eosToken] else [])

/-- Element idx is dealt with: its tokens stand to be sent. -/
def PRun.advance (r : PRun) (data : List Token) : PRun :=
  { r with out := data ++ r.behind, idx := r.idx + 1, closed := decide (totalOf r.cnt ≤ r.idx + 1) }

/-- Element idx, at offset t, faults: spilled, with next applied to the run, or the port stops before it (R381). -/
def State.inFault (s : State) (p : Nat) (r : PRun) (t : Int) (code : BitVec 8) (a : Int) (next : PRun → PRun) : State :=
  if resumable code && s.maySpill p then
    ((s.portRecord p r r.idx code a true).modPort p fun x => { x with spill := x.spill ++ [(r.idx, BitVec.ofInt 64 t)] }).modRun p next
  else s.portRecord p r r.idx code a false

/-- Read element idx at offset t, and form its tokens. -/
def State.readNext (s : State) (p : Nat) (r : PRun) (t : Int) (direct again : Bool) (next : List Token → PRun → PRun) : State :=
  match s.readElem p r t direct again with
  | .wait s => s
  | .ok (w, fl) s => (s.portDone p fl).modRun p (next [⟨0, w⟩])
  | .fault c a s => s.inFault p r t c a (next [])

/-- Where block idx of a packed FW8 command starts: where the block before it ended, or else as the directory says (R41, R157). -/
def State.packedStart (s : State) (p : Nat) (r : PRun) (direct : Bool) : Got Int :=
  match r.place with
  | some o => .ok (r.base + o) s
  | none => s.fw8Start p r (r.par.blk.toNat + r.idx : Nat) direct

/-- Bytes of a packed stream join those in hand: the whole tokens that they make, and the bytes left over; the last token is padded with zeros (R41). -/
def PRun.packBytes (r : PRun) (bs : List Byte) (pad : Bool) : List Token × List Word :=
  let all := r.buf ++ bs.map fun x => x.setWidth 64
  let n := if pad then cdiv all.length 8 else all.length / 8
  ((List.range n).map fun i => ⟨0, BitVec.ofNat 64 (ofBytes (((all.drop (8 * i)).take 8).map fun x => x.setWidth 8))⟩, all.drop (8 * n))

/-- LOADS of packed FW8: the next block (R41, R157). One that faults is spilled as an element is; where the block behind it starts is known once its header has been read, and else through the directory (R381). -/
def State.packedNext (s : State) (p : Nat) (r : PRun) (direct : Bool) : State :=
  match (s.packedStart p r direct).bind fun a s => (s.fw8LenAt p r a direct).bind fun n s => .ok (a, n) s with
  | .wait s => s
  | .fault c v s => s.inFault p r r.idx c v fun r => { r.advance [] with place := none }
  | .ok (a, n) s =>
    let behind : Option Int := some (a + (n : Nat) - r.base)
    match s.portGet p r a n direct with
    | .wait s => s
    | .fault c v s => s.inFault p r r.idx c v fun r => { r.advance [] with place := behind }
    | .ok bs s =>
      let last := decide (totalOf r.cnt ≤ r.idx + 1) && (s.port p).spill.isEmpty
      (s.portDone p 0).modRun p fun r => let (ts, rest) := r.packBytes bs last; { r.advance ts with buf := rest, place := behind }

/-- The tokens of PUSH and PUSHI (R159). -/
def PRun.pushWord (r : PRun) : Word :=
  match r.acc with
  | some v => v
  | none =>
    let x : BitVec 32 := BitVec.ofInt 32 (r.base + r.idx * r.str.headD 0)
    if (intFmt r.k).2 then x.signExtend 64 else x.setWidth 64

/-! ### GATHER (R158) -/

/-- The offset of element j of row c of GATHER: row c starts at c times S, which the run holds as dimension 1's stride. -/
def PRun.rowOffset (r : PRun) (c j : Nat) : Int := c * r.str.getD 1 0 + j

/-- Element idx of a GATHER row has its tokens; the row ends with a level-0 STOP, and the last one of a count with the closing token too. -/
def PRun.advanceRow (r : PRun) (data : List Token) : PRun :=
  let n := r.cnt.headD 1
  let last := decide (r.idx % n + 1 = n)
  let past := r.limit != 0 && decide (r.limit * n ≤ r.idx + 1)
  { r with out := data ++ (if last && r.stops then [⟨1, stopPayload 0 0⟩] else []) ++ (if past && r.eos then [eosToken] else []), idx := r.idx + 1,
           row := if last then none else r.row, closed := past }

/-- Element idx of a transposed tile of gathered rows: column by column, each with its STOP (log 20). -/
def PRun.advanceTile (r : PRun) (data : List Token) : PRun :=
  let m := r.due.getD 1
  let last := decide (r.idx % m + 1 = m)
  let past := decide (m * r.cnt.headD 1 ≤ r.idx + 1)
  { r with out := data ++ (if last && r.stops then [⟨1, stopPayload 0 0⟩] else []) ++ (if past && r.eos then [eosToken] else []),
           idx := r.idx + 1, closed := past }

/-- No coordinate is left: the closing token, or the first column of a tile. -/
def PRun.endIndex (r : PRun) : PRun :=
  if r.transp && !r.buf.isEmpty then { r with due := some r.buf.length }
  else { r with out := if r.eos then [eosToken] else [], closed := true }

/-- GATHER takes the next coordinate of its index link, or passes a STOP on. -/
def State.nextRow (s : State) (p : Nat) (r : PRun) : State :=
  let e := headEndpoint p
  let rows := if r.transp then r.buf.length else r.idx / r.cnt.headD 1
  if r.limit != 0 && decide (r.limit ≤ rows) then s.modRun p PRun.endIndex
  else match s.portHead e with
    | none => s
    | some t =>
      let c := bits t.payload.toNat 31 0
      match t.kind.toNat with
      | 0 => (s.portTake e).modRun p fun r =>
          if r.transp then { r with buf := r.buf ++ [BitVec.ofNat 64 c] } else { r with row := some c }
      | 1 => (s.portTake e).modRun p fun r => if r.transp then r else { r with out := [t] }
      | 2 => s.portCfg e p r.tag.num (BitVec.ofNat 64 r.idx)
      | _ =>
        if t = eosToken then (s.portTake e).modRun p PRun.endIndex
        else if t = drainToken then s.portTake e
        else s.portRecord p r r.idx 0x62 0 false

/-- Bytes of n elements. -/
def elemBytes (f n : Nat) : Nat := if f = 14 then cdiv n 2 else n * fmtBytes f

/-- Elements of the tile that a transpose collects: a whole LOADS, or the rows that GATHER has coordinates of. -/
def PRun.tileElems (r : PRun) : Nat := if r.kind == .gather then r.due.getD 1 * r.cnt.headD 1 else totalOf r.cnt

/-- The PAD space for a transpose's tile, in units of 64 bytes, held from its first element until the command has completed; while there is none, the port waits (R153, R322). -/
def State.holdTile (s : State) (p : Nat) (r : PRun) (go : State → PRun → State) : State :=
  if !r.transp || r.tile.isSome then go s r
  else
    let n := cdiv (elemBytes r.f r.tileElems) 64 * 64
    match s.core.padAlloc n with
    | none => s
    | some o => go (s.modRun p fun r => { r with tile := some (o, n) }) { r with tile := some (o, n) }

/-- GATHER's next element, or its next coordinate. -/
def State.gatherNext (s : State) (p : Nat) (r : PRun) (direct again : Bool) : State :=
  match r.due, r.row with
  | some m, _ => s.holdTile p r fun s r =>
    let c := (r.buf.getD (r.idx % m) 0).toNat
    s.readNext p r (r.rowOffset c (r.idx / m)) direct again fun ts r => r.advanceTile ts
  | none, some c => s.readNext p r (r.rowOffset c (r.idx % r.cnt.headD 1)) direct again fun ts r => r.advanceRow ts
  | none, none => s.nextRow p r

/-- The next tokens of an in port's command. A transpose first waits for free PAD space for its tile (R153). -/
def State.inNext (s : State) (p : Nat) (r : PRun) (direct again : Bool) : State :=
  match r.kind with
  | .push => s.modRun p fun r =>
      { r with out := [⟨0, r.pushWord⟩], idx := r.idx + 1, closed := decide (totalOf r.cnt ≤ r.idx + 1) }
  | .gather => s.gatherNext p r direct again
  | _ =>
    if r.packed then s.packedNext p r direct
    else s.holdTile p r fun s r => s.readNext p r (offsetOf r.cnt r.str r.idx) direct again fun ts r => r.advance ts

/-- Send a token of the oldest command that only sends any more; with its last one it completes (R144, R146). -/
def State.prevSend (s : State) (p : Nat) : State :=
  match (s.port p).prev with
  | [] => s
  | (r, fl) :: rest =>
    let ends (s : State) : State := ((s.orFps fl).modPort p fun x => { x with prev := rest }).finish p r.tag
    match r.out with
    | [] => ends s
    | t :: ts =>
      if s.core.field.freeFrom (headEndpoint p) = 0 then s
      else
        let s := s.portSend (headEndpoint p) t
        if ts.isEmpty then ends s else s.modPort p fun x => { x with prev := ({ r with out := ts }, fl) :: rest }

/-- Send the first token that stands to be sent. Behind a spilled element only DATA goes; the port then holds back (R381). -/
def State.inSend (s : State) (p : Nat) : State :=
  let x := s.port p
  match x.run with
  | none => s
  | some r =>
    if x.st != .running then s
    else match r.out with
      | [] => if r.closed then (if x.spill.isEmpty then s.portFinish p else s.portHold p) else s
      | t :: rest =>
        if !x.spill.isEmpty && t.kind != 0 then s.portHold p
        else if s.core.field.freeFrom (headEndpoint p) = 0 then s
        else
          let s := (s.portSend (headEndpoint p) t).modRun p fun r => { r with out := rest }
          if rest.isEmpty && r.closed && x.spill.isEmpty then s.portFinish p else s

/-- Replay the oldest spilled block of a packed FW8 command: its bytes join the stream ahead of what the port holds back; the last of them pads the stream when no block is to come (R382). -/
def State.packedReplay (s : State) (p : Nat) (r : PRun) (e : Nat × Word) (direct : Bool) : State :=
  match (s.fw8Start p r (r.par.blk.toNat + e.1 : Nat) direct).bind fun a s => s.fw8BlockAt p r a direct with
  | .wait s => s
  | .fault c a s => s.portRecord p r e.1 c a false
  | .ok bs s =>
    let more := decide (1 < (s.port p).spill.length)
    let s := (s.portDone p 0).modRun p fun r =>
      let (ts, rest) := r.packBytes bs (r.closed && !more); { r with out := ts ++ r.out, buf := rest }
    s.modPort p fun x => { x with spill := x.spill.tail, replay := more }

/-- Replay the oldest spilled element of an in port: its token goes ahead of what the port holds back (R382). -/
def State.inReplay (s : State) (p : Nat) (r : PRun) (e : Nat × Word) (direct again : Bool) : State :=
  if r.packed then s.packedReplay p r e direct
  else if s.core.field.freeFrom (headEndpoint p) = 0 then s
  else match s.readElem p r e.2.toInt direct again with
    | .wait s => s
    | .fault c a s => s.portRecord p r e.1 c a false
    | .ok (w, fl) s =>
      let s := (s.portSend (headEndpoint p) ⟨0, w⟩).portDone p fl
      s.modPort p fun x => { x with spill := x.spill.tail, replay := decide (1 < x.spill.length) }

/-- One step of an in port: it forms tokens when none stands to be sent, and sends the first of those that do. The tokens of the commands before go first (R144), and of a replay those of the elements replayed before. -/
def State.inStep (s : State) (p : Nat) (direct again : Bool) : State :=
  let x := s.port p
  match x.run with
  | none => s
  | some r =>
    if x.st == .extent then s.prevSend p
    else if x.st != .running then s
    else match x.spill, x.replay with
      | e :: _, true =>
        if !x.prev.isEmpty then s.prevSend p
        else if r.out.any fun t => t.kind == 0 then s.inSend p
        else s.inReplay p r e direct again
      | _, _ =>
        let s := if r.out.isEmpty && !r.closed then s.inNext p r direct again else s
        if x.prev.isEmpty then s.inSend p else s.prevSend p

/-! ## Out ports -/

/-- Nothing more is taken: the command completes once no element is spilled (R146). -/
def State.outEnd (s : State) (p : Nat) : State :=
  let s := s.modRun p fun r => { r with closed := true }
  if (s.port p).spill.isEmpty then s.portFinish p else s.portHold p

/-- Whether tokens up to an EOS make the command, whatever their number (R158). -/
def PRun.untilEos (r : PRun) : Bool := (r.kind == .scatter || r.kind == .scadd) && r.limit == 0

/-- The words that an element's bytes touch: its locations (R338). -/
def PRun.locs (r : PRun) (i : Nat) (w : Word) : Int × Int :=
  let a := r.addr (r.outOffset i w)
  (a / 8, (a + r.size - 1) / 8)

/-- The words that the bytes of a block touch. -/
def PRun.blockLocs (r : PRun) (a : Int) (bytes : List Byte) : Int × Int :=
  (a / 8, (a + (if r.compress then 4128 else bytes.length) - 1) / 8)

/-- The words that a spilled element touches: its own, or those of the block that it stands for. -/
def Port.spilledLocs (x : Port) (r : PRun) (e : Nat × Word) : Int × Int :=
  match x.blk.find? (·.1 == e.1) with
  | some b => r.blockLocs b.2.1 b.2.2
  | none => r.locs e.1 e.2

/-- The words that element idx writes when it is dealt with: none while it only joins a block. -/
def State.writtenLocs (s : State) (r : PRun) (w : Word) : Option (Int × Int) :=
  if !r.blocks then some (r.locs r.idx w)
  else match s.blockStep r w with
    | .full b _ => some (r.blockLocs b.addr b.bytes)
    | _ => none

/-- Whether an element touches a spilled element's location (R381). -/
def State.touches (s : State) (p : Nat) (r : PRun) (w : Word) : Bool :=
  (s.port p).spill.any fun e => match s.writtenLocs r w with
    | some (lo, hi) => let (a, b) := (s.port p).spilledLocs r e; decide (a ≤ hi) && decide (lo ≤ b)
    | none => false

/-- Element idx of an out port goes to the spill queue; one that completes a block stands for it, with the block's address and bytes (R381). -/
def State.spillOut (s : State) (p : Nat) (r : PRun) (w : Word) : State :=
  let s := s.modPort p fun x => { x with spill := x.spill ++ [(r.idx, w)] }
  if !r.blocks then s
  else match s.blockStep r w with
    | .full b s => (s.modPort p fun x => { x with blk := x.blk ++ [(r.idx, b.addr, b.bytes)], flags := x.flags ||| b.flags }).modRun p (·.nextBlock b)
    | _ => s

/-- The token at the head has been dealt with as element idx. -/
def State.outAdvance (s : State) (p : Nat) : State :=
  let s := (s.portTake (headEndpoint p)).modRun p fun r =>
    { r with idx := r.idx + 1, acc := none, due := if r.stops && !r.untilEos && !r.reduce then r.stopAt r.idx else none }
  match (s.port p).run with
  | none => s
  | some r => if r.full && !r.eos && r.due.isNone then s.outEnd p else s

/-- Write element idx from the token at the head, whose value is w (R149, R381). -/
def State.outElem (s : State) (p : Nat) (r : PRun) (w : Word) (direct : Bool) : State :=
  if s.touches p r w then s.portHold p
  else match s.writeElem p r r.idx w direct with
    | .wait s => s
    | .ok fl s => (s.portDone p fl).outAdvance p
    | .fault c a s =>
      if resumable c && s.maySpill p then
        ((s.portRecord p r r.idx c a true).spillOut p r w).outAdvance p
      else s.portRecord p r r.idx c a false

/-- A STOP at an out port that expects STOPs (R151). -/
def State.outStop (s : State) (p : Nat) (r : PRun) (l : Nat) (direct : Bool) : State :=
  if r.reduce then
    if r.full || l ≠ r.fibreStop r.idx then s.portRecord p r r.idx 0x61 0 false
    else match r.acc with
      | some a => s.outElem p r a direct
      | none => let (w, s) := s.freeWord; s.outElem p r w direct
  else if r.due = some l then
    let s := (s.portTake (headEndpoint p)).modRun p fun r => { r with due := none }
    if r.full && !r.eos then s.outEnd p else s
  else s.portRecord p r r.idx 0x61 0 false

/-- An EOS at an out port (R151). -/
def State.outEos (s : State) (p : Nat) (r : PRun) : State :=
  let s := s.portTake (headEndpoint p)
  if r.par.stop = 3 && !r.untilEos then s
  else (s.modPort p fun x => { x with short := !r.full && !r.untilEos }).outEnd p

/-- An out port takes the token at the head of its link (R151). -/
def State.outToken (s : State) (p : Nat) (r : PRun) (t : Token) (direct : Bool) : State :=
  let e := headEndpoint p
  match t.kind.toNat with
  | 0 =>
    if r.full || r.due.isSome then s.portRecord p r r.idx 0x61 0 false
    else if r.reduce then
      let (a, fl) := r.accStep s.fenv r.acc t.payload
      ((s.portTake e).modPort p fun x => { x with flags := x.flags ||| fl }).modRun p fun r => { r with acc := some a }
    else s.outElem p r t.payload direct
  | 1 => if r.stops && !r.untilEos then s.outStop p r (stopLevel t.payload) direct else s.portTake e
  | 2 => s.portCfg e p r.tag.num (BitVec.ofNat 64 r.idx)
  | _ =>
    if t = eosToken then s.outEos p r
    else if t = drainToken then s.portTake e
    else s.portRecord p r r.idx 0x62 0 false

/-- An aborted command's tokens go, up to and including the next EOS (R386). -/
def State.outDiscard (s : State) (p : Nat) : State :=
  let e := headEndpoint p
  match s.portHead e with
  | none => s
  | some t =>
    let s := s.portTake e
    if t = eosToken then (s.modPort p fun x => { x with discard := false }).portFinish p else s

/-- Write a spilled element of an out port, or the block that it stands for. -/
def State.writeSpilled (s : State) (p : Nat) (r : PRun) (e : Nat × Word) (direct : Bool) : Got Flags :=
  match (s.port p).blk.find? (·.1 == e.1) with
  | some b => (s.putBlock p r b.2.1 b.2.2 direct).bind fun _ s => .ok 0 (s.modPort p fun x => { x with blk := x.blk.filter (·.1 != e.1) })
  | none => s.writeElem p r e.1 e.2 direct

/-- Replay the oldest spilled element of an out port (R382). -/
def State.outReplay (s : State) (p : Nat) (r : PRun) (e : Nat × Word) (direct : Bool) : State :=
  match s.writeSpilled p r e direct with
  | .wait s => s
  | .fault c a s => s.portRecord p r e.1 c a false
  | .ok fl s =>
    let s := (s.portDone p fl).modPort p fun x => { x with spill := x.spill.tail, replay := decide (1 < x.spill.length) }
    if (s.port p).spill.isEmpty && r.closed then s.portFinish p else s

/-- ACCRD writes the sums from element idx on, only the first of them translated directly; a resumable fault spills its element (R160, R381). -/
def State.accrdGo (s : State) (p : Nat) (direct : Bool) : Nat → State
  | 0 => s
  | n + 1 =>
    let x := s.port p
    match x.run with
    | none => s
    | some r =>
      if x.st != .running then s
      else match r.buf[r.idx]? with
        | none => s.outEnd p
        | some w =>
          let next (s : State) : State := s.modRun p fun r => { r with idx := r.idx + 1 }
          if s.touches p r w then s.portHold p
          else match s.writeElem p r r.idx w direct with
            | .wait s => s
            | .ok fl s => State.accrdGo (next (s.portDone p fl)) p false n
            | .fault c a s =>
              if resumable c && s.maySpill p then
                State.accrdGo (next ((s.portRecord p r r.idx c a true).spillOut p r w)) p false n
              else s.portRecord p r r.idx c a false

/-- One step of an out port. -/
def State.outStep (s : State) (p : Nat) (direct : Bool) : State :=
  let x := s.port p
  match x.run with
  | none => s
  | some r =>
    if x.st != .running then s
    else if x.discard then s.outDiscard p
    else match x.spill, x.replay with
      | e :: _, true => s.outReplay p r e direct
      | _, _ =>
        if r.kind == .accrd then s.accrdGo p direct (r.buf.length + 1)
        else match s.portHead (headEndpoint p) with
          | none => s
          | some t => s.outToken p r t direct

/-- One step of a port context. -/
def State.portStep (s : State) (p : Nat) (direct again : Bool) : State :=
  if p < 32 then s.inStep p direct again else s.outStep p direct

/-- Port context out p takes a token and writes its element (R151). -/
def execHeadlandTokenTake (p : BitVec 5) (s : State) : PortOut := .next (s.outStep (32 + p.toNat) false)

/-- The loader's reply: the extent, which serves the element under way and becomes the context's entry; or the fault of the address, which the element then meets (R142, R377). -/
def execExtentReply (p : BitVec 6) (s : State) : PortOut :=
  .next (
    let x := s.port p.toNat
    if x.st != .extent then s
    else match s.extentOf x.want with
      | (.ok e, s) => s.modPort p.toNat fun x => { x with ext := some e, held := e :: x.held, st := .running }
      | (.error _, _) => (s.modPort p.toNat fun x => { x with st := .running }).portStep p.toNat true false)

/-- Port context in p reads a compressed slot again (R365). -/
def execExpandReread (p : BitVec 5) (s : State) : PortOut :=
  .next (match (s.port p.toNat).run with
    | some r => if r.tries = 0 then s else s.inStep p.toNat false true
    | none => s)

/-! ## Service (R161, R385, R386) -/

/-- An expanding command reads its compressed block again. -/
def PRun.forget (r : PRun) : PRun := if r.expand then { r with slot := [], place := none } else r

/-- Service of a port context that has stopped on a fault; on any other it has no effect. Continuing acquires what the releasing agent wrote before (R399). -/
def State.servicePort (s : State) (p : Nat) (abort : Bool) : State :=
  let x := s.port p
  let go (x : Port) : Port := if x.st == .frozen then { x with before := .running } else { x with st := .running }
  match x.run with
  | none => s
  | some _ =>
    if !(x.st == .stalled || (x.st == .frozen && x.before == .stalled)) then s
    else if !abort then (s.discardClean.modPort p fun x => { go x with replay := !x.spill.isEmpty }).modRun p PRun.forget
    else
      let s := (s.withdraw (ctxAgent p)).modPort p fun x => { go x with spill := [], blk := [], replay := false, short := true }
      if p < 32 then s.modRun p fun r => { r with out := [eosToken], closed := true }
      else s.modPort p fun x => { x with discard := true }

/-! ## Starting data commands -/

/-- The counts and strides of a data command on a port: dimension 0, then what DIMS wrote. -/
def Port.shape (x : Port) (n0 : Nat) (s0 : Int) : List Nat × List Int := (n0 :: x.dims.map (·.1), s0 :: x.dims.map (·.2))

/-- The checks of the chain field: both halves, the other half, F and K (R152, R153). -/
def chainCodes (load : Bool) (chain : BitVec 6) (f k : Nat) (needF : Bool) : List (Option (BitVec 8)) :=
  let hi := chain.extractLsb' 3 3 != 0
  let lo := chain.extractLsb' 0 3 != 0
  let deq := chain.getLsbD 4
  let qnt := chain.getLsbD 1
  let fs := if load then [14, 1, 2, 3, 8, 9, 10, 11, 12] else [14, 1, 2, 3, 8, 9, 10]
  [failIf (hi && lo) 0x51, failIf (if load then lo else hi) 0x50,
   failIf (if (if load then deq else qnt) then !(fs.contains f && [11, 12, 13].contains k) else needF && f != k) 0x50]

/-- Limits of expand and compress (R153). -/
def slotsOk (f : Nat) (base : Int) (cnt : List Nat) (s0 : Int) : Bool :=
  s0 == 1 && cnt.tail.all (· == 1) && (if f = 14 then cnt.headD 1 % 8192 == 0 else cnt.headD 1 * fmtBytes f % 4096 == 0) &&
  base % 32 == 0

/-- Limits of a transpose (R153): the tile's sides, and that it fits the PAD room. -/
def State.tileOk (s : State) (f n0 n1 : Nat) (rest : List Nat) : Bool :=
  let c := s.core.cellar
  decide (n0 ≤ 256) && decide (n1 ≤ 256) && rest.all (· == 1) && decide (elemBytes f (n0 * n1) ≤ (c.w3 - c.w2) * bankBytes)

/-- A command's run takes the context; a LOADS or GATHER that only sends tokens any more goes on before it (R144). -/
def Port.begin (x : Port) (run : PRun) : Port :=
  { x with run := some run, prev := x.prev ++ (x.run.map fun r => (r, x.flags)).toList, held := [], spill := [], blk := [], flags := 0,
           st := .running, resum := false, short := false, done := 0, replay := false }

/-- The context's translation entry as the loader fills it for a stream's base: when the command starts (R26, R142; DESIGN CHOICE, log 36). Empty where no page is mapped. -/
def State.patchExtent (s : State) (p : Nat) (base : Int) : State :=
  let (x, s) := s.extentOf base
  s.modPort p fun y => { y with ext := x.toOption }

/-- Start a data command: DIMS's parameters are captured and cleared, the scale register with them (R156), and the loader fills the extent of a stream's base. -/
def State.startPort (s : State) (h : CmdHdr) (op : BitVec 8) (kind : PKind) (base : Int) (f : Nat) (chain : BitVec 6) (hint : BitVec 2)
    (cnt : List Nat) (str : List Int) (limit : Nat) : State :=
  let p := s.ctx
  let par := (s.port p).par
  let run : PRun :=
    { tag := s.tag h op, kind := kind, base := base, f := f, k := s.core.field.portFmt p, chain := chain, hint := hint, cnt := cnt, str := str,
      par := par, scale := s.core.mat.sc[par.scale.toNat], limit := limit, idx := 0, pos := 0, out := [], buf := [], slot := [], acc := none, row := none,
      place := none, tries := 0, due := none, closed := false, tile := none }
  let s := if kind == .loads || kind == .stores then s.patchExtent p base else s
  s.modPort p fun x => { x.begin run with dims := Port.noDims, dset := [], par := .reset }

/-- Whether a context has the kind a command needs and its node is bound (R143). -/
def State.kindOk (s : State) (inn : Bool) : Bool := (decide (s.ctx < 32) == inn) && decide (s.ctx < 64) && s.core.field.portBound s.ctx

/-- LOADS (R157). -/
def execLoads (h : CmdHdr) (o : StreamOps) (s : State) : PortOut :=
  .next (
    let f := o.f.toNat
    let base := base57 o.base
    let (cnt, str) := (s.port s.ctx).shape (o.n0.toNat + 1) o.stride.toInt
    let n1 := cnt.getD 1 1
    s.checked h 0x01
      ([failIf (!s.kindOk true) 0x53, failIf (f == 0 || decide (14 < f)) 0x50] ++
       chainCodes true o.chain f (s.core.field.portFmt s.ctx) true ++
       [failIf (decide (2 ^ 40 < totalOf cnt)) 0x54,
        failIf (f == 10 && o.chain == 0 && !(o.stride == 1 && cnt.tail.all (· == 1))) 0x54,
        failIf (o.chain.getLsbD 5 && !slotsOk f base cnt o.stride.toInt) 0x54,
        failIf (o.chain.getLsbD 3 && !s.tileOk f (cnt.headD 1) n1 (cnt.drop 2)) 0x54])
      fun s =>
        if o.chain.getLsbD 3 then
          s.startPort h 0x01 .loads base f o.chain o.hint (n1 :: cnt.headD 1 :: cnt.drop 2) (str.getD 1 0 :: str.headD 0 :: str.drop 2) (totalOf cnt)
        else s.startPort h 0x01 .loads base f o.chain o.hint cnt str (totalOf cnt))

/-- STORES (R157). -/
def execStores (h : CmdHdr) (o : StreamOps) (s : State) : PortOut :=
  .next (
    let f := o.f.toNat
    let base := base57 o.base
    let x := s.port s.ctx
    let (cnt, str) := x.shape (o.n0.toNat + 1) o.stride.toInt
    s.checked h 0x02
      ([failIf (!s.kindOk false) 0x53, failIf (f == 0 || decide (14 < f)) 0x50] ++
       chainCodes false o.chain f (s.core.field.portFmt s.ctx) true ++
       [failIf (decide (2 ^ 40 < totalOf cnt)) 0x54,
        failIf (f == 10 && o.chain == 0 && !(o.stride == 1 && cnt.tail.all (· == 1))) 0x54,
        failIf (o.chain.getLsbD 2 && decide (2 ≤ x.par.stop.toNat)) 0x54,
        failIf (o.chain.getLsbD 1 && f == 10 && totalOf cnt % 32 != 0) 0x54,
        failIf (o.chain.getLsbD 0 && !slotsOk f base cnt o.stride.toInt) 0x54])
      fun s => s.startPort h 0x02 .stores base f o.chain o.hint cnt str (totalOf cnt))

/-- GATHER (R158): S is the stride of dimension 1 when DIMS has set it, else the row length. A transposed tile takes as many rows as count says, at most 256 (log 20). -/
def execGather (h : CmdHdr) (o : IndexOps) (s : State) : PortOut :=
  .next (
    let f := o.f.toNat
    let base := base57 o.base
    let (cnt, dims) := (s.port s.ctx).shape (o.len.toNat + 1) 1
    let str := if (s.port s.ctx).dset.contains 1 then dims else dims.set 1 (o.len.toNat + 1)
    s.checked h 0x04
      ([failIf (!s.kindOk true || (s.core.field.linkTo (headEndpoint s.ctx)).isNone) 0x53, failIf (f == 0 || decide (13 < f)) 0x50] ++
       chainCodes true o.chain f (s.core.field.portFmt s.ctx) true ++
       [failIf (decide (2 ^ 40 < totalOf cnt)) 0x54,
        failIf (o.chain.getLsbD 5 && (!slotsOk f base cnt 1 || (s.port s.ctx).dset.contains 1)) 0x54,
        failIf (o.chain.getLsbD 3 && (o.count == 0 || !s.tileOk f (cnt.headD 1) o.count.toNat (cnt.drop 2))) 0x54])
      fun s => s.startPort h 0x04 .gather base f o.chain o.hint cnt str o.count.toNat)

/-- SCATTER (R158): the link carries pairs, and without quantise F is the format of their values. A link of another format gives 0x50, for SCADD too (DESIGN CHOICE, log 35). -/
def execScatter (h : CmdHdr) (o : IndexOps) (s : State) : PortOut :=
  .next (
    let f := o.f.toNat
    let k := s.core.field.portFmt s.ctx
    let v := if k = 16 then 11 else 13
    s.checked h 0x05
      ([failIf (!s.kindOk false) 0x53, failIf (f == 0 || decide (13 < f)) 0x50] ++
       chainCodes false o.chain f v true ++
       [failIf (o.chain.getLsbD 2 || o.chain.getLsbD 0) 0x50, failIf (k != 16 && k != 17) 0x50, failIf (o.len != 0) 0x50,
        failIf (o.chain.getLsbD 1 && f == 10 && o.count.toNat % 32 != 0) 0x54])
      fun s => s.startPort h 0x05 .scatter (base57 o.base) f o.chain o.hint [o.count.toNat] [1] o.count.toNat)

/-- SCADD (R158). -/
def execScadd (h : CmdHdr) (o : IndexOps) (s : State) : PortOut :=
  .next (
    let f := o.f.toNat
    let k := s.core.field.portFmt s.ctx
    let v := if k = 16 then 11 else 13
    s.checked h 0x06
      ([failIf (!s.kindOk false) 0x53, failIf (decide (f < 11) || decide (13 < f)) 0x50] ++
       chainCodes false o.chain f v false ++
       [failIf (o.chain.getLsbD 2 || o.chain.getLsbD 0) 0x50, failIf (k != 16 && k != 17) 0x50, failIf (o.len != 0) 0x50])
      fun s => s.startPort h 0x06 .scadd (base57 o.base) f o.chain o.hint [o.count.toNat] [1] o.count.toNat)

/-! ## DIMS, PUSH, PUSHI, MARK, ACCRST, ACCRD, RESUME -/

/-- A command whose state change takes effect at once completes (R146). -/
def State.done (s : State) (h : CmdHdr) (op : BitVec 8) : State := s.finish s.ctx (s.tag h op)

/-- Write a dimension set, d from 1 to 4. -/
def Port.setDim (x : Port) (d n : Nat) (str : Int) : Port := { x with dims := x.dims.set (d - 1) (n, str), dset := insNat d x.dset }

/-- DIMS (R156). -/
def execDims (h : CmdHdr) (d : BitVec 3) (body : BitVec 109) (s : State) : PortOut :=
  .next (
    let f (hi lo : Nat) : Nat := bits body.toNat hi lo
    s.checked h 0x03
      [failIf (!(s.kindOk true || s.kindOk false)) 0x53, failIf (decide (5 ≤ d.toNat)) 0x50, failIf (d == 0 && f 102 101 == 3) 0x50,
       failIf ((if d = 0 then f 9 0 else f 56 0) != 0) 0x50]
      fun s =>
        let s := s.modPort s.ctx fun x =>
          if d = 0 then
            { x with par := ⟨BitVec.ofNat 4 (f 108 105), BitVec.ofNat 2 (f 104 103), BitVec.ofNat 2 (f 102 101), BitVec.ofNat 2 (f 100 99),
                             BitVec.ofNat 57 (f 98 42), BitVec.ofNat 32 (f 41 10)⟩ }
          else x.setDim d.toNat (f 108 89 + 1) (signed 32 (f 88 57))
        s.done h 0x03)

/-- Start a command that places tokens: they have no shape of DIMS's and touch no memory (R159). -/
def State.startPush (s : State) (h : CmdHdr) (op : BitVec 8) (n : Nat) (base step : Int) (v : Option Word) (out : List Token) : State :=
  let p := s.ctx
  let run : PRun :=
    { tag := s.tag h op, kind := .push, base := base, f := 19, k := s.core.field.portFmt p, chain := 0, hint := 0, cnt := [n], str := [step],
      par := .reset, scale := 0, limit := n, idx := 0, pos := 0, out := out, buf := [], slot := [], acc := v, row := none, place := none, tries := 0,
      due := none, closed := n == 0, tile := none }
  s.modPort p (·.begin run)

/-- PUSH (R159). -/
def execPush (h : CmdHdr) (rsv : BitVec 32) (n : BitVec 16) (v : Word) (s : State) : PortOut :=
  .next (s.checked h 0x07 [failIf (!s.kindOk true) 0x53, failIf (rsv != 0) 0x50]
    fun s => s.startPush h 0x07 (n.toNat + 1) 0 0 (some v) [])

/-- PUSHI (R159). -/
def execPushi (h : CmdHdr) (start : BitVec 32) (inc : BitVec 16) (n : BitVec 24) (rsv : BitVec 40) (s : State) : PortOut :=
  .next (
    let k := s.core.field.portFmt s.ctx
    s.checked h 0x08 [failIf (!s.kindOk true) 0x53, failIf (rsv != 0) 0x50, failIf (!((1 ≤ k && k ≤ 7) || k == 15)) 0x50]
      fun s => s.startPush h 0x08 (n.toNat + 1) start.toNat inc.toInt none [])

/-- MARK (R159). -/
def execMark (h : CmdHdr) (rsv : BitVec 40) (kind : BitVec 8) (count : BitVec 32) (rsv2 : BitVec 29) (level : BitVec 3) (s : State) : PortOut :=
  .next (
    let t : Token := if kind = 0 then ⟨1, stopPayload level.toNat count.toNat⟩ else if kind = 1 then eosToken else drainToken
    s.checked h 0x09
      [failIf (!s.kindOk true) 0x53, failIf (rsv != 0) 0x50, failIf (decide (3 ≤ kind.toNat)) 0x50,
       failIf (kind != 0 && count != 0) 0x50, failIf (rsv2 != 0) 0x50, failIf (kind != 0 && level != 0) 0x50]
      fun s => s.startPush h 0x09 0 0 0 none [t])

/-- The accumulator node acN of the core. -/
def Field.accNode (f : Field) (n : BitVec 4) : Option Nat :=
  f.nodes.findIdx? fun x => match x.acc with | some a => a.num == n | none => false

/-- Checks of ACCRST and ACCRD up to the node's (R160, R167). -/
def State.accCodes (s : State) (n : BitVec 4) : List (Option (BitVec 8)) :=
  [failIf (!s.kindOk false) 0x53, failIf (s.core.field.accNode n).isNone 0x53]

/-- ACCRST (R160, R253): sums to +0; the row, the column and the count of STOPs to 0. -/
def execAccrst (h : CmdHdr) (base : BitVec 57) (n : BitVec 4) (rsv : BitVec 51) (s : State) : PortOut :=
  .next (s.checked h 0x0A (s.accCodes n ++ [failIf (base != 0) 0x50, failIf (rsv != 0) 0x50]) fun s =>
    let s := match s.core.field.accNode n with
      | some i => s.modField fun f => f.modNode i fun d =>
          { d with acc := d.acc.map fun (a : Acc) => { a with sums := a.sums.map (fun _ => 0), i := 0, j := 0, got := 0 } }
      | none => s
    s.done h 0x0A)

/-- ACCRD (R160): the sums as they stand, row-major FP32. It takes no stream, so that SHORT stays that of the last out stream (R168). It has no hint field: its lines are placed as NORMAL (DESIGN CHOICE, log 15). -/
def execAccrd (h : CmdHdr) (base : BitVec 57) (n : BitVec 4) (rsv : BitVec 51) (s : State) : PortOut :=
  .next (s.checked h 0x0B (s.accCodes n ++ [failIf (rsv != 0) 0x50, failIf (base.toNat % 4 != 0) 0x54]) fun s =>
    let p := s.ctx
    let sums := ((s.core.field.accNode n).bind fun i => (s.core.field.nodes[i]?).bind (·.acc)).elim [] (·.sums)
    let run : PRun :=
      { tag := s.tag h 0x0B, kind := .accrd, base := base57 base, f := 13, k := 13, chain := 0, hint := 0, cnt := [sums.length], str := [1],
        par := { Par.reset with stop := 3 }, scale := 0, limit := sums.length, idx := 0, pos := 0, out := [], buf := sums.map fun x => x.setWidth 64, slot := [],
        acc := none, row := none, place := none, tries := 0, due := none, closed := false, tile := none }
    ((s.patchExtent p (base57 base)).modPort p fun x => { x.begin run with short := x.short }).accrdGo p false (sums.length + 1))

/-- RESUME (R161). -/
def execResume (h : CmdHdr) (rsv : BitVec 104) (ctx : BitVec 8) (s : State) : PortOut :=
  .next (s.checked h 0x0C
    [failIf (!(s.kindOk true || s.kindOk false)) 0x53, failIf (rsv != 0) 0x50, failIf (decide (64 ≤ ctx.toNat)) 0x50]
    fun s => (s.servicePort ctx.toNat false).done h 0x0C)

end Sys2Proof.Machine
end

