-- ==== Sys2Proof/Machine/CopyEngine.lean ====
section
/-! DEFINITION. The copy engine, the cache hints, command pairs from the field, notices (R68, R146-R148, R162-R166, R379, R384). -/

namespace Sys2Proof.Machine

/-! ## Copy contexts -/

/-- Copy context ctx, 0x40 to 0x47. -/
def State.copyCtx (s : State) (ctx : Nat) : CopyCtx := s.core.copies.toList.getD (ctx - 0x40) .reset

/-- Change copy context ctx. -/
def State.modCopy (s : State) (ctx : Nat) (f : CopyCtx → CopyCtx) : State :=
  if h : ctx - 0x40 < 8 then s.modCore fun c => { c with copies := c.copies.set (ctx - 0x40) (f c.copies[ctx - 0x40]) } else s

/-- The command with a number, in a copy context. -/
def CopyCtx.find (x : CopyCtx) (num : Option Nat) : Option CRun := x.runs.find? (·.tag.num == num)

/-- Replace the command of a run's number. -/
def CopyCtx.put (x : CopyCtx) (r : CRun) : CopyCtx := { x with runs := x.runs.map fun y => if y.tag.num == r.tag.num then r else y }

/-- Drop the command of a number. -/
def CopyCtx.drop (x : CopyCtx) (num : Option Nat) : CopyCtx := { x with runs := x.runs.eraseP (·.tag.num == num) }

/-- Bytes of the loft (R21). -/
def loftBytes : Nat := 2 ^ 24

/-- The least and greatest row start, and the length of the range they span. -/
def rowSpan (a pitch : Int) (width rows : Nat) : Int × Nat :=
  let z := a + (rows - 1 : Nat) * pitch
  (min a z, (max a z - min a z).toNat + width)

/-- The check of a global range of rows, with the address that fails it: the last byte's for 0x24, and for 0x23 that of the end past which the sum carries (R379). -/
def rowsFault (a pitch : Int) (width rows : Nat) : Option (BitVec 8 × Int) :=
  let (lo, n) := rowSpan a pitch width rows
  (rangeFault lo n).map fun c => (c, if c = 0x24 || (c = 0x23 && !carries lo) then lo + n - 1 else lo)

/-- The 64-byte rule and the bounds of a loft destination (R162). -/
def loftOk (a pitch : Int) (width rows : Nat) : Bool :=
  let (lo, n) := rowSpan a pitch width rows
  a % 64 == 0 && width % 64 == 0 && pitch % 64 == 0 && decide (0 ≤ lo) && decide (lo + n ≤ loftBytes)

/-- The checks of a copy's operands that reject it, once its descriptor has been read (R162). -/
def CRun.codes (r : CRun) (flagsOk : Bool) (rowsOk : Bool) : List (Option (BitVec 8)) :=
  [failIf (!flagsOk) 0x50, failIf (!rowsOk || r.width == 0 || r.rows == 0) 0x54,
   failIf (r.loft && !loftOk r.dst r.dp r.width r.rows) 0x54]

/-- The range check of a copy or a fill: the source's, then a global destination's (R379). -/
def CRun.ranges (r : CRun) : Option (BitVec 8 × Int) :=
  [if r.fill.isSome then none else rowsFault r.src r.sp r.width r.rows,
   if r.loft then none else rowsFault r.dst r.dp r.width r.rows].findSome? id

/-- The operands of a descriptor, and whether its reserved fields and its counts are legal (R162). -/
def CRun.describe (r : CRun) (bs : List Byte) : CRun × Bool × Bool :=
  let w (i : Nat) : Nat := ofBytes ((bs.drop (8 * i)).take 8)
  let i64 (x : Nat) : Int := signed 64 x
  let fl := if r.two then w 5 else w 3
  let flagsOk := bits fl 63 8 == 0 && decide (bits fl 7 6 ≤ 1) && bits fl 1 0 == 0 && (!r.two || (w 6 == 0 && w 7 == 0))
  let loft := bits fl 7 6 == 1
  if r.two then
    ({ r with desc := none, src := i64 (w 0), dst := i64 (w 1), loft := loft, width := w 2 % 2 ^ 32, rows := w 2 / 2 ^ 32, sp := i64 (w 3),
              dp := i64 (w 4), hs := BitVec.ofNat 2 (bits fl 3 2), hd := BitVec.ofNat 2 (bits fl 5 4) }, flagsOk, true)
  else
    ({ r with desc := none, src := i64 (w 0), dst := i64 (w 1), loft := loft, width := w 2, rows := 1, sp := 0, dp := 0,
              hs := BitVec.ofNat 2 (bits fl 3 2), hd := BitVec.ofNat 2 (bits fl 5 4) }, flagsOk,
     decide (w 2 ≤ 2 ^ 40))

/-- The detail of a piece's record (R373). -/
def CRun.detail (r : CRun) : Nat := if r.two then r.row % 2 ^ 32 * 2 ^ 32 + r.off % 2 ^ 32 else r.off

/-- A record of a copy context for a run. -/
def State.copyRecord (s : State) (ctx : Nat) (r : CRun) (code : BitVec 8) (addr : Int) (detail : Nat) : State :=
  s.report { s.engineRec code ctx r.tag.num with addr := wordOf addr, detail := BitVec.ofNat 64 detail, r := resumable code }

/-- A command of a copy context that breaks a rule has no effect: record, and its number completes (R147). -/
def State.copyReject (s : State) (ctx : Nat) (r : CRun) (code : BitVec 8) : State :=
  ((s.report (s.engineRec code ctx r.tag.num)).modCopy ctx (·.drop r.tag.num)).finish ctx r.tag

/-- The context stops on a fault of a run, with the record's R bit (R384). -/
def State.copyStop (s : State) (ctx : Nat) (r : CRun) (code : BitVec 8) (addr : Int) (detail : Nat) : State :=
  (s.copyRecord ctx r code addr detail).modCopy ctx (·.put { r with flt := some (resumable code) })

/-- The check of the whole range, before the first piece: a range that fails it stops the context with no effect (R379, R384). On continuing the same operands are checked again (DESIGN CHOICE, log 36). -/
def State.copyRanges (s : State) (ctx : Nat) (r : CRun) : State :=
  match r.ranges with
  | some (c, a) => s.copyStop ctx r c a r.detail
  | none => s.modCopy ctx (·.put r)

/-- Read the descriptor; a fault there stops the context before any byte moves (R162). -/
def State.copyDescribe (s : State) (ctx : Nat) (r : CRun) : State :=
  match r.desc with
  | none => s
  | some d =>
    let a := signed 57 d
    match s.readVirt (ctxAgent ctx) r.tag.user a (if r.two then 64 else 32) with
    | .wait s => s
    | .fault c va s => s.copyStop ctx r c va (2 ^ 64 - 1)
    | .ok bs s =>
      let (r, flagsOk, rowsOk) := r.describe bs
      match (r.codes flagsOk rowsOk).findSome? id with
      | some c => s.copyReject ctx r c
      | none => s.copyRanges ctx r

/-- The piece at a run's position: at most 64 bytes of the row. -/
def CRun.piece (r : CRun) : Nat := min 64 (r.width - r.off)

/-- Move one piece: the source's bytes, or the fill byte. -/
def State.copyPiece (s : State) (ctx : Nat) (r : CRun) : Got Unit :=
  let n := r.piece
  let at' (a p : Int) : Int := a + r.row * p + r.off
  let got : Got (List Byte) := match r.fill with
    | some b => .ok (List.replicate n b) s
    | none => s.readVirtAt (ctxAgent ctx) r.tag.user (at' r.src r.sp) n r.hs
  got.bind fun bs s =>
    if r.loft then
      let o := (at' r.dst r.dp).toNat
      let ls := locsOf o n
      .ok () (s.modCore fun c => { c with loft :=
        { c.loft with bytes := memPut c.loft.bytes o bs, err1 := ls.foldl (fun e l => delNat l e) c.loft.err1,
                      err2 := ls.foldl (fun e l => delNat l e) c.loft.err2 } })
    else s.writeVirtAt r.tag.user (at' r.dst r.dp) bs r.hd

/-- The position after a piece. -/
def CRun.next (r : CRun) : CRun :=
  if r.off + r.piece < r.width then { r with off := r.off + r.piece } else { r with off := 0, row := r.row + 1 }

/-- Move pieces to the end of the command, which then completes; a fault stops at its piece (R146, R384). The pieces go one after another in ascending order of row and offset: where destination bytes also lie in the source, that order settles which of the values that R162 allows each of them holds (DESIGN CHOICE, log 36). -/
def State.copyGo (s : State) (ctx : Nat) (r : CRun) : Nat → State
  | 0 => s.modCopy ctx (·.put r)
  | n + 1 =>
    if r.rows ≤ r.row then (s.modCopy ctx (·.drop r.tag.num)).finish ctx r.tag
    else match s.copyPiece ctx r with
      | .wait s => s.modCopy ctx (·.put r)
      | .fault c va s => s.copyStop ctx r c va r.detail
      | .ok _ s => State.copyGo s ctx r.next n

/-- A command of a copy context runs on to its end; one that has moved nothing yet reads its descriptor, or checks its range, first. -/
def State.copyRun (s : State) (ctx : Nat) (num : Option Nat) : State :=
  let s := match (s.copyCtx ctx).find num with
    | some r =>
      if r.flt.isSome then s
      else if r.desc.isSome then s.copyDescribe ctx r
      else if r.row = 0 && r.off = 0 then s.copyRanges ctx r
      else s
    | none => s
  match (s.copyCtx ctx).find num with
  | some r => if r.flt.isSome || r.desc.isSome then s else s.copyGo ctx r (r.rows * cdiv r.width 64 + 1)
  | none => s

/-- Whether only an abort ends a stopped run: an uncorrectable error in its descriptor (R162). -/
def CRun.onlyAbort (r : CRun) : Bool := r.desc.isSome && r.flt == some false

/-- Service of a copy context (R384, R386): continue, or end the commands that faulted. -/
def State.serviceCopy (s : State) (ctx : Nat) (abort : Bool) : State :=
  if !abort then s.modCopy ctx fun x => { x with runs := x.runs.map fun (y : CRun) => if y.onlyAbort then y else { y with flt := none } }
  else if (s.copyCtx ctx).runs.all (·.flt.isNone) then s
  else
    let s := ((s.copyCtx ctx).runs.filter (·.flt.isSome)).foldl (fun s r => (s.modCopy ctx (·.drop r.tag.num)).finish ctx r.tag) s
    if (s.copyCtx ctx).runs.isEmpty then s.withdraw (ctxAgent ctx) else s

/-! ## COPY, COPY2, FILL -/

/-- A run that has just started: a FILL has no hint, and places no line (log 15). -/
def State.newCopy (s : State) (h : CmdHdr) (op : BitVec 8) : CRun :=
  { tag := s.tag h op, fill := none, desc := none, two := false, src := 0, dst := 0, loft := false, width := 0, rows := 1, sp := 0, dp := 0,
    row := 0, off := 0, hs := 3, hd := 3, flt := none }

/-- Start a command of a copy context. -/
def State.startCopy (s : State) (r : CRun) : State := s.modCopy s.ctx fun x => { x with runs := x.runs ++ [r] }

/-- COPY and COPY2 read their descriptor at the start (R162). -/
def State.copyStart (s : State) (h : CmdHdr) (op : BitVec 8) (two : Bool) (desc : BitVec 57) (rsv : BitVec 55) : State :=
  s.checked h op [failIf (rsv != 0) 0x50, failIf (desc.toNat % (if two then 64 else 32) != 0) 0x54] fun s =>
    let r := { s.newCopy h op with desc := some desc.toNat, two := two }
    (s.startCopy r).copyDescribe s.ctx r

/-- COPY (R162). -/
def execCopy (h : CmdHdr) (desc : BitVec 57) (rsv : BitVec 55) (s : State) : PortOut := .next (s.copyStart h 0x10 false desc rsv)

/-- COPY2 (R162). -/
def execCopy2 (h : CmdHdr) (desc : BitVec 57) (rsv : BitVec 55) (s : State) : PortOut := .next (s.copyStart h 0x11 true desc rsv)

/-- FILL (R163); its range is checked at the start (R379). -/
def execFill (h : CmdHdr) (dst : BitVec 57) (len : BitVec 40) (space : BitVec 2) (byte : BitVec 8) (rsv : BitVec 5) (s : State) : PortOut :=
  .next (
    let r := { s.newCopy h 0x12 with
      fill := some byte, loft := space == 1, width := len.toNat, dst := base57 dst }
    s.checked h 0x12 ([failIf (decide (2 ≤ space.toNat)) 0x50] ++ r.codes (rsv == 0) true) fun s => (s.startCopy r).copyRanges s.ctx r)

/-! ## PREFETCH, RESIDE, EVICT -/

/-- One dropped part of a hint's range (R166). -/
def Cpu.dropHint (c : Cpu) (va : Int) : Cpu :=
  { c with hintlog := if c.hintdrop = 0 then wordOf va else c.hintlog,
           hintdrop := if c.hintdrop = .allOnes 64 then c.hintdrop else c.hintdrop + 1 }

/-- The lines that n bytes from a physical address touch. -/
def linesOf (pa n : Nat) : List Nat := (rangeFrom (pa / 64) ((pa + n - 1) / 64 - pa / 64 + 1)).map (64 * ·)

/-- Fill a line under a class; a line that is present takes KEEP. A second pass fills the sectors that a line lost as it left a surrendered bank. ONCE and stashed memory is never placed in the CACHE room (R319, R355, R333). -/
def State.hintFill (s : State) (x : Phys) (cls : BitVec 2) (line : Nat) : State :=
  if x.ext.once || (s.ownerOf line).isSome then s
  else
    let s := (List.range 8).foldl (fun s k => s.fillOne cls (line + 16 * (k % 4))) s
    if cls = 2 then s.modCellar fun c => match c.line line with
      | some l => if l.cls = 2 then c else c.putLine { l with cls := c.placeCls 2 }
      | none => c
    else s

/-- Lines that one wing's LLC may pin for a launch: 16 MiB (R165). -/
def pinLines : Nat := 262144

/-- Pin a line in the LLC, or count it as dropped (R165, R166). -/
def State.pin (s : State) (va : Int) (line : Nat) : State :=
  match s.core.on.recIx with
  | none => s
  | some r =>
    let wing (a : Nat) : Nat := (s.porter.stackOf a).val / 3
    if s.pins.contains (r, line) then s
    else if pinLines ≤ s.pins.countP fun e => e.1 == r && wing e.2 == wing line then s.modCpu (·.dropHint va)
    else { s with pins := s.pins ++ [(r, line)] }

/-- Unpin the lines of a launch that a test selects. -/
def State.unpin (s : State) (f : Nat → Bool) : State :=
  match s.core.on.recIx with
  | none => s
  | some r => { s with pins := s.pins.filter fun e => !(e.1 == r && f e.2) }

/-- Act on one page of a hint's range: op 0 PREFETCH, 1 RESIDE, 2 EVICT. -/
def State.hintPage (s : State) (op level : Nat) (x : Phys) (va : Int) (n : Nat) : State :=
  let ls := linesOf x.pa n
  match op, level with
  | 0, 0 => ls.foldl (fun s l => s.hintFill x 0 l) s
  | 1, 0 => ls.foldl (fun s l => s.hintFill x 2 l) s
  | 1, _ => ls.foldl (fun s l => s.pin (va + ((max l x.pa : Nat) - (x.pa : Int))) l) s
  | 2, 0 => s.flushWhere fun l => ls.contains l.addr
  | 2, _ => s.unpin fun l => ls.contains l
  | _, _ => s

/-- Whether the engine can act on the page of an address: canonical, mapped and readable (R166). -/
def State.hintXlate (s : State) (user : Bool) (va : Int) : Option Phys :=
  if !canonical va then none else match s.xlate .load user va with | .ok x => some x | .error _ => none

/-- Whether a dropped piece of a hint's range at va is the first one of its page: a mapped page that the launch may not read is one part, whatever its size (R166, R375). -/
def State.firstOfPage (s : State) (va a : Int) : Bool :=
  if a = va || !canonical a || inWindow a then true
  else match s.walk s.core.on.ptroot a with
    | .ok x => a == max va x.va
    | .error _ => true

/-- Act on a hint's range page by page (R165, R166). -/
def State.hint (s : State) (op level : Nat) (user : Bool) (va : Int) (n : Nat) : State :=
  (pagePieces va n (n / 4096 + 2)).foldl (fun (s : State) (q : Int × Nat) =>
    let s := if canonical q.1 && !inWindow q.1 then s.countWalk q.1 else s
    match s.hintXlate user q.1 with
    | some x => s.hintPage op level x q.1 q.2
    | none => if s.firstOfPage va q.1 then s.modCpu (·.dropHint q.1) else s) s

/-- A hint: checks, effect, completion (R164, R165). -/
def State.hintCmd (s : State) (h : CmdHdr) (code : BitVec 8) (op : Nat) (o : HintOps) : State :=
  s.checked h code [failIf (decide (2 ≤ o.level.toNat)) 0x52, failIf (o.rsv != 0) 0x50, failIf (o.len == 0) 0x54] fun s =>
    (s.hint op o.level.toNat (s.tag h code).user (base57 o.addr) o.len.toNat).done h code

/-- PREFETCH (R165). -/
def execPrefetch (h : CmdHdr) (o : HintOps) (s : State) : PortOut := .next (s.hintCmd h 0x13 0 o)

/-- RESIDE (R165). -/
def execReside (h : CmdHdr) (o : HintOps) (s : State) : PortOut := .next (s.hintCmd h 0x14 1 o)

/-- EVICT (R165). -/
def execEvict (h : CmdHdr) (o : HintOps) (s : State) : PortOut := .next (s.hintCmd h 0x15 2 o)

/-- A command of an empty cell: 0x50 before every other check (R67, R167). -/
def execUnassignedStreamOpcode (h : CmdHdr) (op : BitVec 8) (_body : BitVec 112) (s : State) : PortOut := .next (s.cmdFault h op 0x50)

/-! ## Commands from the field, and notices (R68, R148) -/

/-- The header of a command's bits [119:112]. -/
def hdrOf (w : BitVec 128) : CmdHdr := ⟨w.extractLsb' 116 4, w.extractLsb' 113 3, w.getLsbD 112⟩

/-- Whether an opcode stands in an assigned cell (R67). -/
def assignedOp (w : BitVec 128) : Bool := match decodeStream w with | .unassignedStreamOpcode _ _ _ => false | _ => true

/-- The code of a pair that its port turns away, in the order of R167: an empty cell, flags, class, timeline. -/
def pairFault (o : OnCore) (loader : Bool) (w : BitVec 128) : Option (BitVec 8) :=
  let cls := (w.extractLsb' 124 4).toNat
  if !assignedOp w then some 0x50
  else if (hdrOf w).rsv != 0 then some 0x50
  else if !(if loader then cls == 0 || cls == 2 else cls == 1) then some 0x53
  else if (o.tlCtx (hdrOf w).tl).isNone then some 0x53
  else none

/-- The context in the records of a command port. -/
def portCtx (loader : Bool) : Nat := if loader then 0x4B else 0x40

/-- A pair is whole: it takes its number, and waits for its engine context or is turned away (R145, R148). -/
def State.acceptPair (s : State) (loader : Bool) (w : BitVec 128) : State :=
  let h := hdrOf w
  let (num, q) := s.core.qs.take s.core.on h.tl
  let s := s.modQs fun _ => if num.isNone then q else { q with drew := (q.drew.filter (·.1 != h.tl.toNat)) ++ [(h.tl.toNat, s.cyc)] }
  match pairFault s.core.on loader w, s.core.on.tlCtx h.tl with
  | none, some ctx => s.modQs fun q => { q with pairs := q.pairs ++ [(BitVec.ofNat 8 ctx, ⟨w, num, false, true⟩)] }
  | c, ctx =>
    let ctx := ctx.getD (portCtx loader)
    (s.report (s.engineRec (c.getD 0x53) ctx num)).finish ctx ⟨num, h.tl, h.notice, w.extractLsb' 120 8, false⟩

/-- ep5, or ep7, takes one token of its link and pairs CMD halves (R68). -/
def execCmdPairAccept (loader : Bool) (s : State) : PortOut :=
  .next (
    let port := if loader then 7 else 5
    let e := epEndpoint port
    let setHi (v : Option Word) (s : State) : State := s.modQs fun q =>
      { q with hi := (q.hi.filter (·.1 != port)) ++ (match v with | some w => [(port, w)] | none => []) }
    match s.portHead e with
    | none => s
    | some t =>
      match (s.core.qs.hi.find? (·.1 == port)).map (·.2), t.kind.toNat with
      | none, 0 => setHi (some t.payload) (s.portTake e)
      | some hi, 0 => (setHi none (s.portTake e)).acceptPair loader (hi ++ t.payload)
      | some _, _ => (setHi none (s.portTake e)).report (s.engineRec 0x50 (portCtx loader) none)
      | none, 2 => s.portCfg e (portCtx loader)
      | none, 1 => s.portTake e
      | none, _ =>
        if t = eosToken || t = drainToken then s.portTake e
        else (s.portTake e).report (s.engineRec 0x62 (portCtx loader) none))

/-- The oldest completion notice leaves on ep6, or is discarded where no ARMED region binds it (R148). -/
def execNoticeSend (s : State) : PortOut :=
  .next (match s.core.qs.notices with
    | [] => s
    | w :: rest =>
      let gone := s.modQs fun q => { q with notices := rest }
      if !(s.core.field.bound true 6) || (s.core.field.linkFrom (epEndpoint 6)).isNone then gone
      else if s.core.field.freeFrom (epEndpoint 6) = 0 then s
      else gone.portSend (epEndpoint 6) ⟨0, w⟩)

end Sys2Proof.Machine
end

