-- ==== Sys2Proof/Machine/Loader.lean ====
section
/-! DEFINITION. The configuration loader: image words, records, checks, routes, sizing, arming, in-band loads (R170-R186, R188-R190, R195, R199, R200, R409). -/

namespace Sys2Proof.Machine

/-! ## Image words (R409) -/

/-- One word of an image, read under the discipline of its page; an empty ONCE word is refused and not waited for. -/
def State.imageWord (s : State) (user : Bool) (a : Int) : Except (BitVec 8) Word × State :=
  match s.xlateNew .load user a with
  | (.error c, s) => (.error c, s)
  | (.ok x, s) =>
    if x.ext.once && !s.full.contains (x.pa / 8) then (.error 0x43, s)
    else match s.readPhys .loader x a 8 3 with
      | .ok bs s => (.ok (BitVec.ofNat 64 (ofBytes bs)), s)
      | .fault c _ s => (.error c, s)
      | .wait s => (.error 0x43, s)

/-- n words of an image; those that could not be read stand as 0 and are listed with their codes. -/
def State.imageWords (s : State) (user : Bool) (a : Int) (n : Nat) : (List Word × List (Nat × BitVec 8)) × State :=
  let (ws, bad, s) := (List.range n).foldl (fun (x : List Word × List (Nat × BitVec 8) × State) (i : Nat) =>
    let (ws, bad, s) := x
    if !canonical (a + 8 * (i : Int)) then (0 :: ws, (i, 0x20) :: bad, s)
    else match s.imageWord user (a + 8 * (i : Int)) with
      | (.ok w, s) => (w :: ws, bad, s)
      | (.error c, s) => (0 :: ws, (i, c) :: bad, s)) ([], [], s)
  ((ws.reverse, bad.reverse), s)

/-- The region header's check (R176). -/
def groupHdrOk (w : Nat) (used : List Nat) : Bool :=
  bits w 63 60 == 1 && !used.contains (bits w 59 56) && decide (bits w 55 47 ≤ 256) && bits w 30 0 == 0

/-- Walk the group headers from word i on; the fault, or how many words the groups take and the regions they are for (R175). -/
def State.walkGroups (s : State) (user : Bool) (a : Int) (len : Nat) : Nat → Nat → List Nat → Except (BitVec 8 × Int) (Nat × List Nat) × State
  | 0, i, used => (.ok (i, used), s)
  | n + 1, i, used =>
    if len ≤ i then (.error (0x43, 0), s)
    else match s.imageWord user (a + 8 * i) with
      | (.error c, s) => (.error (c, a + 8 * i), s)
      | (.ok w, s) =>
        if !groupHdrOk w.toNat used then (.error (0x43, 0), s)
        else s.walkGroups user a len n (i + 1 + bits w.toNat 46 31) (bits w.toNat 59 56 :: used)

/-- The header pass (R175): the image's length and the regions of its groups, or the fault with its address. -/
def State.headerPass (s : State) (user : Bool) (a : Int) : Except (BitVec 8 × Int) (Nat × List Nat) × State :=
  match s.imageWord user a with
  | (.error c, s) => (.error (c, a), s)
  | (.ok w, s) =>
    let h := w.toNat
    let len := bits h 31 0
    let n := bits h 39 32
    if bits h 63 48 ≠ 0 || bits h 47 40 ≠ 1 || n = 0 || 16 < n then (.error (0x43, 0), s)
    else match s.walkGroups user a len n 1 [] with
      | (.ok (i, rs), s) => if i = len then (.ok (len, rs), s) else (.error (0x43, 0), s)
      | (.error e, s) => (.error e, s)

/-! ## Records -/

/-- A node record (R177). -/
structure GNode where
  y    : Nat
  x    : Nat
  ctx  : Nat
  blk  : Nat
  acc  : Option Word
  comm : Bool
  init : Nat
  vals : List Word
  deriving DecidableEq, Repr

/-- A link record (R179), with its edge number. -/
structure GLink where
  edge   : Nat
  prod   : BitVec 20
  cons   : BitVec 20
  slots  : Nat
  fmt    : Nat
  vc     : Nat
  thresh : Nat
  filt   : Option Nat
  deriving DecidableEq, Repr

/-- A failed check: code, edge number, address for word 2, and further regions that it leaves UNARMED (R175). -/
structure LErr where
  code : BitVec 8
  edge : Nat := 0
  addr : Int := 0
  also : List Nat := []
  deriving DecidableEq, Repr

/-- A record of a region group (R171). -/
inductive GRec where
  | node (n : GNode)
  | block (b : Block)
  | link (l : GLink)
  | port (w : Word)
  | filt (w : Word)
  | ctx (w : Word)
  | other
  deriving DecidableEq, Repr

/-- A region group: its records in order, each with the type reached by then and whether it breaks a rule of its own; and the fault of a word that could not be read. -/
structure Group where
  region : Nat
  count  : Nat
  recs   : List (Nat × Bool × GRec)
  unread : Option LErr
  deriving DecidableEq, Repr

def Group.nodes (g : Group) : List GNode := g.recs.filterMap fun x => match x.2.2 with | .node n => some n | _ => none
def Group.blocks (g : Group) : List Block := g.recs.filterMap fun x => match x.2.2 with | .block b => some b | _ => none
def Group.links (g : Group) : List GLink := g.recs.filterMap fun x => match x.2.2 with | .link l => some l | _ => none
def Group.ports (g : Group) : List Word := g.recs.filterMap fun x => match x.2.2 with | .port w => some w | _ => none
def Group.filts (g : Group) : List Word := g.recs.filterMap fun x => match x.2.2 with | .filt w => some w | _ => none
def Group.ctxs (g : Group) : List Word := g.recs.filterMap fun x => match x.2.2 with | .ctx w => some w | _ => none

/-- The group up to its record k. -/
def Group.upTo (g : Group) (k : Nat) : Group := { g with recs := g.recs.take k }

/-- The links of an accumulator node: li0 and lo0, each of rate 1 (R253). -/
def accBlock : Block := ⟨BitVec.ofNat 64 (2 ^ 40 + 2 ^ 24), []⟩

/-- Whether a node record's reserved fields hold (R177). -/
def nodeRecOk (w : Nat) (acc : Word) : Bool :=
  bits w 35 34 ≤ 1 && bits w 32 32 == 0 && bits w 15 0 == 0 &&
  (bits w 35 34 == 0 || (bits w 47 36 == 0 && bits w 31 16 == 0 && bits acc.toNat 29 0 == 0))

/-- Whether a link record's fields hold, its endpoints apart (R179). -/
def linkRecOk (w0 w1 : Nat) : Bool :=
  let slots := bits w1 63 59
  let fmt := bits w1 58 54
  let th := bits w1 51 47
  let fv := w1.testBit 46
  let portCons := bits w0 39 38 != 0
  bits w0 19 0 == 0 && decide (slots ≤ 16) && decide (1 ≤ fmt) && decide (fmt ≤ 20) && decide (th ≤ 16) && (th == 0 || slots != 0) &&
  !(fv && portCons) && (fv || bits w1 45 42 == 0) && bits w1 41 0 == 0

/-- The link of a record. -/
def linkOf (edge w0 w1 : Nat) : GLink :=
  { edge := edge, prod := BitVec.ofNat 20 (bits w0 59 40), cons := BitVec.ofNat 20 (bits w0 39 20), slots := bits w1 63 59, fmt := bits w1 58 54,
    vc := bits w1 53 52, thresh := bits w1 51 47, filt := if w1.testBit 46 then some (bits w1 45 42) else none }

/-- The region that a node endpoint lies in; none for a port. -/
def nodeRegion (e : BitVec 20) : Option Nat := if epKind e = 0 then some (epRegion e) else none

/-- The regions of the nodes at a link's ends. -/
def linkRegions (p c : BitVec 20) : List Nat := (nodeRegion p).toList ++ (nodeRegion c).toList

/-- A node record's fields, its ACC word and its register words following it. -/
def gnodeOf (w : Nat) (na : Nat) (ws : List Word) : GNode :=
  ⟨bits w 59 56, bits w 55 52, bits w 51 48, bits w 47 36, if na = 1 then some (ws.headD 0) else none, w.testBit 33, bits w 31 16,
    (ws.drop na).take (popcount (bits w 31 16) 16)⟩

/-- Parse a group's records (R171), which come in the order of their types: nb and nl are the ordinals of the next block and link, which a record that breaks a rule takes as any other does. -/
def parseRecs : Nat → List Word → Nat → Nat → Nat → List (Nat × Bool × GRec) × Nat × Nat
  | 0, _, _, nb, nl => ([], nb, nl)
  | _ + 1, [], _, nb, nl => ([], nb, nl)
  | k + 1, w0 :: ws, phase, nb, nl =>
    let w := w0.toNat
    let ty := bits w 63 60
    let late := decide (ty < phase)
    let next (r : GRec) (bad : Bool) (ws : List Word) (nb nl : Nat) : List (Nat × Bool × GRec) × Nat × Nat :=
      let p := max phase ty
      let (rs, x) := parseRecs k ws p nb nl
      ((p, late || bad, r) :: rs, x)
    match ty with
    | 2 =>
      let na := if bits w 35 34 = 1 then 1 else 0
      let n := na + popcount (bits w 31 16) 16
      next (.node (gnodeOf w na ws)) (decide (ws.length < n) || !nodeRecOk w (if na = 1 then ws.headD 0 else 0)) (ws.drop n) nb nl
    | 3 =>
      let n := 2 + bits (ws.headD 0).toNat 63 59
      next (.block (blockOfWords (ws.take n))) (bits w 59 48 != nb || bits w 47 0 != 0 || decide (ws.length < n)) (ws.drop n) (nb + 1) nl
    | 4 =>
      let w1 := ws.headD 0
      next (.link (linkOf nl w w1.toNat)) (ws.isEmpty || !linkRecOk w w1.toNat) ws.tail nb (nl + 1)
    | 5 => next (.port w0) false ws nb nl
    | 6 => next (.filt w0) false ws nb nl
    | 7 => next (.ctx w0) false ws nb nl
    | _ => let (rs, x) := parseRecs k ws phase nb nl; ((phase, true, .other) :: rs, x)

/-- Parse the groups of an image from word i on; a word that could not be read fails its group. -/
def parseGroups (a : Int) (bad : List (Nat × BitVec 8)) : Nat → Nat → List Word → Nat → Nat → List Group
  | 0, _, _, _, _ => []
  | _ + 1, _, [], _, _ => []
  | k + 1, i, h :: ws, nb, nl =>
    let n := bits h.toNat 46 31
    let (rs, nb', nl') := parseRecs (n + 1) (ws.take n) 2 nb nl
    let g : Group := ⟨bits h.toNat 59 56, bits h.toNat 55 47, rs,
      (bad.find? fun e => decide (i ≤ e.1) && decide (e.1 ≤ i + n)).map fun e => { code := e.2, addr := a + 8 * e.1 }⟩
    g :: parseGroups a bad k (i + 1 + n) (ws.drop n) nb' nl'

/-- The groups of a load's image. -/
def LRun.groups (l : LRun) : List Group := parseGroups l.image l.bad 16 1 l.words.tail 0 0

/-! ## What a load can see: the image, the regions selected, the field -/

/-- The image's groups, the selected regions, and the field as it stands. -/
structure Ld where
  groups : List Group
  sel    : List Nat
  field  : Field

def Ld.group (d : Ld) (r : Nat) : Option Group := d.groups.find? (·.region == r)
def Ld.blocks (d : Ld) : List Block := d.groups.flatMap (·.blocks)
def Ld.links (d : Ld) : List GLink := d.groups.flatMap (·.links)

/-- The block of a node record; none where the image has no such record. -/
def Ld.blockOf (d : Ld) (n : GNode) : Option Block := if n.acc.isSome then some accBlock else d.blocks[n.blk]?

/-- The node at an endpoint: of a region that the load selects, the image's; of another, the field's, or, where that region stands without one, the image's. -/
def Ld.nodeBlock (d : Ld) (e : BitVec 20) : Option Block :=
  let image := ((d.groups.flatMap (·.nodes)).find? fun n => n.y == epY e && n.x == epX e && n.ctx == epCtx e).bind d.blockOf
  if d.sel.contains (epRegion e) then image
  else ((d.field.nodeAt e).bind fun i => (d.field.nodes[i]?).map fun n => if n.acc.isSome then accBlock else n.blk).orElse fun _ => image

/-- Directions of engine ports (R19): whether epN consumes, or produces. -/
def epDirOk (n : Nat) (producing : Bool) : Bool :=
  if producing then n == 1 || n == 2 || n == 4 || n == 6 else n == 0 || n == 2 || n == 3 || n == 5 || n == 7

/-- The fault of an endpoint (R180). -/
def Ld.endFault (d : Ld) (e : BitVec 20) (producing : Bool) : Option (BitVec 8) :=
  match epKind e with
  | 0 =>
    if bits e.toNat 2 0 ≠ 0 then some 0x43
    else match d.nodeBlock e with
      | none => some 0x43
      | some b => if (if producing then b.lo (epLink e) else b.li (epLink e)) = 0 then some 0x44 else none
  | 1 => if bits e.toNat 11 0 ≠ 0 || (producing && decide (32 ≤ epHead e)) then some 0x43 else none
  | 2 => if bits e.toNat 14 0 ≠ 0 || !epDirOk (epPort e) producing then some 0x43 else none
  | _ => some 0x43

/-- Whether a port endpoint has a binding record in the image. -/
def Ld.hasPort (d : Ld) (e : BitVec 20) : Bool :=
  (d.groups.flatMap (·.ports)).any fun w =>
    let k := bits w.toNat 59 58
    (epKind e == 1 && k == 1 && bits w.toNat 57 52 == epHead e) || (epKind e == 2 && k == 2 && bits w.toNat 57 52 == epPort e)

/-- The fault of one link record of group r (R171, R179, R180). An endpoint is named twice by two records, or by this one and a link that stays. -/
def Ld.linkFault (d : Ld) (r : Nat) (l : GLink) : Option (BitVec 8) :=
  match (d.endFault l.prod true).orElse fun _ => d.endFault l.cons false with
  | some c => some c
  | none =>
    let home := (nodeRegion l.cons).orElse fun _ => nodeRegion l.prod
    let twice := (d.links.any fun m => decide (m.edge < l.edge) && (m.prod == l.prod || m.cons == l.cons)) ||
      d.field.links.any fun m => !d.sel.contains m.group && (m.prod == l.prod || m.cons == l.cons)
    if home.any (· != r) || twice then some 0x43
    else if (epKind l.prod != 0 && !d.hasPort l.prod) || (epKind l.cons != 0 && !d.hasPort l.cons) then some 0x43
    else none

/-! ## Checks of one group -/

/-- The first error of a list. -/
def firstErr (l : List (Option LErr)) : Option LErr := l.findSome? id

/-- A check that fails on a link concerns the selected regions at both its ends (R175). -/
def Ld.onLink (d : Ld) (p c : BitVec 20) (e : LErr) : LErr := { e with also := (linkRegions p c).filter d.sel.contains }

/-- A check without an edge number. -/
def errIf (b : Bool) (code : BitVec 8) (edge : Nat := 0) : Option LErr := if b then some { code := code, edge := edge } else none

/-- The node record n (R177), behind the nodes of the group before it. -/
def Ld.nodeErr (d : Ld) (g : Group) (before : List GNode) (n : GNode) : Option LErr :=
  let acn (w : Word) : Nat := bits w.toNat 63 60
  let others := (d.groups.filter fun x => d.sel.contains x.region).flatMap fun x => x.nodes
  let taken (w : Word) : Bool :=
    (d.field.nodes.any fun m => !d.sel.contains m.region && (d.field.region m.region).st == .armed &&
      (match m.acc with | some a => a.num.toNat == acn w | none => false)) ||
    decide (1 < others.countP fun m => match m.acc with | some v => acn v == acn w | none => false)
  firstErr
    [errIf (plotRegion n.y n.x != g.region) 0x43,
     errIf (before.any fun m => m.y == n.y && m.x == n.x && m.ctx == n.ctx) 0x43,
     errIf (d.blockOf n).isNone 0x48,
     errIf (match n.acc with | some w => taken w | none => false) 0x42]

/-- The check of a block (R178). -/
def blockErr (b : Block) : Option LErr := (b.check none).map fun c => { code := c }

/-- The blocks of other groups that the nodes of a group use. -/
def Ld.foreignErr (d : Ld) (g : Group) : Option LErr :=
  g.nodes.findSome? fun n => if n.acc.isSome then none else (d.blockOf n).bind fun b => if g.blocks.contains b then none else blockErr b

/-- Declared links without a record; one that an unselected region's link record already serves counts (R180). -/
def Ld.missing (d : Ld) (n : GNode) : Bool :=
  match d.blockOf n with
  | none => false
  | some b =>
    let e (l : Nat) := nodeEndpoint n.y n.x n.ctx l
    (b.ins'.any fun l => !(d.links.any fun m => m.cons == e l)) ||
    (b.outs.any fun l => !(d.links.any fun m => m.prod == e l) && !(d.field.links.any fun m => m.prod == e l && !d.sel.contains m.group))

/-- A port binding record's own check (R181). -/
def portRecOk (w : Nat) : Bool :=
  let k := bits w 59 58
  (k == 1 || k == 2) && !(k == 2 && bits w 57 55 != 0) && !(w.testBit 51 && bits w 50 41 == 0) && bits w 36 0 == 0

/-- The binding of a record, its buffer not yet placed. -/
def bindingOf (r w : Nat) : Binding :=
  { region := r, engine := bits w 59 58 == 2, port := bits w 57 52, once := w.testBit 51, size := bits w 50 41, handle := bits w 40 37, off := 0,
    dirty := [] }

/-- A port binding, behind those of the group before it: its own fields, then claims and handles (R181). -/
def Ld.portErr (d : Ld) (g : Group) (before : List Word) (w : Word) : Option LErr :=
  let b := bindingOf g.region w.toNat
  let same (x : Binding) : Bool := x.engine == b.engine && x.port == b.port
  let earlier := ((d.groups.takeWhile fun x => x.region != g.region).flatMap fun x => x.ports.map fun v => bindingOf x.region v.toNat) ++
    before.map fun v => bindingOf g.region v.toNat
  let others := d.field.bindings.filter fun x => x.region != g.region
  firstErr
    [errIf (!portRecOk w.toNat) 0x43,
     errIf (earlier.any same || others.any fun x => same x && (d.field.region x.region).st == .armed) 0x42,
     errIf (b.size != 0 && (others ++ before.map fun v => bindingOf g.region v.toNat).any fun x =>
       x.size != 0 && x.handle == b.handle) 0x42]

/-- The filter of a record (R182). -/
def filterOf (w : Nat) : Filter :=
  { y := bits w 59 56, x := bits w 55 52, vc := bits w 51 50, entry := bits w 49 46, src := bits w 45 41, dst := bits w 40 36, op := bits w 35 33,
    se := w.testBit 32, scale := BitVec.ofNat 4 (bits w 31 28), rnd := BitVec.ofNat 2 (bits w 27 26), rows := bits w 25 24 + 1,
    cols := bits w 23 22 + 1, sval := 0 }

/-- A filter record's own check (R182). -/
def filterRecOk (w : Nat) : Bool :=
  decide (bits w 35 33 ≤ 2) && (bits w 35 33 == 2 || bits w 25 22 == 0) && bits w 21 0 == 0

/-- Two filters program the same entry. -/
def Filter.sameEntry (f g : Filter) : Bool := f.y == g.y && f.x == g.x && f.vc == g.vc && f.entry == g.entry

/-- Filter entries of the image, and of the field's other regions. -/
def Ld.filters (d : Ld) (g : Group) : List Filter :=
  (d.groups.flatMap fun x => x.filts.map fun w => filterOf w.toNat) ++
  ((d.field.filters.filter fun e => e.1 != g.region && !d.sel.contains e.1).map fun e => { e.2 with sval := 0 })

/-- Filter records (R182). -/
def Ld.filterErr (d : Ld) (g : Group) (w : Word) : Option LErr :=
  let f := filterOf w.toNat
  firstErr [errIf (!filterRecOk w.toNat) 0x43, errIf ((d.filters g).any fun x => x.sameEntry f && x != f) 0x42]

/-- Contexts that a group's nodes name, and those it binds (R183). -/
def Group.nodeCtxs (g : Group) : List Nat := (g.nodes.map (·.ctx)).eraseDups
def Group.boundCtxs (g : Group) : List Nat := g.ctxs.map fun w => bits w.toNat 59 56
def Group.resident (g : Group) : List Nat := (g.ctxs.filter fun w => w.getLsbD 55).map fun w => bits w.toNat 59 56
def Group.pinned (g : Group) : List Nat := (g.ctxs.filter fun w => w.getLsbD 54).map fun w => bits w.toNat 59 56

/-- Context bindings (R183, R195, R196). -/
def Group.ctxErr (g : Group) (dl : Bool) : Option LErr :=
  firstErr
    [errIf (!decide g.boundCtxs.Nodup || g.nodeCtxs.any fun c => !g.boundCtxs.contains c) 0x43,
     errIf (decide (4 < g.resident.length)) 0x42,
     errIf (dl && decide (4 < g.boundCtxs.length)) 0x42]

/-! ## Routes (R184) -/

/-- The plot beside a port, or a node's own (R18). -/
def endPlot (e : BitVec 20) : Nat × Nat :=
  match epKind e with
  | 0 => (epY e, epX e)
  | 1 => let n := epHead e
    if n < 16 then (n, 0) else if n < 32 then (0, n - 16) else if n < 48 then (n - 32, 15) else (15, n - 48)
  | _ => (2 * epPort e + 1, 15)

/-- The furrow hops of a route: along the row, then along the column; plot and direction (0 east, 1 west, 2 south, 3 north). -/
def route (p c : BitVec 20) : List (Nat × Nat × Nat) :=
  let (y, x) := endPlot p
  let (v, u) := endPlot c
  ((List.range (u - x)).map fun i => (y, x + i, 0)) ++ ((List.range (x - u)).map fun i => (y, x - i, 1)) ++
  ((List.range (v - y)).map fun i => (y + i, u, 2)) ++ ((List.range (y - v)).map fun i => (y - i, u, 3))

/-- The first link of a group that needs a channel held already: by a link of the field that stays, or by one routed before it. -/
def routeErr (kept : List (Nat × List (Nat × Nat × Nat))) : List Link → Option LErr
  | [] => none
  | l :: ls =>
    let r := route l.prod l.cons
    if kept.any fun k => k.1 == l.vc && k.2.any r.contains then some { code := 0x42, edge := l.edge }
    else routeErr (kept ++ [(l.vc, r)]) ls

/-! ## Formats (R189, R190, R192, R193) -/

/-- Formats that an engine or headland end allows; none for any. -/
def portEndFmts (e : BitVec 20) (producing : Bool) : Option (List Nat) :=
  if epKind e = 1 then (if !producing && epHead e < 32 then some [15] else none)
  else match epPort e with
    | 0 | 6 => some [19]
    | 1 | 4 => some [5, 13]
    | 2 => some (if producing then [11, 12, 13] else [11, 12])
    | 3 => some [1, 3]
    | _ => some [20]

/-- Value formats of convert and compact (R192). -/
def convFmt (f : Nat) : Bool := (1 ≤ f && f ≤ 9) || (11 ≤ f && f ≤ 14)

/-- Whether an entry's pair has an operation (R192, R193). -/
def Filter.pairOk (f : Filter) : Bool :=
  match f.op with
  | 0 => (convFmt f.src && convFmt f.dst && f.src != f.dst) || (f.src == 15 && f.dst == 6) || (f.src == 6 && f.dst == 15) || (f.src == 16 && f.dst == 17)
  | 1 => convFmt f.src && (f.dst == 16 || f.dst == 17)
  | _ => true

/-- Whether a transpose entry meets R193 at a link of these slots. -/
def Filter.tileOk (f : Filter) (slots : Nat) : Bool :=
  f.op != 2 || (f.src == f.dst && decide (f.rows * f.cols ≤ slots) && decide (f.rows * f.cols ≤ 16))

/-- The link of a record, as it stands once armed: its filter entry with the scale it captures, its hops. A link from outside the selected regions keeps its route and producer (R200). -/
def Ld.mkLink (d : Ld) (g : Group) (sc : Vector (BitVec 32) 16) (l : GLink) : Link :=
  let old := d.field.links.find? fun m => m.cons == l.cons && epKind m.prod == 0 && !d.sel.contains (epRegion m.prod)
  let prod := match old with | some m => m.prod | none => l.prod
  let filt := l.filt.bind fun e => (d.filters g).find? fun f => f.y == epY l.cons && f.x == epX l.cons && f.vc == l.vc && f.entry == e
  { edge := l.edge, group := g.region, prod := prod, cons := l.cons, slots := l.slots, fmt := l.fmt, vc := l.vc, thresh := l.thresh,
    filt := filt.map fun f => { f with sval := sc[f.scale.toNat] }, hops := (route prod l.cons).length, fly := [], buf := [], credit := 0,
    result := [], dec := [], tile := [], pos := 0 }

/-- The format fault of a link whose ends are as the load sees them (R190). -/
def Ld.fmtErr (d : Ld) (l : Link) (wantsFilter : Bool) : Option LErr :=
  let ends (e : BitVec 20) (producing : Bool) : Option (List Nat) :=
    if epKind e = 0 then (d.nodeBlock e).map fun b => if b == accBlock then [13] else if producing then b.prodFmts (epLink e) else b.consFmts (epLink e)
    else none
  let portOk (e : BitVec 20) (producing : Bool) : Bool :=
    epKind e == 0 || (match portEndFmts e producing with | some fs => fs.contains l.fmt | none => true)
  let filtBad := (wantsFilter && l.filt.isNone) || (match l.filt with | some f => !f.pairOk | none => false)
  let tileBad := match l.filt with | some f => !f.tileOk l.slots | none => false
  firstErr
    [errIf tileBad 0x43 l.edge,
     errIf (filtBad || !portOk l.prod true || !portOk l.cons false || !linkAgrees l (ends l.prod true) (ends l.cons false)) 0x40 l.edge]

/-! ## Zero-slot links (R186) -/

/-- Whether a zero-slot link of the image breaks R186's rates and hops. -/
def Ld.zeroErr (d : Ld) (l : GLink) : Option LErr :=
  let p := if epKind l.prod = 0 then ((d.nodeBlock l.prod).elim 1 fun b => b.lo (epLink l.prod)) else 1
  let c := if epKind l.cons = 0 then ((d.nodeBlock l.cons).elim 1 fun b => b.li (epLink l.cons)) else 1
  errIf (l.slots == 0 && !(p == 1 && c == 1 && decide ((route l.prod l.cons).length ≤ 1))) 0x43 l.edge

/-- The node part of an endpoint. -/
def nodeKey (e : BitVec 20) : Nat := e.toNat / 64

/-- Nodes that zero-slot links reach from a list of nodes. -/
def zeroReach (es : List (Nat × BitVec 20 × BitVec 20)) : Nat → List Nat → List Nat
  | 0, ns => ns
  | k + 1, ns => zeroReach es k ((es.filter fun e => ns.contains (nodeKey e.2.1)).foldl (fun a e => insNat (nodeKey e.2.2) a) ns)

/-- The zero-slot links between nodes that the load checks: edge, producer, consumer. -/
def Ld.zeroLinks (d : Ld) : List (Nat × BitVec 20 × BitVec 20) :=
  let fresh := ((d.groups.filter fun g => d.sel.contains g.region).flatMap (·.links)).filter (·.slots == 0)
  let kept := d.field.links.filter fun l => l.slots == 0 && !d.sel.contains l.group
  ((fresh.map fun l => (l.edge, l.prod, l.cons)) ++ kept.map fun l => (l.edge, l.prod, l.cons)).filter
    fun e => epKind e.2.1 == 0 && epKind e.2.2 == 0

/-- Those of them that lie on a cycle. -/
def Ld.zeroCycles (d : Ld) : List (Nat × BitVec 20 × BitVec 20) :=
  let es := d.zeroLinks
  es.filter fun e => (zeroReach es es.length [nodeKey e.2.2]).contains (nodeKey e.2.1)

/-- The zero-slot cycle check for region r: one record for the lowest edge, and every selected region on a cycle fails (R186). -/
def Ld.cycleErr (d : Ld) (r : Nat) : Option LErr :=
  let cs := d.zeroCycles
  let regs := (cs.flatMap fun e => [epRegion e.2.1, epRegion e.2.2]).eraseDups
  if regs.contains r then
    some { code := 0x41, edge := (cs.map (·.1)).foldl min (cs.headD (0, 0, 0)).1, also := regs.filter fun x => d.sel.contains x }
  else none

/-! ## Sizing (R188) -/

/-- An edge of the fixed-rate subgraph: ends by position, rates, capacity. -/
structure SEdge where
  edge : Nat
  src  : Nat
  dst  : Nat
  p    : Nat
  c    : Nat
  cap  : Nat
  deriving DecidableEq, Repr

/-- Fixed-rate nodes of the selected regions, in record order. -/
def Ld.fixedNodes (d : Ld) : List (GNode × Block) :=
  ((d.groups.filter fun g => d.sel.contains g.region).flatMap (·.nodes)).filterMap fun n =>
    if n.acc.isSome then none else match d.blockOf n with | some b => if b.var then none else some (n, b) | none => none

/-- The links between them. -/
def Ld.fixedEdges (d : Ld) : List SEdge :=
  let ns := d.fixedNodes
  let at' (e : BitVec 20) : Option Nat :=
    if epKind e = 0 then ns.findIdx? fun n => n.1.y == epY e && n.1.x == epX e && n.1.ctx == epCtx e else none
  ((d.groups.filter fun g => d.sel.contains g.region).flatMap (·.links)).filterMap fun l =>
    match at' l.prod, at' l.cons with
    | some i, some j =>
      some ⟨l.edge, i, j, (ns[i]?).elim 0 fun n => n.2.lo (epLink l.prod), (ns[j]?).elim 0 fun n => n.2.li (epLink l.cons), if l.slots = 0 then 1 else l.slots⟩
    | _, _ => none

/-- The connected part of a list of nodes. -/
def partOf (es : List SEdge) : Nat → List Nat → List Nat
  | 0, ns => ns
  | k + 1, ns => partOf es k (es.foldl (fun a e =>
      if a.contains e.src || a.contains e.dst then insNat e.src (insNat e.dst a) else a) ns)

/-- Repetitions as fractions, spread from the nodes that have one. -/
def spread (es : List SEdge) : Nat → List (Nat × Nat × Nat) → List (Nat × Nat × Nat)
  | 0, m => m
  | k + 1, m => spread es k (es.foldl (fun m e =>
      match m.find? (·.1 == e.src), m.find? (·.1 == e.dst) with
      | some (_, a, b), none => (e.dst, a * e.p, b * e.c) :: m
      | none, some (_, a, b) => (e.src, a * e.c, b * e.p) :: m
      | _, _ => m) m)

/-- The smallest whole repetitions of a part; none when there are none (R188). -/
def partReps (ns : List Nat) (es : List SEdge) : Option (List (Nat × Nat)) :=
  let m := spread es ns.length [(ns.headD 0, 1, 1)]
  let frac (i : Nat) : Nat × Nat := ((m.find? (·.1 == i)).map (·.2)).getD (1, 1)
  if es.any fun e => let (a, b) := frac e.src; let (c, f) := frac e.dst; e.p * a * f != e.c * c * b then none
  else
    let den := ns.foldl (fun l i => Nat.lcm l (frac i).2) 1
    let whole := ns.map fun i => let (a, b) := frac i; (i, a * (den / b))
    let g := whole.foldl (fun g x => Nat.gcd g x.2) 0
    some (whole.map fun x => (x.1, x.2 / g))

/-- One pass of the sizing loop: fired counts and held tokens, and whether anything moved. -/
def sizePass (es : List SEdge) (reps : List (Nat × Nat)) (st : List (Nat × Nat) × List (Nat × Nat)) :
    (List (Nat × Nat) × List (Nat × Nat)) × Bool :=
  reps.foldl (fun (x : (List (Nat × Nat) × List (Nat × Nat)) × Bool) n =>
    let ((fired, held), _) := x
    let f := ((fired.find? (·.1 == n.1)).map (·.2)).getD 0
    let h (e : SEdge) : Nat := ((held.find? (·.1 == e.edge)).map (·.2)).getD 0
    let ok := decide (f < n.2) && (es.all fun e => e.dst != n.1 || decide (e.c ≤ h e)) &&
      es.all fun e => e.src != n.1 || decide (e.p + h e ≤ e.cap)
    if ok then
      (((n.1, f + 1) :: fired.filter (·.1 != n.1),
        es.map fun e => (e.edge, h e - (if e.dst = n.1 then e.c else 0) + (if e.src = n.1 then e.p else 0))), true)
    else x) (st, false)

/-- The sizing loop, to a pass in which nothing moves. -/
def sizeLoop (es : List SEdge) (reps : List (Nat × Nat)) : Nat → List (Nat × Nat) × List (Nat × Nat) → List (Nat × Nat) × List (Nat × Nat)
  | 0, st => st
  | k + 1, st => match sizePass es reps st with
    | (st, true) => sizeLoop es reps k st
    | (st, false) => st

/-- The least of a list of edge numbers. -/
def leastEdge (es : List SEdge) : Option Nat := (es.map (·.edge)).min?

/-- The fault of one connected part: the edge number it names. -/
def partErr (ns : List Nat) (es : List SEdge) : Option Nat :=
  match partReps ns es with
  | none => leastEdge es
  | some reps =>
    let total := (reps.map (·.2)).sum
    if 65536 < total then leastEdge es
    else
      let (fired, held) := sizeLoop es reps (total + 1) ([], [])
      let f (i : Nat) : Nat := ((fired.find? (·.1 == i)).map (·.2)).getD 0
      let h (e : SEdge) : Nat := ((held.find? (·.1 == e.edge)).map (·.2)).getD 0
      let stuck := (reps.filter fun n => decide (f n.1 < n.2)).map (·.1)
      if stuck.isEmpty then none
      else leastEdge (es.filter fun e => (stuck.contains e.dst && decide (h e < e.c)) || (stuck.contains e.src && decide (e.cap < e.p + h e)))

/-- The sizing check of the parts that reach into region r (R188). -/
def Ld.sizeErr (d : Ld) (r : Nat) : Option LErr :=
  let ns := d.fixedNodes
  let es := d.fixedEdges
  (List.range ns.length).findSome? fun i =>
    match ns[i]? with
    | none => none
    | some n =>
      if plotRegion n.1.y n.1.x != r then none
      else
        let part := partOf es es.length [i]
        let pes := es.filter fun e => part.contains e.src
        match partErr part pes with
        | none => none
        | some k =>
          let l := d.links.find? (·.edge == k)
          some { code := 0x42, edge := k, also := (l.map fun l => linkRegions l.prod l.cons).getD [] }

/-! ## Arming -/

/-- Everything of a region goes: nodes, links, filters, claims (R181). -/
def Field.clearRegion (f : Field) (r : Nat) : Field :=
  { f with nodes := f.nodes.filter fun n => n.region != r
           links := f.links.filter fun l => l.group != r
           filters := f.filters.filter fun e => e.1 != r
           bindings := f.bindings.filter fun b => b.region != r }

/-- The region's REG areas go. -/
def Cellar.clearAreas (c : Cellar) (owner : Nat) : Cellar := { c with areas := c.areas.filter fun a => a.owner != owner }

/-- The flags of a region's nodes (R233). -/
def Field.regionFlags (f : Field) (r : Nat) : Flags := (f.nodes.filter fun n => n.region == r).foldl (fun x n => x ||| n.flags) 0

/-- A region is reloaded or emptied: its flags go to cr.FPS, its contents, claims, buffers and REG areas go, and with a link to ep5 or ep7 the half of a pair that waits there (R68, R181, R233). -/
def Core.dropRegion (c : Core) (r : Nat) : Core :=
  let cut (p : Nat) : Bool := c.field.links.any fun l => l.group == r && l.cons == epEndpoint p
  { c with cpu := { c.cpu with fps := c.cpu.fps ||| c.field.regionFlags r }
           qs := { c.qs with hi := c.qs.hi.filter fun x => !cut x.1 }
           field := c.field.clearRegion r
           cellar := c.cellar.clearAreas r }

/-- Reserve a REG area of 4 KiB for each of a region's contexts without residence (R195). -/
def Core.backing (c : Core) (owner : Nat) : List Nat → Option Core
  | [] => some c
  | n :: ns => match c.regAlloc 4096 with
    | none => none
    | some off =>
      let a : RegArea := { off := off, len := 4096, owner := owner, ctx := n, live := true }
      Core.backing { c with cellar := { c.cellar with areas := c.cellar.areas ++ [a] } } owner ns

/-- The bound contexts of a group that are not resident (R195). -/
def Group.spilled (g : Group) : List Nat := g.boundCtxs.filter fun c => !g.resident.contains c

/-- Place the bindings of a region, with their buffers zero and empty (R181, R324). -/
def Core.bindAll (c : Core) : List Binding → Option Core
  | [] => some c
  | b :: bs =>
    if b.size = 0 then Core.bindAll { c with field := { c.field with bindings := c.field.bindings ++ [b] } } bs
    else match c.padAlloc (b.size * 4096) with
      | none => none
      | some off =>
        let hi := off + b.size * 4096
        let cel := c.cellar
        let cel := { cel with bytes := memClear cel.bytes off hi, full := delRange (off / 8) (hi / 8) cel.full,
                              err1 := delRange (off / 8) (hi / 8) cel.err1, err2 := delRange (off / 8) (hi / 8) cel.err2 }
        Core.bindAll { c with cellar := cel, field := { c.field with bindings := c.field.bindings ++ [{ b with off := off }] } } bs

/-- The accumulator of a node record (R177, R253). -/
def accOf (w : Word) : Acc :=
  let m := bits w.toNat 43 37 + 1
  let n := bits w.toNat 36 30 + 1
  { num := BitVec.ofNat 4 (bits w.toNat 63 60), count := bits w.toNat 59 44 + 1, m := m, n := n, sums := List.replicate (m * n) 0, i := 0, j := 0,
    got := 0, out := [] }

/-- The node of a record, at the start of its block (R174, R177). -/
def Ld.mkNode (d : Ld) (r : Nat) (n : GNode) : Node :=
  { region := r, y := n.y, x := n.x, ctx := n.ctx, blk := (d.blockOf n).getD ⟨0, []⟩, comm := n.comm, acc := n.acc.map accOf,
    regs := maskedRegs (.replicate 16 0) n.init n.vals, red := [], replay := ⟨[], 0, false⟩, seen := false, packet := none, closing := false,
    eosIn := [], eosOut := [], fir := [], stIn := 0, stOut := 0, stCtx := 0, reason := 0, last := none, done := none, err1 := [], err2 := [],
    flags := 0, stopped := false }

/-- The loop link of a mode-3 JOIN node starts with one level-0 STOP (R231). -/
def Field.seedLoops (f : Field) (r : Nat) : Field :=
  f.nodes.foldl (fun (f : Field) (n : Node) =>
    if n.region != r then f
    else match n.blk.join3 with
      | none => f
      | some w => match f.linkTo (n.ep (w.ib 2 0)) with
        | none => f
        | some i => f.modLink i fun l =>
            if epKind l.prod = 0 && epY l.prod == n.y && epX l.prod == n.x && epCtx l.prod == n.ctx then l.push [⟨1, stopPayload 0 0⟩] else l) f

/-- A region at its arming (R174, R196, R235, R388). -/
def Region.arm (g : Group) (cyc : Nat) (st : RState) : Region :=
  { Region.reset with st := st, before := st, resident := g.resident, pinned := g.pinned, bound := g.boundCtxs,
                      ready := g.boundCtxs.map fun c => (c, cyc), quiet := cyc }

/-- Install a group that has passed its checks: PAD, REG, records, arming; or the fault of a room (R181, R195). The region that claims ep0 lets tokens in there again (R242). -/
def Core.install (c : Core) (d : Ld) (g : Group) (cyc : Nat) : Except LErr Core :=
  match c.bindAll (g.ports.map fun w => bindingOf g.region w.toNat) with
  | none => .error { code := 0x42 }
  | some c => match c.backing g.region g.spilled with
    | none => .error { code := 0x42 }
    | some c =>
      let f := c.field
      let f := { f with nodes := f.nodes ++ g.nodes.map (d.mkNode g.region)
                        links := f.links ++ g.links.map (d.mkLink g c.mat.sc)
                        filters := f.filters ++ g.filts.map fun (w : Word) => (g.region, filterOf w.toNat) }
      let ep0 := g.ports.any fun w => let b := bindingOf g.region w.toNat; b.engine && b.port == 0
      .ok { c with field := (f.seedLoops g.region).modRegion g.region fun _ => Region.arm g cyc (if g.count = 0 then .empty else .armed)
                   mat := if ep0 then { c.mat with eos := false } else c.mat }

/-- The links whose format a load of region r checks: those of its group, and those that its nodes send on into other groups (R174). -/
def Ld.joined (d : Ld) (g : Group) (sc : Vector (BitVec 32) 16) : List (Link × Bool) :=
  (g.links.map fun l => (d.mkLink g sc l, l.filt.isSome)) ++
  ((d.groups.filter fun x => x.region != g.region && d.sel.contains x.region).flatMap fun x =>
    (x.links.filter fun l => nodeRegion l.prod == some g.region).map fun l => (d.mkLink x sc l, l.filt.isSome)) ++
  ((d.field.links.filter fun l => nodeRegion l.prod == some g.region && l.group != g.region && !d.sel.contains l.group).map fun l => (l, l.filt.isSome))

/-- The check of record k of a group, with the rules of its own first (R171, R177-R183). -/
def Ld.recErr (d : Ld) (g : Group) (k : Nat) (x : Nat × Bool × GRec) : Option LErr :=
  let own := errIf x.2.1 0x43
  match x.2.2 with
  | .node n => own.orElse fun _ => d.nodeErr g (g.upTo k).nodes n
  | .block b => own.orElse fun _ => blockErr b
  | .link l =>
    if x.2.1 then some { code := 0x43, edge := l.edge, also := linkRegions l.prod l.cons }
    else (d.linkFault g.region l).map fun c => d.onLink l.prod l.cons { code := c, edge := l.edge }
  | .port w => own.orElse fun _ => d.portErr g (g.upTo k).ports w
  | .filt w => own.orElse fun _ => d.filterErr g w
  | .ctx w => own.orElse fun _ => errIf (bits w.toNat 53 0 != 0) 0x43
  | .other => own

/-- What a type of record must give as a whole, once all of its records stand: the node count, the blocks of other groups, the links that nodes declare, the PAD room, contexts and the REG room. -/
def Ld.typeErr (d : Ld) (g : Group) (c : Core) (type : Nat) : Option LErr :=
  match type with
  | 2 => errIf (g.nodes.length != g.count) 0x43
  | 3 => d.foreignErr g
  | 4 => errIf (g.nodes.any d.missing) 0x43
  | 5 => errIf (c.bindAll (g.ports.map fun w => bindingOf g.region w.toNat)).isNone 0x42
  | 7 => firstErr [g.ctxErr c.cpu.dl, errIf (c.backing g.region g.spilled).isNone 0x42]
  | _ => none

/-- The checks of a group in the order of R174's steps, on the core c without the region: the records in the order of R82, with the rooms that they take, then routes, formats, zero-slot links and sizes (R174-R190). -/
def Ld.groupErr (d : Ld) (g : Group) (c : Core) : Option LErr :=
  let sc := c.mat.sc
  let kept := c.field.links.map fun l => (l.vc, route l.prod l.cons)
  let on (l : GLink) (e : LErr) : LErr := d.onLink l.prod l.cons e
  firstErr
    [g.unread,
     [2, 3, 4, 5, 6, 7].findSome? fun ty =>
       (g.recs.zipIdx.findSome? fun x => if x.1.1 = ty then d.recErr g x.2 x.1 else none).orElse fun _ => d.typeErr g c ty,
     (routeErr kept (g.links.map (d.mkLink g sc))).map fun e =>
       match g.links.find? fun l => l.edge == e.edge with | some l => on l e | none => e,
     (d.joined g sc).findSome? fun x => (d.fmtErr x.1 x.2).map fun e => d.onLink x.1.prod x.1.cons e,
     g.links.findSome? fun l => (d.zeroErr l).map (on l),
     d.cycleErr g.region,
     d.sizeErr g.region]

/-- Load one region of a core: its old contents go, then it is ARMED, or the fault (R174); where the words read now hold no group for it, 0x43. -/
def Core.loadRegion (c : Core) (groups : List Group) (sel : List Nat) (r cyc : Nat) : Except LErr Core :=
  let d : Ld := ⟨groups, sel, c.field⟩
  match d.group r with
  | none => .error { code := 0x43 }
  | some g =>
    let c := c.dropRegion r
    match d.groupErr g c with
    | some e => .error e
    | none => c.install d g cyc

/-- A region that a load has failed: empty of nodes and links, and UNARMED (R173). -/
def Core.unarm (c : Core) (r : Nat) : Core :=
  let c := c.dropRegion r
  { c with field := c.field.modRegion r fun _ => { Region.reset with st := .unarmed, before := .unarmed } }

/-! ## Region loads as events (R172-R175) -/

/-- Whether every node of a region is idle and no link into it holds a token (R174). -/
def Field.regionIdle (f : Field) (r : Nat) : Bool :=
  (f.nodes.all fun n => n.region != r || n.idle) &&
  f.links.all fun l => nodeRegion l.cons != some r || (l.fly.isEmpty && l.buf.isEmpty && l.result.isEmpty && l.dec.isEmpty && l.tile.isEmpty)

/-- Whether a selected region may load now (R173). -/
def Field.mayLoad (f : Field) (r : Nat) : Bool :=
  match (f.region r).st with
  | .empty | .unarmed => true
  | .armed => f.regionIdle r
  | _ => false

/-- A loader's record (R373). -/
def State.loadRecord (s : State) (num : Option Nat) (e : LErr) : State :=
  s.report { s.engineRec e.code 0x4B num with addr := wordOf e.addr, detail := BitVec.ofNat 64 e.edge }

/-- The regions that a mask selects of those that an image has groups for, in increasing order (R172). -/
def selectedRegions (groups : List Nat) (mask : Nat) : List Nat :=
  (List.range 16).filter fun r => (mask == 0 || mask.testBit r) && groups.contains r

/-- Go on with the regions that are left, or complete the load (R172); an admission's goes on at STRAND_START (R170). -/
def State.loadLeft (s : State) (run : LRun) (left : List Nat) : State :=
  if left.isEmpty then
    let s := s.modLoader fun l => { l with run := none }
    if s.core.loader.boot.isSome then s else s.finish 0x4B run.tag
  else s.modLoader fun l => { l with run := some { run with left := left, now := none } }

/-- Start a region load with its header pass (R172, R175). -/
def State.startLoad (s : State) (tag : Tag) (a : Int) (mask : Nat) : State :=
  match s.headerPass tag.user a with
  | (.error (c, va), s) => (s.loadRecord tag.num { code := c, addr := va }).finish 0x4B tag
  | (.ok (n, rs), s) =>
    let sel := selectedRegions rs mask
    s.loadLeft ⟨tag, a, n, [], [], sel, [], none⟩ sel

/-- CFGLD with INBAND 0 (R172). -/
def execCfgld (h : CmdHdr) (addr : BitVec 57) (regions : BitVec 16) (rsv : BitVec 38) (s : State) : PortOut :=
  .next (s.checked h 0x20 [failIf (rsv != 0) 0x50, failIf (addr.toNat % 8 != 0) 0x54] fun s =>
    s.startLoad (s.tag h 0x20) (base57 addr) regions.toNat)

/-- A region that a load has started on keeps the state it returns to (R173, R201). -/
def Field.enterLoading (f : Field) (r : Nat) : Field := f.modRegion r fun g => { g with st := .loading, before := g.st }

/-- A failure of an admission's load, whose launch will end with the first one's code (R170). -/
def State.noteBoot (s : State) (c : BitVec 8) : State :=
  s.modLoader fun l => { l with boot := l.boot.map fun b => { b with code := b.code.orElse fun _ => some c } }

/-- Region r, whose words are in hand, is ARMED or EMPTY, or it fails with the regions that its fault concerns; and the regions still to load (R174, R175). -/
def State.landRegion (s : State) (run : LRun) (r : Nat) : State × List Nat :=
  match s.core.loadRegion run.groups run.sel r s.cyc with
  | .ok c => (s.setCore c, run.left.filter (· != r))
  | .error e =>
    let gone := (r :: e.also).filter run.sel.contains
    let s := gone.foldl (fun s x => s.modCore (·.unarm x)) s
    ((s.loadRecord run.tag.num e).noteBoot e.code, run.left.filter fun x => !gone.contains x)

/-- The loader loads region r, when it is the next of the selected regions that may load (R172, R174), in two steps: the region is LOADING while its group is fetched; then come its checks, and its arming or its failure. A pre-emption between them returns the region, and the load starts again with the fetch (R201). -/
def execRegionLoad (r : BitVec 4) (s : State) : PortOut :=
  .next (match s.core.loader.run with
    | none => s
    | some run =>
      let f := s.core.field
      if s.core.mat.frozen then s
      else if run.now = none then
        if !run.left.contains r.toNat || !f.mayLoad r.toNat || (run.left.any fun x => decide (x < r.toNat) && f.mayLoad x) then s
        else
          let ((ws, bad), s) := s.imageWords run.tag.user run.image run.len
          (s.modField fun f => f.enterLoading r.toNat).modLoader fun l => { l with run := some { run with words := ws, bad := bad, now := some r.toNat } }
      else if run.now ≠ some r.toNat then s
      else
        let (s, left) := s.landRegion run r.toNat
        s.loadLeft run left)

/-- Load the regions of an admission's image that may load, in order; those left wait until they are idle (R170, R173). -/
def State.bootRegions (s : State) (run : LRun) : Nat → State × List Nat
  | 0 => (s, run.left)
  | n + 1 =>
    match run.left.find? s.core.field.mayLoad with
    | none => (s, run.left)
    | some r =>
      let ((ws, bad), s) := s.imageWords false run.image run.len
      let (s, left) := s.landRegion { run with words := ws, bad := bad } r
      s.bootRegions { run with left := left } n

/-- Load an image as a CFGLD would, for an admission (R170); what waits is left to REGION_LOAD. -/
def State.loadImage (s : State) (a : Int) (mask : Nat) : State :=
  match s.headerPass false a with
  | (.error (c, va), s) => (s.loadRecord none { code := c, addr := va }).noteBoot c
  | (.ok (n, rs), s) =>
    let sel := selectedRegions rs mask
    let run : LRun := ⟨⟨none, 0, false, 0, false⟩, a, n, [], [], sel, sel, none⟩
    let (s, left) := s.bootRegions run 16
    if left.isEmpty then s else s.modLoader fun l => { l with run := some { run with left := left } }

/-! ## In-band loads (R199) -/

/-- CFGLD with INBAND 1 (R199). -/
def execCfgldInband (h : CmdHdr) (addr : BitVec 57) (port : BitVec 5) (rsv : BitVec 11) (words : BitVec 16) (rsv2 : BitVec 22) (s : State) : PortOut :=
  .next (s.checked h 0x20
    [failIf (!s.core.field.bound false port.toNat) 0x53, failIf (rsv != 0) 0x50, failIf (rsv2 != 0) 0x50, failIf (addr.toNat % 8 != 0) 0x54]
    fun s => s.modLoader fun l => { l with inband := some ⟨s.tag h 0x20, base57 addr, port, words.toNat + 1⟩ })

/-- The next word of an in-band load goes out as a CFG token, once its port runs no command (R199, R409). -/
def State.inbandStep (s : State) : State :=
  match s.core.loader.inband with
  | none => s
  | some b =>
    let e := headEndpoint b.port.toNat
    let stop (s : State) : State := (s.modLoader fun l => { l with inband := none }).finish 0x4B b.tag
    if s.core.mat.frozen || (s.port b.port.toNat).run.isSome || s.core.field.freeFrom e = 0 then s
    else match (if canonical b.addr then s.imageWord b.tag.user b.addr else (.error 0x20, s)) with
      | (.error c, s) => stop (s.loadRecord b.tag.num { code := c, addr := b.addr })
      | (.ok w, s) =>
        let s := s.portSend e ⟨2, w⟩
        if b.left ≤ 1 then stop s else s.modLoader fun l => { l with inband := some { b with addr := b.addr + 8, left := b.left - 1 } }

/-- Port context in p reads an element, sends a token, or both; or it sends the next CFG token of an in-band load (R144, R151, R199). -/
def execHeadlandElementSend (p : BitVec 5) (s : State) : PortOut :=
  .next (match s.core.loader.inband with
    | some b => if b.port = p && (s.port p.toNat).run.isNone then s.inbandStep else s.inStep p.toNat false false
    | none => s.inStep p.toNat false false)

end Sys2Proof.Machine
end

