-- ==== Sys2Proof/Machine/Fetch.lean ====
section
/-! DEFINITION. What runs next: the fetch of a scalar word, the delivery of a stream command to its engine, the matrix token at a control port (R59, R87, R107, R144-R146, R367). -/

namespace Sys2Proof.Machine

/-! ## The scalar fetch -/

/-- Words the instruction cache holds: 64 KiB (R87). -/
def icacheWords : Nat := 16384

/-- The word a fetch returns: one that the instruction cache holds from this launch, or the one that stands in memory now; a free choice where they differ (R87). The first fetch of an address, which the cache does not hold, gives the word that stands in memory now, one of those that R87 permits for an address written during the launch (DESIGN CHOICE, log 45). -/
def State.icacheRead (s : State) (pa : Nat) : BitVec 32 × State :=
  let now := BitVec.ofNat 32 (memNat s.mem pa 4)
  let keep (w : BitVec 32) (s : State) : State :=
    s.modCpu fun c => { c with icache := ((pa, w) :: c.icache.filter (·.1 != pa)).take icacheWords }
  match s.cpu.icache.find? (·.1 == pa) with
  | none => (now, keep now s)
  | some (_, old) =>
    if old = now then (now, s)
    else
      let (b, s) := s.choose
      if b then (now, keep now s) else (old, s)

/-- What a fetch at the pc gives: a word, or the code of a failed fetch (R367, R379). -/
def State.fetchWord (s : State) : Except (BitVec 8) (BitVec 32) × State :=
  let a := s.pc.toInt
  if !canonical a then (.error 0x22, s)
  else match s.xlateStrand .fetch a with
    | (.error c, s) => (.error c, s)
    | (.ok x, s) =>
      if s.heldErr2 (x.pa / 8) then (.error 0x32, s.countEcc 0 1)
      else
        let s := s.countEcc (if s.heldErr1 (x.pa / 8) then 1 else 0) 0
        let (w, s) := s.icacheRead x.pa
        (.ok w, s)

/-- The instruction that the strand runs next, leaving an asynchronous trap aside: a failed fetch, the decoded word or a reserved encoding. -/
def State.strandInstr (s : State) : Instr × State :=
  match s.fetchWord with
  | (.error c, s) => (.fetchFault c s.pc, s)
  | (.ok w, s) =>
    match decodeScalar w with
    | .ok i => (i, s)
    | .error cs => (.reservedEncoding cs, s)

/-! ## Stream commands -/

/-- Whether an engine context may start its next command (R144, R146, R172, R281, R309). -/
def Core.canStart (c : Core) (ctx : Nat) : Bool :=
  if c.mat.frozen || c.fq.holds ctx then false
  else if h : ctx < 64 then
    let p := c.ports[ctx]
    (match p.run with
      | none => p.st != .frozen
      | some r => decide (ctx < 32) && r.sending && p.spill.isEmpty && p.st == .running) && !p.discard &&
      (match c.loader.inband with | some i => i.port.toNat != ctx | none => true)
  else if h : ctx - 0x40 < 8 then
    let x := c.copies[ctx - 0x40]
    decide (x.runs.length < 4) && x.runs.all (·.flt.isNone) && !x.frozen
  else if ctx = 0x49 then c.drill.run.isNone && c.drill.reap.isNone && !c.drill.stopped && !c.drill.frozen
  else if ctx = 0x4A then c.ap.run.isNone && c.ap.start.isNone && c.ap.kv.isNone && !c.ap.stopped && !c.ap.frozen
  else if ctx = 0x4B then c.loader.run.isNone && c.loader.inband.isNone
  else true

/-- Of two commands the one with the lower number comes first; one with no number comes last. -/
def Cmd.before (a b : Cmd) : Bool :=
  match a.num, b.num with
  | some x, some y => decide (x ≤ y)
  | some _, none => true
  | none, _ => false

/-- The command an engine context takes next, and the queues without it: the head of its queue, or the first pair from the field for it. -/
def Core.nextCommand (c : Core) (ctx : Nat) : Option (Cmd × Queues) :=
  let fromQ := (c.on.ctxQueue ctx).bind fun qn => (c.qs.q[qn.toNat]).head?.map fun cmd => (qn, cmd)
  let fromP := (c.qs.pairs.find? fun p => p.1.toNat == ctx).map (·.2)
  let takeQ (qn : BitVec 3) (cmd : Cmd) : Cmd × Queues := (cmd, { c.qs with q := c.qs.q.set qn.toNat (c.qs.q[qn.toNat]).tail })
  let takeP (cmd : Cmd) : Cmd × Queues := (cmd, { c.qs with pairs := c.qs.pairs.eraseP fun p => p.1.toNat == ctx })
  match fromQ, fromP with
  | some (qn, a), some b => some (if b.before a then takeP b else takeQ qn a)
  | some (qn, a), none => some (takeQ qn a)
  | none, some b => some (takeP b)
  | none, none => none

/-- Deliver the next command of an engine context: the command's instruction, with the delivery noted. -/
def State.startInstr (s : State) (ctx : BitVec 8) : Option (Instr × State) :=
  match s.core.nextCommand ctx.toNat with
  | none => none
  | some (cmd, qs) =>
    if s.core.canStart ctx.toNat then
      some (decodeStream cmd.word, s.modCore fun c => { c with qs := { qs with dlv := ⟨ctx, cmd.num, cmd.sup, cmd.field⟩ } })
    else none

/-! ## Matrix control tokens -/

/-- The token at a control port of the matrix node: the AP's reserved port, or the link into ep0 (R20, R242). -/
def Core.matHead (c : Core) (ap : Bool) : Option Token :=
  if ap then c.ap.toks.head?.map fun w => ⟨0, w⟩
  else (c.field.availTo (epEndpoint 0)).head?

/-- The matrix token that the node takes next from a port, with the port noted. -/
def State.takeInstr (s : State) (ap : Bool) : Option (Instr × State) :=
  match s.core.matHead ap with
  | some ⟨0, w⟩ => some (decodeMatrix w, s.modMat fun m => { m with taking := ap })
  | some _ => if ap then none else some (.matrixEp0ControlToken, s.modMat fun m => { m with taking := false })
  | none => none

/-! ## The host at the mailbox (R401) -/

/-- Clamp E of a fault queue (R395). -/
def clampE (v : Word) : BitVec 4 :=
  let e := bits v.toNat 3 0
  if e < 4 then 4 else if 12 < e then 12 else BitVec.ofNat 4 e

/-- A host write of a mailbox register that has no event of its own; the others are ignored here (R401). -/
def State.mbWrite (s : State) (off : Nat) (v : Word) : State :=
  s.modPorter fun p => match off with
    | 0x058 => { p with hfqBase := v &&& ~~~(0xFFF#64), hfqE := clampE v }
    | 0x078 => { p with fwaddr := v }
    | 0x080 => { p with fwlen := v }
    | _ => p

/-- What a host read of a mailbox register changes: a read of MB.INVAL clears DROPPED (R378, R401). -/
def State.mbReadDone (s : State) (off : Nat) : State :=
  if off = 0x070 then s.modPorter fun p => { p with inval := (p.inval.1, false) } else s

/-! ## Units that wait for room in the fault queue (R370) -/

/-- The engine context whose unit an event moves, when it is one that can wait for room. -/
def unitOf : Instr → Option Nat
  | .headlandElementSend p => some p.toNat
  | .headlandTokenTake p => some (32 + p.toNat)
  | .extentReply p => some p.toNat
  | .expandReread p => some p.toNat
  | .matrixTokenComplete _ => some 0x48
  | .matrixEp0ControlToken => some 0x48
  | .drillTokenTake => some 0x49
  | .drillVectorFire => some 0x49
  | .apBlockStage _ => some 0x4A
  | .regionLoad _ => some 0x4B
  | .commandComplete ctx _ => some ctx.toNat
  | .cmdPairAccept loader => some (if loader then 0x4B else 0x40)
  | _ => none

/-- An event of the agenda, unless its unit waits for room. An asynchronous trap is no event of its own: it comes at a turn of the strand (R367). -/
def State.gated (s : State) (i : Instr) : Option Instr × State :=
  match i with
  | .asyncTrap => (none, s)
  | i =>
    match unitOf i with
    | some c => if s.core.fq.holds c then (none, s) else (some i, s)
    | none => (some i, s)

/-! ## The agenda (log 1) -/

/-- The instruction or event that comes next, with the time that passes before it: the agenda's first entry, else the strand of the core in focus. None: nothing happens in this step. -/
def State.nextInstr (s : State) : Option Instr × State :=
  match s.agenda with
  | [] =>
    let s := s.tick 1
    if s.cpu.run = .running && !s.core.fq.holdsStrand then let (i, s) := s.strandInstr; (some i, s) else (none, s)
  | e :: rest =>
    let s := ({ s with agenda := rest, cur := e.core }).tick e.dt
    match e.act with
    | .strand => if s.cpu.run = .running && !s.core.fq.holdsStrand then let (i, s) := s.strandInstr; (some i, s) else (none, s)
    | .start ctx => match s.startInstr ctx with | some (i, s) => (some i, s) | none => (none, s)
    | .take ap => if s.core.fq.holds 0x48 then (none, s) else match s.takeInstr ap with | some (i, s) => (some i, s) | none => (none, s)
    | .ev i => s.gated i
    | .mbWrite off v => (none, s.mbWrite off v)
    | .mbRead off => (none, s.mbReadDone off)
    | .hostStore a bs => (none, { s with hostMem := memPut s.hostMem a bs })
    | .firmware x => (none, if x.ok then s.modPorter fun p => { p with setup := x } else s)

/-! ## Placing a word where the next step fetches it -/

/-- An identity mapping of the page of an address, for every access. -/
def placeExtent (pc pa : Nat) : Extent := ⟨signed 57 (pc / 4096 * 4096), pa / 4096 * 4096, 4096, true, true, true, true, false, false⟩

/-- Put a scalar word at the pc of the core in focus, mapped, and let its strand run with no trap pending. -/
def State.placeScalar (s : State) (w : Nat) : State :=
  let pc := if canonical s.pc.toInt then s.pc &&& ~~~3#64 else 0
  let pa := pc.toNat % 2 ^ 30
  let s := { s with agenda := [], mem := memPut s.mem pa (toBytes 4 w), ecc2 := delNat (pa / 8) s.ecc2 }
  s.modCore fun c => { c with
    cpu := { c.cpu with pc := pc, run := .running, tlb := placeExtent pc.toNat pa :: c.cpu.tlb, icache := [] }
    fq := { c.fq with written := [], waiting := [] } }

/-- The engine context that a stream word is placed at: one of its opcode's class and kind. -/
def placeCtx (w : Nat) : BitVec 8 :=
  let op := w / 2 ^ 120 % 256
  match op / 16 with
  | 0 => if op = 2 || op = 5 || op = 6 || op = 0xA || op = 0xB then 0x20 else 0x00
  | 1 => 0x40
  | 2 => 0x4B
  | 3 => 0x49
  | 4 => 0x4A
  | _ => 0x40

/-- Put a stream command before its engine, as a pair from the field, first on the agenda. -/
def State.placeStream (s : State) (w : Nat) : State :=
  let ctx := placeCtx w
  let s := { s with agenda := [⟨1, s.cur, .start ctx⟩] }
  s.modCore fun c => { c with
    qs := { c.qs with q := .replicate 8 [], pairs := [(ctx, ⟨BitVec.ofNat 128 w, none, false, true⟩)] }
    fq := { c.fq with waiting := [] }, loader := ⟨none, none, none⟩, mat := { c.mat with frozen := false }
    ports := c.ports.map fun (p : Port) => { p with run := none, st := .idle, discard := false }
    copies := c.copies.map fun _ => .reset
    drill := { c.drill with run := none, reap := none, stopped := false, frozen := false }
    ap := { c.ap with start := none, run := none, kv := none, stopped := false, frozen := false } }

/-- Put a matrix control token at the AP's port of the matrix node, first on the agenda. -/
def State.placeMatrix (s : State) (w : Nat) : State :=
  let s := { s with agenda := [⟨1, s.cur, .take true⟩] }
  s.modCore fun c => { c with
    mat := { c.mat with lastAp := false, stopAp := false, frozen := false }
    ap := { c.ap with toks := [BitVec.ofNat 64 w] }, fq := { c.fq with waiting := [] } }

end Sys2Proof.Machine
end

