-- ==== Sys2Proof/Machine/Matrix.lean ====
section
/-! DEFINITION. The matrix node: streams of A and B, group sums, takes, drains, faults, and accumulator nodes (R20, R47, R48, R74, R75, R237-R258). -/

namespace Sys2Proof

/-- The sizes of a token. -/
def MTok.rows (t : MTok) : Nat := t.m.toNat + 1
def MTok.cols (t : MTok) : Nat := t.n.toNat + 1
def MTok.depth (t : MTok) : Nat := 32 * (t.k.toNat + 1)

end Sys2Proof

namespace Sys2Proof.Machine

/-- The meaning's answer. -/
abbrev MatOut := Host.Outcome State Fault Refusal

/-! ## Streams (R238-R240, R244, R247) -/

/-- Bytes of one element; FW8 counts as one (R74). -/
def matBytes (code : Nat) : Nat := if code = 11 || code = 12 then 2 else 1

/-- Coordinates of one pass (R237). -/
def chunkOf (code : Nat) : Nat := if code = 11 || code = 12 then 64 else 128

/-- The bytes of a stream by position, or the fault of reading one. -/
abbrev ByteSrc := Nat → Except (BitVec 8) Byte

/-- n bytes of a stream from position p. -/
def ByteSrc.bytes (src : ByteSrc) (p n : Nat) : Except (BitVec 8) (List Byte) := (rangeFrom p n).mapM src

/-- Whether a position lies past a bound of its stream. -/
def ByteSrc.past (src : ByteSrc) (p : Nat) : Bool := match src p with | .error c => c == 0x64 | .ok _ => false

/-- Values read from a stream, the position after them, and the fault that ended the reading. -/
structure Part where
  vals : List Val
  pos  : Nat
  err  : Option (BitVec 8)
  deriving DecidableEq, Repr

/-- The FW8 block at a position, its bytes read as the decoder needs them (R40). One whose payload runs on past the stream's bound disagrees with its len (R244). -/
def fw8From (src : ByteSrc) (p : Nat) : Nat → List Byte → Except (BitVec 8) (List Val × Nat)
  | 0, bs => fw8Decode bs
  | n + 1, bs =>
    match fw8Try bs with
    | some r => r
    | none => match src (p + bs.length) with
      | .error c => .error (if c = 0x64 then 0x91 else c)
      | .ok b => fw8From src p n (bs ++ [b])

/-- n FW8 blocks from a position, of which want values count (R38, R244). -/
def fw8Part (src : ByteSrc) : Nat → Nat → Part → Part
  | 0, _, a => a
  | n + 1, want, a =>
    match src.bytes a.pos 3 with
    | .error c => { a with err := some c }
    | .ok h =>
      if src.past (a.pos + fw8Len h - 1) then { a with err := some 0x64 }
      else match fw8From src a.pos fw8Most h with
        | .error c => { a with err := some c }
        | .ok (vs, len) => fw8Part src n (want - 32) ⟨a.vals ++ vs.take want, a.pos + len, none⟩

/-- n elements of another format from a position. -/
def densePart (v : FEnv) (code : Nat) (src : ByteSrc) : Nat → Part → Part
  | 0, a => a
  | n + 1, a =>
    match src.bytes a.pos (matBytes code) with
    | .error c => { a with err := some c }
    | .ok bs => densePart v code src n ⟨a.vals ++ [valOf v code (ofBytes bs)], a.pos + matBytes code, none⟩

/-- n packed values from a position. -/
def packedPart (v : FEnv) (code : Nat) (src : ByteSrc) (n pos : Nat) : Part :=
  if code = 10 then fw8Part src (cdiv n 32) n ⟨[], pos, none⟩ else densePart v code src n ⟨[], pos, none⟩

/-- A row of A or a column of B: the value of each coordinate, none where a mask marks it absent; the bytes read; and the fault with the coordinate at which it arises. -/
structure Strm where
  vals : List (Option Val)
  len  : Nat
  err  : Option (BitVec 8 × Nat)
  deriving DecidableEq, Repr

/-- A dense stream of k elements. -/
def denseStrm (v : FEnv) (code k : Nat) (src : ByteSrc) : Strm :=
  let p := packedPart v code src k 0
  ⟨p.vals.map some, p.pos, p.err.map fun c => (c, p.vals.length)⟩

/-- Present values placed at their coordinates: mask bits from bit 0. -/
def atMask : List Bool → List Val → List (Option Val)
  | [], _ => []
  | true :: ms, x :: xs => some x :: atMask ms xs
  | _ :: ms, xs => none :: atMask ms xs

/-- One masked chunk of w coordinates, of which n count: the mask, then the present values (R247). -/
def sparseChunk (v : FEnv) (code w n : Nat) (src : ByteSrc) (a : Strm) : Strm :=
  if a.err.isSome then a
  else match src.bytes a.len (w / 8) with
    | .error c => { a with err := some (c, a.vals.length) }
    | .ok mb =>
      let mask := (List.range n).map fun i => strBit mb i
      let p := packedPart v code src (mask.countP id) (a.len + w / 8)
      let good := atMask mask p.vals
      let at' := (((List.range n).filter fun i => strBit mb i)[p.vals.length]?).getD 0
      ⟨a.vals ++ good, p.pos, p.err.map fun c => (c, a.vals.length + at')⟩

/-- A sparse stream of k coordinates in chunks of w (R247). -/
def sparseStrm (v : FEnv) (code k w : Nat) (src : ByteSrc) : Strm :=
  (List.range (cdiv k w)).foldl (fun a g => sparseChunk v code w (min w (k - g * w)) src a) ⟨[], 0, none⟩

/-! ## Where the bytes lie -/

/-- The first byte of the MAT room, and the first byte of the drain queue within it (R239). -/
def Cellar.matBase (c : Cellar) : Nat := c.w1 * bankBytes
def Cellar.matLimit (c : Cellar) : Nat := (c.w2 - c.w1 - 1) * bankBytes

/-- A MAT byte, below the drain queue. -/
def Core.matByte (c : Core) (a : Nat) : Except (BitVec 8) Byte :=
  if c.cellar.matLimit ≤ a then .error 0x64
  else if c.cellar.err2.contains ((c.cellar.matBase + a) / 8) then .error 0x32
  else .ok (memGet c.cellar.bytes (c.cellar.matBase + a))

/-- A loft byte. -/
def Core.loftByte (c : Core) (a : Nat) : Except (BitVec 8) Byte :=
  if 2 ^ 24 ≤ a then .error 0x64 else if c.loft.err2.contains (a / 8) then .error 0x32 else .ok (memGet c.loft.bytes a)

/-- The byte of stream position p of column j, from tile 0 of a token: loft tile t0 on, or MAT (R238, R239). -/
def sliceAddr (first j p : Nat) : Nat := first + 16384 * (p / 128) + 128 * j + p % 128

/-- Fields of cr.MAWIN (R241). -/
def winPtr (w : Word) : Nat := bits w.toNat 17 0
def winPitch (w : Word) : Nat := bits w.toNat 47 36
def winStep (w : Word) : Int := signed 18 (bits w.toNat 35 18)

/-- The window after a take (R242). -/
def winNext (w : Word) : Word :=
  let p := (((winPtr w : Int) + winStep w) % (2 ^ 18 : Int)).toNat
  (w &&& ~~~(0x3FFFF#64)) ||| BitVec.ofNat 64 p

/-- The row pitch of A, in 64-byte units (R240). -/
def rowPitch (w : Word) (k code : Nat) : Nat := if winPitch w = 0 then cdiv (k * matBytes code) 64 else winPitch w

/-- Fields of cr.MDEST (R241). -/
def destTomat (w : Word) : Bool := w.getLsbD 0
def destFmt (w : Word) : Nat := bits w.toNat 5 1
def destRnd (w : Word) : BitVec 2 := w.extractLsb' 6 2
def destOff (w : Word) : Nat := bits w.toNat 25 8
def destPitch (w : Word) (n : Nat) : Nat :=
  let p := bits w.toNat 37 26
  if p = 0 then cdiv (n * fmtBytes (destFmt w)) 64 else p

/-- Row i of A through the window (R240). -/
def Core.rowStrm (c : Core) (v : FEnv) (win : Word) (op : Nat) (t : MTok) (i : Nat) : Strm :=
  let code := t.fa.toNat
  let first := 64 * (winPtr win + i * rowPitch win t.depth code)
  let bounded := op == 6 || code == 10
  let src : ByteSrc := fun p => if bounded && decide (64 * winPitch win ≤ p) then .error 0x64 else c.matByte (first + p)
  if op = 6 then sparseStrm v code t.depth t.depth src else denseStrm v code t.depth src

/-- Column j of B, from the loft or, for MMAC, from MAT (R238, R239). -/
def Core.colStrm (c : Core) (v : FEnv) (op : Nat) (t : MTok) (j : Nat) : Strm :=
  let code := t.fb.toNat
  let src : ByteSrc :=
    if op = 4 then fun p => c.matByte (sliceAddr (64 * t.loc.toNat) j p) else fun p => c.loftByte (sliceAddr (16384 * t.loc.toNat) j p)
  if op = 7 then sparseStrm v code t.depth (chunkOf code) src else denseStrm v code t.depth src

/-- Corrected words among the bytes of a stream. -/
def singlesOf (err1 : NatSet) (addr : Nat → Nat) (len : Nat) : Nat :=
  (List.range (cdiv len 8)).countP fun i => err1.contains (addr (8 * i) / 8)

/-- Corrected words that the operands of a token hold. -/
def Core.matSingles (c : Core) (win : Word) (op : Nat) (t : MTok) (rows cols : List Strm) : Nat :=
  let a := rows.zipIdx.foldl (fun n x =>
    n + singlesOf c.cellar.err1 (fun p => c.cellar.matBase + 64 * (winPtr win + x.2 * rowPitch win t.depth t.fa.toNat) + p) x.1.len) 0
  let b := cols.zipIdx.foldl (fun n x =>
    n + (if op = 4 then singlesOf c.cellar.err1 (fun p => c.cellar.matBase + sliceAddr (64 * t.loc.toNat) x.2 p) x.1.len
         else singlesOf c.loft.err1 (fun p => sliceAddr (16384 * t.loc.toNat) x.2 p) x.1.len)) 0
  a + b

/-- A row of A, with the columns of B as the passes of that row read them (R251). -/
abbrev RowRead := Strm × List Strm

/-- The fault that the passes of a token meet first: passes row by row and chunk by chunk, a chunk of A before the columns; MMAC loads B first (R237, R255). Code, row, column. -/
def firstFault (op c k : Nat) (xs : List RowRead) : Option (BitVec 8 × Nat × Nat) :=
  let kc := cdiv k c
  let late := if op = 4 then xs.length * kc * 256 + kc * 256 else 0
  let fa := xs.zipIdx.filterMap fun x => x.1.1.err.map fun e => (late + (x.2 * kc + e.2 / c) * 256, e.1, x.2, 0)
  let fb := (if op = 4 then xs.take 1 else xs).zipIdx.flatMap fun x =>
    x.1.2.zipIdx.filterMap fun y => y.1.err.map fun e => ((x.2 * kc + e.2 / c) * 256 + y.2 + 1, e.1, x.2, y.2)
  ((fa ++ fb).foldl (fun (o : Option (Nat × BitVec 8 × Nat × Nat)) e => match o with
    | none => some e
    | some d => if e.1 < d.1 then some e else some d) none).map fun e => e.2

/-! ## Sums (R47, R48, R247) -/

/-- The present products of one group. -/
def groupProducts (a b : List (Option Val)) : List (Val × Flags) :=
  (a.zip b).filterMap fun x => match x with
    | (some p, some q) => some (vmul p q)
    | _ => none

/-- The exact sum of one group's products with the rules of R47; none when no product is present. -/
def groupSum (a b : List (Option Val)) : Option (Val × Flags) :=
  let ps := groupProducts a b
  if ps.isEmpty then none
  else
    let fl := ps.foldl (fun f p => f ||| p.2) 0
    let infs := (ps.any fun p => p.1 == .inf true) && (ps.any fun p => p.1 == .inf false)
    if infs then some (.nan, fl ||| flagI)
    else if ps.any fun p => p.1.isNan then some (.nan, fl)
    else some ((ps.tail.foldl (fun x p => (vadd 0 x p.1).1) (ps.headD (.nan, 0)).1), fl)

/-- One group added to an FP32 element (R47). -/
def groupStep (v : FEnv) (acc : Nat × Flags) (a b : List (Option Val)) : Nat × Flags :=
  match groupSum a b with
  | none => acc
  | some (x, f) =>
    let (gs, f1) := toFloat v 13 0 x
    let (r, f2) := fadd v 13 0 acc.1 gs
    (r, acc.2 ||| f ||| f1 ||| f2)

/-- One output element of a float pairing (R47). -/
def dotFloat (v : FEnv) (k : Nat) (start : Nat) (a b : List (Option Val)) : Nat × Flags :=
  (List.range (k / 32)).foldl (fun acc g => groupStep v acc ((a.drop (32 * g)).take 32) ((b.drop (32 * g)).take 32)) (start, 0)

/-- The integer of a value. -/
def Val.toZ : Val → Int
  | .fin s m e => alignTo s m e 0
  | _ => 0

/-- One output element of the INT8 pairing: the exact sum, then the partial, saturating (R48). -/
def dotInt (start : Int) (a b : List (Option Val)) : Int × Flags :=
  let p := (groupProducts a b).foldl (fun (x : Int) q => x + q.1.toZ) 0
  let y := sat (start + p) (intMin 5) (intMax 5)
  (y, if y = start + p then 0 else flagO)

/-- The partials of a token (R245). -/
def arraySums (v : FEnv) (int : Bool) (k : Nat) (old : List (BitVec 32)) (xs : List RowRead) : List (BitVec 32) × Flags :=
  let rs := xs.zipIdx.flatMap fun r => r.1.2.zipIdx.map fun c =>
    let start := (old.getD (r.2 * r.1.2.length + c.2) 0)
    if int then let (y, f) := dotInt start.toInt r.1.1.vals c.1.vals; (BitVec.ofInt 32 y, f)
    else let (y, f) := dotFloat v k start.toNat r.1.1.vals c.1.vals; (BitVec.ofNat 32 y, f)
  (rs.map (·.1), rs.foldl (fun f x => f ||| x.2) 0)

/-- A float element drained: one rounding of the exact product (R246). -/
def drainElem (v : FEnv) (p : BitVec 32) (sa sb : Val) : BitVec 32 × Flags :=
  let (x, f1) := vmul (unpack v 13 p.toNat) sa
  let (y, f2) := vmul x sb
  let (r, f3) := toFloat v 13 0 y
  (BitVec.ofNat 32 r, f1 ||| f2 ||| f3)

/-- The elements of a drain, row-major, with flags; sb by column. -/
def drainAll (v : FEnv) (int : Bool) (n : Nat) (vals : List (BitVec 32)) (sa : Val) (sb : Nat → Val) : List (BitVec 32) × Flags :=
  if int then (vals, 0)
  else
    let rs := vals.zipIdx.map fun x => drainElem v x.1 sa (sb (x.2 % n))
    (rs.map (·.1), rs.foldl (fun f x => f ||| x.2) 0)

/-- The elements and marks of a drain (R246). -/
def drainItems (m n : Nat) (vals : List (BitVec 32)) : List QItem :=
  (List.range m).flatMap fun i =>
    (((vals.drop (i * n)).take n).map QItem.elem) ++ [if i + 1 = m then .stop 1 m else .stop 0 n]

/-! ## Taking a token (R20, R242-R244) -/

/-- Whether a token's formats pair (R74). -/
def pairOk (fa fb : Nat) : Bool :=
  let f8 (x : Nat) : Bool := x == 8 || x == 9 || x == 10
  (fa == 1 && fb == 1) || (f8 fa && f8 fb) || (fa == fb && (fa == 11 || fa == 12))

/-- Elements and marks that the queue holds, or has set aside for tokens taken (R242). -/
def Matrix.queued (m : Matrix) : Nat × Nat :=
  let e := m.dq.countP (·.isNone)
  (m.runs.filter fun r => !r.ap && r.drain && !r.tomat).foldl (fun x r => (x.1 + r.rows * r.n, x.2 + r.rows)) (e, m.dq.length - e)

/-- Whether the queue has room for a drain of m rows of n (R242, R252). -/
def Matrix.roomFor (x : Matrix) (m n : Nat) : Bool :=
  let (e, k) := x.queued
  decide (e + m * n ≤ 16384) && decide (k + m ≤ 1024)

/-- The store of a port. -/
def Matrix.store (m : Matrix) (ap : Bool) : PStore := if ap then m.aps else m.ep
def Matrix.setStore (m : Matrix) (ap : Bool) (p : PStore) : Matrix := if ap then { m with aps := p } else { m with ep := p }

/-- Whether a port takes tokens at all. -/
def Matrix.portOpen (m : Matrix) (ap : Bool) : Bool := !m.frozen && (if ap then !m.stopAp else !m.stopped && !m.eos)

/-- Checks of R74 and R75, and of CARRY. -/
def fieldsBad (p : PStore) (op : Nat) (t : MTok) : Bool :=
  if op = 5 then
    t.k != 0 || t.acc || t.sa != 0 || t.sb != 0 || t.fa != 0 || t.fb != 0 || t.loc != 0 ||
    !p.carry || p.m != t.rows || p.n != t.cols
  else
    !(decide (1 ≤ op) && decide (op ≤ 7)) || !pairOk t.fa.toNat t.fb.toNat || (op == 3 && t.m != 0) ||
    (op != 4 && decide (1024 ≤ t.loc.toNat)) ||
    (op != 2 && p.carry && (p.m != t.rows || p.n != t.cols || p.int != (t.fa == 1)))

/-- Checks of an ep0 token's ranges (R244). -/
def Core.rangesBad (c : Core) (win : Word) (op : Nat) (t : MTok) : Bool :=
  let k := t.depth
  let zb := k * matBytes t.fb.toNat
  let tiles := cdiv zb 128
  let lim := c.cellar.matLimit
  let stream := op == 6 || t.fa == 10
  op != 5 &&
  ((if stream then winPitch win == 0
    else decide (lim < 64 * (winPtr win + (t.rows - 1) * rowPitch win k t.fa.toNat) + k * matBytes t.fa.toNat)) ||
   (t.fb != 10 &&
    (if op = 4 then decide (lim < sliceAddr (64 * t.loc.toNat) (t.cols - 1) (zb - 1) + 1) ||
        decide (lim < 64 * t.loc.toNat + 16384 * (tiles - 1) + (if tiles = 1 then 0 else 128 * (t.cols - 1)) + 1)
     else op != 7 && decide (1023 < t.loc.toNat + tiles - 1))))

/-- The check of a drain's destination (R244). -/
def Core.destBad (c : Core) (dest : Word) (int : Bool) : Bool :=
  if destTomat dest then !([1, 5, 8, 9, 11, 12, 13].contains (destFmt dest))
  else match (c.field.linkFrom (epEndpoint 1)).bind fun i => c.field.links[i]? with
    | none => true
    | some l => l.fmt != (if int then 5 else 13)

/-- Whether a token fails a check at its take (R244): it faults with 0x64. -/
def Core.tokenBad (c : Core) (ap : Bool) (op : Nat) (t : MTok) : Bool :=
  let p := c.mat.store ap
  fieldsBad p op t ||
  (!ap && (decide (c.cellar.w2 ≤ c.cellar.w1) || c.rangesBad c.mat.mawin op t ||
    (!t.acc && c.destBad c.mat.mdest (if op = 5 then p.int else t.fa == 1))))

/-- Whether a good ep0 token must wait: for queue room (R242), or while a move of w1 or w2 runs (R330). Every token reads or writes MAT: one that only drains writes its destination there, or the queue in the last bank (DESIGN CHOICE, log 44). -/
def Core.tokenWaits (c : Core) (t : MTok) : Bool :=
  (!t.acc && !destTomat c.mat.mdest && !c.mat.roomFor t.rows t.cols) ||
  (match c.cellar.move with | some (n, _) => n != 3 | none => false)

/-- The fields of a token's word. -/
def tokenOf (w : Word) : Nat × MTok :=
  (bits w.toNat 63 58, ⟨w.extractLsb' 51 7, w.extractLsb' 44 7, w.extractLsb' 37 7, w.getLsbD 36, w.extractLsb' 32 4, w.extractLsb' 28 4,
    w.extractLsb' 23 5, w.extractLsb' 18 5, w.extractLsb' 0 18⟩)

/-- The MAT ranges that an ep0 token names: rows of A, columns of B for MMAC, rows of a TOMAT drain (R238-R241, R322). Of an FW8 stream the values count, one byte each (log 25). -/
def Core.tokenRanges (c : Core) (win : Word) (op : Nat) (t : MTok) : List (Nat × Nat) :=
  let k := t.depth
  let zb := k * matBytes t.fb.toNat
  let rowLen := if op == 6 || t.fa == 10 then 64 * winPitch win else k * matBytes t.fa.toNat
  let a := if op = 5 then [] else (List.range t.rows).map fun i => (64 * (winPtr win + i * rowPitch win k t.fa.toNat), rowLen)
  let b := if op ≠ 4 then [] else (List.range (cdiv zb 128)).flatMap fun g => (List.range t.cols).map fun j =>
    (sliceAddr (64 * t.loc.toNat) j (128 * g), min 128 (zb - 128 * g))
  let d := c.mat.mdest
  let w := if t.acc || !destTomat d then [] else (List.range t.rows).map fun i =>
    (64 * (destOff d + i * destPitch d t.cols), t.cols * fmtBytes (destFmt d))
  a ++ b ++ w

/-- Whether a port holds a token that can be taken (R20). -/
def Core.takeable (c : Core) (ap : Bool) : Bool :=
  c.mat.portOpen ap &&
  match c.matHead ap with
  | some ⟨0, w⟩ =>
    let (op, t) := tokenOf w
    ap || c.tokenBad ap op t || !c.tokenWaits t
  | _ => false

/-- Whether the AP's port holds a token that can be taken: one in its list, or the next token of a block of the running ATTN, which waits there for its turn. -/
def Core.apHolds (c : Core) : Bool :=
  c.takeable true || (c.mat.portOpen true && !c.ap.stopped && !c.ap.frozen && c.ap.run.any (·.offer.isSome))

/-- Whether the other port's token comes before one of this port: the port served last yields (R20). -/
def Core.yields (c : Core) (ap : Bool) : Bool := c.mat.lastAp == ap && if ap then c.takeable false else c.apHolds

/-- The token leaves its port. -/
def State.dropToken (s : State) (ap : Bool) : State :=
  if ap then s.modAp fun a => { a with toks := a.toks.tail } else s.portTake (epEndpoint 0)

/-- Complete a number of the matrix timeline (R250). -/
def State.matComplete (s : State) (num : Nat) : State :=
  match s.core.on.ctxTl 0x48 with
  | some tl => s.completeNum tl (some num)
  | none => s

/-- The fault of a token: its record, its port stops, its number completes (R256, R384). -/
def State.matFault (s : State) (ap : Bool) (code : BitVec 8) (num take row col : Nat) : State :=
  let s := if code = 0x32 then s.countEcc 0 1 else s
  let s := s.report { s.engineRec code 0x48 (if ap then none else some take) with
    r := true, detail := BitVec.ofNat 64 (row * 256 + col) }
  let s := s.modMat fun m => if ap then { m with stopAp := true } else { m with stopped := true }
  if ap then s else s.matComplete num

/-! ### Operands of the AP's port (R261, R263) -/

/-- A coordinate of the operand buffer. -/
def OpBuf.coord (o : OpBuf) (v : FEnv) (code : Nat) (xs : List (BitVec 16)) (scaled : Bool) (t : Nat) : Option Val :=
  if o.used ≤ t then none
  else
    let x := unpack v code (xs.getD t 0).toNat
    some (if scaled then scaleE8 (o.ks.getD t 127).toNat x else x)

/-- Rows of A and columns of B in the AP's operand buffer. -/
def OpBuf.rows (o : OpBuf) (v : FEnv) (t : MTok) : List Strm :=
  (List.range t.rows).map fun i => ⟨(List.range t.depth).map (o.coord v t.fa.toNat (o.a.getD i []) false), 0, none⟩
def OpBuf.cols (o : OpBuf) (v : FEnv) (t : MTok) : List Strm :=
  (List.range t.cols).map fun j => ⟨(List.range t.depth).map (o.coord v t.fb.toNat (o.b.getD j []) true), 0, none⟩

/-- n free values. -/
def State.freeVals (s : State) : Nat → List (BitVec 32) × State
  | 0 => ([], s)
  | n + 1 =>
    let (w, s) := s.freeWord
    let (ws, s) := State.freeVals s n
    (w.setWidth 32 :: ws, s)

/-- The sums of an AP token. The operand buffer holds 16-bit elements; a token of another format has free sums (log 21). -/
def State.apSums (s : State) (t : MTok) (old : List (BitVec 32)) : (List (BitVec 32) × Flags) × State :=
  if t.fa == 11 || t.fa == 12 then
    let o := s.core.ap.opbuf
    (arraySums s.fenv false t.depth old ((o.rows s.fenv t).map fun r => (r, o.cols s.fenv t)), s)
  else let (vs, s) := s.freeVals (t.rows * t.cols); ((vs, 0), s)

/-! ### The passes (R251) -/

/-- A memory as reads have met it, element by element of z bytes: where a byte has changed, a free choice among the contents since the take (R251, log 38). -/
def mixMem (seed z : Nat) (was : List Memory) (new : Memory) : Memory :=
  let changed := (((was.flatten ++ new).map (·.1)).filter fun a => was.any fun m => memGet m a != memGet new a).map (· / z)
  changed.eraseDups.zipIdx.foldl (fun m x =>
    match was[(Config.freeWord (seed + x.2)).toNat % (was.length + 1)]? with
    | some old => memPut m (x.1 * z) (memBytes old (x.1 * z) z)
    | none => m) new

/-- Whether nothing that a token reads has changed since its take. -/
def MPend.steady (p : MPend) (c : Core) : Bool := p.was.all fun x => x.1 == c.cellar.bytes && x.2 == c.loft.bytes

/-- More than the elements that can have changed: how far apart the free choices of two rows lie. -/
def MPend.span (p : MPend) (c : Core) : Nat :=
  (p.was.map fun x => x.1.length + x.2.length).sum + c.cellar.bytes.length + c.loft.bytes.length

/-- The core as the passes of one row have read it. -/
def MPend.asRead (p : MPend) (c : Core) (seed : Nat) : Core :=
  let z := matBytes p.tok.fa.toNat
  { c with
    cellar := { c.cellar with bytes := mixMem seed z (p.was.map (·.1)) c.cellar.bytes }
    loft := { c.loft with bytes := mixMem (seed + p.span c) z (p.was.map (·.2)) c.loft.bytes } }

/-- What the passes of a token have read, row by row: each pass reads the columns anew, but MMAC reads them once, first (R237, R251). -/
def State.passReads (s : State) (p : MPend) : List RowRead × State :=
  let c := s.core
  let v := s.fenv
  let t := p.tok
  let cols (c : Core) : List Strm := (List.range t.cols).map (c.colStrm v p.op t)
  if p.op = 5 then ([], s)
  else if p.steady c then
    let bs := cols c
    ((List.range t.rows).map fun i => (c.rowStrm v p.win p.op t i, bs), s)
  else
    let at' (i : Nat) : Core := p.asRead c (s.pick + 2 * p.span c * i)
    ((List.range t.rows).map fun i => ((at' i).rowStrm v p.win p.op t i, cols (at' (if p.op = 4 then t.rows else i))),
      { s with pick := s.pick + 2 * p.span c * (t.rows + 1) })

/-! ### The take -/

/-- What a token delivers, from its sums: the port's store, or the drained elements with their marks, and the flags (R243, R245, R246). -/
def tokDeliver (t : MTok) (v : FEnv) (op : Nat) (int : Bool) (sa : Val) (sb : Nat → Val) (vals : List (BitVec 32)) (fl : Flags) :
    PStore × List QItem × Flags :=
  let one : Val := .fin false 1 0
  if t.acc then (⟨true, t.rows, t.cols, int, vals⟩, [], fl)
  else
    let (ds, f) := if op = 5 then drainAll v int t.cols vals one fun _ => one else drainAll v int t.cols vals sa sb
    (.reset, drainItems t.rows t.cols ds, fl ||| f)

/-- The run of a token, as its take leaves it. -/
def tokRun (t : MTok) (ap : Bool) (num take : Nat) (int : Bool) (dest : Word) (named : List (Nat × Nat)) (pend : Option MPend) : MRun :=
  { ap := ap, num := num, take := take, drain := !t.acc, tomat := !ap && destTomat dest, items := [], off := 64 * destOff dest,
    pitch := 64 * destPitch dest t.cols, fmt := destFmt dest, rnd := destRnd dest, rows := t.rows, n := t.cols, int := int, flags := 0,
    named := named, pend := pend }

/-- The passes of the taken ep0 token end, where one is in them (R245, R251): its sums, or the fault that they meet, which clears the port's store and ends the token (R256). -/
def State.matPass (s : State) : State :=
  match s.core.mat.runs.findIdx? (·.pend.isSome) with
  | none => s
  | some i => match s.core.mat.runs[i]? with
    | none => s
    | some r => match r.pend with
      | none => s
      | some p =>
        let t := p.tok
        let v := s.fenv
        let st := s.core.mat.ep
        let (xs, s) := s.passReads p
        match firstFault p.op (chunkOf t.fa.toNat) t.depth xs with
        | some (code, row, col) =>
          (s.modMat fun m => { m with ep := .reset, runs := m.runs.eraseIdx i }).matFault false code r.num r.take row col
        | none =>
          let s := s.countEcc (s.core.matSingles p.win p.op t (xs.map (·.1)) ((xs.head?).elim [] (·.2))) 0
          let old := if p.op != 2 && st.carry then st.vals else []
          let (vals, fl) := if p.op = 5 then (st.vals, 0) else arraySums v r.int t.depth old xs
          let (st, items, fl) := tokDeliver t v p.op r.int (unpack v 13 p.sa.toNat) (fun _ => unpack v 13 p.sb.toNat) vals fl
          s.modMat fun m => { m with ep := st, runs := m.runs.set i { r with items := items, flags := fl, pend := none } }

/-- Take the token at the port in hand (R242): its checks, its captures. An ep0 token's passes read their operands later (R251), and end before the next take (R254); the AP's operands stand in its buffer. -/
def State.matTake (s : State) (op : Nat) (t : MTok) : State :=
  let ap := s.core.mat.taking
  if !s.core.mat.portOpen ap then s
  else
    let s := s.matPass
    let c := s.core
    if !c.mat.portOpen ap then s
    else if !ap && !c.tokenBad false op t && c.tokenWaits t then s
    else if c.yields ap then s
    else
      let s := (s.dropToken ap).modMat fun m => { m with lastAp := ap }
      let (num, s) := if ap then (0, s) else match s.core.on.ctxTl 0x48 with
        | some tl => let (n, qs) := s.core.qs.take s.core.on tl; (n.getD 0, s.modQs fun _ => qs)
        | none => (0, s)
      -- the number of R250; with no timeline, the count of tokens taken
      let take := if num = 0 then c.mat.taken.toNat + 1 else num
      if c.tokenBad ap op t then s.matFault ap 0x64 num take 0 0
      else
        let p := c.mat.store ap
        let int := if op = 5 then p.int else t.fa == 1
        let win := c.mat.mawin
        let dest := c.mat.mdest
        if ap then
          let old := if op != 2 && p.carry then p.vals else []
          let ((vals, fl), s) := if op = 5 then ((p.vals, 0), s) else s.apSums t old
          let o := s.core.ap.opbuf
          let v := s.fenv
          let (st, items, fl) := tokDeliver t v op int (unpack v 13 o.sa.toNat) (fun j => e8 (o.cs.getD j 127).toNat) vals fl
          s.modMat fun m => { m with aps := st, runs := m.runs ++ [{ tokRun t true 0 take int dest [] none with items := items, flags := fl }] }
        else
          let pend : MPend := ⟨op, t, win, c.mat.sc[t.sa.toNat], c.mat.sc[t.sb.toNat], dest, [(c.cellar.bytes, c.loft.bytes)]⟩
          s.modMat fun m => { m with
            taken := m.taken + 1
            mawin := winNext m.mawin
            runs := m.runs ++ [tokRun t false num take int dest (c.tokenRanges win op t) (some pend)] }

/-- MMA (R245). -/
def execMma (t : MTok) (s : State) : MatOut := .next (s.matTake 1 t)

/-- MMAZ: from +0, whatever CARRY holds (R245). -/
def execMmaz (t : MTok) (s : State) : MatOut := .next (s.matTake 2 t)

/-- MVEC: m = 1 (R245). -/
def execMvec (t : MTok) (s : State) : MatOut := .next (s.matTake 3 t)

/-- MMAC: B from the MAT room (R239, R245). -/
def execMmac (t : MTok) (s : State) : MatOut := .next (s.matTake 4 t)

/-- MDRN: drains what is carried, factor 1 (R245, R246). -/
def execMdrn (t : MTok) (s : State) : MatOut := .next (s.matTake 5 t)

/-- SPMA: A sparse (R247). -/
def execSpma (t : MTok) (s : State) : MatOut := .next (s.matTake 6 t)

/-- SPMB: B sparse (R247). -/
def execSpmb (t : MTok) (s : State) : MatOut := .next (s.matTake 7 t)

/-- A token of an unassigned operation faults with 0x64 at its take (R75). -/
def execUnassignedMatrixOperation (op : BitVec 6) (body : BitVec 58) (s : State) : MatOut :=
  .next (s.matTake op.toNat (tokenOf (op ++ body)).2)

/-! ## Completion and drains (R246, R250, R252) -/

/-- The bytes of one drained row in the MAT room, with flags (R246). -/
def MRun.rowBytes (r : MRun) (v : FEnv) (xs : List (BitVec 32)) : List Byte × Flags :=
  let rs := xs.map fun x => Sys2Proof.Machine.convert v (if r.int then 5 else 13) r.fmt r.rnd (if r.int then x.signExtend 64 else x.setWidth 64)
  (rs.flatMap fun w => toBytes (fmtBytes r.fmt) w.1.toNat, rs.foldl (fun f w => f ||| w.2) 0)

/-- The drained elements of a run, row-major. -/
def MRun.elems (r : MRun) : List (BitVec 32) := r.items.filterMap fun i => match i with | .elem v => some v | .stop _ _ => none

/-- The first byte of the drain queue's bank (R239, R252). -/
def Cellar.queueBase (c : Cellar) : Nat := (c.w2 - 1) * bankBytes

/-- Write bytes at cellar byte o; or the number of the byte at which a word could not be merged (R390). -/
def Cellar.merge (c : Cellar) (o : Nat) (bs : List Byte) : Except Nat Cellar :=
  match (locsOf o bs.length).find? fun l => !covers o bs.length l && c.err2.contains l with
  | some l => .error (l * 8 - o)
  | none => .ok (c.write o bs)

/-- Write the drained rows into the MAT room from row i on; a row may reach the drain queue's bank, and bytes past the room are not written (log 22). The flags, or the row and column at which a word could not be merged. -/
def State.tomatRows (s : State) (r : MRun) : Nat → Nat → Flags → State × Except (Nat × Nat) Flags
  | 0, _, fl => (s, .ok fl)
  | k + 1, i, fl =>
    let (bs, f) := r.rowBytes s.fenv ((r.elems.drop (i * r.n)).take r.n)
    let c := s.core.cellar
    let a := r.off + i * r.pitch
    let bs := bs.take ((c.w2 - c.w1) * bankBytes - a)
    let o := c.matBase + a
    match c.merge o bs with
    | .error k => (s, .error (i, k / fmtBytes r.fmt))
    | .ok c' => State.tomatRows ((s.countEcc (c.mergeSingles o bs.length) 0).modCellar fun _ => c') r k (i + 1) (fl ||| f)

/-- Elements that the queue's bank holds. -/
def queueLen : Nat := 16384

/-- Write elements into the queue's bank from place p on, around its end (R252, log 44). -/
def Cellar.enqueue (c : Cellar) (p : Nat) (vs : List (BitVec 32)) : Except Nat Cellar :=
  let n := min vs.length (queueLen - p)
  let bytes (xs : List (BitVec 32)) : List Byte := xs.flatMap fun v => toBytes 4 v.toNat
  (c.merge (c.queueBase + 4 * p) (bytes (vs.take n))).bind fun c => c.merge c.queueBase (bytes (vs.drop n))

/-- A drain's items as the queue lists them. -/
def QItem.mark : QItem → Option (Nat × Nat)
  | .elem _ => none
  | .stop l n => some (l, n)

/-- A run leaves the array: what it drains is delivered (R246, R250, R252). -/
def State.matDone (s : State) (r : MRun) : State :=
  if r.ap then
    s.modAp fun a => { a with flags := a.flags ||| r.flags, opbuf := if r.drain then { a.opbuf with res := r.elems } else a.opbuf }
  else if !r.drain then (s.orFps r.flags).matComplete r.num
  else if r.tomat then
    match s.tomatRows r r.rows 0 r.flags with
    | (s, .ok fl) => (s.orFps fl).matComplete r.num
    | (s, .error (row, col)) => s.matFault false 0x32 r.num r.take row col
  else
    let m := s.core.mat
    match s.core.cellar.enqueue ((m.qpos + m.dq.countP (·.isNone)) % queueLen) r.elems with
    | .error _ => s.matFault false 0x32 r.num r.take 0 0
    | .ok c => (s.modCellar fun _ => c).modMat fun m => { m with dq := m.dq ++ r.items.map QItem.mark, closes := m.closes ++ [(r.num, r.take, r.flags)] }

/-- The oldest token taken from a port completes in the array, its passes ended (R250). -/
def execMatrixTokenComplete (ap : Bool) (s : State) : MatOut :=
  .next (if s.core.mat.frozen then s
    else match s.core.mat.runs.find? (·.ap == ap) with
    | none => s
    | some r =>
      let s := if r.pend.isSome then s.matPass else s
      match s.core.mat.runs.find? fun x => x.ap == ap && x.take == r.take with
      | none => s
      | some r => (s.modMat fun m => { m with runs := m.runs.erase r }).matDone r)

/-- The token of an element: INT32 extended by its sign, FP32 by zeros (R246). -/
def elemToken (fmt : Nat) (v : BitVec 32) : Token := ⟨0, if fmt = 5 then v.signExtend 64 else v.setWidth 64⟩

/-- The token at the front of the queue cannot be read: what is left of its drain goes, the port stops, its number completes (R252, R256, log 44). -/
def State.queueFault (s : State) : State :=
  let m := s.core.mat
  let mine := m.dq.takeWhile fun i => match i with | some (1, _) => false | _ => true
  let s := s.modMat fun m => { m with dq := m.dq.drop (mine.length + 1), qpos := (m.qpos + mine.countP (·.isNone)) % queueLen, closes := m.closes.tail }
  match m.closes with
  | (num, take, _) :: _ => s.matFault false 0x32 num take 0 0
  | [] => s

/-- The drain queue sends one token on ep1; a closing STOP completes its token (R250, R252). -/
def execDrainQueueSend (s : State) : MatOut :=
  .next (
    let e := epEndpoint 1
    let m := s.core.mat
    match m.dq, (s.core.field.linkFrom e).bind fun i => s.core.field.links[i]? with
    | i :: rest, some l =>
      if m.frozen || s.core.field.freeFrom e = 0 then s
      else match i with
        | none =>
          let a := s.core.cellar.queueBase + 4 * m.qpos
          if s.core.cellar.err2.contains (a / 8) then s.queueFault
          else
            let v := BitVec.ofNat 32 (memNat s.core.cellar.bytes a 4)
            (((s.countEcc (if s.core.cellar.err1.contains (a / 8) then 1 else 0) 0).modMat fun m =>
              { m with dq := rest, qpos := (m.qpos + 1) % queueLen })).portSend e (elemToken l.fmt v)
        | some (lv, n) =>
          let s := (s.modMat fun m => { m with dq := rest }).portSend e ⟨1, stopPayload lv n⟩
          match lv, m.closes with
          | 1, (num, _, fl) :: cs => ((s.modMat fun m => { m with closes := cs }).orFps fl).matComplete num
          | _, _ => s
    | _, _ => s)

/-- A STOP at ep0 is discarded, an EOS ends the port's taking, a CFG token faults (R199, R242). -/
def execMatrixEp0ControlToken (s : State) : MatOut :=
  .next (
    let e := epEndpoint 0
    if !s.core.mat.portOpen false then s
    else match s.portHead e with
      | some t => match t.kind.toNat with
        | 0 => s
        | 1 => s.portTake e
        | 2 => s.portCfg e 0x48
        | _ =>
          if t = eosToken then (s.portTake e).modMat fun m => { m with eos := true }
          else if t = drainToken then s.portTake e
          else (s.portTake e).report (s.engineRec 0x62 0x48 none)
      | none => s)

/-- Service of the matrix node: the stopped ports take their next token; the faulted token's number has completed already (R384, R386). -/
def State.serviceMatrix (s : State) : State := s.modMat fun m => { m with stopped := false, stopAp := false }

/-! ## Accumulator nodes (R253) -/

/-- The tokens of a release. -/
def Acc.release (a : Acc) : List Token :=
  (List.range a.m).flatMap fun i =>
    (((a.sums.drop (i * a.n)).take a.n).map fun v => (⟨0, v.setWidth 64⟩ : Token)) ++
    [⟨1, if i + 1 = a.m then stopPayload 1 a.m else stopPayload 0 a.n⟩]

/-- Change the accumulator of node i. -/
def State.modAcc (s : State) (i : Nat) (f : Acc → Acc) : State := s.modField fun x => x.modNode i fun n => { n with acc := n.acc.map f }

/-- An accumulator takes the token at its input: a DATA value, a STOP, an EOS or a drain-request. -/
def State.accTake (s : State) (i : Nat) (n : Node) (a : Acc) (t : Token) : State :=
  match t.kind.toNat with
  | 0 =>
    if a.n ≤ a.j then s.nodeFault i 0x61 0
    else
      let k := a.i * a.n + a.j
      let (r, fl) := fadd s.fenv 13 0 (a.sums.getD k 0).toNat (bits t.payload.toNat 31 0)
      let s := (s.nodeTake n 0 1).modAcc i fun a => { a with sums := a.sums.set k (BitVec.ofNat 32 r), j := a.j + 1 }
      s.modField fun f => f.modNode i fun n => { n with flags := n.flags ||| fl }
  | 1 =>
    let lv := stopLevel t.payload
    if lv = 0 then
      if a.m ≤ a.i + 1 then s.nodeFault i 0x61 0 else (s.nodeTake n 0 1).modAcc i fun a => { a with i := a.i + 1, j := 0 }
    else
      let s := (s.nodeTake n 0 1).modAcc i fun a => { a with i := 0, j := 0, got := a.got + 1 }
      if a.got + 1 < a.count then s
      else s.modAcc i fun x => { x with out := a.release ++ (if 2 ≤ lv then [t] else []), sums := x.sums.map (fun _ => 0), got := 0 }
  | 2 => s
  | _ =>
    if t = eosToken then ((s.nodeTake n 0 1).noteEosIn i [0]).nodeSend i n 0 t
    else if t = drainToken then (s.nodeTake n 0 1).nodeSend i n 0 t
    else s.nodeFault i 0x62 0

/-- Accumulator node acN sends one token of a release, or takes one token, at most one a cycle and in a cycle in which its context is selected (R187, R253). -/
def execAccumulatorToken (n : BitVec 4) (s : State) : MatOut :=
  .next (match (s.core.field.nodes.findIdx? fun d => match d.acc with | some a => a.num == n | none => false) with
    | none => s
    | some i => match s.core.field.nodes[i]? with
      | none => s
      | some d => match d.acc with
        | none => s
        | some a =>
          let f := s.core.field
          let g := f.region d.region
          if g.st != .armed || d.stopped || !g.resident.contains d.ctx || !s.canFire d || s.selected d.region != some d.ctx then s
          else match a.out with
            | t :: rest => ((s.noteFire i d).nodeSend i d 0 t).modAcc i fun a => { a with out := rest }
            | [] => match (f.nodeIn d 0).head? with
              | none => s
              | some t => (s.noteFire i d).accTake i d a t)

end Sys2Proof.Machine
end

