-- ==== Sys2Proof/Machine/Drill.lean ====
section
/-! DEFINITION. The drill: seed graphs, SOW, REAP and DRILLRUN, vectors in and results out (R76, R303-R317). -/

namespace Sys2Proof.Machine

/-- The meaning's answer. -/
abbrev DrillOut := Host.Outcome State Fault Refusal

/-! ## Node words (R76) -/

def seedKind (w : Word) : Nat := bits w.toNat 63 61
def seedShift (w : Word) : Nat := bits w.toNat 60 56
def seedA (w : Word) : Nat := bits w.toNat 55 43
def seedB (w : Word) : Nat := bits w.toNat 42 30
def seedWidth (w : Word) : Nat := bits w.toNat 29 24
def seedInLane (w : Word) : Nat := bits w.toNat 9 0
def seedOutLane (w : Word) : Nat := bits w.toNat 23 14
def seedEntry (w : Word) : Nat := bits w.toNat 13 0

/-- Whether a node adds or subtracts. -/
def seedSum (w : Word) : Bool := seedKind w == 1 || seedKind w == 2

/-- The check of node i, its fields from the top down (R76); ws is the whole graph and tab the table's size. -/
def seedNodeErr (ws : List Word) (tab i : Nat) (w : Word) : Option (BitVec 8) :=
  let width (k : Nat) : Nat := seedWidth (ws.getD k 0)
  [failIf (decide (4 ≤ seedKind w)) 0x43,
   failIf (!seedSum w && seedShift w != 0) 0x43,
   failIf (if seedKind w = 0 then seedA w != 0 else false) 0x43,
   failIf (seedKind w != 0 && decide (i ≤ seedA w)) 0x48,
   failIf (!seedSum w && seedB w != 0) 0x43,
   failIf (seedSum w && decide (i ≤ seedB w)) 0x48,
   failIf (match seedKind w with
     | 0 => !(seedWidth w == 8 || seedWidth w == 16)
     | 3 => false
     | _ => !(decide (2 ≤ seedWidth w) && decide (seedWidth w ≤ 48) &&
         decide (max (width (seedA w)) (width (seedB w) + seedShift w) + 1 ≤ seedWidth w))) 0x46,
   failIf (match seedKind w with
     | 0 => bits w.toNat 23 10 != 0
     | 3 => false
     | _ => bits w.toNat 23 0 != 0) 0x43,
   failIf (seedKind w == 3 && decide (tab ≤ seedEntry w)) 0x48].findSome? id

/-- The depth of each node (R303). -/
def seedDepths (ws : List Word) : List Nat :=
  ws.foldl (fun ds w => ds ++ [match seedKind w with
    | 0 => 0
    | 3 => ds.getD (seedA w) 0
    | _ => 1 + max (ds.getD (seedA w) 0) (ds.getD (seedB w) 0)]) []

/-- The depth of a graph: the greatest of its outputs (R303). -/
def seedDepth (ws : List Word) : Nat :=
  ((ws.zip (seedDepths ws)).filter fun x => seedKind x.1 == 3).foldl (fun d x => max d x.2) 0

/-- The checks of R305 but for the save area, in their order, with the limit on depth (R303). -/
def seedGraphErr (ws : List Word) (v w : Nat) : Option (BitVec 8) :=
  let outs := (ws.filter fun x => seedKind x == 3).map seedOutLane
  [failIf (ws.any fun x => (seedKind x == 0 && decide (v ≤ seedInLane x)) || (seedKind x == 3 && decide (w ≤ seedOutLane x))) 0x48,
   failIf (!decide outs.Nodup || outs.length != w) 0x43,
   failIf (ws.any fun x => seedKind x == 3 && seedWidth x != seedWidth (ws.getD (seedA x) 0)) 0x46,
   failIf (ws.any fun x => (seedKind x != 0 && seedKind (ws.getD (seedA x) 0) == 3) || (seedSum x && seedKind (ws.getD (seedB x) 0) == 3)) 0x43,
   failIf (decide (255 < seedDepth ws)) 0x47].findSome? id

/-- The header's fields (R304). -/
def seedNodes (h : Word) : Nat := bits h.toNat 47 34 + 1
def seedV (h : Word) : Nat := bits h.toNat 33 24 + 1
def seedW (h : Word) : Nat := bits h.toNat 23 14 + 1
def seedTab (h : Word) : Nat := bits h.toNat 13 0

/-- The header's check (R304). -/
def seedHdrErr (h : Word) : Option (BitVec 8) :=
  [failIf (bits h.toNat 63 56 != 0) 0x43, failIf (bits h.toNat 55 48 != 1) 0x43, failIf (decide (8192 < seedNodes h)) 0x47,
   failIf (seedTab h == 0) 0x43, failIf (decide (4096 < seedTab h)) 0x47].findSome? id

/-- Words of an image (R304). -/
def seedWords (h : Word) : Nat := 1 + seedNodes h + cdiv (seedTab h) 2

/-- The owner number of the drill's REG area. -/
def drillOwner : Nat := 16

/-- The graph of an accepted image. -/
def seedGraph (h : Word) (body : List Word) (area : Nat) : Graph :=
  let ws := body.take (seedNodes h)
  { nodes := ws, v := seedV h, w := seedW h, depth := seedDepth ws, area := area,
    scales := ((body.drop (seedNodes h)).flatMap fun x => [x.extractLsb' 0 32, x.extractLsb' 32 32]).take (seedTab h) }

/-! ## SOW and REAP (R309) -/

/-- Place an accepted graph: it replaces the one loaded, takes its save area, and clears the count and the flags; none without room (R305). -/
def State.sowPlace (s : State) (h : Word) (body : List Word) : Option State :=
  let bytes := cdiv (8 * seedWords h) 4096 * 4096
  let c := s.core
  let c := { c with cellar := c.cellar.clearAreas drillOwner }
  (c.regAlloc bytes).map fun off =>
    let area : RegArea := { off := off, len := bytes, owner := drillOwner, ctx := 0, live := false }
    (s.setCore { c with cellar := { c.cellar with areas := c.cellar.areas ++ [area] } }).modDrill fun d =>
      { d with graph := some (seedGraph h body off), total := 0, flags := 0 }

/-- Load a seed graph image: it is read and checked in full before anything changes. The refusal is a code, the address of a word that could not be read (else 0), and the state after the reads (R304, R305, R309, R409). -/
def State.sowLoad (s : State) (user : Bool) (a : Int) : Except (BitVec 8 × Int × State) State :=
  match s.imageWord user a with
  | (.error c, s) => .error (c, a, s)
  | (.ok w, s) => match seedHdrErr w with
    | some c => .error (c, 0, s)
    | none =>
      let ((body, bad), s) := s.imageWords user (a + 8) (seedWords w - 1)
      match bad with
      | (i, c) :: _ => .error (c, a + 8 + 8 * (i : Int), s)
      | [] =>
        let ws := body.take (seedNodes w)
        match (ws.zipIdx.findSome? fun x => seedNodeErr ws (seedTab w) x.2 x.1).orElse fun _ => seedGraphErr ws (seedV w) (seedW w) with
        | some c => .error (c, 0, s)
        | none => match s.sowPlace w body with
          | some t => .ok t
          | none => .error (0x47, 0, s)

/-- SOW: a refused image leaves its record, and the command completes (R147, R309). -/
def execSow (h : CmdHdr) (addr : BitVec 57) (rsv : BitVec 55) (s : State) : DrillOut :=
  .next (s.checked h 0x30 [failIf (rsv != 0) 0x50, failIf (addr.toNat % 8 != 0) 0x54] fun s =>
    let t := s.tag h 0x30
    match s.sowLoad t.user (base57 addr) with
    | .ok s => s.finish 0x49 t
    | .error (c, a, s) => ((s.report { s.engineRec c 0x49 t.num with addr := wordOf a }).modDrill fun d => { d with code := c }).finish 0x49 t)

/-- The record of REAP (R309): zeros with no graph loaded. -/
def Drill.record (d : Drill) : List Byte :=
  match d.graph with
  | none => List.replicate 32 0
  | some g => toBytes 8 d.total ++ toBytes 8 (g.nodes.length + g.depth * 2 ^ 16) ++ toBytes 8 d.flags.toNat ++ toBytes 8 0

/-- REAP's record is written, then the graph goes with its save area; a fault stops the drill before that (R316, R384). -/
def State.reapGo (s : State) (t : Tag) (a : Int) : State :=
  let unload (s : State) : State :=
    ((s.modCellar fun c => c.clearAreas drillOwner).modDrill fun d => { d with graph := none, total := 0, flags := 0, reap := none }).finish 0x49 t
  if a = 0 then unload s
  else match s.writeVirt t.user a s.core.drill.record with
    | .ok _ s => unload s
    | .wait s => s
    | .fault c fa s =>
      let s := s.report { s.engineRec c 0x49 t.num with addr := wordOf fa, r := true }
      s.modDrill fun d => { d with reap := some (t, a), stopped := true, code := c }

/-- REAP (R309). -/
def execReap (h : CmdHdr) (addr : BitVec 57) (rsv : BitVec 55) (s : State) : DrillOut :=
  .next (s.checked h 0x31 [failIf (rsv != 0) 0x50, failIf (addr.toNat % 32 != 0) 0x54] fun s =>
    s.reapGo (s.tag h 0x31) (base57 addr))

/-! ## DRILLRUN (R310) -/

/-- Bytes of an input element in MAT. -/
def inBytes (o : DrillOps) : Nat := if o.inFmt then 2 else 1

/-- Pitches in 64-byte units. -/
def drillIn' (o : DrillOps) (g : Graph) : Nat := if o.inPitch = 0 then cdiv (g.v * inBytes o) 64 else o.inPitch.toNat
def drillOut' (o : DrillOps) (g : Graph) : Nat := if o.outPitch = 0 then cdiv (4 * g.w) 64 else o.outPitch.toNat

/-- MAT bytes of the inputs and of the outputs of vector k. -/
def drillInAt (o : DrillOps) (g : Graph) (k : Nat) : Nat := 64 * (o.inOff.toNat + k * drillIn' o g)
def drillOutAt (o : DrillOps) (g : Graph) (k : Nat) : Nat := 64 * (o.outOff.toNat + k * drillOut' o g)

/-- Whether a MAT range of a run reaches the drain queue's bank (R310). -/
def Core.drillRange (c : Core) (o : DrillOps) (g : Graph) : Bool :=
  let n := o.count.toNat
  let lim := c.cellar.matLimit
  n != 0 && ((o.src && decide (lim < drillInAt o g (n - 1) + g.v * inBytes o)) || (o.dst && decide (lim < drillOutAt o g (n - 1) + 4 * g.w)))

/-- The link of an engine port, by its direction. -/
def Field.epLinkIn (f : Field) (n : Nat) : Option Link := (f.linkTo (epEndpoint n)).bind fun i => f.links[i]?
def Field.epLinkOut (f : Field) (n : Nat) : Option Link := (f.linkFrom (epEndpoint n)).bind fun i => f.links[i]?

/-- DRILLRUN: what it finds at its start (R310). -/
def execDrillrun (h : CmdHdr) (o : DrillOps) (s : State) : DrillOut :=
  .next (
    let f := s.core.field
    let g := s.core.drill.graph
    let int16 := if o.src then o.inFmt else (f.epLinkIn 3).elim false fun l => l.fmt == 3
    s.checked h 0x32
      [failIf (g.isNone || (!o.src && (f.epLinkIn 3).isNone) || (!o.dst && (f.epLinkOut 4).isNone)) 0x53,
       failIf (!o.src && (o.inFmt || o.inOff != 0 || o.inPitch != 0)) 0x50,
       failIf (!o.dst && (o.outOff != 0 || o.outPitch != 0)) 0x50,
       failIf (o.rsv != 0) 0x50,
       failIf (!o.dst && (f.epLinkOut 4).elim true fun l => l.fmt != (if o.outFmt then 5 else 13)) 0x50,
       failIf (int16 && (g.elim false fun g => g.nodes.any fun w => seedKind w == 0 && seedWidth w == 8)) 0x46,
       failIf (o.src && o.count == 0) 0x54,
       failIf (g.elim false fun g => s.core.drillRange o g) 0x54]
      fun s => s.modDrill fun d => { d with run := some ⟨s.tag h 0x32, o, 0, false⟩, asm := [], inq := [], lastRun := 0 })

/-- Whole vectors in the assembly buffer. -/
def Drill.vecs (d : Drill) : Nat := d.inq.countP fun i => match i with | .vec _ => true | _ => false

/-- Room of the output queue, in tokens (R312). -/
def Drill.room (d : Drill) : Nat := 4096 - d.outq.length

/-- STOPs and the EOS at the front of the assembly buffer go on to the output queue, or are discarded (R311). -/
def Drill.settle (d : Drill) (dst : Bool) : Nat → Drill
  | 0 => d
  | n + 1 =>
    match d.inq with
    | .stop w :: rest =>
      if dst then Drill.settle { d with inq := rest } dst n
      else if d.room = 0 then d else Drill.settle { d with inq := rest, outq := d.outq ++ [⟨1, w⟩] } dst n
    | .eos :: rest =>
      if dst then Drill.settle { d with inq := rest } dst n
      else if d.room = 0 then d else Drill.settle { d with inq := rest, outq := d.outq ++ [⟨3, 0⟩] } dst n
    | _ => d

/-- Whether every vector of a run has fired, and nothing of it is left to send (R310). -/
def Drill.finished (d : Drill) (r : DRun) : Bool :=
  (if r.ops.count = 0 then r.ended && d.inq.isEmpty else r.fired == r.ops.count.toNat) && d.outq.isEmpty

/-- Settle the drill; a run that is over completes, with the flags (R310). -/
def State.drillSettle (s : State) : State :=
  match s.core.drill.run with
  | none => s
  | some r =>
    let s := s.modDrill fun d => d.settle r.ops.dst (d.inq.length + 1)
    if s.core.drill.finished r && !s.core.drill.stopped then
      ((s.modDrill fun d => { d with run := none }).orFps s.core.drill.flags).finish 0x49 r.tag
    else s

/-- A fault of a run: it stops at the vector boundary (R316, R384). -/
def State.drillFault (s : State) (r : DRun) (code : BitVec 8) (k : Nat) : State :=
  let s := s.report { s.engineRec code 0x49 r.tag.num with r := true, detail := BitVec.ofNat 64 k }
  s.modDrill fun d => { d with stopped := true, code := code }

/-- One token of ep3 (R311). A token out of place is taken, and the vector begun is given up (log 23). -/
def State.drillTake (s : State) (r : DRun) (g : Graph) (fmt : Nat) (t : Token) : State :=
  let e := epEndpoint 3
  let d := s.core.drill
  let k := r.fired + d.vecs
  let misplaced (code : BitVec 8) : State := (((s.portTake e).modDrill fun d => { d with asm := [] }).drillFault r code k)
  match t.kind.toNat with
  | 0 => (s.portTake e).modDrill fun d => { d with asm := d.asm ++ [intOf fmt t.payload.toNat] }
  | 1 =>
    let lv := stopLevel t.payload
    if lv = 0 then
      if d.asm.length = g.v then (s.portTake e).modDrill fun d => { d with asm := [], inq := d.inq ++ [.vec d.asm] } else misplaced 0x61
    else if d.asm.isEmpty then ((s.portTake e).modDrill fun d => { d with inq := d.inq ++ [.stop t.payload] }).drillSettle
    else misplaced 0x61
  | 2 => (s.portCfg e 0x49 r.tag.num (BitVec.ofNat 64 k)).noteCode 0x49 0x43
  | _ =>
    if t = eosToken then
      if d.asm.isEmpty && r.ops.count == 0 then
        ((s.portTake e).modDrill fun d => { d with inq := d.inq ++ [.eos], run := some { r with ended := true } }).drillSettle
      else misplaced 0x61
    else misplaced 0x62

/-- The drill takes one token of ep3, whatever its kind, while its run has vectors to come and the buffer has room for one; a STOP or an EOS behind a vector takes no room of its own (R311; DESIGN CHOICE, log 23). -/
def execDrillTokenTake (s : State) : DrillOut :=
  .next (
    let d := s.core.drill
    match d.run, d.graph with
    | some r, some g =>
      if d.stopped || d.frozen || r.ops.src || r.ended || decide (4 ≤ d.vecs) || (r.ops.count != 0 && decide (r.ops.count.toNat ≤ r.fired + d.vecs)) then s
      else match s.portHead (epEndpoint 3), s.core.field.epLinkIn 3 with
        | some t, some l => s.drillTake r g l.fmt t
        | _, _ => s
    | _, _ => s)

/-! ## Firing (R306, R312, R313) -/

/-- The value of every node for one input vector (R306). -/
def seedVals (ws : List Word) (x : List Int) : List Int :=
  ws.foldl (fun vs w =>
    let a := vs.getD (seedA w) 0
    let b := vs.getD (seedB w) 0 * 2 ^ seedShift w
    vs ++ [match seedKind w with
      | 0 => x.getD (seedInLane w) 0
      | 1 => a + b
      | 2 => a - b
      | _ => a]) []

/-- One output: the scaled FP32, or the saturated INT32 (R312). -/
def seedOut (v : FEnv) (int : Bool) (t : BitVec 32) (x : Int) : BitVec 32 × Flags :=
  if int then
    let y := sat x (intMin 5) (intMax 5)
    (BitVec.ofInt 32 y, if y = x then 0 else flagO)
  else
    let (p, f1) := vmul (valOfInt x) (unpack v 13 t.toNat)
    let (r, f2) := toFloat v 13 0 p
    (BitVec.ofNat 32 r, f1 ||| f2)

/-- The outputs of a vector in lane order, with flags. -/
def Graph.outputs (g : Graph) (v : FEnv) (int : Bool) (x : List Int) : List (BitVec 32) × Flags :=
  let outs := (g.nodes.zip (seedVals g.nodes x)).filter fun n => seedKind n.1 == 3
  let rs := (List.range g.w).map fun j => match outs.find? fun n => seedOutLane n.1 == j with
    | some n => seedOut v int (g.scales.getD (seedEntry n.1) 0) n.2
    | none => (0, 0)
  (rs.map (·.1), rs.foldl (fun f r => f ||| r.2) 0)

/-- The lanes of vector k: the assembled one, or those in MAT; none when a word is uncorrectable. -/
def Core.drillLanes (c : Core) (o : DrillOps) (g : Graph) (k : Nat) : Option (List Int) :=
  let z := inBytes o
  let at' := c.cellar.matBase + drillInAt o g k
  if c.cellar.bad at' (g.v * z) then none
  else some ((List.range g.v).map fun j => signed (8 * z) (memNat c.cellar.bytes (at' + j * z) z))

/-- Deliver the outputs of a vector; none when a MAT word could not be merged; one that a partial write corrects is counted (R390). Bytes at or past the drain queue are not written (log 22). -/
def State.drillDeliver (s : State) (o : DrillOps) (g : Graph) (k : Nat) (ys : List (BitVec 32)) : Option State :=
  if o.dst then
    let c := s.core.cellar
    let a := drillOutAt o g k
    let bs := (ys.flatMap fun y => toBytes 4 y.toNat).take (c.matLimit - a)
    if c.mergeBad (c.matBase + a) bs.length then none
    else some ((s.countEcc (c.mergeSingles (c.matBase + a) bs.length) 0).modCellar fun c => c.write (c.matBase + a) bs)
  else
    let ts : List Token := ys.map fun y => ⟨0, if o.outFmt then y.signExtend 64 else y.setWidth 64⟩
    some (s.modDrill fun d => { d with outq := d.outq ++ ts ++ [⟨1, stopPayload 0 g.w⟩] })

/-- Fire one vector. -/
def State.drillFire (s : State) (r : DRun) (g : Graph) (x : List Int) : State :=
  let (ys, fl) := g.outputs s.fenv r.ops.outFmt x
  match s.drillDeliver r.ops g r.fired ys with
  | none => (s.countEcc 0 1).drillFault r 0x32 r.fired
  | some s =>
    (s.modDrill fun d => { d with
      run := some { r with fired := r.fired + 1 }, total := d.total + 1, lastRun := r.fired + 1, flags := d.flags ||| fl,
      inq := if r.ops.src then d.inq else d.inq.tail }).drillSettle

/-- A complete vector fires through the graph when the output has room (R313). -/
def execDrillVectorFire (s : State) : DrillOut :=
  .next (
    let s := s.drillSettle
    let d := s.core.drill
    match d.run, d.graph with
    | some r, some g =>
      let moving := match s.core.cellar.move with | some (n, _) => n != 3 | none => false
      if d.stopped || d.frozen || (r.ops.count != 0 && decide (r.ops.count.toNat ≤ r.fired)) then s
      else if !r.ops.dst && decide (d.room < g.w + 1) then s
      else if moving && (r.ops.src || r.ops.dst) then s
      else if r.ops.src then
        match s.core.drillLanes r.ops g r.fired with
        | none => (s.countEcc 0 1).drillFault r 0x32 r.fired
        | some x =>
          let o := s.core.cellar.matBase + drillInAt r.ops g r.fired
          (s.countEcc (s.core.cellar.singles o (g.v * inBytes r.ops)) 0).drillFire r g x
      else match d.inq with
        | .vec x :: _ => s.drillFire r g x
        | _ => s
    | _, _ => s)

/-- The drill's output queue sends one token on ep4 (R312). -/
def execDrillOutputSend (s : State) : DrillOut :=
  .next (
    let e := epEndpoint 4
    match s.core.drill.outq with
    | [] => s
    | t :: rest =>
      if s.core.drill.frozen || s.core.field.freeFrom e = 0 then s
      else ((s.modDrill fun d => { d with outq := rest }).portSend e t).drillSettle)

/-- Service of the drill: the faulting vector or the REAP goes on, or the command ends (R384, R386). -/
def State.serviceDrill (s : State) (abort : Bool) : State :=
  let d := s.core.drill
  if !d.stopped then s
  else
    let s := s.modDrill fun d => { d with stopped := false }
    match d.reap, d.run with
    | some (t, a), _ => if abort then (s.modDrill fun d => { d with reap := none }).finish 0x49 t else s.reapGo t a
    | none, some r =>
      if abort then ((s.modDrill fun d => { d with run := none, asm := [], inq := [] }).orFps d.flags).finish 0x49 r.tag
      else s.drillSettle
    | none, none => s

end Sys2Proof.Machine
end

