-- ==== Sys2Proof/Machine/Attention.lean ====
section
/-! DEFINITION. The attention pipeline: BIND, ATTN and its stages, with SRC 1's walk (R260-R286, R291). -/

namespace Sys2Proof.Machine

/-- The meaning's answer. -/
abbrev ApOut := Host.Outcome State Fault Refusal

/-! ## Memory (R281) -/

/-- The AP reads n bytes of virtual memory, its address checked first (R379). -/
def State.apGet (s : State) (t : Tag) (va : Int) (n : Nat) : Got (List Byte) :=
  match addrFault va n with
  | some c => .fault c va s
  | none => s.readVirt .ap t.user va n

/-- The AP writes bytes. -/
def State.apPut (s : State) (t : Tag) (va : Int) (bs : List Byte) : Got Unit :=
  match addrFault va bs.length with
  | some c => .fault c va s
  | none => s.writeVirt t.user va bs

/-- Read n words of k bytes each. -/
def State.apList (s : State) (t : Tag) (va : Int) (k n : Nat) : Got (List Nat) :=
  if n = 0 then .ok [] s else (s.apGet t va (k * n)).bind fun bs s => .ok ((chunks k n bs).map ofBytes) s

/-- Gather a list of reads in order. -/
def gatherGot {α β : Type} (s : State) (xs : List α) (f : α → State → Got β) : Got (List β) :=
  xs.foldl (fun (g : Got (List β)) x => g.bind fun acc s => (f x s).bind fun b s => .ok (acc ++ [b]) s) (.ok [] s)

/-- Read something for each of a list of rows or keys, in order: a wait, or a fault with the row or key at which it arises. -/
def gatherAt {α : Type} (s : State) (xs : List Nat) (f : Nat → State → Got α) : Except (Option (BitVec 8 × Int × Nat)) (List α) × State :=
  xs.foldl (fun (g : Except (Option (BitVec 8 × Int × Nat)) (List α) × State) i => match g with
    | (.error e, s) => (.error e, s)
    | (.ok acc, s) => match f i s with
      | .ok b s => (.ok (acc ++ [b]), s)
      | .wait s => (.error none, s)
      | .fault c va s => (.error (some (c, va, i)), s)) (.ok [], s)

/-- The AP stops on a fault: its record, with the detail of R373, and its state is kept (R282, R384). -/
def State.apStop (s : State) (t : Tag) (code : BitVec 8) (addr : Int) (detail : Word) : State :=
  let s := s.report { s.engineRec code 0x4A t.num with addr := wordOf addr, r := true, detail := detail }
  s.modAp fun a => { a with stopped := true, code := code }

/-- Block and row as the detail of a record. -/
def apDetail (b r : Nat) : Word := BitVec.ofNat 64 (b % 2 ^ 32 * 2 ^ 32 + r % 2 ^ 32)

/-- Note a kv fault in cr.KVFLT (R299). -/
def State.noteKv (s : State) (pos : Nat) (code op : BitVec 8) : State :=
  s.modAp fun a => { a with kvflt := BitVec.ofNat 64 (pos % 2 ^ 32 * 2 ^ 32 + code.toNat * 2 ^ 8 + op.toNat) }

/-! ## BIND (R273, R274) -/

/-- Word 0 of a stage image. -/
def stageDeclared (w : Word) : BitVec 16 := w.extractLsb' 16 16

/-- Whether word 0 holds for a stage (R273). -/
def stageWordOk (w : Word) (stage : Nat) : Bool :=
  bits w.toNat 63 56 == 0 && bits w.toNat 55 48 == 1 && bits w.toNat 47 46 == stage && bits w.toNat 45 32 == 0 && bits w.toNat 15 0 == 0 &&
  (List.range 16).all fun n => !(stageDeclared w).getLsbD n || (stageInput stage n).isSome

/-- Bind a stage image; the refusal is a code, the address of a word that could not be read (else 0), and the state after the reads (R274, R409). -/
def State.bindLoad (s : State) (user : Bool) (stage : Nat) (a : Int) : Except (BitVec 8 × Int × State) State :=
  let ((ws, bad), s) := s.imageWords user a 2
  match bad with
  | (i, c) :: _ => .error (c, a + 8 * (i : Int), s)
  | [] =>
    let hdr := ws.getD 1 0
    let ((ins, bad), s) := s.imageWords user (a + 16) (Block.count ⟨hdr, []⟩)
    match bad with
    | (i, c) :: _ => .error (c, a + 16 + 8 * (i : Int), s)
    | [] =>
      let w := ws.getD 0 0
      let blk := blockOfWords (hdr :: ins)
      if !stageWordOk w stage then .error (0x43, 0, s)
      else match blk.check (some (stage, stageDeclared w)) with
        | some c => .error (c, 0, s)
        | none => .ok (s.modAp fun x => { x with bind := if h : stage < 3 then x.bind.set stage (some ⟨stageDeclared w, blk⟩) else x.bind })

/-- BIND (R274): a refused binding leaves the previous one. -/
def execBind (h : CmdHdr) (image : BitVec 57) (stage : BitVec 2) (dflt : Bool) (rsv : BitVec 52) (s : State) : ApOut :=
  .next (s.checked h 0x40
    [failIf (dflt && image != 0) 0x50, failIf (stage == 3) 0x50, failIf (rsv != 0) 0x50, failIf (image.toNat % 8 != 0) 0x54] fun s =>
    let t := s.tag h 0x40
    if dflt then (s.modAp fun x => { x with bind := if h : stage.toNat < 3 then x.bind.set stage.toNat none else x.bind }).finish 0x4A t
    else match s.bindLoad t.user stage.toNat (base57 image) with
      | .ok s => s.finish 0x4A t
      | .error (c, a, s) => ((s.report { s.engineRec c 0x4A t.num with addr := wordOf a }).modAp fun x => { x with code := c }).finish 0x4A t)

/-! ## The descriptor (R268) -/

/-- A word of the descriptor as an address. -/
def Desc.at' (d : Desc) (i : Nat) : Int := (d.w.toList.getD i 0).toInt
def Desc.nat (d : Desc) (i : Nat) : Nat := (d.w.toList.getD i 0).toNat

def Desc.keys (d : Desc) : Nat := bits (d.nat 9) 63 40
def Desc.blk (d : Desc) : Nat := bits (d.nat 9) 39 34 + 1
def Desc.dim (d : Desc) : Nat := 8 * (bits (d.nat 9) 33 29 + 1)
def Desc.rows (d : Desc) : Nat := bits (d.nat 9) 28 22 + 1
def Desc.fixo (d : Desc) : Bool := (d.nat 10).testBit 31
def Desc.head (d : Desc) : Nat := bits (d.nat 10) 29 24
def Desc.qport (d : Desc) : Bool := (d.nat 10).testBit 23
def Desc.oport (d : Desc) : Bool := (d.nat 10).testBit 22
def Desc.src (d : Desc) : Nat := bits (d.nat 10) 21 20
def Desc.part (d : Desc) : Bool := (d.nat 10).testBit 19
def Desc.kv (d : Desc) : Nat := bits (d.nat 10) 18 14
def Desc.qf (d : Desc) : Nat := bits (d.nat 10) 13 9
def Desc.outf (d : Desc) : Nat := bits (d.nat 10) 8 4
def Desc.sa (d : Desc) : Nat := bits (d.nat 10) 3 0
def Desc.qpos (d : Desc) : Nat := bits (d.nat 11) 63 32
def Desc.kpos (d : Desc) : Nat := bits (d.nat 11) 31 0

/-- Blocks of keys (R260). -/
def Desc.blocks (d : Desc) : Nat := if d.src = 2 then 1 else cdiv d.keys d.blk

/-- Keys of block b. -/
def Desc.keysOf (d : Desc) (b : Nat) : List Nat := rangeFrom (b * d.blk) (min d.keys (b * d.blk + d.blk) - b * d.blk)

/-- The 16-bit format of the pairing (R261, R262). -/
def Desc.pf (d : Desc) : Nat := if d.kv = 11 then 11 else 12

/-- Whether a descriptor breaks R268; rest is its words from 0x60 on. -/
def Desc.bad (d : Desc) (rest : List Word) : Bool :=
  let z (i : Nat) : Bool := d.nat i == 0
  rest.any (· != 0) || bits (d.nat 9) 21 0 != 0 || bits (d.nat 10) 63 32 != 0 || (d.nat 10).testBit 30 || d.src == 3 ||
  !([11, 12, 13].contains d.outf) || (d.part && d.outf != 13) ||
  (if d.src = 2 then !(z 6 && z 7 && z 8 && z 11) || d.qport || d.kv != 0 || d.qf != 0
   else !([8, 9, 11, 12].contains d.kv) || d.qf != (if d.kv = 11 then 11 else 12)) ||
  (d.src == 1 && !(z 4 && z 5 && d.kpos == 0))

/-- The link checks of an ATTN at its start: none bound, or another format (R271). -/
def Core.apLinks (c : Core) (d : Desc) : Option (BitVec 8) :=
  let chk (on : Bool) (l : Option Link) (f : Nat) : Option (BitVec 8) :=
    if !on then none else match l with | none => some 0x53 | some l => if l.fmt = f then none else some 0x50
  (chk d.qport (c.field.epLinkIn 2) d.qf).orElse fun _ => chk d.oport (c.field.epLinkOut 2) d.outf

/-! ## Sequences (R287, R288, R291) -/

/-- A sequence descriptor (R287). -/
structure SeqD where
  leaf  : Word
  jbase : Word
  len   : Nat
  used  : Nat
  mark  : Nat
  cap   : Nat
  fmt   : Nat
  dim   : Nat
  bad   : Bool
  late  : Bool             -- the mark stands above used
  deriving DecidableEq, Repr

/-- A sequence descriptor from its words. -/
def seqOf (ws : List Nat) : SeqD :=
  let w (i : Nat) : Nat := ws.getD i 0
  let fmt := bits (w 5) 4 0
  { leaf := BitVec.ofNat 64 (w 0), jbase := BitVec.ofNat 64 (w 1), len := bits (w 2) 31 0, used := bits (w 3) 31 0, mark := bits (w 3) 63 32,
    cap := bits (w 4) 31 0, fmt := fmt, dim := 8 * (bits (w 5) 9 5 + 1),
    bad := w 0 % 64 != 0 || (bits (w 2) 31 0 != 0 && w 0 == 0) || bits (w 2) 63 32 != 0 || decide (bits (w 4) 31 0 < bits (w 3) 31 0) ||
      bits (w 4) 63 32 != 0 || !([8, 9, 11, 12].contains fmt) || bits (w 5) 63 10 != 0 ||
      w 6 != 0 || w 7 != 0,
    late := decide (bits (w 3) 31 0 < bits (w 3) 63 32) }

/-- A walker node (R288), with its address. -/
structure WNode where
  addr   : Int
  parent : Word
  ptab   : Word
  start  : Nat
  len    : Nat
  refs   : Nat
  bad    : Bool
  deriving DecidableEq, Repr

/-- A walker node from its words. -/
def nodeOf (a : Int) (ws : List Nat) : WNode :=
  let w (i : Nat) : Nat := ws.getD i 0
  { addr := a, parent := BitVec.ofNat 64 (w 0), ptab := BitVec.ofNat 64 (w 1), start := bits (w 2) 31 0, len := bits (w 2) 44 32,
    refs := bits (w 3) 31 0,
    bad := w 0 % 64 != 0 || w 1 % 64 != 0 || bits (w 2) 63 45 != 0 || bits (w 3) 63 32 != 0 || w 4 != 0 || w 5 != 0 || w 6 != 0 || w 7 != 0 }

/-- Read a node and check its fields. -/
def State.readNode (s : State) (t : Tag) (a : Int) : Got WNode :=
  (s.apList t a 8 8).bind fun ws s =>
    let n := nodeOf a ws
    if n.bad then .fault 0x43 a s else if 4096 < n.len then .fault 0x81 a s else .ok n s

/-- The nodes from one up to its root, root first; at most the given count (R291). -/
def State.readPath (s : State) (t : Tag) (a : Word) : Nat → List WNode → Got (List WNode)
  | 0, acc => if a = 0 then .ok acc s else .fault 0x81 a.toInt s
  | k + 1, acc => if a = 0 then .ok acc s else (s.readNode t a.toInt).bind fun n s => s.readPath t n.parent k (n :: acc)

/-- Read a sequence descriptor and check its fields (R287); under way, the mark may stand above used, as a JROLL leaves it between two entries (R296). -/
def State.readDesc (s : State) (t : Tag) (a : Int) (underWay : Bool := false) : Got SeqD :=
  (s.apList t a 8 8).bind fun ws s =>
    let q := seqOf ws
    if q.bad || (q.late && !underWay) then .fault 0x43 a s else .ok q s

/-- Read a sequence descriptor; the read of L is an acquire at device scope (R298). -/
def State.readSeq (s : State) (t : Tag) (a : Int) (underWay : Bool := false) : Got SeqD :=
  (s.readDesc t a underWay).bind fun q s => .ok q s.discardClean

/-- The path of a sequence, checked (R291). -/
def State.seqPath (s : State) (t : Tag) (q : SeqD) : Got (List WNode) :=
  (s.readPath t q.leaf 16 []).bind fun path s =>
    let at0 := (path.head?).elim 0 (·.start)
    let gaps := (path.zip path.tail).find? fun x => x.2.start != x.1.start + x.1.len
    if at0 != 0 then .fault 0x81 ((path.head?).elim 0 (·.addr)) s
    else match gaps, path.getLast? with
      | some x, _ => .fault 0x81 x.2.addr s
      | none, some leaf => if q.len ≠ leaf.start + leaf.len then .fault 0x81 leaf.addr s else .ok path s
      | none, none => .fault 0x81 0 s

/-- A node's page table: each of its 64 entries must be 64-byte aligned, or the node faults (R289). -/
def State.pageTable (s : State) (t : Tag) (node ptab : Int) : Got (List Nat) :=
  (s.apList t ptab 8 64).bind fun es s => if es.any fun e => e % 64 != 0 then .fault 0x43 node s else .ok es s

/-- The page and slot of a position on a path given as start, address and page table (R289, R291). -/
def State.slotOf (s : State) (t : Tag) (path : List (Nat × Int × Int)) (p : Nat) : Got (Int × Nat) :=
  match (path.filter fun n => decide (n.1 ≤ p)).getLast? with
  | none => .fault 0x81 0 s
  | some (start, node, ptab) =>
    let o := p - start
    (s.pageTable t node ptab).bind fun es s =>
      let page := es.getD (o / 64) 0
      if page = 0 then .fault 0x20 (ptab + 8 * (o / 64 : Nat)) s
      else .ok ((BitVec.ofNat 64 page).toInt, o % 64) s

/-- Parts of a path that resolving needs. -/
def pathParts (ps : List WNode) : List (Nat × Int × Int) := ps.map fun n => (n.start, n.addr, n.ptab.toInt)

/-! ## Starting an ATTN -/

/-- What an ATTN with SRC 1 finds of its sequence: the path, or a code that makes the command have no effect (R269, R291). -/
def State.attnSeq (s : State) (t : Tag) (d : Desc) : Got (Except (BitVec 8) (List (Nat × Int × Int))) :=
  if d.src ≠ 1 then .ok (.ok []) s
  else (s.readSeq t (d.at' 3)).bind fun q s =>
    if q.fmt ≠ d.kv || q.dim ≠ d.dim then .ok (.error 0x50) s
    else if q.len < d.keys then .fault 0x83 (d.at' 3) s
    else if q.leaf = 0 then .ok (.ok []) s
    else (s.seqPath t q).bind fun p s => .ok (.ok (pathParts p)) s

/-- The identity state of a row (R260). -/
def rowIdentity (dim : Nat) : RowSt := ⟨0xFF800000, 0, List.replicate dim 0⟩

/-- A started ATTN: what it captures (R281), the identity state, the blocks to form. -/
def State.attnRun (s : State) (t : Tag) (d : Desc) (path : List (Nat × Int × Int)) : State :=
  let a := s.core.ap
  let nb := d.blocks
  let bias := ((a.bias.find? (·.1 == d.head)).map (·.2)).getD (List.replicate 32 0)
  let run : ARun :=
    { tag := t, desc := d, stages := a.bind, sa := s.core.mat.sc.toList.getD d.sa 0, bias := bias, path := path, q := [], segq := [], qin := [],
      qend := false, todo := List.range nb, blks := [], begun := [], offer := none, fresh := [], merged := [],
      states := if d.src = 2 then [] else (List.range d.rows).map fun i => (nb, i, rowIdentity d.dim), merges := 0, rows := 0, put := 0, out := [] }
  s.modAp fun a => { a with start := none, run := some run, rows := 0, blocks := 0 }

/-- The reads and checks of an ATTN at its start (R268-R271, R281). -/
def State.attnStart (s : State) (h : Tag) (da : Int) : State :=
  let stop (code : BitVec 8) (va : Int) (s0 : State) : State := (s0.modAp fun a => { a with start := some (h, da) }).apStop h code va 0
  let refuse (code : BitVec 8) (s0 : State) : State :=
    ((s0.report (s0.engineRec code 0x4A h.num)).modAp fun a => { a with start := none, code := code }).finish 0x4A h
  match s.apList h da 8 16 with
  | .wait s => s.modAp fun a => { a with start := some (h, da) }
  | .fault c va s => stop c va s
  | .ok ws s =>
    let ws := ws.map (BitVec.ofNat 64)
    let d : Desc := ⟨Vector.ofFn fun i => ws.getD i.val 0⟩
    if d.bad (ws.drop 12) then refuse 0x50 s
    else match s.core.apLinks d with
      | some c => refuse c s
      | none => match s.attnSeq h d with
        | .wait s => s.modAp fun a => { a with start := some (h, da) }
        -- a fault of the walk is a kv fault (R299, R301)
        | .fault c va s => stop c va (s.noteKv 0 c 0x41)
        | .ok (.error c) s => refuse c s
        | .ok (.ok path) s => s.attnRun h d path

/-- ATTN (R267). -/
def execAttn (h : CmdHdr) (desc : BitVec 57) (rsv : BitVec 55) (s : State) : ApOut :=
  .next (s.checked h 0x41 [failIf (rsv != 0) 0x50, failIf (desc.toNat % 64 != 0) 0x54] fun s =>
    s.attnStart (s.tag h 0x41) (base57 desc))

/-! ## Stage programs (R272, R275, R276) -/

/-- The bucket of two positions (R297). -/
def relBucket (qpos kpos : Int) : Nat :=
  let a := (qpos - kpos).natAbs
  let b := if a < 8 then a else min 15 (8 + 2 * (a.log2 - 3) + (if a.testBit (a.log2 - 1) then 1 else 0))
  if qpos < kpos then b + 16 else b

/-- RELB: the bucket, or the table's entry widened exactly (R275); a subnormal entry reads as zero in flush mode (R36). -/
def relbVal (v : FEnv) (bias : List (BitVec 16)) (f : Nat) (x y : Word) : Word :=
  let b := relBucket (signed 32 x.toNat) (signed 32 y.toNat)
  if f = 6 then BitVec.ofNat 64 b else fpayload (toFloat v 13 0 (unpack v 11 (bias.getD b 0).toNat)).1

/-- Run a stage program on its inputs: the tokens it sends, and its flags. -/
def ARun.prog (r : ARun) (v : FEnv) (p : Stage) (inp : Nat → Word) : (Nat → Nat) × Flags :=
  let env : BEnv := { fenv := v, regs := fun _ => 0, err1 := fun _ => false, err2 := fun _ => false, heads := fun _ => [], fire := false, stage := some inp, relb := relbVal v r.bias }
  let o := p.blk.fire env [] ⟨[], 0, false⟩
  (fun n => ((o.outs.find? (·.1 == n)).map fun x => x.2.payload.toNat % 2 ^ 32).getD 0, o.flags)

/-- What SCORE and MASK know of a key beside its score: segk and k0 to k3. -/
abbrev KeyIn := List Nat

/-- The inputs of SCORE and MASK for row i and key j (R272). -/
def ARun.input (r : ARun) (v : FEnv) (score : Nat) (i j : Nat) (key : KeyIn) (n : Nat) : Word :=
  let d := r.desc
  let q := intPayload 5 (signed 32 ((d.qpos + i) % 2 ^ 32))
  let k := intPayload 5 (signed 32 ((d.kpos + j) % 2 ^ 32))
  match n with
  | 0 => BitVec.ofNat 64 score
  | 1 => q
  | 2 => k
  | 3 => BitVec.ofNat 64 d.head
  | 4 => relbVal v r.bias 13 q k
  | 5 => (r.segq.getD i 0).setWidth 64
  | _ => BitVec.ofNat 64 (key.getD (n - 6) 0)

/-- s′ of one pair: SCORE, then MASK (R260). -/
def ARun.score (r : ARun) (v : FEnv) (s : Nat) (i j : Nat) (key : KeyIn) : Nat × Flags :=
  let (s, f1) := match r.stages[0] with
    | none => (s, 0)
    | some p => let (o, f) := r.prog v p (r.input v s i j key); (o 0, f)
  match r.stages[1] with
  | none => (s, f1)
  | some p => let (o, f) := r.prog v p (r.input v s i j key); (if (o 0).testBit 0 then s else nInf, f1 ||| f)

/-! ## FETCH (R260, R269) -/

/-- Rows of Q and segq words, once (R269): those on ep2 must have arrived. A fault names its row. -/
def State.attnQ (s : State) (r : ARun) : Except (Option (BitVec 8 × Int × Nat)) ARun × State :=
  let d := r.desc
  let rows := List.range d.rows
  let seg (r : ARun) (s : State) : Except (Option (BitVec 8 × Int × Nat)) ARun × State :=
    if !r.segq.isEmpty || d.at' 6 = 0 then (.ok r, s)
    else match gatherAt s rows fun i s => s.apList r.tag (d.at' 6 + (4 * i : Nat)) 4 1 with
      | (.ok ws, s) => (.ok { r with segq := ws.map fun w => BitVec.ofNat 32 (w.headD 0) }, s)
      | (.error e, s) => (.error e, s)
  if r.q.length = d.rows then seg r s
  else if d.qport then (.error none, s)
  else match gatherAt s rows fun i s => s.apList r.tag (d.at' 0 + (i * d.dim * 2 : Nat)) 2 d.dim with
    | (.ok qs, s) => seg { r with q := qs.map fun x => x.map (BitVec.ofNat 16) } s
    | (.error e, s) => (.error e, s)

/-- segk and the key tag of a key (R269). -/
def State.attnKey (s : State) (r : ARun) (j : Nat) : Got KeyIn :=
  let d := r.desc
  let seg : Got Nat := if d.at' 7 = 0 then .ok 0 s else (s.apList r.tag (d.at' 7 + (4 * j : Nat)) 4 1).bind fun w s => .ok (w.headD 0) s
  seg.bind fun g s =>
    if d.at' 8 = 0 then .ok [g, 0, 0, 0, 0] s
    else (s.apList r.tag (d.at' 8 + (16 * j : Nat)) 4 4).bind fun ws s => .ok (g :: ws) s

/-- An operand element widened to the pairing's format (R261). -/
def widen (code x : Nat) : BitVec 16 :=
  if code = 11 || code = 12 then BitVec.ofNat 16 x else BitVec.ofNat 16 (toFloat .plain 12 0 (unpackRaw code x)).1

/-- Where key j lies: its K row, V row and scale bytes (R269, R290). -/
def State.keyPlace (s : State) (r : ARun) (j : Nat) : Got (Int × Int × Option (Int × Nat)) :=
  let d := r.desc
  let row := d.dim * fmtBytes d.kv
  if d.src = 1 then
    (s.slotOf r.tag r.path j).bind fun (page, i) s =>
      .ok (page + (i * row : Nat), page + (64 * row + i * row : Nat), some (page + (128 * row + i : Nat), 1)) s
  else .ok (d.at' 3 + (j * row : Nat), d.at' 4 + (j * row : Nat), if d.at' 5 = 0 then none else some (d.at' 5 + (2 * j : Nat), 2)) s

/-- FETCH of key j (R260, R269). -/
def State.fetchKey (s : State) (r : ARun) (j : Nat) : Got KeyF :=
  let d := r.desc
  let z := fmtBytes d.kv
  (s.keyPlace r j).bind fun (ka, va, sc) s =>
  (s.apList r.tag ka z d.dim).bind fun ks s =>
  (s.apList r.tag va z d.dim).bind fun vs s =>
  (match sc with
    | none => Got.ok [127, 127] s
    | some (a, n) => (s.apList r.tag a 1 n).bind fun bs s => match bs.findIdx? (· == 255) with
      | some i => Got.fault 0x90 (a + i) s
      | none => Got.ok bs s).bind fun sc s =>
  (s.attnKey r j).bind fun x s =>
    .ok ⟨ks.map (widen d.kv), vs.map (widen d.kv), BitVec.ofNat 8 (sc.headD 127), BitVec.ofNat 8 (sc.getLastD 127), x⟩ s

/-! ## QK, EXP, PV (R261-R263) -/

/-- Whether the matrix node takes the AP's next token now: its port is open, and a takeable token at ep0 does not come first (R20). -/
def Core.apTurn (c : Core) : Bool := c.mat.portOpen true && !c.yields true

/-- One token of the AP at the array (R20, R261, R263): m rows, n columns, from +0; its results and flags, the operand buffer left as it was used. -/
def State.apArray (s : State) (o : OpBuf) (m n fmt : Nat) : List (BitVec 32) × State :=
  let s := s.matPass
  let k := max 1 (cdiv o.used 32)
  let t : MTok := ⟨BitVec.ofNat 7 (m - 1), BitVec.ofNat 7 (n - 1), BitVec.ofNat 7 (k - 1), false, 0, 0, BitVec.ofNat 5 fmt, BitVec.ofNat 5 fmt, 0⟩
  let v := s.fenv
  let bs := o.cols v t
  let (sums, f1) := arraySums v false t.depth [] ((o.rows v t).map fun r => (r, bs))
  let (ds, f2) := drainAll v false n sums (unpack v 13 o.sa.toNat) fun j => e8 (o.cs.getD j 127).toNat
  (ds, (s.modAp fun a => { a with opbuf := { o with res := ds }, flags := a.flags ||| f1 ||| f2 }).modMat fun x =>
    { x with lastAp := true, aps := .reset })

/-- EXP of one row: m, l and the weights in the pairing's format (R262). -/
def expRow (v : FEnv) (pf : Nat) (ss : List Nat) : Nat × Nat × List Nat × Flags :=
  let m := ss.foldl (fun a x => fmax v 13 a x) nInf
  let ps := ss.map fun x =>
    let (p, f, c) := apExp v x m
    let (w, g) := toFloat v pf 0 (unpackRaw 13 p)
    (w, (if c = 3 then flagI else if c = 4 then f else 0) ||| g)
  let sum := ps.foldl (fun a p => (vadd 0 a (unpack v pf p.1)).1) (Val.fin false 0 0)
  let (l, f) := toFloat v 13 0 sum
  (m, l, ps.map (·.1), ps.foldl (fun a p => a ||| p.2) f)

/-- OR flags into the AP's (R286). -/
def State.apFlags (s : State) (f : Flags) : State := s.modAp fun a => { a with flags := a.flags ||| f }

/-- Replace the running ATTN. -/
def State.setRun (s : State) (r : ARun) : State := s.modAp fun a => { a with run := some r }

/-- QK of a block, then SCORE, MASK and EXP of its pairs: m, l and weights of each row (R260-R262). -/
def State.blockScores (s : State) (r : ARun) (x : BRun) : List (BitVec 32 × BitVec 32 × List (BitVec 16)) × State :=
  let d := r.desc
  let v := s.fenv
  let ks := x.keys
  let (raw, s) := s.apArray ⟨r.q, ks.map (·.k), d.dim, [], ks.map (·.ek), r.sa, []⟩ d.rows ks.length d.pf
  let scored := (List.range d.rows).map fun i => ks.zipIdx.map fun k =>
    r.score v (raw.getD (i * ks.length + k.2) 0).toNat i (x.b * d.blk + k.2) k.1.x
  let s := s.apFlags (scored.foldl (fun f row => row.foldl (fun f x => f ||| x.2) f) 0)
  let exps := scored.map fun row => expRow v d.pf (row.map (·.1))
  (exps.map fun e => (BitVec.ofNat 32 e.1, BitVec.ofNat 32 e.2.1, e.2.2.1.map (BitVec.ofNat 16)),
    s.apFlags (exps.foldl (fun f x => f ||| x.2.2.2) 0))

/-- One PV token of a block: n columns from c0 on (R263). -/
def State.blockPv (s : State) (r : ARun) (x : BRun) (es : List (BitVec 32 × BitVec 32 × List (BitVec 16))) (c0 n : Nat) : List (BitVec 32) × State :=
  s.apArray ⟨es.map (·.2.2), (rangeFrom c0 n).map fun c => x.keys.map fun k => k.v.getD c 0, x.keys.length, x.keys.map (·.ev), [], 0x3F800000, []⟩
    r.desc.rows n r.desc.pf

/-- States of a block's rows come to stand unmerged, but for the rows that have merged the block before (R283). -/
def ARun.add (r : ARun) (b : Nat) (st : List RowSt) : ARun :=
  let new := (st.zipIdx.filter fun x => !r.merged.contains (b, x.2)).map fun x => (b, x.2, x.1)
  { r with fresh := r.fresh ++ new.map fun x => (x.1, x.2.1), states := r.states ++ new }

/-- The state of a block stands formed: columns of the first PV token, and of the second. -/
def ARun.formed (r : ARun) (b : Nat) (es : List (BitVec 32 × BitVec 32 × List (BitVec 16))) (a1 a2 : List (BitVec 32)) : ARun :=
  let n1 := min 128 r.desc.dim
  let n2 := r.desc.dim - n1
  let st : List RowSt := es.zipIdx.map fun e => ⟨e.1.1, e.1.2.1, (a1.drop (e.2 * n1)).take n1 ++ (a2.drop (e.2 * n2)).take n2⟩
  { r with todo := r.todo.filter (· != b), blks := r.blks.filter (·.b != b) }.add b st

/-- The AP stops at a read of a block. -/
def State.attnStop (s : State) (r : ARun) (code : BitVec 8) (va : Int) (b i : Nat) : State := s.apStop r.tag code va (apDetail b i)

/-- Both states of each row of an ATTN with SRC 2 (R269, R270). -/
def State.mergeStates (s : State) (r : ARun) : Except (Option (BitVec 8 × Int × Nat)) (List (RowSt × RowSt)) × State :=
  let d := r.desc
  let one (acc rec i : Nat) (s : State) : Got RowSt :=
    (s.apList r.tag (d.at' rec + (16 * i : Nat)) 4 4).bind fun ml s =>
    (s.apList r.tag (d.at' acc + (4 * d.dim * i : Nat)) 4 d.dim).bind fun xs s =>
      .ok ⟨BitVec.ofNat 32 (ml.getD 2 0), BitVec.ofNat 32 (ml.getD 3 0), xs.map (BitVec.ofNat 32)⟩ s
  gatherAt s (List.range d.rows) fun i s => (one 0 3 i s).bind fun a s => (one 4 5 i s).bind fun c s => .ok (a, c) s

/-- FETCH of block b: Q and the segq words once, then its keys; a fault of the walk of SRC 1 is a kv fault (R260, R269, R299). -/
def State.fetchBlock (s : State) (r : ARun) (b : Nat) : State :=
  match s.attnQ r with
  | (.error none, s) => s
  | (.error (some (c, va, i)), s) => s.attnStop r c va b i
  | (.ok r, s) => match gatherAt s (r.desc.keysOf b) fun j s => s.fetchKey r j with
    | (.error none, s) => s.setRun r
    | (.error (some (c, va, j)), s) => ((if r.desc.src = 1 then s.noteKv j c 0x41 else s).setRun r).attnStop r c va b 0
    | (.ok ks, s) => s.setRun { r with blks := r.blks ++ [⟨b, ks, none, none⟩] }

/-- The next token of a block at the array: QK, with SCORE, MASK and EXP behind it, then the PV tokens (R260, R281). -/
def State.blockToken (s : State) (r : ARun) (x : BRun) : State :=
  let d := r.desc
  let keep (x : BRun) (s : State) : State := s.setRun { r with blks := r.blks.map fun y => if y.b = x.b then x else y }
  match x.exps with
  | none =>
    let (es, s) := s.blockScores r x
    s.setRun { r with begun := insNat x.b r.begun, blks := r.blks.map fun y => if y.b = x.b then { x with exps := some es } else y }
  | some es => match x.part with
    | none =>
      let (a, s) := s.blockPv r x es 0 (min 128 d.dim)
      if d.dim ≤ 128 then s.setRun (r.formed x.b es a []) else keep { x with part := some a } s
    | some a => let (a2, s) := s.blockPv r x es 128 (d.dim - 128); s.setRun (r.formed x.b es a a2)

/-- One step towards the state of block b (R260): FETCH, or its next token, which waits at the matrix node's port until the array takes it (R20); of an ATTN with SRC 2, both states are read. Under FIXO only the next block is formed, after the one before it is merged (R277). -/
def State.formBlock (s : State) (r : ARun) (b : Nat) : State :=
  let d := r.desc
  if !r.todo.contains b || (d.fixo && (r.todo.head? != some b || !r.fresh.isEmpty)) then s
  else if d.src = 2 then
    match s.mergeStates r with
    | (.error none, s) => s
    | (.error (some (c, va, i)), s) => s.attnStop r c va 0 i
    | (.ok xs, s) => s.setRun ((({ r with todo := [] } : ARun).add 0 (xs.map Prod.fst)).add 1 (xs.map Prod.snd))
  else match r.blks.find? (·.b == b) with
    | none => s.fetchBlock r b
    | some x =>
      if r.offer.any (· != b) then s
      else if s.core.apTurn then s.blockToken { r with offer := none } x
      else s.setRun { r with offer := some b }

/-- A block whose state has not been merged into every row starts again from FETCH: after a pre-emption, and after service (R282, R283). -/
def ARun.restart (r : ARun) : ARun :=
  let states := r.states.filter fun x => !r.fresh.contains (x.1, x.2.1)
  if r.desc.src = 2 then (if r.fresh.isEmpty then r else { r with todo := [0], fresh := [], states := states })
  else { r with todo := r.fresh.foldl (fun t b => insNat b.1 t) r.todo, blks := [], offer := none, fresh := [], states := states }

/-- Omit block b when the bound MASK reads neither s nor bias and masks every pair of it, before its QK (R278); not under FIXO (R277). -/
def State.cullBlock (s : State) (r : ARun) (b : Nat) : State :=
  let d := r.desc
  match r.stages[1] with
  | none => s
  | some p =>
    if !r.todo.contains b || r.begun.contains b || r.offer == some b || d.fixo || d.src == 2 || p.declared.getLsbD 0 || p.declared.getLsbD 4 then s
    else match s.attnQ r with
      | (.error none, s) => s
      | (.error (some (c, va, i)), s) => s.attnStop r c va b i
      | (.ok r, s) =>
        match gatherAt s (d.keysOf b) fun j s => (s.attnKey r j).bind fun x s => .ok (j, x) s with
        | (.error none, s) => s.setRun r
        | (.error (some (c, va, _)), s) => (s.setRun r).attnStop r c va b 0
        | (.ok ks, s) =>
          let outs := (List.range d.rows).flatMap fun i => ks.map fun k => r.prog s.fenv p (r.input s.fenv 0 i k.1 k.2)
          let s := (s.setRun r).apFlags (outs.foldl (fun f o => f ||| o.2) 0)
          if outs.all fun o => !(o.1 0).testBit 0 then s.setRun { r with todo := r.todo.filter (· != b), blks := r.blks.filter (·.b != b) } else s

/-! ## BLEND and EMIT (R264, R265) -/

/-- a times x plus b times y, each step rounded (R264). -/
def blendSum (v : FEnv) (x a y b : Nat) : Nat × Flags :=
  let (p, f1) := fmul v 13 0 x a
  let (q, f2) := fmul v 13 0 y b
  let (r, f3) := fadd v 13 0 p q
  (r, f1 ||| f2 ||| f3)

/-- m, αa and αb: the bound program's, or the default blend's (R264). -/
def ARun.blendFactors (r : ARun) (v : FEnv) (a b : RowSt) : (Nat × Nat × Nat) × Flags :=
  match r.stages[2] with
  | some p =>
    let (o, f) := r.prog v p fun n => match n with | 0 => a.m.setWidth 64 | 1 => a.l.setWidth 64 | 2 => b.m.setWidth 64 | _ => b.l.setWidth 64
    ((o 0, o 1, o 2), f)
  | none =>
    let m := fmax v 13 a.m.toNat b.m.toNat
    let e (x : Nat) : Nat × Flags := let (p, f, c) := apExp v x m; (p, if c = 3 then flagI else if c = 4 then f else 0)
    let (x, f1) := e a.m.toNat
    let (y, f2) := e b.m.toNat
    ((m, x, y), f1 ||| f2)

/-- Merge two states of a row (R264). -/
def ARun.blend (r : ARun) (v : FEnv) (a b : RowSt) : RowSt × Flags :=
  let ((m, x, y), f) := r.blendFactors v a b
  let (l, f1) := blendSum v a.l.toNat x b.l.toNat y
  let rs := (a.acc.zip b.acc).map fun z => blendSum v z.1.toNat x z.2.toNat y
  (⟨BitVec.ofNat 32 m, BitVec.ofNat 32 l, rs.map fun q => BitVec.ofNat 32 q.1⟩, rs.foldl (fun f q => f ||| q.2) (f ||| f1))

/-- Merge a row's states i and j into state i (R264, R277): each row has its own tree; under FIXO the running state is a, and with SRC 2 state 0 is a. -/
def State.mergeRow (s : State) (r : ARun) (i j row : Nat) : State :=
  let d := r.desc
  let first := if d.src = 2 then 0 else d.blocks
  let at' (k : Nat) (x : Nat × Nat × RowSt) : Bool := x.1 == k && x.2.1 == row
  match r.states.find? (at' i), r.states.find? (at' j) with
  | some a, some b =>
    if i = j || ((d.fixo || d.src == 2) && i != first) then s
    else
      let (st, fl) := r.blend s.fenv a.2.2 b.2.2
      let mine (x : Nat × Nat) : Bool := x == (i, row) || x == (j, row)
      ((s.apFlags fl).setRun { r with
        states := (r.states.filter fun x => !(at' i x || at' j x)) ++ [(i, row, st)]
        fresh := r.fresh.filter fun x => !mine x
        merged := r.merged ++ r.fresh.filter mine
        merges := r.merges + 1 }).modAp fun a => { a with blocks := (r.merges + 1) / d.rows }
  | _, _ => s

/-- An emitted row: output payloads, and the two words of its record, with flags (R265, R270). -/
def ARun.emitRow (r : ARun) (v : FEnv) (x : RowSt) : List Nat × List Nat × Flags :=
  let d := r.desc
  let m := unpack v 13 x.m.toNat
  let l := unpack v 13 x.l.toNat
  let rec' (lse : Nat) (empty nan : Nat) : List Nat := [lse + empty * 2 ^ 32 + nan * 2 ^ 33, x.m.toNat + x.l.toNat * 2 ^ 32]
  if m.isNan || l.isNan then (x.acc.map fun _ => (fmtOf d.outf).nan, rec' fNan 0 1, 0)
  else if l.isZero then (x.acc.map fun _ => 0, rec' nInf 1 0, 0)
  else
    let outs := x.acc.map fun a =>
      if d.part then (a.toNat, 0)
      else
        let (q, f1) := vdiv v 13 0 (unpack v 13 a.toNat) l
        if d.outf = 13 then (q, f1) else let (y, f2) := toFloat v d.outf 0 (unpack v 13 q); (y, f1 ||| f2)
    let (lg, f1) := flog2 v x.l.toNat
    let (t, f2) := fmul v 13 0 lg cC1
    let (lse, f3) := fadd v 13 0 x.m.toNat t
    (outs.map (·.1), rec' lse 0 0, outs.foldl (fun f o => f ||| o.2) (f1 ||| f2 ||| f3))

/-- The next row, when it stands ready to be emitted. -/
def ARun.ready (r : ARun) : Option RowSt :=
  match r.todo, r.states.filter fun x => x.2.1 == r.rows with
  | [], [(_, _, st)] => some st
  | _, _ => none

/-- An ATTN whose rows are all emitted and sent completes; its flags go to cr.FPS (R281, R286). -/
def State.attnSettle (s : State) : State :=
  match s.core.ap.run with
  | none => s
  | some r =>
    if r.rows < r.desc.rows || !r.out.isEmpty || (r.desc.qport && !r.qend) then s
    else ((s.orFps s.core.ap.flags).modAp fun a => { a with run := none, flags := 0 }).finish 0x4A r.tag

/-- Write the stores of a row that remain: n counts them, and at most that many are done (R282). -/
def State.emitStores (s : State) (r : ARun) (ws : List (Int × List Byte)) : Nat → State × Option (BitVec 8 × Int)
  | 0 => (s, none)
  | n + 1 =>
    match ws[((s.core.ap.run).elim 0 (·.put))]? with
    | none => (s, none)
    | some (a, bs) => match s.apPut r.tag a bs with
      | .ok _ s => (s.modAp fun a => { a with run := a.run.map fun r => { r with put := r.put + 1 } }).emitStores r ws n
      | .wait s => (s, none)
      | .fault c va s => (s, some (c, va))

/-- EMIT of the next row: its output elements and its record (R265, R269-R271). -/
def State.emitNext (s : State) (r : ARun) : State :=
  let d := r.desc
  match r.ready with
  | none => s
  | some x =>
    let (outs, rec', fl) := r.emitRow s.fenv x
    let z := fmtBytes d.outf
    let mem := if d.oport then [] else outs.zipIdx.map fun o => (d.at' 1 + ((r.rows * d.dim + o.2) * z : Nat), toBytes z o.1)
    let ws := mem ++ rec'.zipIdx.map fun w => (d.at' 2 + (16 * r.rows + 8 * w.2 : Nat), toBytes 8 w.1)
    match s.emitStores r ws (ws.length + 1) with
    | (s, some (c, va)) => s.attnStop r c va 0 r.rows
    | (s, none) =>
      let last := r.rows + 1 = d.rows
      let toks := if !d.oport then [] else
        (outs.map fun o => (⟨0, BitVec.ofNat 64 o⟩ : Token)) ++ [⟨1, stopPayload 0 d.dim⟩] ++ (if last then [⟨1, stopPayload 1 d.rows⟩] else [])
      let s := (s.apFlags fl).modAp fun a => { a with run := a.run.map fun r => { r with rows := r.rows + 1, put := 0, out := r.out ++ toks },
                                                      rows := r.rows + 1 }
      s.attnSettle

/-! ## ep2 (R271) -/

/-- Take one token of the inbound ep2 link. -/
def State.takeQ (s : State) (r : ARun) : State :=
  let d := r.desc
  let e := epEndpoint 2
  let bad (code : BitVec 8) : State := s.attnStop r code 0 0 r.q.length
  if !d.qport || r.qend then s
  else match s.portHead e with
    | none => s
    | some t => match t.kind.toNat with
      | 0 =>
        if r.q.length = d.rows || r.qin.length = d.dim then bad 0x61
        else (s.portTake e).setRun { r with qin := r.qin ++ [t.payload.extractLsb' 0 16] }
      | 1 =>
        let lv := stopLevel t.payload
        if r.q.length = d.rows then (if lv = 1 then ((s.portTake e).setRun { r with qend := true }).attnSettle else bad 0x61)
        else if lv = 0 && r.qin.length == d.dim then (s.portTake e).setRun { r with q := r.q ++ [r.qin], qin := [] }
        else bad 0x61
      | 2 => s.portCfg e 0x4A r.tag.num (apDetail 0 r.q.length)
      | _ => if t = eosToken || t = drainToken then s.portTake e else bad 0x62

/-- Send one token on the outbound ep2 link. -/
def State.sendRow (s : State) (r : ARun) : State :=
  let e := epEndpoint 2
  match r.out with
  | [] => s
  | t :: rest =>
    if s.core.field.freeFrom e = 0 then s else ((s.portSend e t).setRun { r with out := rest }).attnSettle

/-- One stage step of the running ATTN (R260, R284). -/
def execApBlockStage (a : ApAct) (s : State) : ApOut :=
  .next (match s.core.ap.run with
    | none => s
    | some r =>
      if s.core.ap.stopped || s.core.ap.frozen then s
      else match a with
        | .takeQ => s.takeQ r
        | .block b => s.formBlock r b
        | .cull b => s.cullBlock r b
        | .merge i j row => s.mergeRow r i j row
        | .emit => s.emitNext r
        | .sendOut => s.sendRow r)

end Sys2Proof.Machine
end

