-- ==== Sys2Proof/Machine/KvCache.lean ====
section
/-! DEFINITION. The kv commands of the AP: sequences, appends, relative bias and the journal (R287-R301); and the completion of commands that run over several events (R146, R362). -/

namespace Sys2Proof.Machine

/-- What one step of a kv command answers: whether the command is done, and the entry index it will roll back to. -/
abbrev KvGot := Got (Bool × Nat)

/-- Write 64-bit words at an address and the ones after it. -/
def State.apWords (s : State) (t : Tag) (a : Int) (ws : List Nat) : Got Unit := s.apPut t a (ws.flatMap (toBytes 8))

/-- used and mark as the descriptor's word (R287). -/
def markWord (used mark : Nat) : Nat := used + mark * 2 ^ 32

/-- Bytes of a row of the sequence's format (R290). -/
def SeqD.row (q : SeqD) : Nat := q.dim * fmtBytes q.fmt

/-- Bytes of a journal entry: E of R295. -/
def SeqD.entry (q : SeqD) : Nat := cdiv (32 + 2 * q.row) 32 * 32

/-- The journal's base must be 32-byte aligned when it is used (R287). -/
def State.journal (s : State) (q : SeqD) (desc : Int) : Got Int :=
  if q.jbase.toNat % 32 ≠ 0 then .fault 0x43 desc s else .ok q.jbase.toInt s

/-! ## KVSEQ (R293) -/

/-- A node that KVSEQ checks: its fields, and its page table's 64 entries (R288, R289). -/
def State.freshNode (s : State) (t : Tag) (a : Int) : Got WNode :=
  (s.readNode t a).bind fun n s => (s.pageTable t a n.ptab.toInt).bind fun _ s => .ok n s

/-- One more child of a node: an atomic add at the home of its refs (R293, R345). An atomic has no access to a ONCE page. -/
def State.addRef (s : State) (t : Tag) (a : Int) : Got Unit :=
  match s.xlateNew .store t.user a with
  | (.error c, s) => .fault c a s
  | (.ok x, s) =>
    if x.ext.once then .fault 0x21 a s
    else
      let s := s.flushWhere fun l => l.addr == x.pa / 64 * 64
      if (locsOf x.pa 4).any s.heldErr2 then .fault 0x32 a s
      else
        let s := s.countEcc ((locsOf x.pa 4).countP s.heldErr1) 0
        .ok () ((s.writeThrough x.pa (toBytes 4 ((memNat s.mem x.pa 4 + 1) % 2 ^ 32))).touchStash x.pa 4 false)

/-- Attach a node as the leaf of a sequence (R293). -/
def State.kvSeqStep (s : State) (r : KvRun) : KvGot :=
  let t := r.tag
  (s.freshNode t r.src).bind fun n s =>
  (s.readDesc t r.desc).bind fun _ s =>
  (s.readPath t n.parent 15 []).bind fun path s =>
    let start := (path.getLast?).elim 0 (fun p => (p.start + p.len) % 2 ^ 32)
    (s.apWords t (r.src + 16) [start, 1]).bind fun _ s =>
    (match path.getLast? with
      | none => Got.ok () s
      | some p => s.addRef t (p.addr + 24)).bind fun _ s =>
    (s.apWords t r.desc [(wordOf r.src).toNat]).bind fun _ s =>
    (s.apWords t (r.desc + 16) [start, 0]).bind fun _ s => .ok (true, 0) s

/-! ## KVAPP (R294) -/

/-- The leaf of a sequence, its fields checked. -/
def State.leafNode (s : State) (t : Tag) (leaf : Word) : Got WNode :=
  if leaf = 0 then .fault 0x81 0 s else s.readNode t leaf.toInt

/-- One release at device scope: the new lengths of the leaf and of the sequence (R298). -/
def State.putLengths (s : State) (t : Tag) (leaf : WNode) (len : Nat) (desc : Int) (l : Nat) : Got Unit :=
  (s.cleanAll.apWords t (leaf.addr + 16) [leaf.start + len % 2 ^ 13 * 2 ^ 32]).bind fun _ s => s.apWords t (desc + 16) [l % 2 ^ 32]

/-- Append token r.done (R294). Everything that the token reads is read before its first store, so that a read that waits leaves none of it done (R299). -/
def State.kvAppStep (s : State) (r : KvRun) : KvGot :=
  let t := r.tag
  (s.readSeq t r.desc).bind fun q s =>
  let row := q.row
  (s.leafNode t q.leaf).bind fun leaf s =>
  if leaf.refs ≠ 1 then .fault 0x80 leaf.addr s
  else if leaf.len = 4096 then .fault 0x81 leaf.addr s
  else
    let sa := r.src + (2 * r.cnt * row + r.done : Nat)
    (s.apGet t sa 1).bind fun sc s =>
    if sc.headD 0 = 255 then .fault 0x90 sa s
    else
      (s.seqPath t q).bind fun path s =>
      (s.slotOf t (pathParts path) q.len).bind fun (page, i) s =>
      let ka := page + (i * row : Nat)
      let va := page + ((64 + i) * row : Nat)
      let ea := page + (128 * row + i : Nat)
      if r.flag && q.used == q.cap then .fault 0x82 r.desc s
      else
        (s.apGet t (r.src + (r.done * row : Nat)) row).bind fun kNew s =>
        (s.apGet t (r.src + ((r.cnt + r.done) * row : Nat)) row).bind fun vNew s =>
        (if !r.flag then Got.ok () s
          else
            (s.journal q r.desc).bind fun jb s =>
            (s.apGet t ka row).bind fun kOld s =>
            (s.apGet t va row).bind fun vOld s =>
            (s.apGet t ea 1).bind fun eOld s =>
            let head := [(wordOf page).toNat, i + (eOld.headD 0).toNat * 2 ^ 8, q.len, q.leaf.toNat]
            (s.apPut t (jb + (q.used * q.entry : Nat)) (head.flatMap (toBytes 8) ++ kOld ++ vOld)).bind fun _ s =>
            s.apWords t (r.desc + 24) [markWord (q.used + 1) q.mark]).bind fun _ s =>
        (s.apPut t ka kNew).bind fun _ s =>
        (s.apPut t va vNew).bind fun _ s =>
        (s.apPut t ea sc).bind fun _ s =>
        (s.putLengths t leaf (leaf.len + 1) r.desc (q.len + 1)).bind fun _ s =>
        .ok (decide (r.cnt ≤ r.done + 1), 0) s

/-! ## The journal (R295, R296) -/

/-- Replay the newest entry (R296). -/
def State.replay (s : State) (r : KvRun) (q : SeqD) (leaf : WNode) : Got Unit :=
  let t := r.tag
  (s.journal q r.desc).bind fun jb s =>
  let a := jb + ((q.used - 1) * q.entry : Nat)
  (s.apList t a 8 4).bind fun w s =>
  if w.getD 3 0 ≠ q.leaf.toNat then .fault 0x43 a s
  else
    let row := q.row
    let page := (BitVec.ofNat 64 (w.getD 0 0)).toInt
    let i := bits (w.getD 1 0) 5 0
    let l := bits (w.getD 2 0) 31 0
    (s.apGet t (a + 32) (2 * row)).bind fun old s =>
    (s.apPut t (page + (i * row : Nat)) (old.take row)).bind fun _ s =>
    (s.apPut t (page + ((64 + i) * row : Nat)) (old.drop row)).bind fun _ s =>
    (s.apPut t (page + (128 * row + i : Nat)) (toBytes 1 (bits (w.getD 1 0) 15 8))).bind fun _ s =>
    (s.apWords t (r.desc + 24) [markWord (q.used - 1) q.mark]).bind fun _ s =>
    s.putLengths t leaf (pattern 13 ((l : Int) - leaf.start)) r.desc l

/-- The newest of the entries n and above whose leaf is not the descriptor's: the entries above it must stay unreplayed (R296). One that cannot be read is met at its turn. -/
def State.strayEntry (s : State) (r : KvRun) (q : SeqD) (jb : Int) (n : Nat) : Option Int :=
  ((List.range (q.used - n)).map fun (k : Nat) => jb + ((q.used - 1 - k) * q.entry : Nat)).find? fun a =>
    match s.apList r.tag (a + 24) 8 1 with
    | .ok w _ => w.headD 0 != q.leaf.toNat
    | _ => false

/-- One entry of JROLL, or its end (R296): n comes from the mark when r.flag. -/
def State.jrollStep (s : State) (r : KvRun) : KvGot :=
  let t := r.tag
  (s.readSeq t r.desc (r.done != 0)).bind fun q s =>
  let n := if r.flag && r.done = 0 then q.mark else r.n
  if r.done = 0 && decide (q.used < n) then .fault 0x83 r.desc s
  else
    let close (used : Nat) (s : State) : KvGot := (s.apWords t (r.desc + 24) [markWord used (min q.mark n)]).bind fun _ s => .ok (true, n) s
    if q.used ≤ n then close q.used s
    else match if r.done = 0 then s.strayEntry r q q.jbase.toInt n else none with
    | some a => .fault 0x43 a s
    | none => (s.leafNode t q.leaf).bind fun leaf s =>
      (s.replay r q leaf).bind fun _ s => if q.used - 1 ≤ n then close (q.used - 1) s else .ok (false, n) s

/-- JMARK and JCOMMIT (R296). -/
def State.jmarkStep (s : State) (r : KvRun) (commit : Bool) : KvGot :=
  (s.readDesc r.tag r.desc).bind fun q s =>
  (s.apWords r.tag (r.desc + 24) [if commit then 0 else markWord q.used q.used]).bind fun _ s => .ok (true, 0) s

/-! ## KVBIAS (R297) -/

/-- Load or clear a head's table (R297). -/
def State.kvBiasStep (s : State) (r : KvRun) : KvGot :=
  let put (tab : List (BitVec 16)) (s : State) : KvGot :=
    .ok (true, 0) (s.modAp fun a => { a with bias := (a.bias.filter (·.1 != r.n)) ++ (if tab.isEmpty then [] else [(r.n, tab)]) })
  if r.flag then put [] s else (s.apList r.tag r.src 2 32).bind fun ws s => put (ws.map (BitVec.ofNat 16)) s

/-! ## One step of the command -/

/-- The step of a kv command, by its opcode. -/
def State.kvStep (s : State) (r : KvRun) : KvGot :=
  match r.tag.op.toNat with
  | 0x42 => s.kvSeqStep r
  | 0x43 => s.kvAppStep r
  | 0x44 => s.kvBiasStep r
  | 0x45 => s.jmarkStep r false
  | 0x46 => s.jmarkStep r true
  | _ => s.jrollStep r

/-- The position, or entry index for JROLL, at which the command stands (R299): that of the entry which a fault with 0x43 names, or the newest. -/
def State.kvPos (s : State) (r : KvRun) (code : BitVec 8) (va : Int) : Nat :=
  match r.tag.op.toNat, s.readDesc r.tag r.desc true with
  | 0x43, .ok q _ => q.len
  | 0x47, .ok q _ =>
    let i := ((va - q.jbase.toInt) / q.entry).toNat
    if code = 0x43 && decide (i < q.used) && va == q.jbase.toInt + (i * q.entry : Nat) then i else q.used - 1
  | _, _ => 0

/-- One token, entry or whole command of the AP's kv command (R294, R299): a token or entry that faults has no effect, and the AP stops at it. -/
def State.kvGo (s : State) : State :=
  match s.core.ap.kv with
  | none => s
  | some r =>
    if s.core.ap.stopped || s.core.ap.frozen then s
    else match s.kvStep r with
      | .wait s => s
      | .fault c va _ =>
        let pos := s.kvPos r c va
        let s := if c = 0x32 then s.countEcc 0 1 else s
        (s.noteKv pos c r.tag.op).apStop r.tag c va (BitVec.ofNat 64 pos)
      | .ok (true, _) s => (s.modAp fun a => { a with kv := none }).finish 0x4A r.tag
      | .ok (false, n) s => s.modAp fun a => { a with kv := some { r with done := r.done + 1, n := n } }

/-- Start a kv command whose fields are legal. -/
def State.kvStart (s : State) (h : CmdHdr) (op : BitVec 8) (codes : List (Option (BitVec 8))) (desc src : Int) (cnt n : Nat) (flag : Bool) : State :=
  s.checked h op codes fun s => (s.modAp fun a => { a with kv := some ⟨s.tag h op, desc, src, cnt, flag, 0, n⟩ }).kvGo

/-- KVSEQ (R292, R293). -/
def execKvseq (h : CmdHdr) (desc node : BitVec 51) (rsv : BitVec 10) (s : State) : ApOut :=
  .next (s.kvStart h 0x42 [failIf (rsv != 0) 0x50] (base51 desc) (base51 node) 0 0 false)

/-- KVAPP (R292, R294): its first token; the others follow by COMMAND_COMPLETE. -/
def execKvapp (h : CmdHdr) (desc src : BitVec 51) (count : BitVec 6) (j : Bool) (rsv : BitVec 3) (s : State) : ApOut :=
  .next (s.kvStart h 0x43 [failIf (rsv != 0) 0x50] (base51 desc) (base51 src) (count.toNat + 1) 0 j)

/-- KVBIAS (R292, R297). -/
def execKvbias (h : CmdHdr) (table : BitVec 51) (head : BitVec 6) (clr : Bool) (rsv : BitVec 54) (s : State) : ApOut :=
  .next (s.kvStart h 0x44 [failIf (rsv != 0) 0x50, failIf (clr && table != 0) 0x50] 0 (base51 table) 0 head.toNat clr)

/-- JMARK (R292, R296). -/
def execJmark (h : CmdHdr) (desc : BitVec 51) (rsv : BitVec 61) (s : State) : ApOut :=
  .next (s.kvStart h 0x45 [failIf (rsv != 0) 0x50] (base51 desc) 0 0 0 false)

/-- JCOMMIT (R292, R296). -/
def execJcommit (h : CmdHdr) (desc : BitVec 51) (rsv : BitVec 61) (s : State) : ApOut :=
  .next (s.kvStart h 0x46 [failIf (rsv != 0) 0x50] (base51 desc) 0 0 0 false)

/-- JROLL (R292, R296): its newest entry; the others follow by COMMAND_COMPLETE. -/
def execJroll (h : CmdHdr) (desc : BitVec 51) (mk : Bool) (n : BitVec 32) (rsv : BitVec 28) (s : State) : ApOut :=
  .next (s.kvStart h 0x47 [failIf (rsv != 0) 0x50, failIf (mk && n != 0) 0x50] (base51 desc) 0 0 n.toNat mk)

/-- The AP goes on with a command that waits: an ATTN's start or a kv command (R281, R299). -/
def State.apGo (s : State) : State :=
  if s.core.ap.stopped || s.core.ap.frozen then s
  else match s.core.ap.start with
    | some (h, da) => s.attnStart h da
    | none => s.kvGo

/-! ## Completion -/

/-- Command num of an engine context completes (R146, R362). A copy's pieces move here, an in-band load sends its next token, and a waiting ATTN or a kv command goes on; the commands of other contexts complete with the event that makes their last effect. -/
def execCommandComplete (ctx : BitVec 7) (num : Word) (s : State) : ApOut :=
  .next (
    if 0x40 ≤ ctx.toNat && ctx.toNat < 0x48 then
      (if (s.copyCtx ctx.toNat).frozen then s else s.copyRun ctx.toNat (some num.toNat))
    else if ctx = 0x4B then s.inbandStep
    else if ctx = 0x4A then s.apGo
    else s)

end Sys2Proof.Machine
end

