-- ==== Sys2Proof/Machine/Occupancy.lean ====
section
/-! DEFINITION. The occupancy registers of the four rooms and their high-water fields (R321, R322). -/

namespace Sys2Proof.Machine

/-- The 64-byte units that ranges touch, each once. -/
def unitsOf (rs : List (Nat × Nat)) : Nat :=
  (rs.foldl (fun (u : NatSet) r => (if r.2 = 0 then [] else rangeFrom (r.1 / 64) ((r.1 + r.2 - 1) / 64 - r.1 / 64 + 1)).foldl (fun u x => insNat x u) u) []).length

/-- The MAT ranges that taken and waiting ep0 tokens name, and those of a running DRILLRUN (R322). -/
def Core.matNamed (c : Core) : List (Nat × Nat) :=
  let waiting := ((c.field.availTo (epEndpoint 0)).filter fun t => t.kind == 0).flatMap fun t =>
    let (op, k) := tokenOf t.payload
    c.tokenRanges c.mat.mawin op k
  let drill := match c.drill.run, c.drill.graph with
    | some r, some g =>
      let n := r.ops.count.toNat
      (if r.ops.src then (List.range n).map fun k => (drillInAt r.ops g k, g.v * inBytes r.ops) else []) ++
      (if r.ops.dst then (List.range n).map fun k => (drillOutAt r.ops g k, 4 * g.w) else [])
    | _, _ => []
  c.mat.runs.flatMap (·.named) ++ waiting ++ drill

/-- Elements in the drain queue. -/
def Matrix.elems (m : Matrix) : Nat := m.dq.countP (·.isNone)

/-- What a room holds in use, in 64-byte units: 0 REG, 1 MAT, 2 PAD, 3 CACHE (R322). -/
def Core.liveUnits (c : Core) (room : Nat) : Nat :=
  match room with
  | 0 => ((c.cellar.areas.filter (·.live)).map fun a => a.len / 64).sum
  | 1 => cdiv (4 * c.mat.elems) 64 + unitsOf c.matNamed
  | 2 => ((c.field.bindings.filter fun b => b.size != 0).map fun b => b.dirty.length).sum + cdiv (c.cellar.stash.map fun r => r.filled.length).sum 4
  | _ => c.cellar.cache.countP fun l => l.valid != 0

/-- What a room has allocated to a use, in 64-byte units (R322). -/
def Core.heldUnits (c : Core) (room : Nat) : Nat :=
  match room with
  | 0 => (c.cellar.areas.map fun a => a.len / 64).sum
  | 1 => if c.cellar.w1 < c.cellar.w2 then 1024 else 0
  | 2 => (c.padAreas.map fun a => a.2 / 64).sum
  | _ => c.cellar.cache.countP fun l => l.cls == 2 && l.valid != 0

/-- cr.OCC of a room. -/
def Core.occ (c : Core) (room : Nat) : Word :=
  BitVec.ofNat 64 (c.liveUnits room % 2 ^ 17 + c.heldUnits room % 2 ^ 17 * 2 ^ 20 + c.cellar.high.toList.getD room 0 % 2 ^ 17 * 2 ^ 40)

/-- Raise the high-water fields to the live values (R322). -/
def Core.tally (c : Core) : Core :=
  { c with cellar := { c.cellar with high := Vector.ofFn fun i => max c.cellar.high[i] (c.liveUnits i.val) } }

/-- The contents of cellar and loft after a change, for a token whose passes are reading them (R251). -/
def MPend.note (p : MPend) (c : Core) : MPend :=
  if p.was.getLast? = some (c.cellar.bytes, c.loft.bytes) then p else { p with was := p.was ++ [(c.cellar.bytes, c.loft.bytes)] }

def Core.notePasses (c : Core) : Core :=
  { c with mat := { c.mat with runs := c.mat.runs.map fun r => { r with pend := r.pend.map (·.note c) } } }

/-- What follows a step: the core in focus, and the owners of stash ranges, note their greatest live values, and what a token in its passes may now read. -/
def State.tally (s : State) : State :=
  (s.cur.val :: (s.owners.map (·.2)).eraseDups.filter (· != s.cur.val)).foldl (fun s i => s.modCoreAt i fun c => c.tally.notePasses) s

/-- A write of cr.OCCRST: each selected room's high-water field takes its live value (R321). -/
def State.writeOccrst (s : State) (v : Word) : State :=
  s.modCore fun c => { c with cellar := { c.cellar with high := Vector.ofFn fun i => if v.getLsbD i.val then c.liveUnits i.val else c.cellar.high[i] } }

/-- A write of cr.OCCRST (R321). -/
def execOccrstWrite (v : Word) (s : State) : DrillOut := .next (s.writeOccrst v)

end Sys2Proof.Machine
end

