-- ==== Sys2Proof/Machine/Service.lean ====
section
/-! DEFINITION. Freezing a core for a pre-emption and thawing it, service of stopped units, the quiescence detector (R132, R173, R383-R393). -/

namespace Sys2Proof.Machine

/-- The meaning's answer. -/
abbrev SvcOut := Host.Outcome State Fault Refusal

/-! ## Freezing the units of a core (R132, R257, R283, R315, R391) -/

/-- A port context stops where it stands. -/
def Port.freeze (p : Port) : Port := if p.st = .frozen then p else { p with st := .frozen, before := p.st }

/-- It returns to the state it had; its extent is translated again (R377). -/
def Port.thaw (p : Port) : Port := if p.st = .frozen then { p with st := p.before, ext := none, held := [] } else p

/-- A region stops; its detector keeps its count (R391). One that a load has not yet brought to its arming is first as it was before the load (R201). -/
def Region.freeze (g : Region) (cyc : Nat) : Region :=
  let g := if g.st = .loading then { g with st := g.before } else g
  { g with before := g.st, st := if g.st = .armed then .frozen else g.st, quiet := cyc - g.quiet, selAt := none }

/-- A region returns to the state it had: one that a fault froze stays FROZEN (R392). -/
def Region.thaw (g : Region) (cyc : Nat) : Region :=
  { g with st := g.before, quiet := cyc - g.quiet, ready := g.bound.map fun c => (c, cyc) }

/-- The field stops: firings that have not committed are abandoned where they wait (R207). -/
def Field.freezeAll (f : Field) (cyc : Nat) : Field :=
  { f with regions := f.regions.map fun (g : Region) => g.freeze cyc
           nodes := f.nodes.map Node.abandon }

/-- The matrix node stops; the AP's tokens are abandoned and its store is cleared (R257). -/
def Matrix.freeze (m : Matrix) : Matrix := { m with frozen := true, runs := m.runs.filter fun r => !r.ap, aps := .reset }

/-- Every unit of a core stops (R132). -/
def Core.freezeUnits (c : Core) (cyc : Nat) : Core :=
  { c with ports := c.ports.map Port.freeze
           copies := c.copies.map fun (x : CopyCtx) => { x with frozen := true }
           mat := c.mat.freeze
           loader := { c.loader with run := c.loader.run.map fun r => { r with now := none } }
           drill := { c.drill with frozen := true }
           ap := { c.ap with frozen := true, run := c.ap.run.map ARun.restart, opbuf := .reset }
           field := c.field.freezeAll cyc }

/-- Every unit of a core goes on; its cached translations are gone (R377, R392). -/
def Core.thawUnits (c : Core) (cyc : Nat) : Core :=
  { c with ports := c.ports.map Port.thaw
           copies := c.copies.map fun (x : CopyCtx) => { x with frozen := false }
           mat := { c.mat with frozen := false }
           drill := { c.drill with frozen := false }
           ap := { c.ap with frozen := false }
           field := { c.field with regions := c.field.regions.map fun (g : Region) => g.thaw cyc }
           edge := []
           cpu := { c.cpu with tlb := [], icache := [] } }

/-- Whether the units of a core stand frozen. -/
def Core.isFrozen (c : Core) : Bool := c.mat.frozen

/-- The strand halts at an instruction boundary; a waiting instruction is abandoned, and a YIELD that its own pass pre-empts retires with 1 after the resume (R115, R132, R135). -/
def Cpu.halt (c : Cpu) (taken : Bool) : Cpu :=
  { c with run := if c.run = .running then .halted else c.run, waitc := none,
           yield := if c.yield = .waiting && taken then .taken else .none }

/-- Every deferred read of a core's agents is withdrawn (R359). -/
def State.withdrawCore (s : State) (i : Nat) : State :=
  let out (t : DeferTab) : DeferTab := { t with
    entries := t.entries.filter fun e => e.core != i
    tickets := t.tickets.map fun x => if x.core == i then { x with tried := false, gone := true } else x }
  { s with
    slices := s.slices.map out
    far := out s.far
    cores := s.cores.map fun (c : Core) =>
      if c.cellar.banks.isEmpty then c
      else { c with cellar := { c.cellar with banks := c.cellar.banks.map fun (e : Nat × DeferTab) => (e.1, out e.2) } } }

/-- Tickets of a core that a launch leaves are retired (R360). -/
def State.dropCoreTickets (s : State) (i : Nat) : State :=
  let out (t : DeferTab) : DeferTab := t.dropTickets s.cyc fun x => x.core == i
  { s with
    slices := s.slices.map out
    far := out s.far
    cores := s.cores.map fun (c : Core) =>
      if c.cellar.banks.isEmpty then c
      else { c with cellar := { c.cellar with banks := c.cellar.banks.map fun (e : Nat × DeferTab) => (e.1, out e.2) } } }

/-- Core i stops for a pre-emption. -/
def State.freezeCore (s : State) (i : Nat) (taken : Bool) : State :=
  (s.withdrawCore i).modCoreAt i fun c => if c.isFrozen then c else { (c.freezeUnits s.cyc) with cpu := c.cpu.halt taken }

/-! ## Service (R385, R386) -/

/-- Service of the AP (R282, R386): it goes on, or the command ends and no further row is written. -/
def State.serviceAp (s : State) (abort : Bool) : State :=
  if !s.core.ap.stopped then s
  else
    let s := (s.withdraw .ap).modAp fun a => { a with stopped := false, run := a.run.map ARun.restart }
    if !abort then (match s.core.ap.run with | some _ => s | none => s.apGo)
    else
      let a := s.core.ap
      match a.start, a.run, a.kv with
      | some (t, _), _, _ => (s.modAp fun a => { a with start := none }).finish 0x4A t
      | none, some r, _ => ((s.orFps a.flags).modAp fun a => { a with run := none, flags := 0 }).finish 0x4A r.tag
      | none, none, some r => (s.modAp fun a => { a with kv := none }).finish 0x4A r.tag
      | none, none, none => s

/-- The tokens of a link go. -/
def Link.discard (l : Link) : Link := { l with fly := [], buf := [], credit := 0, result := [], dec := [], tile := [], pos := 0 }

/-- Whether a fault has frozen a region, or the detector has: under a pre-emption, one that was FROZEN before it (R385, R392). -/
def Core.faultFrozen (c : Core) (r : Nat) : Bool :=
  let g := c.field.region r
  if c.isFrozen then g.before == .frozen else g.st == .frozen

/-- A serviced region takes a state; under a pre-emption it takes it at the thaw. -/
def Region.served (g : Region) (held : Bool) (st : RState) : Region :=
  if held then { g with before := st, st := if st = .armed then .frozen else st } else { g with st := st, before := st }

/-- Every firing of a region's nodes that waits for nothing commits (R207); the others are given up. -/
def State.commitRegion (s : State) (r : Nat) : State :=
  (List.range s.core.field.nodes.length).foldl (fun (s : State) i => match s.core.field.nodes[i]? with
    | none => s
    | some d =>
      if d.region != r then s
      else
        let s := (d.fir.takeWhile fun x => x.opens.isEmpty && x.fault.isNone).foldl (fun (s : State) x => s.commit i d x) s
        s.modField fun f => f.modNode i fun d => { d with fir := [] }) s

/-- Service of a region that a fault has frozen (R386): it thaws and the faulting node runs its firing again, or it becomes UNARMED and its inbound tokens go. -/
def State.serviceRegion (s : State) (r : Nat) (abort : Bool) : State :=
  if !s.core.faultFrozen r then s
  else
    let held := s.core.isFrozen
    if abort then
      (s.commitRegion r).modField fun f =>
        { (f.modRegion r fun g => g.served held .unarmed) with
          links := f.links.map fun l => if nodeRegion l.cons = some r then l.discard else l }
    else s.modField fun f =>
      { (f.modRegion r fun g =>
          { (g.served held .armed) with fcode := 0, fplot := 0, fctx := 0, finstr := 0, fflags := 0, quiet := if held then 0 else s.cyc }) with
        nodes := f.nodes.map fun n => if n.region = r then { n with stopped := false } else n }

/-- A write of cr.SVCRES: a target that is not stopped on a fault is left alone (R385). -/
def State.svcres (s : State) (target : BitVec 8) (abort : Bool) : State :=
  let t := target.toNat
  if t < 0x40 then s.servicePort t abort
  else if t < 0x48 then s.serviceCopy t abort
  else if t = 0x48 then s.serviceMatrix
  else if t = 0x49 then s.serviceDrill abort
  else if t = 0x4A then s.serviceAp abort
  else if 0x80 ≤ t && t < 0x90 then s.serviceRegion (t - 0x80) abort
  else s

/-- SVCRES with ABORT 0 (R386). -/
def execSvcresContinue (target : BitVec 8) (s : State) : SvcOut := .next (s.svcres target false)

/-- SVCRES with ABORT 1 (R386). -/
def execSvcresAbort (target : BitVec 8) (s : State) : SvcOut := .next (s.svcres target true)

/-! ## The quiescence detector (R388, R389) -/

/-- The region that consumes what an endpoint produces, if a node does. -/
def Field.sinkRegion (f : Field) (e : BitVec 20) : Option Nat :=
  ((f.linkFrom e).bind fun i => f.links[i]?).bind fun l => nodeRegion l.cons

/-- All tokens of a link. -/
def Link.tokens (l : Link) : List Token := l.fly ++ (l.buf.flatMap fun e => List.replicate e.2 e.1) ++ l.result ++ l.dec ++ l.tile

/-- The tags of the commands in progress on a core. -/
def Core.running (c : Core) : List Tag :=
  (c.ports.toList.flatMap fun p => p.run.toList.map (·.tag) ++ p.prev.map (·.1.tag)) ++ (c.copies.toList.flatMap fun x => x.runs.map (·.tag)) ++
  (c.loader.run.map (·.tag)).toList ++ (c.loader.inband.map (·.tag)).toList ++ (c.drill.run.map (·.tag)).toList ++
  (c.drill.reap.map (·.1)).toList ++ (c.ap.run.map (·.tag)).toList ++ (c.ap.start.map (·.1)).toList ++ (c.ap.kv.map (·.tag)).toList

/-- Whether a read of the core stands deferred at an LLC slice, or waits there with a ticket; another device's slices count as well (R359, R388). -/
def State.readPending (s : State) : Bool :=
  let mine (t : DeferTab) : Bool := (t.entries.any fun e => e.core == s.cur.val) || t.tickets.any fun e => e.core == s.cur.val && !e.gone
  s.slices.any mine || mine s.far

/-- The headland port contexts bound to a region. -/
def Field.portsOf (f : Field) (r : Nat) : List Nat := (f.bindings.filter fun b => b.region == r && !b.engine).map (·.port)

/-- The engine ports bound to a region. -/
def Field.engsOf (f : Field) (r : Nat) : List Nat := (f.bindings.filter fun b => b.region == r && b.engine).map (·.port)

/-- What R388 counts as pending for a region. -/
def State.pending (s : State) (r : Nat) : Bool :=
  let c := s.core
  let f := c.field
  let into (n : Nat) : Bool := f.sinkRegion (epEndpoint n) == some r
  s.readPending || ((f.portsOf r).any fun p => (s.port p).st == .extent) ||
  (c.loader.inband.any fun b => f.sinkRegion (headEndpoint b.port.toNat) == some r) ||
  (into 1 && (!c.mat.dq.isEmpty || (c.mat.runs.any fun x => !x.ap && x.drain && !x.tomat) ||
    (!destTomat c.mat.mdest && (f.availTo (epEndpoint 0)).any fun t => t.kind == 0 && !(tokenOf t.payload).2.acc))) ||
  (into 2 && c.ap.run.any fun x => x.desc.oport) ||
  (into 4 && c.drill.run.any fun x => !x.ops.dst) ||
  (into 6 && c.running.any (·.notice))

/-- Whether an engine behind a port is stopped on a fault. -/
def Core.engineStopped (c : Core) (port : Nat) : Bool :=
  match port with
  | 0 | 1 => c.mat.stopped
  | 2 => c.ap.stopped
  | 3 | 4 => c.drill.stopped
  | 5 => c.copies.any fun x => x.runs.any (·.flt.isSome)
  | _ => false

/-- Whether the detector of region r fires (R388). -/
def State.quiesced (s : State) (r : Nat) : Bool :=
  let c := s.core
  let f := c.field
  let g := f.region r
  g.st == .armed && c.cpu.qwin != 0 && decide (c.cpu.qwin.toNat ≤ s.cyc - g.quiet) &&
  (f.links.any fun l => nodeRegion l.cons == some r && l.tokens.any fun t => t.kind != 2) &&
  !g.sinkEos && !s.pending r &&
  !((f.portsOf r).any fun p => (s.port p).st == .stalled) && !((f.engsOf r).any c.engineStopped)

/-- Entries that a link holds, and whether it is full: a zero-slot link, while its result register holds a token. -/
def Link.held (l : Link) : Nat := if l.slots = 0 then l.result.length else l.fly.length + l.buf.length
def Link.isFull (l : Link) : Bool := if l.slots = 0 then !l.result.isEmpty else l.held == l.slots

/-- Link j in a snapshot (R389). -/
def Link.snap (l : Link) : Word :=
  let n := min l.tokens.length 64
  BitVec.ofNat 64 (l.edge % 2 ^ 32 + n * 2 ^ 32 + l.slots % 32 * 2 ^ 39 + (if l.isFull then 2 ^ 44 else 0) +
    ((l.avail ++ l.tokens).head?.elim 0 fun t => t.kind.toNat) * 2 ^ 45)

/-- Node i in a snapshot (R389). -/
def Node.snap (n : Node) : List Word :=
  [BitVec.ofNat 64 (plotIndex n.y n.x + n.ctx * 2 ^ 4 + n.reason % 4 * 2 ^ 8 + n.stIn % 2 ^ 32 * 2 ^ 32),
   BitVec.ofNat 64 (n.stOut % 2 ^ 32 + n.stCtx % 2 ^ 32 * 2 ^ 32)]

/-- Links whose consumer lies in a region, in edge order. -/
def Field.inbound (f : Field) (r : Nat) : List Link :=
  (f.links.filter fun l => nodeRegion l.cons == some r).mergeSort fun a b => decide (a.edge ≤ b.edge)

/-- The snapshot of region r (R389). -/
def State.snapshot (s : State) (r : Nat) : List Word :=
  let f := s.core.field
  let ns := f.nodes.filter fun n => n.region == r
  let ls := f.inbound r
  BitVec.ofNat 64 (r + ns.length % 2 ^ 9 * 2 ^ 4 + ls.length % 2 ^ 16 * 2 ^ 16) :: BitVec.ofNat 64 s.cyc :: List.replicate 6 0 ++
  ns.flatMap Node.snap ++ ls.map Link.snap

/-- The detector fires: the region freezes, the snapshot and the record are written (R389). -/
def execQuiescenceDetectorFire (r : BitVec 4) (s : State) : SvcOut :=
  .next (
    if !s.quiesced r.toNat then s
    else
      let full := (s.core.field.inbound r.toNat).countP Link.isFull
      let snap := s.snapshot r.toNat
      let s := s.modField fun f => (f.freeze r.toNat).modRegion r.toNat fun g => { g with fcode := 0x60, fplot := 0, fctx := 0, finstr := 0, fflags := 0 }
      let a := s.cpu.qsnap
      let s := if a = 0 then s else s.writeThrough a.toNat (snap.flatMap fun w => toBytes 8 w.toNat)
      s.report { s.mkRec 0x60 0xA (r.setWidth 8) with addr := a, detail := BitVec.ofNat 64 full })

end Sys2Proof.Machine
end

