-- ==== Sys2Proof/Machine/Scheduler.lean ====
section
/-! DEFINITION. The launch scheduler: admission, placement, pre-emption, strand starts, launch ends, budgets, watchdog (R22, R26, R116-R140, R170, R320, R335, R391-R394). -/

namespace Sys2Proof.Machine

/-! ## The host fault queue (R401, R403) -/

/-- Write a record into the host fault queue, or wait for room; vector 1 signals when the tail advances. -/
def Porter.hfqFull (p : Porter) : Bool := (p.hfqTail - p.hfqHead).toNat == 2 ^ p.hfqE.toNat

/-- Write one record's words at the host queue's tail. -/
def State.hostPut (s : State) (ws : List Word) : State :=
  let p := s.porter
  let a := p.hfqBase.toNat + 64 * (p.hfqTail.toNat % 2 ^ p.hfqE.toNat)
  let bs := (ws ++ [(1#1 ++ 0#31 ++ p.hfqTail : Word)]).flatMap fun w => toBytes 8 w.toNat
  { s with hostMem := memPut s.hostMem a bs, porter := { p with hfqTail := p.hfqTail + 1, msix1 := p.msix1 + 1 } }

/-- Report to the host: a scheduler or machine fault (R394, R403). -/
def State.hostReport (s : State) (code : BitVec 8) (asid : BitVec 16) (core : Nat) : State :=
  let ws := ({ s.mkRec code 8 0 with t := false } : FRec).words asid core
  if s.porter.hfqFull || !s.porter.hfqWait.isEmpty then s.modPorter fun p => { p with hfqWait := p.hfqWait ++ [ws] } else s.hostPut ws

/-- Records that waited go out while the queue has room. -/
def State.hostFlush (s : State) : Nat → State
  | 0 => s
  | n + 1 =>
    match s.porter.hfqWait with
    | [] => s
    | ws :: rest => if s.porter.hfqFull then s else ((s.modPorter fun p => { p with hfqWait := rest }).hostPut ws).hostFlush n

/-! ## Records as the scheduler reads and writes them -/

/-- The scheduler sets a record's state. -/
def State.schedState (s : State) (r : BitVec 12) (st : Nat) : State := s.schedPut r 0 (s.recHome r 0 / 16 * 16 + st)

/-- The levels of a launch's record. -/
def State.levelsOf (s : State) (r : BitVec 12) : List Level := (parseLevels (s.recHome r)).getD []

/-! ## Placement (R120, R127, R129) -/

/-- The order in which cores are tried: the given one, then the rest (log 8). -/
def coreOrder (order : List Nat) : List Nat :=
  let o := (order.filter fun i => decide (i < 192)).eraseDups
  o ++ (List.range 192).filter fun i => !o.contains i

/-- Adjacent levels of one domain, as the domain and the product of their extents. -/
def levelRuns : List Level → List (Nat × Nat)
  | [] => []
  | l :: ls => match levelRuns ls with
    | (d, p) :: rest => if d = l.domain then (d, p * l.extent) :: rest else (l.domain, l.extent) :: (d, p) :: rest
    | [] => [(l.domain, l.extent)]

/-- Whole chunks of n. -/
def fullChunks {α : Type} (n : Nat) (l : List α) : List (List α) := if n = 0 then [] else chunks n (l.length / n) l

/-- Instances of domain d that the order meets. -/
def instancesOf (order : List Nat) (d : Nat) : List Nat := (order.map fun i => i / domainCount 2 d).eraseDups

/-- The whole free instances of domain d, as their cores. -/
def wholeUnits (order : List Nat) (free : Nat → Bool) (d : Nat) : List (List Nat) :=
  let z := domainCount 2 d
  ((instancesOf order d).map fun k => rangeFrom (k * z) z).filter fun cs => cs.all free

/-- Units grouped by p inside instances of domain d: the units of the next run of levels. -/
def groupUnits (order : List Nat) (d p : Nat) (us : List (List Nat)) : List (List Nat) :=
  (instancesOf order d).flatMap fun k =>
    (fullChunks p (us.filter fun u => u.headD 0 / domainCount 2 d == k)).map List.flatten

/-- The cores of a launch, by rank, in a placement that the levels permit; none where no placement exists. -/
def placement (order : List Nat) (free : Nat → Bool) (ls : List Level) : Option (List Nat) :=
  let runs := match levelRuns (coreLevels ls) with | [] => [(2, 1)] | rs => rs
  let start := wholeUnits order free ((runs.head?).elim 2 (·.1))
  ((runs.zip (runs.tail.map (·.1) ++ [5])).foldl (fun us x => groupUnits order x.2 x.1.2 us) start).head?

/-- Whether a core is online. -/
def Porter.online (p : Porter) (i : Nat) : Bool := p.tests.toList.getD i .failed == .online

/-- Whether a core counts for R129: during stage 4 one that has not failed (R405). -/
def Porter.counts (p : Porter) (i : Nat) : Bool :=
  let t := p.tests.toList.getD i .failed
  if p.stage = 4 then t != .failed else t == .online

/-- Whether a core is free for an admission. -/
def State.freeCoreAt (s : State) (i : Nat) : Bool := s.porter.online i && (s.coreAt i).on.recIx.isNone

/-- Place the members of a gang, or one launch, on free cores, each where the order puts it; a pre-empted launch needs its own cores (R128, R132). -/
def State.placeInOrder (s : State) (order : List Nat) (free : Nat → Bool) : List Launch → Option (List (Launch × List Nat))
  | [] => some []
  | l :: ls =>
    let cores := if l.pre then (let cs := l.saved.map (·.1); if cs.all free then some cs else none) else placement order free (s.levelsOf l.recIx)
    match cores with
    | none => none
    | some cs => (s.placeInOrder order (fun i => free i && !cs.contains i) ls).map fun rest => (l, cs) :: rest

/-- Every choice of n members of a list, in the list's order. -/
def picks {α : Type} : Nat → List α → List (List α)
  | 0, _ => [[]]
  | _ + 1, [] => []
  | n + 1, x :: xs => (picks n xs).map (x :: ·) ++ picks (n + 1) xs

/-- Every way to group p units that share no core inside one instance of domain d. -/
def unitGroups (order : List Nat) (d p : Nat) (us : List (List Nat)) : List (List Nat) :=
  (instancesOf order d).flatMap fun k =>
    ((picks p (us.filter fun u => u.headD 0 / domainCount 2 d == k)).filter fun g => decide g.flatten.Nodup).map List.flatten

/-- Every placement of a launch that its levels permit on free cores. -/
def placements (order : List Nat) (free : Nat → Bool) (ls : List Level) : List (List Nat) :=
  let runs := match levelRuns (coreLevels ls) with | [] => [(2, 1)] | rs => rs
  let start := wholeUnits order free ((runs.head?).elim 2 (·.1))
  (runs.zip (runs.tail.map (·.1) ++ [5])).foldl (fun us x => unitGroups order x.2 x.1.2 us) start

/-- The first placement of all members together, over every choice for each of them (R120, R128). -/
def State.placeSearch (s : State) (order : List Nat) : (Nat → Bool) → List Launch → Option (List (Launch × List Nat))
  | _, [] => some []
  | free, l :: ls =>
    let choices := if l.pre then (let cs := l.saved.map (·.1); if cs.all free then [cs] else []) else placements order free (s.levelsOf l.recIx)
    choices.findSome? fun cs => (s.placeSearch order (fun i => free i && !cs.contains i) ls).map fun rest => (l, cs) :: rest

/-- Place one launch, or every member of a gang: where the order puts them, else in the first arrangement that holds them all (R120, R128). -/
def State.placeAll (s : State) (order : List Nat) (free : Nat → Bool) (ls : List Launch) : Option (List (Launch × List Nat)) :=
  match s.placeInOrder order free ls with
  | some xs => some xs
  | none => if ls.length ≤ 1 then none else s.placeSearch order free ls

/-- Resumed members first, then the ones with the widest units (log 8). -/
def State.placeOrder (s : State) (ls : List Launch) : List Launch :=
  let width (l : Launch) : Nat := if l.pre then 1000 else baseCores (s.levelsOf l.recIx) * 256 + coreCount (s.levelsOf l.recIx)
  ls.mergeSort fun a b => decide (width b ≤ width a)

/-- Whether no arrangement of the online cores can hold the members (R129). A launch that was placed once can be again. -/
def State.impossible (s : State) (order : List Nat) (ls : List Launch) : Bool :=
  let total := (ls.map fun l => coreCount (s.levelsOf l.recIx)).sum
  let have' := (List.range 192).countP s.porter.counts
  decide (have' < total) || (ls.any (!·.pre) && (s.placeAll order s.porter.counts ls).isNone)

/-! ## Setting up a core (R22, R26, R320, R370) -/

/-- The loft at an admission: kept for its ASID, else zero (R22). -/
def Loft.admitted (l : Loft) (asid : BitVec 16) : Loft := if l.asid = some asid then l else { Loft.reset with asid := some asid }

/-- A core that belongs to no launch: its loft and its invalidation register stay. -/
def Core.idle (c : Core) : Core := { Core.reset with loft := c.loft, inval := c.inval, invalOf := c.invalOf }

/-- A core whose launch has been pre-empted and saved: free, with the seed graph left in the drill's cells (R315). -/
def Core.vacated (c : Core) : Core := { c.idle with drill := { Drill.reset with graph := c.drill.graph } }

/-- A core of an admitted launch, before its images load (R122, R320, R370). A graph that a pre-empted launch left in the drill's cells stays there unless this launch maps context 0x49 (R315). -/
def State.setupCore (s : State) (l : Launch) (i rank : Nat) : State :=
  let rd := s.recHome l.recIx
  let ls := s.levelsOf l.recIx
  let asid := BitVec.ofNat 16 (bits (rd 8) 15 0)
  let (r, m, p, _) := recRooms (rd 0x68)
  let ctl := rd 0
  let status : Word := BitVec.ofNat 64 ((if recDl ctl then 2 ^ 8 else 0) + (if recDem ctl then 2 ^ 4 else 0) + (if recFlush ctl then 2 ^ 3 else 0))
  let q := mapBytes (rd 0x70) 8
  let t := mapBytes (rd 0x78 + rd 0x80 * 2 ^ 64) 16
  let por := s.porter
  s.modCoreAt i fun c =>
    { (if q.contains 0xC9 || t.contains 0xC9 then c.idle else c.vacated) with
      loft := c.loft.admitted asid
      cellar := { Cellar.reset with w1 := r, w2 := r + m, w3 := r + m + p }
      cpu := { Cpu.reset with status := status, tvec := por.tvec &&& ~~~3#64
                              qsnap := if por.qsnap = 0 then 0 else BitVec.ofNat 64 (por.qsnap + i * 24576) &&& ~~~63#64 }
      fq := { FaultQ.reset with base := BitVec.ofNat 64 (por.fqbase + i * 64 * 2 ^ por.fqe.toNat) &&& 0xFFFFFFFFFFFC0#64, e := por.fqe }
      on :=
        { recIx := some l.recIx, asid := asid, rank := BitVec.ofNat 8 rank, lvl := Vector.ofFn fun n => lvlWord ls por.link.toNat rank n.val,
          qmap := Vector.ofFn fun n => BitVec.ofNat 8 (q.getD n.val 0), tlmap := Vector.ofFn fun n => BitVec.ofNat 8 (t.getD n.val 0),
          fixw := recFixw ctl, ptroot := ((por.roots.find? (·.1 == asid)).map (·.2)).getD 0 &&& 0xFFFFFFFFFF000#64 } }

/-- The entries of an image list; none when it is malformed for n cores. Stage 3 makes any entry malformed; stages 1 and 2 of an entry that is no stage image mean nothing (DESIGN CHOICE, log 27). -/
def listEntries (n : Nat) : List Word → Option (List ListEntry)
  | a :: w :: rest =>
    let v := w.toNat
    let e : ListEntry := ⟨a.toInt, bits v 63 48, bits v 47 32, bits v 31 16, bits v 5 4, bits v 3 0⟩
    if (e.kind != 0 && e.mask != 0) || e.last < e.first || n ≤ e.last || n ≤ e.first || bits v 15 6 ≠ 0 || 2 < e.kind || e.stage == 3 then none
    else (listEntries n rest).map (e :: ·)
  | [_] => none
  | [] => some []

/-- Load one entry on the core in focus, as CFGLD, SOW or BIND would (R170), with the fault record that the command would write. -/
def State.loadEntry (s : State) (e : ListEntry) : State :=
  let fail (ctx : Nat) (c : BitVec 8) (a : Int) (s : State) : State :=
    ((s.report { s.engineRec c ctx none with addr := wordOf a }).noteCode ctx c).noteBoot c
  let ctx := match e.kind with | 0 => 0x4B | 1 => 0x49 | _ => 0x4A
  if e.addr % 8 ≠ 0 then fail ctx 0x54 0 s
  else match e.kind with
    | 0 => s.loadImage e.addr e.mask
    | 1 => match s.sowLoad false e.addr with | .ok s => s | .error (c, a, s) => fail ctx c a s
    | _ => match s.bindLoad false e.stage e.addr with | .ok s => s | .error (c, a, s) => fail ctx c a s

/-- A load of the admission has failed: the launch ends with cause 2 and the failure's code, before any strand starts (R170). -/
def State.bootFail (s : State) (c : BitVec 8) : State :=
  let s := s.modLoader fun _ => ⟨none, none, none⟩
  match s.core.on.recIx with
  | some r => s.endLaunch r 2 c
  | none => s

/-- Load the entries that are left, in list order, as far as none waits for a region (R170, R173). -/
def State.bootGo : List ListEntry → State → State
  | [], s => s.modLoader fun l => { l with boot := none }
  | e :: rest, s =>
    let s := (s.modLoader fun l => { l with boot := some ⟨rest, none⟩ }).loadEntry e
    if s.core.loader.run.isSome then s
    else match s.core.loader.boot.bind (·.code) with
      | some c => s.bootFail c
      | none => State.bootGo rest s

/-- Go on with the list once the regions that an entry waited for are loaded. -/
def State.bootNext (s : State) (b : Boot) : State :=
  if s.core.loader.run.isSome then s
  else match b.code with
    | some c => s.bootFail c
    | none => State.bootGo b.rest s

/-- The image list of a core's launch (R26, R170): the entries for its rank, or the code of a fault, with the fault record of a word that cannot be read, which is the loader's to report, with its address (R409). Address 0 names no list (log 27). -/
def State.bootList (s : State) (l : Launch) (rank : Nat) : Except (BitVec 8) (List ListEntry) × State :=
  let a : Int := signed 64 (s.recHome l.recIx 0x18)
  if a = 0 then (.ok [], s)
  else if a % 8 ≠ 0 then (.error 0x43, s)
  else match s.imageWords false a 1 with
    | ((_, (_, c) :: _), s) => (.error c, s.loadRecord none { code := c, addr := a })
    | ((ws, []), s) =>
      let w := (ws.headD 0).toNat
      if bits w 63 8 ≠ 0 || w = 0 || 64 < w then (.error 0x43, s)
      else match s.imageWords false (a + 8) (2 * w) with
        | ((_, (i, c) :: _), s) => (.error c, s.loadRecord none { code := c, addr := a + 8 + 8 * (i : Int) })
        | ((es, []), s) => match listEntries (coreCount (s.levelsOf l.recIx)) es with
          | none => (.error 0x43, s)
          | some es => (.ok (es.filter fun e => decide (e.first ≤ rank) && decide (rank ≤ e.last)), s)

/-- Set up a core and load its images, as far as they need not wait (R26, R170). -/
def State.bringUp (s : State) (l : Launch) (x : Nat × Nat) : State :=
  let cur := s.cur
  let s := match ((s.setupCore l x.1 x.2).focus x.1).bootList l x.2 with
    | (.ok es, s) => State.bootGo es s
    | (.error c, s) => s.bootFail c
  { (s.modCore Core.tally) with cur := cur }

/-- Restore a core of a resumed launch: save area, walls, units, regions, stash ranges (R22, R335, R392). -/
def State.resumeCore (s : State) (x : Nat × Core) : State :=
  let i := x.1
  let asid := x.2.on.asid
  let ranges := x.2.cellar.stash.filter fun r => r.pages.all fun p => !(s.owners.any (·.1 == p))
  let s := s.modCoreAt i fun c =>
    let c' := x.2.thawUnits s.cyc
    { c' with loft := c.loft.admitted asid, inval := (c.inval.1, c'.inval.2), invalOf := c.invalOf, cellar := { c'.cellar with stash := ranges } }
  let s := { s with owners := s.owners ++ ranges.flatMap fun (r : StashR) => r.pages.map fun p => (p, i) }
  s.rehome (ranges.flatMap StashR.pages)

/-- Admit a launch on its cores (R117, R127). -/
def State.admitAt (s : State) (x : Launch × List Nat) : State :=
  let (l, cores) := x
  let s := { s with admits := s.admits + 1 }
  let s := s.modLaunch l.recIx fun l => { l with running := true, pre := false, cores := cores, order := s.admits, saved := [] }
  let s := s.schedState l.recIx 3
  if l.pre then l.saved.foldl State.resumeCore s else (cores.zipIdx).foldl (fun s x => s.bringUp l x) s

/-! ## Victims (R131, R135, R139, R391) -/

/-- Whether a running launch is being pre-empted already. -/
def State.preempting (s : State) (l : Launch) : Bool := l.running && l.cores.any fun i => (s.coreAt i).isFrozen

/-- The launches that are pre-empted with a given one. -/
def State.gangRunning (s : State) (l : Launch) : List Launch :=
  let g := s.recHome l.recIx 0x90
  if g.testBit 15 then s.launches.filter fun m => m.running && sameGang g (s.recHome m.recIx 0x90) else [l]

/-- Whether a launch has a YIELD that waits for this pass. -/
def State.yields (s : State) (l : Launch) : Bool := l.cores.any fun i => (s.coreAt i).cpu.yield == .waiting

/-- Whether a launch may be a victim for a record of an effective priority. -/
def State.mayFall (s : State) (eff : Nat) (l : Launch) : Bool :=
  let ctl := s.recHome l.recIx 0
  l.ending.isNone && !s.preempting l && !recLoft ctl && !(recPrio ctl == 7 && recDl ctl) &&
  decide (recPrio ctl + (if s.yields l then 0 else 2) ≤ eff)

/-- The units of victims, lowest priority first, then latest admitted first (R131). A running gang whose members differ counts with the highest of their priorities, and falls only when each of them may (DESIGN CHOICE, log 31). -/
def State.victims (s : State) (eff : Nat) : List (List Launch) :=
  let prio (u : List Launch) : Nat := (u.map fun l => recPrio (s.recHome l.recIx 0)).foldl max 0
  let order (u : List Launch) : Nat := (u.map (·.order)).foldl max 0
  (((s.launches.filter (·.running)).map s.gangRunning).eraseDups.filter fun u => !u.isEmpty && u.all (s.mayFall eff)).mergeSort fun a b =>
    decide (prio a < prio b) || (prio a == prio b && decide (order b ≤ order a))

/-- The first choice of k units of a list, in the list's order, that a test accepts. -/
def firstChoice {α : Type} (ok : List α → Bool) : Nat → List α → List α → Option (List α)
  | 0, acc, _ => if ok acc then some acc else none
  | _ + 1, _, [] => none
  | k + 1, acc, x :: xs => (firstChoice ok k (acc ++ [x]) xs).orElse fun _ => firstChoice ok (k + 1) acc xs

/-- Save areas in use, or about to be. -/
def State.savedCores (s : State) : Nat :=
  (s.launches.map fun l => if s.preempting l then l.cores.length else l.saved.length).sum

/-- The fewest victims that make the members fit (R131), within the save pool (R391). -/
def State.chooseVictims (s : State) (order : List Nat) (eff : Nat) (ls : List Launch) : Option (List (List Launch)) :=
  let us := s.victims eff
  let ok (vs : List (List Launch)) : Bool :=
    let cores := vs.flatten.flatMap (·.cores)
    decide (s.savedCores + cores.length ≤ Config.savePool) &&
    (s.placeAll order (fun i => s.freeCoreAt i || (s.porter.online i && cores.contains i)) ls).isSome
  (rangeFrom 1 us.length).findSome? fun k => firstChoice ok k [] us

/-- Signal the cores of a victim (R132). A strand that waits at YIELD retires it with 1 after the resume; where the victim's priority would have let it fall in any case, the YIELD may instead count as abandoned (R135). -/
def State.preempt (s : State) (eff : Nat) (l : Launch) : State :=
  let forced := decide (recPrio (s.recHome l.recIx 0) + 2 ≤ eff)
  let (b, s) := if forced && s.yields l then s.choose else (true, s)
  l.cores.foldl (fun s i => s.freezeCore i b) s

/-! ## The pass (R127-R131) -/

/-- The ARMED launches with their effective priorities, in the order of R127. -/
def State.candidates (s : State) : List (Nat × Launch) :=
  ((s.launches.filter fun l => !l.running && l.ending.isNone).map fun l => (s.effective (s.recHome l.recIx 0) l, l)).mergeSort fun a b =>
    decide (b.1 < a.1) || (a.1 == b.1 && (decide (a.2.armT < b.2.armT) || (a.2.armT == b.2.armT && decide (a.2.recIx.toNat ≤ b.2.recIx.toNat))))

/-- A record whose admission is impossible goes to DONE (R129, R134). -/
def State.refuse (s : State) (ls : List Launch) : State :=
  let s := ls.foldl (fun s l =>
    let s := ((s.schedPut l.recIx 0xA0 (3 + 0x71 * 2 ^ 8)).schedPut l.recIx 0xB8 (s.cyc % 2 ^ 64)).schedState l.recIx 4
    { s with launches := s.launches.filter fun m => m.recIx != l.recIx }) s
  match ls with
  | [] => s
  | l :: _ => s.hostReport 0x71 (BitVec.ofNat 16 (bits (s.recHome l.recIx 8) 15 0)) 0

/-- Consider one record or gang; whether one of effective priority 7 did not fit. -/
def State.consider (s : State) (order : List Nat) (eff : Nat) (ls : List Launch) : State × Bool :=
  let ls := s.placeOrder ls
  if s.impossible order ls then (s.refuse ls, false)
  else match s.placeAll order s.freeCoreAt ls with
    | some xs => (xs.foldl State.admitAt s, false)
    | none =>
      let soon (i : Nat) : Bool := s.freeCoreAt i || (s.porter.online i && (s.coreAt i).isFrozen)
      if (s.placeAll order soon ls).isSome then (s, eff == 7)
      else match s.chooseVictims order eff ls with
        | some vs => (vs.flatten.foldl (fun s l => s.preempt eff l) s, eff == 7)
        | none => (s, eff == 7)

/-- The records of a pass, in order; a full stop at one of effective priority 7 that does not fit (R127). A gang is considered at its first member in the order, with that one's priority (DESIGN CHOICE, log 31). -/
def State.passGo (s : State) (order : List Nat) : List (Nat × Launch) → State
  | [] => s
  | (eff, l) :: rest =>
    match s.launch l.recIx with
    | none => s.passGo order rest
    | some l =>
      if l.running || l.ending.isSome || !s.gangReady l then s.passGo order rest
      else match s.consider order eff (s.gangArmed l) with
        | (s, false) => s.passGo order rest
        | (s, true) => s

/-- A YIELD that its pass did not pre-empt gives 0 (R135). -/
def State.endYields (s : State) : State :=
  { s with cores := s.cores.map fun (c : Core) => if c.cpu.yield = .waiting then { c with cpu := { c.cpu with yield := .refused } } else c }

/-- ADMISSION_PASS (R127); from stage 4 to 5 (R403, R405). -/
def execAdmissionPass (order : List Nat) (s : State) : SvcOut :=
  .next (if s.porter.stage = 4 || s.porter.stage = 5 then (s.passGo (coreOrder order) s.candidates).endYields else s)

/-! ## Starting a strand (R122) -/

/-- The strand of a newly admitted core: argument words, rank, entry. -/
def State.beginStrand (s : State) (l : Launch) : State :=
  let g : Vector Word 32 := Vector.ofFn fun i =>
    if 1 ≤ i.val && i.val ≤ 8 then l.args.toList.getD (i.val - 1) 0 else if i.val = 9 then s.core.on.rank.setWidth 64 else 0
  let e := BitVec.ofNat 64 (s.recHome l.recIx 0x10)
  let s := s.modCpu fun c => { c with g := g, pc := e, run := .running }
  if !canonical e.toInt then s.trapAt 0x22 e e else if e.extractLsb' 0 2 != 0 then s.trapAt 0x13 e e else s

/-- STRAND_START: a new strand starts at its entry, a resumed one at its saved pc (R26, R122, R392), once the images of every core of the launch are loaded; while the core's own list waits for a region, the event goes on with the list (R170). -/
def execStrandStart (s : State) : SvcOut :=
  .next (match s.core.on.recIx.bind s.launch with
    | none => s
    | some l =>
      if !l.running || l.ending.isSome || s.core.isFrozen then s
      else match s.core.loader.boot with
      | some b => s.bootNext b
      | none =>
        if l.cores.any fun i => (s.coreAt i).loader.boot.isSome then s
        else
          let s := s.modLaunch l.recIx fun l => { l with start := l.start.orElse fun _ => some s.cyc }
          match s.cpu.run with
          | .off => s.beginStrand l
          | .halted => s.modCpu fun c => { c with run := .running }
          | _ => s)

/-! ## Saving a pre-empted launch (R132, R335, R391) -/

/-- Save one core: CACHE written back, stash ranges given up with their list kept, the rest into the save area; then the core is free. -/
def State.saveCore (s : State) (r : BitVec 12) (i : Nat) : State :=
  let cur := s.cur
  let s := { ((s.focus i).cleanAll) with cur := cur }
  let ranges := (s.coreAt i).cellar.stash
  let s := ranges.foldl (fun s x => s.unstashAt i x) s
  let c := s.coreAt i
  let keep : Core := { c with cellar := { c.cellar with cache := [], stash := ranges.map fun x => { x with filled := [], dirty := [] } } }
  ((s.modLaunch r fun l => { l with saved := l.saved ++ [(i, keep)] }).modCoreAt i Core.vacated).dropCoreTickets i

/-- PREEMPTION_SAVE_DONE: the victim is ARMED with PRE set and its cores are free (R132), no earlier than every wall move of theirs has ended (R328). -/
def execPreemptionSaveDone (rec : BitVec 12) (s : State) : SvcOut :=
  .next (match s.launch rec with
    | none => s
    | some l =>
      if !l.running || l.ending.isSome || !(l.cores.all fun i => (s.coreAt i).isFrozen && (s.coreAt i).cellar.move.isNone) then s
      else
        let s := l.cores.foldl (fun s i => s.saveCore rec i) s
        (s.modLaunch rec fun l => { l with running := false, pre := true }).schedState rec 2)

/-! ## The end of a launch (R133, R134) -/

/-- The cores of a launch as they stand: on the device, or saved. -/
def State.coresOf (s : State) (l : Launch) : List (Nat × Core) := if l.running then l.cores.map fun i => (i, s.coreAt i) else l.saved

/-- A core leaves its launch: dirty CACHE sectors are written back, stash ranges given up, everything else discarded. -/
def State.releaseCore (s : State) (i : Nat) : State :=
  let cur := s.cur
  let s := { ((s.focus i).cleanAll) with cur := cur }
  let s := (s.coreAt i).cellar.stash.foldl (fun s x => s.unstashAt i x) s
  ((s.withdrawCore i).dropCoreTickets i).modCoreAt i Core.idle

/-- Finish a launch with a cause and a code: the exit record, then DONE (R133, R134). -/
def State.finishLaunch (s : State) (l : Launch) (cause code : BitVec 8) : State :=
  let cs := s.coresOf l
  let out := cs.filter fun c => c.2.cpu.run == .exited
  let low := cs.foldl (fun (o : Option (Nat × Core)) c => match o with
    | none => some c
    | some d => if c.1 < d.1 then some c else some d) none
  let val : Nat := match low with | some c => if c.2.cpu.run = .exited then c.2.cpu.exitVal.toNat else 0 | none => 0
  let gone := (cs.map fun c => c.2.cpu.dropped).sum
  let s := if l.running then l.cores.foldl State.releaseCore s else s
  let r := l.recIx
  let s := s.schedPut r 0xA0 (cause.toNat + (if cause = 2 || cause = 3 then code.toNat else 0) * 2 ^ 8 + out.length % 2 ^ 16 * 2 ^ 16)
  let s := ((s.schedPut r 0xA8 val).schedPut r 0xB0 (gone % 2 ^ 64)).schedPut r 0xB8 (s.cyc % 2 ^ 64)
  let s := s.schedState r 4
  { s with launches := s.launches.filter fun m => m.recIx != r, pins := s.pins.filter fun e => e.1 != r }

/-- LAUNCH_COMPLETE: the last core has exited, or the launch has been ended (R133). -/
def execLaunchComplete (rec : BitVec 12) (s : State) : SvcOut :=
  .next (match s.launch rec with
    | none => s
    | some l => match l.ending with
      | some (cause, code) => s.finishLaunch l cause code
      | none =>
        let cs := s.coresOf l
        if l.running && cs.all fun c => c.2.cpu.run == .exited then
          s.finishLaunch l (if cs.any fun c => c.2.cpu.exitX then 1 else 0) 0
        else s)

/-! ## Budgets and the watchdog (R138, R394) -/

/-- A late event of the scheduler, on the launch's core of rank 0 (R138, R140). -/
def State.launchLate (s : State) (l : Launch) (past : Nat) : State :=
  let cur := s.cur
  { (((s.focus (l.cores.headD 0)).late 8 0 (BitVec.ofNat 64 past) 0)) with cur := cur }

/-- DEADLINE_BUDGET_ELAPSED: one late event for a launch that is not DONE (R138); a launch that stands pre-empted raises it once it runs again. -/
def execDeadlineBudgetElapsed (rec : BitVec 12) (s : State) : SvcOut :=
  .next (match s.launch rec with
    | none => s
    | some l =>
      let b := bits (s.recHome rec 0x88) 47 0
      match l.start with
      | none => s
      | some t =>
        if b = 0 || l.budget || !l.running || s.cyc < t + b then s
        else (s.launchLate l (s.cyc - t - b)).modLaunch rec fun l => { l with budget := true })

/-- One CLK late event for every running launch that asks for it, at a clock step below 1.5 GHz (R138). -/
def State.clockLate (s : State) : State :=
  s.launches.foldl (fun s l => if l.running && (s.recHome l.recIx 0x88).testBit 48 then s.launchLate l 0 else s) s

/-- Whether a freeze of a region, or a pre-emption request, is outstanding on a core (R394). -/
def Core.freezeAsked (c : Core) : Bool := c.isFrozen || c.field.regions.any (·.st == .frozen)

/-- WATCHDOG_FAULT: a unit of the core in focus missed its stopping point after a freeze or a pre-emption request; the porter resets the core, ends the launch and reports (R394). -/
def execWatchdogFault (ctx : BitVec 8) (s : State) : SvcOut :=
  .next (match s.core.on.recIx with
    | none => s
    | some r =>
      if !s.core.freezeAsked then s
      else
      let s := s.endLaunch r 2 0xF0
      let s := (s.withdrawCore s.cur.val).modCore fun c =>
        { c.idle with on := c.on, cellar := c.cellar, cpu := { Cpu.reset with run := .dead, ecccnt := c.cpu.ecccnt } }
      let ws := ({ s.mkRec 0xF0 8 ctx with t := false } : FRec).words s.core.on.asid s.cur.val
      if s.porter.hfqFull || !s.porter.hfqWait.isEmpty then s.modPorter fun p => { p with hfqWait := p.hfqWait ++ [ws] } else s.hostPut ws)

end Sys2Proof.Machine
end

