-- ==== Sys2Proof/Machine/System.lean ====
section
/-! DEFINITION. The meanings of the SYS group, of the traps, and of the events around the fault queue, invalidation, deferral and late events (R112, R113, R140, R166, R321, R346, R347, R360, R367, R370, R371, R378). -/

namespace Sys2Proof.Machine

/-- TRAP: a trap with code 0x16 (R112). -/
def execTrap (q : Guard) (s : State) : Out := .next (s.guarded q fun s => s.trap 0x16 0)

/-- BRK: a trap with code 0x15 (R112). -/
def execBrk (q : Guard) (s : State) : Out := .next (s.guarded q fun s => s.trap 0x15 0)

/-- ERET: 0x12 in USER (R90), else the return of R113. -/
def execEret (q : Guard) (s : State) : Out :=
  .next (s.guarded q fun s => if s.super then s.eret else s.trap 0x12 0)

/-- A pending trapping record traps the control core at an instruction boundary, while NEST is 0 (R367). -/
def execAsyncTrap (s : State) : Out :=
  .next (match s.core.fq.pending with
    | some code => if s.cpu.nest then s else s.trapAsync code
    | none => s)

/-- The code that a reserved encoding raises: the one it earns, a free one where it earns several (log 9). -/
def reservedCode (codes : List (BitVec 8)) : BitVec 8 := codes.getD (Config.encodingPick codes % codes.length) 0x10

/-- A reserved encoding traps whatever its guard says (R59). -/
def execReservedEncoding (codes : List (BitVec 8)) (s : State) : Out := .next (s.trap (reservedCode codes) 0)

/-- A fetch that fails traps; no instruction executes (R367, R101). -/
def execFetchFault (code : BitVec 8) (addr : Word) (s : State) : Out := .next (s.trapAt code addr addr)

/-! ## The fault queue -/

/-- The oldest record that waits for room is written once a slot is free (R370); its unit goes on. -/
def execFaultRecordWrite (s : State) : Out :=
  .next (match s.core.fq.waiting with
    | [] => s
    | r :: rest => if s.core.fq.isFull then s else ((s.modFq fun f => { f with waiting := rest }).putRecord r).finishLate)

/-- A write of cr.FQHEAD (R371). -/
def State.writeFqhead (s : State) (v : Word) : State := s.modFq fun f => f.setHead (v.setWidth 32)

/-- A write of cr.FQHEAD (R371, R395). -/
def execFqheadWrite (v : Word) (s : State) : Out := .next (s.writeFqhead v)

/-! ## Invalidation (R378) -/

/-- Every core discards its cached translations, extents and edge TLB entries; an agent translates again when it needs one, but for a read that is deferred, which goes on with its own. -/
def State.discardTranslations (s : State) : State :=
  { s with cores := s.cores.map fun (c : Core) =>
      { c with cpu := { c.cpu with tlb := [] }, edge := [], ports := c.ports.map fun (p : Port) => { p with ext := none, held := [] } } }

/-- The registers BUSY and DROPPED after a write. -/
def invalStart (b : Bool × Bool) : Bool × Bool := if b.1 then (true, true) else (true, b.2)

/-- A write of cr.INVAL: ignored and noted while BUSY, else an invalidation starts. It discards every cached translation, more than the page it names (R378). -/
def State.writeInval (s : State) (v : Word) : State :=
  let busy := s.core.inval.1
  let s := s.modCore fun c => { c with inval := invalStart c.inval, invalOf := if busy then c.invalOf else (v, s.cyc) }
  if busy then s else s.discardTranslations

/-- A write of cr.INVAL (R378). -/
def execInvalWrite (v : Word) (s : State) : Out := .next (s.writeInval v)

/-- Whether a read still deferred used a translation that an invalidation names: ALL, or the page of an address (R378). -/
def DEntry.under (e : DEntry) (v : Word × Nat) : Bool :=
  let a := signed 57 (bits v.1.toNat 56 12 * 4096)
  e.val.isNone && decide (e.first ≤ v.2) && e.page.any fun x => v.1.getLsbD 2 || x.holds a

/-- Whether an access that an invalidation concerns has been translated and is not performed: a deferred read of a core that a test selects, or a refused one that goes on retrying (R378). -/
def State.invalOpen (s : State) (v : Word × Nat) (core : Nat → Bool) : Bool :=
  let t (x : DeferTab) : Bool :=
    (x.entries.any fun e => core e.core && e.under v) || x.tickets.any fun y => !y.gone && core y.core && (y.entry none).under v
  s.slices.any t || t s.far || s.cores.any fun c => c.cellar.banks.any fun b => t b.2

/-- An invalidation of the core in focus, or of the porter, ends once every access translated before it has been performed: what was cached since it began goes too, then BUSY clears (R378). -/
def execInvalComplete (s : State) : Out :=
  .next (
    let asid := s.core.on.asid
    let mine := s.core.inval.1 && !s.invalOpen s.core.invalOf fun i => decide (i < 192) && (s.coreAt i).on.asid == asid
    let host := s.porter.inval.1 && !s.invalOpen s.porter.invalOf fun i => decide (i < 192)
    if mine || host then
      (s.discardTranslations.modCore fun c => { c with inval := (c.inval.1 && !mine, c.inval.2) }).modPorter fun p =>
        { p with inval := (p.inval.1 && !host, p.inval.2) }
    else s)

/-- What a read of an INVAL register gives: DROPPED and BUSY. -/
def invalWord (b : Bool × Bool) : Word := (BitVec.ofBool b.2 ++ BitVec.ofBool b.1).setWidth 64

/-- A read of cr.INVAL clears DROPPED. -/
def State.readInval (s : State) : Word × State :=
  (invalWord s.core.inval, s.modCore fun c => { c with inval := (c.inval.1, false) })

/-- A read of cr.INVAL into gd: the register's part; MFCR adds the retirement. -/
def execInvalRead (gd : BitVec 5) (s : State) : Out := .next (let (w, s) := s.readInval; s.setG gd w)

/-! ## Deferral -/

/-- A write of another agent reaches an empty ONCE location at its home and fills it (R346). A full one keeps its value; the fault is the writer's. -/
def execOnceLocationFill (pa size : Nat) (data : Word) (s : State) : Out :=
  .next (if s.full.contains (pa / 8) then s
    else s.onceFill (pa / 8) (onceBytes (pa / 8) pa (toBytes size data.toNat)))

/-- The value of a location at a home, when it is full: an edge buffer's word, or a word of global memory. -/
def State.fullAt (s : State) (h : Home) (loc : Nat) : Option Word :=
  match h, decide (2 ^ 60 ≤ loc) with
  | .bank o _, true =>
    let c := (s.coreAt o).cellar
    if c.full.contains (loc - 2 ^ 60) then some (BitVec.ofNat 64 (ofBytes (c.read ((loc - 2 ^ 60) * 8) 8))) else none
  | _, _ => if s.full.contains loc then some (s.homeWord loc) else none

/-- One retry at a table of the device. -/
def State.retryAt (s : State) (a : Agent) (h : Home) : State :=
  let (t, cap) := s.tab h
  if t.tickets.isEmpty then s
  else
    let (t, refused) := t.retry cap s.cur.val a (s.fullAt h) s.cyc
    (s.setTab h t).countOref refused

/-- The homes at which a core's agent can hold a ticket: the slices, and the banks of the cores that own a stash, its own among them. -/
def State.homes (s : State) : List Home :=
  (List.range 12).map (fun i => Home.slice ⟨i % 12, Nat.mod_lt _ (by decide)⟩) ++
  (s.cur.val :: s.owners.map (·.2)).eraseDups.flatMap fun o => (s.coreAt o).cellar.banks.map fun b => Home.bank o b.1

/-- The refused reads of an agent retry with their tickets (R347, R360). -/
def execDeferredReadRetry (a : Agent) (s : State) : Out := .next (s.homes.foldl (fun s h => s.retryAt a h) s)

/-- A bank of the core in focus, or an LLC slice, skips an unclaimed ticket (R347, R360). -/
def execTicketSkip (bank : Bool) (i : Nat) (s : State) : Out :=
  .next (if bank then s.modCellar fun c => if c.banks.any (·.1 == i) then c.setBank i ((c.bank i).skip s.cyc) else c
    else if h : i < 12 then { s with slices := s.slices.set i (s.slices[i].skip s.cyc) } else s)

/-! ## Registers with a rule of their own, and late events -/

/-- A write of cr.HINTDROP (R166). -/
def State.writeHintdrop (s : State) (v : Word) : State := s.modCpu fun c => { c with hintdrop := v }

/-- A write of cr.HINTDROP: zero lets the next dropped part set cr.HINTLOG again (R166). -/
def execHintdropWrite (v : Word) (s : State) : Out := .next (s.writeHintdrop v)

/-- An operation of a deadline-mode launch exceeded its worst case (R137, R140). -/
def execLateEvent (cls ctx : BitVec 8) (past : Word) (s : State) : Out :=
  .next (if s.cpu.dl then s.late cls ctx past (if cls = 0 then s.pc else 0) else s)

end Sys2Proof.Machine
end

