-- ==== Sys2Proof/Machine/Porter.lean ====
section
/-! DEFINITION. The porter: staged start, mailbox, clock and temperature, Volen links, host and remote accesses, attestation, bit errors (R28-R30, R357, R390, R400-R408). -/

namespace Sys2Proof.Machine

/-! ## Staged start (R405, R406) -/

/-- What a member of the linkset keeps when this device loses power: entries of its memory, which this model holds beside the device's own (log 12). -/
def State.remoteMem (s : State) : Memory := s.mem.filter fun e => e.1.testBit 51

/-- The device with nothing left but its ROM and the fused counter (R405). What stands outside it stays: host memory, other devices, what comes next. -/
def State.cold (s : State) (stage : BitVec 4) : State :=
  { State.reset with
    agenda := s.agenda, cur := s.cur, pick := s.pick, hostMem := s.hostMem, mem := s.remoteMem
    full := s.full.filter fun l => (l * 8).testBit 51
    porter := { Porter.reset with stage := stage, fused := s.porter.fused } }

/-- POWER_UP: stage 1, awaiting the image; every core in reset (R405). -/
def execPowerUp (s : State) : SvcOut := .next (s.cold 1)

/-- POWER_LOSS: nothing is held but the ROM and the fused counter (R405). -/
def execPowerLoss (s : State) : SvcOut := .next (s.cold 0)

/-- Whether the image's length is one that the ROM reads (R405). -/
def Porter.lenOk (p : Porter) : Bool := decide (4096 ≤ p.fwlen.toNat) && decide (p.fwlen.toNat ≤ 2 ^ 26)

/-- MB_FWGO: the ROM reads the image, in stage 1 or after a refusal (R401, R405). -/
def execMbFwgo (s : State) : SvcOut :=
  .next (
    let p := s.porter
    if p.stage ≠ 1 && p.stage ≠ 6 then s
    else
      let image := if p.lenOk then memBytes s.hostMem p.fwaddr.toNat p.fwlen.toNat else []
      { s with porter := { p with stage := 2, reason := 0, image := image, digest := [] } })

/-- A 64-bit field of an image. -/
def imageField (im : List Byte) (off n : Nat) : Nat := ofBytes ((im.drop off).take n)

/-- The digest of an image (R406). -/
def imageDigest (im : List Byte) : List Byte := Config.shake256 (im.take 0x40 ++ im.drop 0x1000)

/-- The vendor key and the signature of an image. -/
def imageKey (im : List Byte) : List Byte := (im.drop 0x40).take 1793
def imageSig (im : List Byte) : List Byte := (im.drop 0x780).take 1330

/-- The reason for which the ROM refuses an image, in the order of R406. -/
def Porter.imageFault (p : Porter) : Option (BitVec 8) :=
  let im := p.image
  let f (off n : Nat) : Nat := imageField im off n
  let b := f 0x18 8
  if !p.lenOk then some 5
  else if f 0 8 ≠ 1 then some 5
  else if f 8 8 < p.fused then some 3
  else if f 8 8 < f 0x10 8 then some 3
  else if b = 0 || im.length ≠ 0x1000 + b then some 5
  else if f 0x20 8 % 4 ≠ 0 || b ≤ f 0x20 8 then some 5
  else if f 0x28 24 ≠ 0 then some 5
  else if Config.shake256 (imageKey im) ≠ Config.fusedKeyHash then some 1
  else if !Config.falconVerify (imageKey im) (imageDigest im) (imageSig im) then some 2
  else none

/-- FIRMWARE_VERIFY_DONE: stage 6 with a reason, or stage 3 (R405, R406). -/
def execFirmwareVerifyDone (s : State) : SvcOut :=
  .next (s.modPorter fun p =>
    if p.stage ≠ 2 then p
    else match p.imageFault with
      | some c => { p with stage := 6, reason := c, image := [] }
      | none => { p with stage := 3, digest := imageDigest p.image })

/-- The porter as its firmware sets it up at boot: the pool of every unit of HBM (R24), and what it gives each launch (log 6). -/
def Porter.boot (p : Porter) : Porter :=
  { p with affine := p.setup.affine, lpool := p.setup.lpool, tvec := p.setup.tvec, fqbase := p.setup.fqbase, fqe := p.setup.fqe,
           qsnap := p.setup.qsnap, roots := p.setup.roots }

/-- TRAINING_DONE: the firmware sets the porter up, the fused counter is raised to the image's minimum and stage 4 begins; or stage 6 with reason 4 (R24, R402, R405). -/
def execTrainingDone (ok : Bool) (s : State) : SvcOut :=
  .next (s.modPorter fun p =>
    if p.stage ≠ 3 then p
    else if ok then { p.boot with stage := 4, fused := max p.fused (imageField p.image 0x10 8) }
    else { p with stage := 6, reason := 4 })

/-- Whether every core of the wings before a core's has been tested (R405). -/
def Porter.wingTurn (p : Porter) (core : Nat) : Bool :=
  (List.range (core / 48 * 48)).all fun i => p.tests.toList.getD i .untested != .untested

/-- CORE_SELF_TEST_DONE: the core comes online, with 64 columns or 128, or never does; after the last one stage 5 (R258, R405). -/
def execCoreSelfTestDone (core : Nat) (pass narrow : Bool) (s : State) : SvcOut :=
  .next (s.modPorter fun p =>
    if h : core < 192 then
      if p.stage ≠ 4 || p.tests[core] ≠ .untested || !p.wingTurn core then p
      else
        let tests := p.tests.set core (if pass then .online else .failed)
        { p with tests := tests, narrow := p.narrow.set core (pass && narrow),
                 stage := if tests.all (· != .untested) then 5 else 4 }
    else p)

/-- PCIE_FUNCTION_RESET: boot begins again at stage 1, and the firmware must be delivered again (R408); memory keeps its power. -/
def execPcieFunctionReset (s : State) : SvcOut :=
  .next { (s.cold 1) with mem := s.mem, full := s.full, ecc1 := s.ecc1, ecc2 := s.ecc2 }

/-! ## Mailbox (R401, R403) -/

/-- The record index of a mailbox write. -/
def mbRec (v : Word) : BitVec 12 := v.extractLsb' 0 12

/-- MB_ARM: an arm without the ASID and UARM checks; status 6 below stage 4 (R403). -/
def execMbArm (v : Word) (s : State) : SvcOut :=
  .next (
    let r := mbRec v
    let st (n : Nat) (s : State) : State := s.modPorter fun p => { p with armSt := BitVec.ofNat 4 n }
    if s.porter.stage < 4 then st 6 s
    else
      let rd := s.recHome r
      match armStatus rd none with
      | 0 => st 0 (s.armRecord r rd State.schedPut)
      | n => st n s)

/-- The members of a launch's gang, ARMED or RUNNING. -/
def State.gangAll (s : State) (l : Launch) : List Launch :=
  let g := s.recHome l.recIx 0x90
  if g.testBit 15 then s.launches.filter fun m => sameGang g (s.recHome m.recIx 0x90) else [l]

/-- Commands of a core that have not been delivered go (R403). -/
def Core.dropCommands (c : Core) : Core := { c with qs := { c.qs with q := .replicate 8 [], pairs := [] } }

/-- End a launch by the host: its cores stop as at a pre-emption point (R403). -/
def State.hostEnd (s : State) (l : Launch) : State :=
  let s := if l.running then l.cores.foldl (fun s i => (s.freezeCore i false).modCoreAt i Core.dropCommands) s else s
  s.endLaunch l.recIx 4 0

/-- MB_END: an ARMED or RUNNING launch, or its whole gang, ends with cause 4 (R403, R134). -/
def execMbEnd (v : Word) (s : State) : SvcOut :=
  .next (match s.launch (mbRec v) with
    | none => s
    | some l => (s.gangAll l).foldl State.hostEnd s)

/-- MB_CAP: the cap step, applied at the next sample (R30, R401). -/
def execMbCap (v : Word) (s : State) : SvcOut := .next (s.modPorter fun p => { p with cap := bits v.toNat 1 0 })

/-- MB_HFQHEAD: the head advances as cr.FQHEAD's does, and records that waited are written (R370, R371, R401). -/
def execMbHfqhead (v : Word) (s : State) : SvcOut :=
  .next (
    let p := s.porter
    let f : FaultQ := ({ FaultQ.reset with head := p.hfqHead, tail := p.hfqTail } : FaultQ).setHead (v.setWidth 32)
    ({ s with porter := { p with hfqHead := f.head } }).hostFlush p.hfqWait.length)

/-- MB_INVAL: as a write of cr.INVAL (R378, R401). -/
def execMbInval (v : Word) (s : State) : SvcOut :=
  .next (
    let busy := s.porter.inval.1
    let s := s.modPorter fun p => { p with inval := invalStart p.inval, invalOf := if busy then p.invalOf else (v, s.cyc) }
    if busy then s else s.discardTranslations)

/-- MB_LINK: this device's number; its trained ports pass it on to their peers (R404). -/
def execMbLink (v : Word) (s : State) : SvcOut := .next (s.modPorter fun p => { p with link := v.extractLsb' 0 6 })

/-! ## Attestation (R407) -/

/-- MB_ATTEST: a request; one in progress is replaced (R407). -/
def execMbAttest (v : Word) (s : State) : SvcOut := .next (s.modPorter fun p => { p with attest := some v })

/-- Exactly n bytes: cut, or padded with zeros. -/
def fitBytes (n : Nat) (l : List Byte) : List Byte := (l ++ List.replicate (n - l.length) 0).take n

/-- ATTEST_REPORT_DONE: the report of the running image, and vector 0 (R407). Bytes 0x769 to 0x76F are not stated: free. -/
def execAttestReportDone (s : State) : SvcOut :=
  .next (match s.porter.attest with
    | none => s
    | some a =>
      if s.porter.digest.isEmpty then s
      else
        let nonce := memBytes s.hostMem a.toNat 32
        let dst := memNat s.hostMem (a.toNat + 32) 8
        let (w, s) := s.freeWord
        let msg := nonce ++ fitBytes 64 s.porter.digest ++ toBytes 8 s.porter.fused ++ fitBytes 1793 Config.identityKey ++ toBytes 7 w.toNat
        ({ s with hostMem := memPut s.hostMem dst (msg ++ fitBytes 1330 (Config.falconSign msg)) }).modPorter fun p =>
          { p with attest := none, msix0 := p.msix0 + 1 })

/-! ## The clock and the temperature (R28-R30, R408) -/

/-- The rolling average over the samples held, at most ten, as MB.CLOCK shows it: in whole watts, rounded down, which R30 and R401 leave open (DESIGN CHOICE, log 32). The governor compares the exact average. -/
def Porter.average (p : Porter) : Nat := if p.samples.isEmpty then 0 else p.samples.sum / p.samples.length

/-- Whether the exact average exceeds a power, or stays below one (R28). -/
def Porter.above (p : Porter) (watts : Nat) : Bool := decide (watts * p.samples.length < p.samples.sum)
def Porter.below (p : Porter) (watts : Nat) : Bool := decide (p.samples.sum < watts * max 1 p.samples.length)

/-- A thermal trip: every core stops, every launch ends with cause 2 and code 0xF2, a machine fault record, stage 7 (R408). -/
def State.trip (s : State) : State :=
  let s := s.launches.foldl (fun s l => s.endLaunch l.recIx 2 0xF2) s
  let s := { s with cores := s.cores.map fun (c : Core) => if c.on.recIx.isSome && !c.isFrozen then c.freezeUnits s.cyc else c }
  (s.hostReport 0xF2 0 0).modPorter fun p => { p with stage := 7 }

/-- The clock after a sample: at most one step lower for power or heat, down to the cap at once, or one step up after 50 samples that allow it (R28, R30, R408). -/
def Porter.sample (p : Porter) (watts : Nat) (temps : List Nat) : Porter :=
  let p := { p with samples := (watts :: p.samples).take 10 }
  let hot := p.above 3200 || temps.any fun t => decide (105 < t)
  let cool := p.below 2900 && temps.all fun t => decide (t ≤ 95)
  let low := if cool then p.low + 1 else 0
  let high := if p.step = 3 && p.above 3200 then p.high + 1 else 0
  let next :=
    if hot then max (min 3 (p.step + 1)) p.cap
    else if p.step < p.cap then p.cap
    else if 50 ≤ low && p.cap < p.step then p.step - 1
    else p.step
  if next = p.step then { p with low := low, high := high } else { p with step := next, low := 0, high := 0 }

/-- GOVERNOR_SAMPLE: one sample of power and of the four wings' temperatures (R28, R408). -/
def execGovernorSample (watts : Nat) (t0 t1 t2 t3 : Nat) (s : State) : SvcOut :=
  .next (
    let ts := [t0, t1, t2, t3]
    if s.porter.stage = 0 || s.porter.stage = 7 then s
    else
      let old := s.porter.step
      let s := s.modPorter fun p => p.sample watts ts
      if (ts.any fun t => decide (115 ≤ t)) || 10 ≤ s.porter.high then s.trip
      else if s.porter.step ≠ old && s.porter.step ≠ 0 then s.clockLate
      else s)

/-! ## Volen links (R357, R404) -/

/-- What a port has heard of the members that its peer reaches. -/
def Porter.hear (p : Porter) (port : BitVec 4) (peer : BitVec 6) (heard : List (BitVec 6)) : Porter :=
  { p with ports := p.ports.set port.toNat (some peer), heard := (port, heard) :: p.heard.filter (·.1 != port),
           downs := p.downs.filter (· != peer) }

/-- VOLEN_PORT_TRAINED: the port joins a peer and exchanges numbers (R404). -/
def execVolenPortTrained (port : BitVec 4) (peer : BitVec 6) (heard : List (BitVec 6)) (s : State) : SvcOut :=
  .next (s.modPorter fun p => p.hear port peer heard)

/-- NUMBER_EXCHANGE: numbers arrive on a trained port (R404). -/
def execNumberExchange (port : BitVec 4) (peer : BitVec 6) (heard : List (BitVec 6)) (s : State) : SvcOut :=
  .next (s.modPorter fun p => if p.ports[port.toNat].isSome then p.hear port peer heard else p)

/-- Whether a launch's record declares a LINKSET level. -/
def State.linkset (s : State) (l : Launch) : Bool := (s.levelsOf l.recIx).any fun v => v.domain == 6

/-- VOLEN_PORT_DOWN: the numbers that the port has heard stay members of the linkset (R357). When it was the last port to its peer, that member's accesses fault with 0xF1, every LINKSET launch ends with cause 2, and the host is told (R404). -/
def execVolenPortDown (port : BitVec 4) (s : State) : SvcOut :=
  .next (match s.porter.ports[port.toNat] with
    | none => s
    | some peer =>
      let s := s.modPorter fun p => { p with ports := p.ports.set port.toNat none }
      if s.porter.joined peer then s
      else
        let s := s.modPorter fun p => { p with downs := peer :: p.downs.filter (· != peer) }
        let s := (s.launches.filter s.linkset).foldl (fun s l => s.endLaunch l.recIx 2 0xF1) s
        s.hostReport 0xF1 0 0)

/-! ## Accesses from outside the device (R346, R357, R400, R404) -/

/-- The part of a write that lies in one location, as its first address and its bytes. -/
def partAt (loc pa : Nat) (bs : List Byte) : Nat × List Byte :=
  let lo := max pa (loc * 8)
  (lo, (bs.drop (lo - pa)).take (min (pa + bs.length) (loc * 8 + 8) - lo))

/-- A PLAIN write from outside, one location: its bytes at its home. One that would merge with an uncorrectable word writes nothing (R390). -/
def State.plainPut (s : State) (loc pa : Nat) (bs : List Byte) : State :=
  let (lo, part) := partAt loc pa bs
  if decide (part.length < 8) && s.heldErr2 loc then s else (s.homePut lo part).touchStash lo part.length true

/-- A write through BAR 4, one location: it has no page, so it is PLAIN; one that deferred reads wait for fills its location and serves them (R346, R400, log 26). -/
def State.barPut (s : State) (loc pa : Nat) (bs : List Byte) : State :=
  let waited := (s.tab (s.homeOf loc)).1.entries.any fun e => e.loc == loc && e.val.isNone
  if waited && !s.full.contains loc then s.onceFill loc (onceBytes loc pa bs) else s.plainPut loc pa bs

/-- A write of another device, one location: its page there is a ONCE or a PLAIN one, which the request does not show here (R357): a free choice (log 26). -/
def State.remotePut (s : State) (loc pa : Nat) (bs : List Byte) : State :=
  let (once, s) := s.choose
  if !once then s.barPut loc pa bs else if s.full.contains loc then s else s.onceFill loc (onceBytes loc pa bs)

/-- A read of n bytes from outside changes nothing but the sectors that a stash fills (R333). -/
def State.outsideRead (s : State) (pa size : Nat) : State := s.touchStash pa size false

/-- HOST_MEMORY_ACCESS: the host reads or writes device memory through BAR 4 (R400). -/
def execHostMemoryAccess (pa size : Nat) (write : Bool) (data : Word) (s : State) : SvcOut :=
  if Config.hbmBytes < pa + size then .fault .noSuchMemory
  else .next (if write then let bs := toBytes size data.toNat; (locsOf pa size).foldl (fun s l => s.barPut l pa bs) s else s.outsideRead pa size)

/-- The requester of a read on a port: numbers above the cores'. The data of a read request name the agent of the other device (log 26). -/
def remoteAgent (port : BitVec 4) (who : Word) : Nat := 192 + port.toNat + 16 * who.toNat

/-- A read of another device meets one location here, of n bytes (R346, R359, R360). A full one is served, and its ticket retires. An empty one is deferred at its home when its page there is a ONCE page, a free choice (log 26); one that was refused retries with its ticket. -/
def State.remoteRead (s : State) (who loc n : Nat) : State :=
  let h := s.homeOf loc
  let (t, cap) := s.tab h
  if s.full.contains loc then s.setTab h (t.taken who .strand loc s.cyc)
  else match t.tickets.find? fun x => x.live who .strand && x.loc == loc with
    | some x => s.setTab h (t.retryOne cap (s.fullAt h) s.cyc x).1
    | none =>
      let (once, s) := s.choose
      if once then s.setTab h (t.ask cap ⟨who, .strand, loc, n, s.cyc, none, none⟩).1 else s

/-- Served reads of other devices have left for their links. -/
def State.sendServed (s : State) : State :=
  { s with slices := s.slices.map fun (t : DeferTab) => { t with entries := t.entries.filter fun e => !(decide (192 ≤ e.core) && e.val.isSome) } }

/-- REMOTE_REQUEST: a request arrives on a trained port and is served, or deferred, at its home here (R357, R404). A read of no bytes says that its agent has abandoned what it reads, which withdraws it (R359, log 26). -/
def execRemoteRequest (port : BitVec 4) (pa size : Nat) (write : Bool) (data : Word) (s : State) : SvcOut :=
  if s.porter.ports[port.toNat].isNone then .next s
  else if Config.hbmBytes < pa + size then .fault .noSuchMemory
  else .next (
    if write then let bs := toBytes size data.toNat; (locsOf pa size).foldl (fun s l => s.remotePut l pa bs) s
    else if size = 0 then s.withdrawAt (remoteAgent port data) .strand
    else ((locsOf pa size).foldl (fun s l =>
      s.remoteRead (remoteAgent port data) l (min (pa + size) (l * 8 + 8) - max pa (l * 8))) (s.outsideRead pa size)).sendServed)

/-! ## Bit errors (R390) -/

/-- Note an error of a word: a double one stays, a single one is noted beside it. -/
def noteErr (e1 e2 : NatSet) (w : Nat) (double : Bool) : NatSet × NatSet :=
  if double then (delNat w e1, insNat w e2) else if e2.contains w then (e1, e2) else (insNat w e1, e2)

/-- The word k of a line has an error. -/
def CLine.noteErr (l : CLine) (k : Nat) (double : Bool) : CLine :=
  let m := 1#8 <<< k
  if double then { l with err := l.err ||| m, err1 := l.err1 &&& ~~~m }
  else if l.err.getLsbD k then l else { l with err1 := l.err1 ||| m }

/-- An error in a cellar word: of a CACHE line where the word lies in that room, else of the word itself. -/
def Cellar.noteErr (c : Cellar) (w : Nat) (double : Bool) : Cellar :=
  if c.w3 ≤ w / 8192 then
    match (c.cache.filter fun l => l.bank == w / 8192)[w % 8192 / 8]? with
    | some l => { c with cache := c.cache.map fun x => if x.addr == l.addr then x.noteErr (w % 8) double else x }
    | none => c
  else
    let (a, b) := Sys2Proof.Machine.noteErr c.err1 c.err2 w double
    { c with err1 := a, err2 := b }

/-- BIT_ERROR: an error arises in a word of HBM, or of the cellar, the loft or a plot's context registers of the core in focus (R390). -/
def execBitError (place : ErrPlace) (word : Nat) (double : Bool) (s : State) : SvcOut :=
  .next (match place with
    | .hbm =>
      if Config.hbmBytes / 8 ≤ word then s
      else let (a, b) := noteErr s.ecc1 s.ecc2 word double; { s with ecc1 := a, ecc2 := b }
    | .cellar => if 524288 ≤ word then s else s.modCellar fun c => c.noteErr word double
    | .loft =>
      if 2097152 ≤ word then s
      else s.modCore fun c => let (a, b) := noteErr c.loft.err1 c.loft.err2 word double; { c with loft := { c.loft with err1 := a, err2 := b } }
    | .node => s.modField fun f => f.modNode (word / 16) fun n =>
        let (a, b) := noteErr n.err1 n.err2 (word % 16) double; { n with err1 := a, err2 := b })

end Sys2Proof.Machine
end

