-- ==== Sys2Proof/Machine/Cr.lean ====
section
/-! DEFINITION. The control registers and the meanings of MFCR and MTCR (R88-R90, R110, R111, R122, R140, R166, R168, R241, R285, R317, R321, R364, R395). -/

namespace Sys2Proof.Machine

/-! ## Access (R88, R90) -/

/-- Registers whose USER column is "—". -/
def crHidden (k : Nat) : Bool :=
  (decide (0x004 ≤ k) && decide (k ≤ 0x008)) || k == 0x040 || k == 0x080 || (decide (0x200 ≤ k) && decide (k ≤ 0x20B))

/-- Registers that both modes may write. -/
def crUserWrites (k : Nat) : Bool :=
  k == 0x003 || k == 0x010 || k == 0x084 || k == 0x100 || k == 0x184 || k == 0x300 || k == 0x301 ||
  (decide (0x310 ≤ k) && decide (k ≤ 0x31F)) || k == 0x3A0

/-- Registers that SUPER alone may write. -/
def crSuperWrites (k : Nat) : Bool :=
  k == 0x002 || k == 0x004 || k == 0x006 || k == 0x007 || k == 0x008 || k == 0x040 ||
  (decide (0x202 ≤ k) && decide (k ≤ 0x205)) || k == 0x207 || k == 0x208 || k == 0x20A || k == 0x20B

/-- The code that a read raises, if any (R90). -/
def crReadFault (super : Bool) (k : Nat) : Option (BitVec 8) := if !super && crHidden k then some 0x12 else none

/-- The code that a write raises, if any (R90). -/
def crWriteFault (super : Bool) (k : Nat) : Option (BitVec 8) :=
  if crUserWrites k then none
  else if crSuperWrites k then (if super then none else some 0x12)
  else some 0x10

/-! ## Status words -/

/-- cr.WALLS (R321). -/
def Cellar.wallsWord (c : Cellar) : Word :=
  let (n, t) := c.move.getD (0, 0)
  BitVec.ofNat 64 (c.w1 + c.w2 * 2 ^ 8 + c.w3 * 2 ^ 16 + n % 4 * 2 ^ 30 + t % 256 * 2 ^ 32)

/-- The mask of banks lo to hi - 1. -/
def bankMask (lo hi : Nat) : Word := BitVec.ofNat 64 (2 ^ hi - 2 ^ (min lo hi))

/-- cr.MAP of a room (R318). -/
def Cellar.mapWord (c : Cellar) (room : Nat) : Word :=
  match room with
  | 0 => bankMask 0 c.w1
  | 1 => bankMask c.w1 c.w2
  | 2 => bankMask c.w2 c.w3
  | _ => bankMask c.w3 64

/-- The code of a port context's state (R168). -/
def PState.code : PState → Nat
  | .idle => 0
  | .running => 1
  | .stalled => 2
  | .extent => 3
  | .frozen => 4

/-- cr.PINFO of a port context (R168). -/
def Port.info (p : Port) : Word :=
  BitVec.ofNat 64 (p.st.code + p.short.toNat * 2 ^ 4 + p.spill.length % 256 * 2 ^ 8 + p.code.toNat * 2 ^ 16 + p.done % 2 ^ 40 * 2 ^ 24)

/-- cr.PINFO: all zeros when cr.PSEL selects nothing (R168). -/
def Core.pinfo (c : Core) : Word :=
  if h : c.cpu.psel.toNat < 64 then (c.ports[c.cpu.psel.toNat]).info else 0

/-- cr.APSTAT (R285). -/
def Ap.stat (a : Ap) : Word :=
  let st : Nat := if a.frozen then 3 else if a.stopped then 2 else if a.run.isSome || a.start.isSome || a.kv.isSome then 1 else 0
  BitVec.ofNat 64 (st + a.code.toNat * 2 ^ 8 + a.blocks % 2 ^ 16 * 2 ^ 16 + a.rows % 2 ^ 32 * 2 ^ 32)

/-- cr.APBIND: SCORE, MASK, BLEND (R285). -/
def Ap.bindWord (a : Ap) : Word :=
  BitVec.ofNat 64 ((a.bind[0]).isSome.toNat + (a.bind[1]).isSome.toNat * 2 + (a.bind[2]).isSome.toNat * 4)

/-- cr.MSTAT (R241). -/
def Matrix.stat (m : Matrix) : Word :=
  BitVec.ofNat 64 (m.ep.carry.toNat + m.aps.carry.toNat * 2 + (!m.runs.isEmpty).toNat * 4 + m.stopped.toNat * 8 +
    m.elems % 2 ^ 15 * 2 ^ 8 + m.taken.toNat * 2 ^ 32)

/-- cr.DSTAT (R317). -/
def Drill.stat (d : Drill) : Word :=
  let st : Nat := if d.frozen then 4 else if d.stopped then 3 else if d.run.isSome then 2 else if d.graph.isSome then 1 else 0
  let depth := match d.graph with | some g => g.depth | none => 0
  let nodes := match d.graph with | some g => g.nodes.length | none => 0
  BitVec.ofNat 64 (st + nodes % 2 ^ 14 * 2 ^ 10 + depth % 256 * 2 ^ 24 + d.code.toNat * 2 ^ 32 + d.lastRun % 2 ^ 24 * 2 ^ 40)

/-- The code of a region's state (R395). -/
def RState.code : RState → Nat
  | .empty => 0
  | .loading => 1
  | .armed => 2
  | .unarmed => 3
  | .frozen => 4

/-- The counter of a node for its last stall reason; none for a node that fired or is idle. -/
def Node.stall (n : Node) : Nat := match n.reason with | 1 => n.stIn | 2 => n.stOut | 3 => n.stCtx | _ => 0

/-- cr.RFAULT: the region and the node that cr.RSEL selects (R395). -/
def Core.rfault (c : Core) : Word :=
  let r := c.cpu.rsel.toNat
  let g := c.field.regions.toList.getD (r % 16) .reset
  let n := c.field.nodes.find? fun n => n.region == r % 16 && plotIndex n.y n.x == r / 16 % 16 && n.ctx == r / 256
  let stall := match n with | some n => n.stall | none => 0
  let reason := match n with | some n => n.reason % 4 | none => 0
  BitVec.ofNat 64 (g.fcode.toNat + g.fplot % 16 * 2 ^ 8 + g.fctx % 16 * 2 ^ 12 + g.finstr % 32 * 2 ^ 16 + g.st.code * 2 ^ 21 +
    g.fflags.toNat * 2 ^ 24 + reason * 2 ^ 29 + stall % 2 ^ 32 * 2 ^ 32)

/-! ## Reading -/

/-- cr.TLCn or cr.TLNn: 0 for an unmapped selector (R364). -/
def Core.timeline (c : Core) (counts : Vector Nat 16) (i : Nat) : Word :=
  match c.on.tlCtx (BitVec.ofNat 4 i) with
  | some _ => BitVec.ofNat 64 (counts.toList.getD i 0)
  | none => 0

/-- What a read of a register gives, but for cr.INVAL, whose read has an effect. -/
def State.crValue (s : State) (k : Nat) : Word :=
  let c := s.core
  let p := c.cpu
  if 0x020 ≤ k && k ≤ 0x027 then c.on.lvl.toList.getD (k - 0x020) 0
  else if 0x031 ≤ k && k ≤ 0x034 then c.occ (k - 0x031)
  else if 0x180 ≤ k && k ≤ 0x183 then c.cellar.mapWord (k - 0x180)
  else if 0x310 ≤ k && k ≤ 0x31F then (c.mat.sc.toList.getD (k - 0x310) 0).setWidth 64
  else if 0x380 ≤ k && k ≤ 0x38F then c.timeline c.qs.completed (k - 0x380)
  else if 0x390 ≤ k && k ≤ 0x39F then c.timeline c.qs.issued (k - 0x390)
  else match k with
  | 0x000 => BitVec.ofNat 64 s.cyc
  | 0x001 => BitVec.ofNat 64 s.cur.val
  | 0x002 => p.status
  | 0x003 => p.fps.setWidth 64
  | 0x004 => p.tvec
  | 0x005 => p.tcause
  | 0x006 => p.epc
  | 0x007 => p.ksave0
  | 0x008 => p.ksave1
  | 0x010 => p.hintdrop
  | 0x011 => p.hintlog
  | 0x030 => c.cellar.wallsWord
  | 0x040 => p.qwin.setWidth 64
  | 0x080 => BitVec.ofNat 64 s.porter.lpool
  | 0x081 => (c.on.recIx.getD 0).setWidth 64
  | 0x082 => c.on.asid.setWidth 64
  | 0x083 => c.on.rank.setWidth 64
  | 0x084 => p.late
  | 0x100 => p.psel.setWidth 64
  | 0x101 => c.pinfo
  | 0x185 => BitVec.ofNat 64 c.cellar.stash.length
  | 0x200 => p.taddr
  | 0x201 => c.on.ptroot
  | 0x203 => c.fq.base
  | 0x204 => c.fq.e.setWidth 64
  | 0x205 => c.fq.head.setWidth 64
  | 0x206 => c.fq.tail.setWidth 64
  | 0x208 => p.rsel.setWidth 64
  | 0x209 => c.rfault
  | 0x20A => p.qsnap
  | 0x20B => p.ecccnt
  | 0x280 => c.ap.stat
  | 0x281 => c.ap.bindWord
  | 0x2C0 => c.ap.kvflt
  | 0x300 => c.mat.mawin
  | 0x301 => c.mat.mdest
  | 0x302 => c.mat.stat
  | 0x303 => if s.porter.narrow[s.cur] then 64 else 128
  | 0x340 => c.drill.stat
  | 0x3A0 => p.oref
  | _ => 0

/-- A read of a register: a read of cr.INVAL clears DROPPED (R378). -/
def State.crRead (s : State) (k : Nat) : Word × State := if k = 0x202 then s.readInval else (s.crValue k, s)

/-! ## Writing -/

/-- Bits [hi:lo] of a word, the others cleared. -/
def keep (v : Word) (hi lo : Nat) : Word := BitVec.ofNat 64 (bits v.toNat hi lo * 2 ^ lo)

/-- The quiescence window: 0 turns the detector off, 1 to 1,023 act as 1,024 (R388). -/
def clampQwin (v : Word) : BitVec 32 :=
  let n := bits v.toNat 31 0
  if n = 0 then 0 else BitVec.ofNat 32 (max n 1024)

/-- A write of the control core's own registers. -/
def Cpu.crWrite (c : Cpu) (k : Nat) (v : Word) : Cpu :=
  match k with
  | 0x002 => { c with status := statusWith c.status (v.getLsbD 0) (v.getLsbD 1) (v.getLsbD 2) }
  | 0x003 => { c with fps := v.setWidth 5 }
  | 0x004 => { c with tvec := v &&& ~~~3#64 }
  | 0x006 => { c with epc := v }
  | 0x007 => { c with ksave0 := v }
  | 0x008 => { c with ksave1 := v }
  | 0x040 => { c with qwin := clampQwin v }
  | 0x084 => { c with late := v }
  | 0x100 => { c with psel := v.setWidth 7 }
  | 0x208 => { c with rsel := v.setWidth 12 }
  | 0x20A => { c with qsnap := v &&& ~~~63#64 }
  | 0x20B => { c with ecccnt := v }
  | 0x3A0 => { c with oref := v }
  | _ => c

/-- A write of a register that may be written. -/
def State.crWrite (s : State) (k : Nat) (v : Word) : State :=
  if h : 0x310 ≤ k ∧ k ≤ 0x31F then s.modMat fun m => { m with sc := m.sc.set (k - 0x310) (v.setWidth 32) (by omega) }
  else match k with
  | 0x010 => s.writeHintdrop v
  | 0x184 => s.writeOccrst v
  | 0x202 => s.writeInval v
  | 0x203 => s.modFq fun f => { f with base := keep v 51 6 }
  | 0x204 => s.modFq fun f => { f with e := clampE v }
  | 0x205 => s.writeFqhead v
  | 0x207 => s.svcres (v.setWidth 8) (v.getLsbD 8)
  | 0x300 => s.modMat fun m => { m with mawin := keep v 47 0 }
  | 0x301 => s.modMat fun m => { m with mdest := keep v 37 0 }
  | _ => s.modCpu fun c => c.crWrite k v

/-! ## The meanings -/

/-- MFCR: gd takes the register (R111); RDCYC is MFCR of cr.CYC (R110). -/
def execMfcr (q : Guard) (gd : BitVec 5) (cr : BitVec 12) (s : State) : Out :=
  .next (s.guarded q fun s =>
    match crReadFault s.super cr.toNat with
    | some c => s.trap c 0
    | none => let (v, s) := s.crRead cr.toNat; s.writeG gd v)

/-- MTCR: the register takes ga (R111). The 0x10 of a register that no mode may write is a fault of the instruction's execution, so that a guarded-false MTCR raises none; R90 does not say whether it is one of the decoder's faults of R59 instead (DESIGN CHOICE, log 45). -/
def execMtcr (q : Guard) (cr : BitVec 12) (ga : BitVec 5) (s : State) : Out :=
  .next (s.guarded q fun s =>
    match crWriteFault s.super cr.toNat with
    | some c => s.trap c 0
    | none => (s.crWrite cr.toNat (s.g ga)).retire)

end Sys2Proof.Machine
end

