-- ==== Sys2Proof/Machine/Dispatch.lean ====
section
/-! DEFINITION. The dispatcher: one arm per constructor of Instr, each a direct call of its meaning. -/

namespace Sys2Proof.Machine

def exec (i : Instr) (s : State) : Host.Outcome State Fault Refusal :=
  match i with
  | .add q gd ga gb => Sys2Proof.Machine.execAdd q gd ga gb s
  | .sub q gd ga gb => Sys2Proof.Machine.execSub q gd ga gb s
  | .and q gd ga gb => Sys2Proof.Machine.execAnd q gd ga gb s
  | .or q gd ga gb => Sys2Proof.Machine.execOr q gd ga gb s
  | .xor q gd ga gb => Sys2Proof.Machine.execXor q gd ga gb s
  | .andn q gd ga gb => Sys2Proof.Machine.execAndn q gd ga gb s
  | .sll q gd ga gb => Sys2Proof.Machine.execSll q gd ga gb s
  | .srl q gd ga gb => Sys2Proof.Machine.execSrl q gd ga gb s
  | .sra q gd ga gb => Sys2Proof.Machine.execSra q gd ga gb s
  | .min q gd ga gb => Sys2Proof.Machine.execMin q gd ga gb s
  | .max q gd ga gb => Sys2Proof.Machine.execMax q gd ga gb s
  | .minu q gd ga gb => Sys2Proof.Machine.execMinu q gd ga gb s
  | .maxu q gd ga gb => Sys2Proof.Machine.execMaxu q gd ga gb s
  | .addi q gd ga imm => Sys2Proof.Machine.execAddi q gd ga imm s
  | .andi q gd ga imm => Sys2Proof.Machine.execAndi q gd ga imm s
  | .ori q gd ga imm => Sys2Proof.Machine.execOri q gd ga imm s
  | .xori q gd ga imm => Sys2Proof.Machine.execXori q gd ga imm s
  | .slli q gd ga n => Sys2Proof.Machine.execSlli q gd ga n s
  | .srli q gd ga n => Sys2Proof.Machine.execSrli q gd ga n s
  | .srai q gd ga n => Sys2Proof.Machine.execSrai q gd ga n s
  | .mul q gd ga gb => Sys2Proof.Machine.execMul q gd ga gb s
  | .mulh q gd ga gb => Sys2Proof.Machine.execMulh q gd ga gb s
  | .mulhu q gd ga gb => Sys2Proof.Machine.execMulhu q gd ga gb s
  | .div q gd ga gb => Sys2Proof.Machine.execDiv q gd ga gb s
  | .divu q gd ga gb => Sys2Proof.Machine.execDivu q gd ga gb s
  | .rem q gd ga gb => Sys2Proof.Machine.execRem q gd ga gb s
  | .remu q gd ga gb => Sys2Proof.Machine.execRemu q gd ga gb s
  | .lui q gd imm => Sys2Proof.Machine.execLui q gd imm s
  | .addpc q gd imm => Sys2Proof.Machine.execAddpc q gd imm s
  | .sel q gd ga gb neg p => Sys2Proof.Machine.execSel q gd ga gb neg p s
  | .clz q gd ga => Sys2Proof.Machine.execClz q gd ga s
  | .popc q gd ga => Sys2Proof.Machine.execPopc q gd ga s
  | .cmp q pd cmb ga gb cond => Sys2Proof.Machine.execCmp q pd cmb ga gb cond s
  | .cmpImm q pd cmb ga imm cond => Sys2Proof.Machine.execCmpImm q pd cmb ga imm cond s
  | .br q off => Sys2Proof.Machine.execBr q off s
  | .call q off => Sys2Proof.Machine.execCall q off s
  | .jmp q gd ga imm => Sys2Proof.Machine.execJmp q gd ga imm s
  | .ldS8 q gd ga imm => Sys2Proof.Machine.execLdS8 q gd ga imm s
  | .ldZ8 q gd ga imm => Sys2Proof.Machine.execLdZ8 q gd ga imm s
  | .ldS16 q gd ga imm => Sys2Proof.Machine.execLdS16 q gd ga imm s
  | .ldZ16 q gd ga imm => Sys2Proof.Machine.execLdZ16 q gd ga imm s
  | .ldS32 q gd ga imm => Sys2Proof.Machine.execLdS32 q gd ga imm s
  | .ldZ32 q gd ga imm => Sys2Proof.Machine.execLdZ32 q gd ga imm s
  | .ld64 q gd ga imm => Sys2Proof.Machine.execLd64 q gd ga imm s
  | .st8 q gd ga imm => Sys2Proof.Machine.execSt8 q gd ga imm s
  | .st16 q gd ga imm => Sys2Proof.Machine.execSt16 q gd ga imm s
  | .st32 q gd ga imm => Sys2Proof.Machine.execSt32 q gd ga imm s
  | .st64 q gd ga imm => Sys2Proof.Machine.execSt64 q gd ga imm s
  | .fence q scope => Sys2Proof.Machine.execFence q scope s
  | .ldaZ8 q gd ga scope => Sys2Proof.Machine.execLdaZ8 q gd ga scope s
  | .ldaZ16 q gd ga scope => Sys2Proof.Machine.execLdaZ16 q gd ga scope s
  | .ldaZ32 q gd ga scope => Sys2Proof.Machine.execLdaZ32 q gd ga scope s
  | .lda64 q gd ga scope => Sys2Proof.Machine.execLda64 q gd ga scope s
  | .stl8 q gd ga scope => Sys2Proof.Machine.execStl8 q gd ga scope s
  | .stl16 q gd ga scope => Sys2Proof.Machine.execStl16 q gd ga scope s
  | .stl32 q gd ga scope => Sys2Proof.Machine.execStl32 q gd ga scope s
  | .stl64 q gd ga scope => Sys2Proof.Machine.execStl64 q gd ga scope s
  | .bar q scope => Sys2Proof.Machine.execBar q scope s
  | .atomAdd q gd ga gb scope wide => Sys2Proof.Machine.execAtomAdd q gd ga gb scope wide s
  | .atomAnd q gd ga gb scope wide => Sys2Proof.Machine.execAtomAnd q gd ga gb scope wide s
  | .atomOr q gd ga gb scope wide => Sys2Proof.Machine.execAtomOr q gd ga gb scope wide s
  | .atomXor q gd ga gb scope wide => Sys2Proof.Machine.execAtomXor q gd ga gb scope wide s
  | .atomMin q gd ga gb scope wide => Sys2Proof.Machine.execAtomMin q gd ga gb scope wide s
  | .atomMax q gd ga gb scope wide => Sys2Proof.Machine.execAtomMax q gd ga gb scope wide s
  | .atomSwap q gd ga gb scope wide => Sys2Proof.Machine.execAtomSwap q gd ga gb scope wide s
  | .atomCas q gd ga gb scope wide => Sys2Proof.Machine.execAtomCas q gd ga gb scope wide s
  | .clearw q ga gb scope => Sys2Proof.Machine.execClearw q ga gb scope s
  | .pres q gd ga scope => Sys2Proof.Machine.execPres q gd ga scope s
  | .cmdf q gd ga pos width => Sys2Proof.Machine.execCmdf q gd ga pos width s
  | .issue q qn ga gb => Sys2Proof.Machine.execIssue q qn ga gb s
  | .waitt q sel ga imm => Sys2Proof.Machine.execWaitt q sel ga imm s
  | .waitc q ga => Sys2Proof.Machine.execWaitc q ga s
  | .patch q gd ga gb => Sys2Proof.Machine.execPatch q gd ga gb s
  | .arm q gd ga => Sys2Proof.Machine.execArm q gd ga s
  | .lstat q gd ga => Sys2Proof.Machine.execLstat q gd ga s
  | .exit q ga => Sys2Proof.Machine.execExit q ga s
  | .exitx q ga => Sys2Proof.Machine.execExitx q ga s
  | .yield q gd => Sys2Proof.Machine.execYield q gd s
  | .wall q gd ga => Sys2Proof.Machine.execWall q gd ga s
  | .wqry q gd ga => Sys2Proof.Machine.execWqry q gd ga s
  | .stash q gd ga gb => Sys2Proof.Machine.execStash q gd ga gb s
  | .unstash q gd ga => Sys2Proof.Machine.execUnstash q gd ga s
  | .drain q gd ga => Sys2Proof.Machine.execDrain q gd ga s
  | .trap q => Sys2Proof.Machine.execTrap q s
  | .brk q => Sys2Proof.Machine.execBrk q s
  | .eret q => Sys2Proof.Machine.execEret q s
  | .mfcr q gd cr => Sys2Proof.Machine.execMfcr q gd cr s
  | .mtcr q cr ga => Sys2Proof.Machine.execMtcr q cr ga s
  | .asyncTrap => Sys2Proof.Machine.execAsyncTrap s
  | .loads h o => Sys2Proof.Machine.execLoads h o s
  | .stores h o => Sys2Proof.Machine.execStores h o s
  | .dims h d body => Sys2Proof.Machine.execDims h d body s
  | .gather h o => Sys2Proof.Machine.execGather h o s
  | .scatter h o => Sys2Proof.Machine.execScatter h o s
  | .scadd h o => Sys2Proof.Machine.execScadd h o s
  | .push h rsv n v => Sys2Proof.Machine.execPush h rsv n v s
  | .pushi h start inc n rsv => Sys2Proof.Machine.execPushi h start inc n rsv s
  | .mark h rsv kind count rsv2 level => Sys2Proof.Machine.execMark h rsv kind count rsv2 level s
  | .accrst h base n rsv => Sys2Proof.Machine.execAccrst h base n rsv s
  | .accrd h base n rsv => Sys2Proof.Machine.execAccrd h base n rsv s
  | .resume h rsv ctx => Sys2Proof.Machine.execResume h rsv ctx s
  | .copy h desc rsv => Sys2Proof.Machine.execCopy h desc rsv s
  | .copy2 h desc rsv => Sys2Proof.Machine.execCopy2 h desc rsv s
  | .fill h dst len space byte rsv => Sys2Proof.Machine.execFill h dst len space byte rsv s
  | .prefetch h o => Sys2Proof.Machine.execPrefetch h o s
  | .reside h o => Sys2Proof.Machine.execReside h o s
  | .evict h o => Sys2Proof.Machine.execEvict h o s
  | .cfgld h addr regions rsv => Sys2Proof.Machine.execCfgld h addr regions rsv s
  | .cfgldInband h addr port rsv words rsv2 => Sys2Proof.Machine.execCfgldInband h addr port rsv words rsv2 s
  | .sow h addr rsv => Sys2Proof.Machine.execSow h addr rsv s
  | .reap h addr rsv => Sys2Proof.Machine.execReap h addr rsv s
  | .drillrun h o => Sys2Proof.Machine.execDrillrun h o s
  | .bind h image stage dflt rsv => Sys2Proof.Machine.execBind h image stage dflt rsv s
  | .attn h desc rsv => Sys2Proof.Machine.execAttn h desc rsv s
  | .kvseq h desc node rsv => Sys2Proof.Machine.execKvseq h desc node rsv s
  | .kvapp h desc src count j rsv => Sys2Proof.Machine.execKvapp h desc src count j rsv s
  | .kvbias h table head clr rsv => Sys2Proof.Machine.execKvbias h table head clr rsv s
  | .jmark h desc rsv => Sys2Proof.Machine.execJmark h desc rsv s
  | .jcommit h desc rsv => Sys2Proof.Machine.execJcommit h desc rsv s
  | .jroll h desc mk n rsv => Sys2Proof.Machine.execJroll h desc mk n rsv s
  | .mma t => Sys2Proof.Machine.execMma t s
  | .mmaz t => Sys2Proof.Machine.execMmaz t s
  | .mvec t => Sys2Proof.Machine.execMvec t s
  | .mmac t => Sys2Proof.Machine.execMmac t s
  | .mdrn t => Sys2Proof.Machine.execMdrn t s
  | .spma t => Sys2Proof.Machine.execSpma t s
  | .spmb t => Sys2Proof.Machine.execSpmb t s
  | .matrixTokenComplete ap => Sys2Proof.Machine.execMatrixTokenComplete ap s
  | .matrixEp0ControlToken => Sys2Proof.Machine.execMatrixEp0ControlToken s
  | .drainQueueSend => Sys2Proof.Machine.execDrainQueueSend s
  | .accumulatorToken n => Sys2Proof.Machine.execAccumulatorToken n s
  | .nodeFire n => Sys2Proof.Machine.execNodeFire n s
  | .recvWaitTake n => Sys2Proof.Machine.execRecvWaitTake n s
  | .firingCommit n => Sys2Proof.Machine.execFiringCommit n s
  | .stopForward n => Sys2Proof.Machine.execStopForward n s
  | .stopAbsorb n li => Sys2Proof.Machine.execStopAbsorb n li s
  | .eosPropagate n => Sys2Proof.Machine.execEosPropagate n s
  | .drainRequestPropagate n => Sys2Proof.Machine.execDrainRequestPropagate n s
  | .mergeLoopClose n => Sys2Proof.Machine.execMergeLoopClose n s
  | .joinEos n => Sys2Proof.Machine.execJoinEos n s
  | .cfgPacketApply n => Sys2Proof.Machine.execCfgPacketApply n s
  | .cfgPacketForward n => Sys2Proof.Machine.execCfgPacketForward n s
  | .contextSwap r => Sys2Proof.Machine.execContextSwap r s
  | .linkTokenDelivery l => Sys2Proof.Machine.execLinkTokenDelivery l s
  | .creditReturn l => Sys2Proof.Machine.execCreditReturn l s
  | .zeroSlotPull l => Sys2Proof.Machine.execZeroSlotPull l s
  | .cmdPairAccept loader => Sys2Proof.Machine.execCmdPairAccept loader s
  | .commandComplete ctx num => Sys2Proof.Machine.execCommandComplete ctx num s
  | .noticeSend => Sys2Proof.Machine.execNoticeSend s
  | .headlandElementSend p => Sys2Proof.Machine.execHeadlandElementSend p s
  | .headlandTokenTake p => Sys2Proof.Machine.execHeadlandTokenTake p s
  | .extentReply p => Sys2Proof.Machine.execExtentReply p s
  | .expandReread p => Sys2Proof.Machine.execExpandReread p s
  | .regionLoad r => Sys2Proof.Machine.execRegionLoad r s
  | .drillTokenTake => Sys2Proof.Machine.execDrillTokenTake s
  | .drillVectorFire => Sys2Proof.Machine.execDrillVectorFire s
  | .drillOutputSend => Sys2Proof.Machine.execDrillOutputSend s
  | .apBlockStage a => Sys2Proof.Machine.execApBlockStage a s
  | .wallMoveComplete => Sys2Proof.Machine.execWallMoveComplete s
  | .stashLazyWriteBack range sector => Sys2Proof.Machine.execStashLazyWriteBack range sector s
  | .onceLocationFill pa size data => Sys2Proof.Machine.execOnceLocationFill pa size data s
  | .deferredReadRetry a => Sys2Proof.Machine.execDeferredReadRetry a s
  | .ticketSkip bank ix => Sys2Proof.Machine.execTicketSkip bank ix s
  | .faultRecordWrite => Sys2Proof.Machine.execFaultRecordWrite s
  | .fqheadWrite v => Sys2Proof.Machine.execFqheadWrite v s
  | .invalWrite v => Sys2Proof.Machine.execInvalWrite v s
  | .invalComplete => Sys2Proof.Machine.execInvalComplete s
  | .invalRead gd => Sys2Proof.Machine.execInvalRead gd s
  | .svcresContinue target => Sys2Proof.Machine.execSvcresContinue target s
  | .svcresAbort target => Sys2Proof.Machine.execSvcresAbort target s
  | .occrstWrite v => Sys2Proof.Machine.execOccrstWrite v s
  | .hintdropWrite v => Sys2Proof.Machine.execHintdropWrite v s
  | .quiescenceDetectorFire r => Sys2Proof.Machine.execQuiescenceDetectorFire r s
  | .watchdogFault ctx => Sys2Proof.Machine.execWatchdogFault ctx s
  | .lateEvent cls ctx past => Sys2Proof.Machine.execLateEvent cls ctx past s
  | .deadlineBudgetElapsed rec => Sys2Proof.Machine.execDeadlineBudgetElapsed rec s
  | .governorSample watts t0 t1 t2 t3 => Sys2Proof.Machine.execGovernorSample watts t0 t1 t2 t3 s
  | .admissionPass order => Sys2Proof.Machine.execAdmissionPass order s
  | .strandStart => Sys2Proof.Machine.execStrandStart s
  | .preemptionSaveDone rec => Sys2Proof.Machine.execPreemptionSaveDone rec s
  | .launchComplete rec => Sys2Proof.Machine.execLaunchComplete rec s
  | .powerUp => Sys2Proof.Machine.execPowerUp s
  | .mbFwgo => Sys2Proof.Machine.execMbFwgo s
  | .firmwareVerifyDone => Sys2Proof.Machine.execFirmwareVerifyDone s
  | .trainingDone ok => Sys2Proof.Machine.execTrainingDone ok s
  | .coreSelfTestDone core pass narrow => Sys2Proof.Machine.execCoreSelfTestDone core pass narrow s
  | .pcieFunctionReset => Sys2Proof.Machine.execPcieFunctionReset s
  | .mbArm v => Sys2Proof.Machine.execMbArm v s
  | .mbEnd v => Sys2Proof.Machine.execMbEnd v s
  | .mbCap v => Sys2Proof.Machine.execMbCap v s
  | .mbHfqhead v => Sys2Proof.Machine.execMbHfqhead v s
  | .mbInval v => Sys2Proof.Machine.execMbInval v s
  | .mbLink v => Sys2Proof.Machine.execMbLink v s
  | .mbAttest v => Sys2Proof.Machine.execMbAttest v s
  | .attestReportDone => Sys2Proof.Machine.execAttestReportDone s
  | .volenPortTrained port peer heard => Sys2Proof.Machine.execVolenPortTrained port peer heard s
  | .volenPortDown port => Sys2Proof.Machine.execVolenPortDown port s
  | .reservedEncoding codes => Sys2Proof.Machine.execReservedEncoding codes s
  | .fetchFault code addr => Sys2Proof.Machine.execFetchFault code addr s
  | .unassignedStreamOpcode h op body => Sys2Proof.Machine.execUnassignedStreamOpcode h op body s
  | .unassignedMatrixOperation op body => Sys2Proof.Machine.execUnassignedMatrixOperation op body s
  | .waitcTargetReached => Sys2Proof.Machine.execWaitcTargetReached s
  | .hostMemoryAccess pa size write data => Sys2Proof.Machine.execHostMemoryAccess pa size write data s
  | .remoteRequest port pa size write data => Sys2Proof.Machine.execRemoteRequest port pa size write data s
  | .numberExchange port peer heard => Sys2Proof.Machine.execNumberExchange port peer heard s
  | .powerLoss => Sys2Proof.Machine.execPowerLoss s
  | .bitError place word double => Sys2Proof.Machine.execBitError place word double s

end Sys2Proof.Machine
end

