-- ==== Sys2Proof/Machine/Boundary.lean ====
section
/-! DEFINITION. The boundary between two instructions of a strand: a synchronous or an asynchronous trap (R367). -/

namespace Sys2Proof.Machine

/-- Whether the strand's turn comes next (log 1). -/
def State.strandNext (s : State) : Bool :=
  match s.agenda with
  | [] => true
  | e :: _ => e.act == .strand

/-- Whether the instruction at the pc traps: it enters the handler with its own address in cr.EPC (R113). A SUPER write of cr.STATUS sets NEST without a trap (R89). -/
def State.trapsNow (s : State) (i : Instr) : Bool :=
  match i with
  | .mtcr _ 0x002 _ => !s.super && (match exec i s with | .next u => u.cpu.nest | _ => false)
  | _ => match exec i s with
    | .next u => !s.cpu.nest && u.cpu.nest && u.cpu.epc == s.pc && u.pc == u.cpu.tvec
    | _ => false

/-- What comes next: at a turn of the strand a pending asynchronous trap goes before an instruction, but not before the synchronous trap that the instruction at the pc would take (R367). -/
def State.nextTurn (s : State) : Option Instr × State :=
  match s.nextInstr with
  | (none, t) => (none, t)
  | (some i, t) =>
    if s.strandNext && t.core.fq.pending.isSome && !t.cpu.nest && !t.trapsNow i then (some .asyncTrap, t) else (some i, t)

end Sys2Proof.Machine
end

