-- ==== Sys2Proof/Machine/Step.lean ====
section
/-! DEFINITION. One step: the next act of the agenda, or one instruction of the strand in focus (log 1). -/

namespace Sys2Proof.Machine

/-- What follows an instruction or event: the high-water fields of R322 note the greatest live values. -/
def afterExec (o : Host.Outcome State Fault Refusal) : Host.Outcome State Fault Refusal :=
  match o with
  | .next s => .next s.tally
  | .fault f => .fault f
  | .refused r => .refused r

/-- One step of the device: the next act of the agenda, or one instruction of the strand in focus (log 1). -/
def step (s : State) : Host.Outcome State Fault Refusal :=
  match s.nextTurn with
  | (some i, s) => afterExec (exec i s)
  | (none, s) => .next s

/-- The instruction with bits w stored where the next step fetches it. -/
def State.withFetchWord (s : State) (nbits w : Nat) : State :=
  match nbits with
  | 64 => s.placeMatrix w
  | 128 => s.placeStream w
  | _ => s.placeScalar w

end Sys2Proof.Machine
end

