-- ==== Sys2Proof/Machine/Mailbox.lean ====
section
/-! DEFINITION. What the host reads: the mailbox registers and the core register pages (R400-R402). -/

namespace Sys2Proof.Machine

/-- Online cores (R405). -/
def Porter.onlineCount (p : Porter) : Nat := p.tests.toList.countP (· == .online)

/-- MB.STATUS (R402). -/
def Porter.statusWord (p : Porter) : Word :=
  BitVec.ofNat 64 (p.stage.toNat + p.onlineCount * 2 ^ 8 + (if p.stage = 6 then p.reason.toNat else 0) * 2 ^ 16)

/-- Word n of a mask with one bit for each of 192 cores. -/
def coreMask (f : Nat → Bool) (n : Nat) : Word :=
  BitVec.ofNat 64 ((List.range 64).foldl (fun a i => if f (64 * n + i) then a + 2 ^ i else a) 0)

/-- MB.CLOCK (R401). -/
def Porter.clockWord (p : Porter) : Word := BitVec.ofNat 64 (p.step % 4 + p.cap % 4 * 2 ^ 8 + p.average % 2 ^ 32 * 2 ^ 16)

/-- MB.LINK: this device's number and the trained ports (R401). -/
def Porter.linkWord (p : Porter) : Word :=
  BitVec.ofNat 64 (p.link.toNat + ((List.range 16).foldl (fun a i => if (p.ports.toList.getD i none).isSome then a + 2 ^ i else a) 0) * 2 ^ 16)

/-- What a host read of a mailbox register gives; offsets that the table does not list, and write-only registers, read 0 (R401). -/
def State.mbWord (s : State) (off : Nat) : Word :=
  let p := s.porter
  match off with
  | 0x000 => p.statusWord
  | 0x008 => coreMask (fun i => p.tests.toList.getD i .untested == .online) 0
  | 0x010 => coreMask (fun i => p.tests.toList.getD i .untested == .online) 1
  | 0x018 => coreMask (fun i => p.tests.toList.getD i .untested == .online) 2
  | 0x020 => coreMask (fun i => p.narrow.toList.getD i false) 0
  | 0x028 => coreMask (fun i => p.narrow.toList.getD i false) 1
  | 0x030 => coreMask (fun i => p.narrow.toList.getD i false) 2
  | 0x038 => p.clockWord
  | 0x048 => p.armSt.setWidth 64
  | 0x058 => p.hfqBase + p.hfqE.setWidth 64
  | 0x060 => p.hfqHead.setWidth 64
  | 0x068 => p.hfqTail.setWidth 64
  | 0x070 => invalWord p.inval
  | 0x078 => p.fwaddr
  | 0x080 => p.fwlen
  | 0x090 => p.linkWord
  | _ => 0

/-- What a host read of core n's register page gives (R400). -/
def State.pageWord (s : State) (n off : Nat) : Word :=
  if n < 192 then
    match off with
    | 0x08 => (s.coreAt n).fq.head.setWidth 64
    | 0x10 => (s.coreAt n).fq.tail.setWidth 64
    | 0x18 => (s.coreAt n).fq.base
    | _ => 0
  else 0

end Sys2Proof.Machine
end

