-- ==== Sys2Proof/Safety.lean ====
section
/-! DEFINITION. What a safe run is, and the words in which claims about one step are made: which instruction carries which guard, and what a scalar word writes and leaves alone. -/

namespace Sys2Proof.Machine

/-- A step that neither faults nor is refused. -/
def runs (s : State) : Prop := ∃ t, step s = .next t

/-- HBM and the host's memory are in canonical form. -/
abbrev State.memOk (s : State) : Prop := Memory.wf s.mem = true ∧ Memory.wf s.hostMem = true

/-- The guard passes and the next word's address is canonical (R59, R101). -/
abbrev State.goes (s : State) (q : Guard) : Prop := s.guard q = true ∧ canonical (s.pc + 4).toInt = true

/-- t is s but for the general registers and the pc. -/
abbrev OnlyRegs (s t : State) : Prop := t = s.modCpu fun c => { c with g := t.cpu.g, pc := t.cpu.pc }

/-- In t, gd holds v and every other general register its value of s; g0 reads 0 (R86). -/
abbrev Holds (s t : State) (gd : BitVec 5) (v : Word) : Prop := ∀ r, t.g r = if r = gd ∧ gd ≠ 0 then v else s.g r

/-- The instruction completes: gd receives v, the pc is at the next word, and nothing else differs. -/
def Writes (i : Instr) (s : State) (gd : BitVec 5) (v : Word) : Prop :=
  ∃ t, exec i s = .next t ∧ Holds s t gd v ∧ t.pc = s.pc + 4 ∧ OnlyRegs s t

/-- t is the first state of the trap handler (R113, R368): what the strand waited for is abandoned, the cause, address and return address are noted, PMODE takes MODE, MODE and NEST become 1, and the pc is cr.TVEC. Nothing else differs. -/
def Entered (s t : State) (cause taddr epc : Word) : Prop :=
  t = (s.withdraw .strand).modCpu fun c => { c with
    epc := epc, tcause := cause, taddr := taddr, pc := s.cpu.tvec
    status := (s.cpu.status &&& ~~~7#64) ||| (if s.cpu.status.getLsbD 0 then 7 else 5)
    yield := .none, waitc := none }

/-- The instruction takes the trap of a code: TADDR and EPC as given. -/
def Traps (i : Instr) (s : State) (code : BitVec 8) (taddr epc : Word) : Prop :=
  ∃ t, exec i s = .next t ∧ Entered s t (code.setWidth 64) taddr epc

/-- The instruction moves the pc to the next word and changes the control core by f; nothing else differs. -/
def Sets (i : Instr) (s : State) (f : Cpu → Cpu) : Prop :=
  exec i s = .next (s.modCpu fun c => { f c with pc := s.pc + 4 })

/-- The word is a reserved encoding that earns a code at decode (R59). -/
def Earns (w : BitVec 32) (code : BitVec 8) : Prop := ∃ codes, decodeScalar w = .error codes ∧ code ∈ codes

/-! ## Scalar accesses to memory -/

/-- From c to d only the stash has changed: marks of its ranges, and bytes and check bits of the PAD areas where they stand (R333). -/
def Cellar.Stashed (c d : Cellar) : Prop :=
  d = { c with stash := d.stash, bytes := d.bytes, err1 := d.err1, err2 := d.err2 } ∧
  (d.stash.map fun r => (r.va, r.len, r.off, r.pages)) = (c.stash.map fun r => (r.va, r.len, r.off, r.pages)) ∧
  ∀ o, (∀ r ∈ c.stash, o < r.off / 8 * 8 ∨ r.off + 4096 * r.pages.length ≤ o) → memGet d.bytes o = memGet c.bytes o

/-- What a scalar access may change: the general registers and the pc; the core's translation cache, its count of corrected words, its CACHE room and its stash; homes and check bits; the stash of a core that owns the page. -/
def AccessFrame (s t : State) : Prop :=
  t = { s with mem := t.mem, ecc1 := t.ecc1, ecc2 := t.ecc2, cores := t.cores } ∧
  t.cpu = { s.cpu with g := t.cpu.g, pc := t.cpu.pc, tlb := t.cpu.tlb, ecccnt := t.cpu.ecccnt } ∧
  t.core = { s.core with cpu := t.cpu, cellar := t.core.cellar } ∧
  Cellar.Stashed { s.core.cellar with cache := t.core.cellar.cache, order := t.core.cellar.order } t.core.cellar ∧
  ∀ i : Fin 192, i ≠ s.cur → t.cores[i] = { s.cores[i] with cellar := t.cores[i].cellar } ∧ s.cores[i].cellar.Stashed t.cores[i].cellar

/-- The lines that leave the CACHE room when a NORMAL access needs a place for the sector of pa: the one whose frame the line of pa takes, and that line itself when it stands in a bank that a move surrenders (R330). -/
def State.evicts (s : State) (pa : Nat) : List CLine :=
  let c := s.core.cellar
  if (s.ownerOf pa).isSome then []
  else match c.line pa with
    | none => (c.frame pa).2.toList
    | some l => if l.has pa || c.fillBanks.contains l.bank then [] else l :: ((c.dropLine l.addr).frame pa).2.toList

/-- a lies outside the lines that an access to pa evicts. -/
def State.apart (s : State) (pa a : Nat) : Prop := ∀ v ∈ s.evicts pa, a < v.addr ∨ v.addr + 64 ≤ a

/-- The lines of a CACHE room are aligned, no two hold one address, and only a valid sector is dirty. -/
def Cellar.cacheOk (c : Cellar) : Prop :=
  c.cache.Pairwise (fun l m => l.addr ≠ m.addr) ∧
  ∀ l ∈ c.cache, l.addr % 64 = 0 ∧ ∀ i, i < 64 → l.dirty.getLsbD i = true → l.valid.getLsbD (i / 16) = true

/-- The scalar loads, with their bytes and whether they extend the sign (R103). -/
def loadForms (q : Guard) (gd ga : BitVec 5) (imm : BitVec 12) : List (Instr × Nat × Bool) :=
  [(.ldS8 q gd ga imm, 1, true), (.ldZ8 q gd ga imm, 1, false), (.ldS16 q gd ga imm, 2, true), (.ldZ16 q gd ga imm, 2, false),
   (.ldS32 q gd ga imm, 4, true), (.ldZ32 q gd ga imm, 4, false), (.ld64 q gd ga imm, 8, false)]

/-- The scalar stores, with their bytes (R104). -/
def storeForms (q : Guard) (gd ga : BitVec 5) (imm : BitVec 12) : List (Instr × Nat) :=
  [(.st8 q gd ga imm, 1), (.st16 q gd ga imm, 2), (.st32 q gd ga imm, 4), (.st64 q gd ga imm, 8)]

/-- n bytes in order, extended to a register by the sign of the last or by zeros (R7, R103). -/
def Extends (v : Word) (n : Nat) (sign : Bool) (byte : Nat → Byte) : Prop :=
  ∀ i, i < 64 → v.getLsbD i = if i < 8 * n then (byte (i / 8)).getLsbD (i % 8) else sign && (byte (n - 1)).getLsbD 7

/-- a lies outside every line that the core's CACHE room holds. -/
def State.uncached (s : State) (a : Nat) : Prop := ∀ l ∈ s.core.cellar.cache, a < l.addr ∨ l.addr + 64 ≤ a

/-- A scalar access to va passes the checks of R102 and reaches a leaf; u is the state after the translation. -/
structure State.Reaches (s : State) (k : Kind) (va : Int) (n : Nat) (x : Phys) (u : State) : Prop where
  canon  : canonical va = true
  align  : va % n = 0
  leaf   : s.xlateStrand k va = (.ok x, u)
  offset : (x.pa : Int) % 4096 = va % 4096

/-- A load of a ONCE page (R346, R349, R359): gd receives the n bytes at the home of a full location, or of the value that served this read while it was deferred; at an empty location the strand waits at its pc, with the read in the table of its home or a ticket there. -/
def LoadsOnce (i : Instr) (s : State) (x : Phys) (gd : BitVec 5) (n : Nat) (sign : Bool) : Prop :=
  let l := x.pa / 8
  let h := s.homeOf l
  let d := (s.tab h).1
  (∀ o b, h = .bank o b → o < 192) →
  (∀ w, d.got s.cur.val .strand l = some w ∨ (d.got s.cur.val .strand l = none ∧ s.full.contains l = true ∧ w = s.homeWord l) →
    s.heldErr2 l = false →
    ∃ t v, exec i s = .next t ∧ Holds s t gd v ∧ t.pc = s.pc + 4 ∧ t.mem = s.mem ∧ t.full = s.full ∧
      Extends v n sign (fun j => w.extractLsb' (8 * (x.pa % 8 + j)) 8) ∧ (t.tab h).1.entries = d.entries.filter fun e =>
        !(e.core == s.cur.val && e.agent == .strand && e.loc == l)) ∧
  (d.got s.cur.val .strand l = none → s.full.contains l = false →
    ∃ t, exec i s = .next t ∧ (∀ r, t.g r = s.g r) ∧ t.pc = s.pc ∧ t.mem = s.mem ∧ t.full = s.full ∧
      ((∃ e ∈ (t.tab h).1.entries, e.core = s.cur.val ∧ e.agent = .strand ∧ e.loc = l) ∨
       ∃ k ∈ (t.tab h).1.tickets, k.core = s.cur.val ∧ k.agent = .strand ∧ k.loc = l))

/-- A store to a ONCE page (R346, R349): it fills an empty location, its other bytes 0, and retires; at a full one it traps with 0x30, whose state is u but for the trap's entry. -/
def StoresOnce (i : Instr) (s u : State) (x : Phys) (gd : BitVec 5) (n : Nat) : Prop :=
  let l := x.pa / 8
  (s.full.contains l = false →
    ∃ t, exec i s = .next t ∧ (∀ r, t.g r = s.g r) ∧ t.pc = s.pc + 4 ∧ t.full = insNat l s.full ∧
      (∀ a, l * 8 ≤ a → a < l * 8 + 8 → memGet t.mem a =
        if x.pa ≤ a ∧ a < x.pa + n then (s.g gd).extractLsb' (8 * (a - x.pa)) 8 else 0) ∧
      (∀ a, a < l * 8 ∨ l * 8 + 8 ≤ a → s.uncached a → memGet t.mem a = memGet s.mem a)) ∧
  (s.full.contains l = true → s.cpu.nest = false → ∃ t, exec i s = .next t ∧ Entered u t 0x30 0 s.pc)

/-- The access that a scalar memory instruction makes: guard, exact address (R102), bytes, kind. -/
def accessOf (s : State) : Instr → Option (Guard × Int × Nat × Kind)
  | .ldS8 q _ ga imm | .ldZ8 q _ ga imm => some (q, (s.g ga).toInt + imm.toInt, 1, .load)
  | .ldS16 q _ ga imm | .ldZ16 q _ ga imm => some (q, (s.g ga).toInt + imm.toInt, 2, .load)
  | .ldS32 q _ ga imm | .ldZ32 q _ ga imm => some (q, (s.g ga).toInt + imm.toInt, 4, .load)
  | .ld64 q _ ga imm => some (q, (s.g ga).toInt + imm.toInt, 8, .load)
  | .st8 q _ ga imm => some (q, (s.g ga).toInt + imm.toInt, 1, .store)
  | .st16 q _ ga imm => some (q, (s.g ga).toInt + imm.toInt, 2, .store)
  | .st32 q _ ga imm => some (q, (s.g ga).toInt + imm.toInt, 4, .store)
  | .st64 q _ ga imm => some (q, (s.g ga).toInt + imm.toInt, 8, .store)
  | .ldaZ8 q _ ga _ => some (q, (s.g ga).toInt, 1, .load)
  | .ldaZ16 q _ ga _ => some (q, (s.g ga).toInt, 2, .load)
  | .ldaZ32 q _ ga _ => some (q, (s.g ga).toInt, 4, .load)
  | .lda64 q _ ga _ => some (q, (s.g ga).toInt, 8, .load)
  | .stl8 q _ ga _ => some (q, (s.g ga).toInt, 1, .store)
  | .stl16 q _ ga _ => some (q, (s.g ga).toInt, 2, .store)
  | .stl32 q _ ga _ => some (q, (s.g ga).toInt, 4, .store)
  | .stl64 q _ ga _ => some (q, (s.g ga).toInt, 8, .store)
  | .atomAdd q _ ga _ _ w | .atomAnd q _ ga _ _ w | .atomOr q _ ga _ _ w | .atomXor q _ ga _ _ w | .atomMin q _ ga _ _ w
  | .atomMax q _ ga _ _ w | .atomSwap q _ ga _ _ w | .atomCas q _ ga _ _ w =>
    some (q, (s.g ga).toInt, if w then 8 else 4, .load)
  | _ => none

/-! ## Fault records -/

/-- What a record does to its core's fault queue (R370): it is written at the tail, or it waits for room. -/
def Reported (s t : State) (r : FRec) : Prop :=
  t.core.fq =
    if s.core.fq.isFull = true ∨ s.core.fq.waiting ≠ [] then { s.core.fq with waiting := s.core.fq.waiting ++ [r] }
    else { s.core.fq with tail := s.core.fq.tail + 1, written := s.core.fq.written ++ [(s.core.fq.tail, r.code, r.t)] }

/-- Nothing of memory changes but the 64 bytes in which a record of the core's queue may be written (R370). -/
def RecordOnly (s t : State) : Prop :=
  let slot := s.core.fq.base.toNat + 64 * (s.core.fq.tail.toNat % 2 ^ s.core.fq.e.toNat)
  ∀ a, a < slot ∨ slot + 64 ≤ a → memGet t.mem a = memGet s.mem a

/-- A machine fault reaches the host (R401, R403): written at the tail of its queue with vector 1, or waiting for room. -/
def HostTold (s t : State) : Prop :=
  if s.porter.hfqFull = true ∨ s.porter.hfqWait ≠ [] then
    ∃ ws, t.porter.hfqWait = s.porter.hfqWait ++ [ws] ∧ t.porter.hfqTail = s.porter.hfqTail
  else t.porter.hfqTail = s.porter.hfqTail + 1 ∧ t.porter.msix1 = s.porter.msix1 + 1 ∧ t.porter.hfqWait = []

/-- Every cached translation of the device is gone: each core's, its edge TLB's, its ports' (R378). -/
def State.untranslated (s : State) : Prop :=
  ∀ i : Fin 192, s.cores[i].cpu.tlb = [] ∧ s.cores[i].edge = [] ∧ ∀ p : Fin 64, (s.cores[i].ports[p]).ext = none ∧ (s.cores[i].ports[p]).held = []

/-- Of a core that is free, only its loft and its invalidation register keep a value (R22). -/
def Core.free (c : Core) : Prop :=
  c = { Core.reset with loft := c.loft, inval := c.inval, invalOf := c.invalOf, drill := { Drill.reset with graph := c.drill.graph } }

/-! ## Stream commands -/

/-- The header and the opcode of a stream command (R66, R67); none for any other instruction. -/
def streamOf : Instr → Option (CmdHdr × BitVec 8)
  | .loads h _ => some (h, 0x01) | .stores h _ => some (h, 0x02) | .dims h _ _ => some (h, 0x03) | .gather h _ => some (h, 0x04)
  | .scatter h _ => some (h, 0x05) | .scadd h _ => some (h, 0x06) | .push h _ _ _ => some (h, 0x07) | .pushi h _ _ _ _ => some (h, 0x08)
  | .mark h _ _ _ _ _ => some (h, 0x09) | .accrst h _ _ _ => some (h, 0x0A) | .accrd h _ _ _ => some (h, 0x0B)
  | .resume h _ _ => some (h, 0x0C) | .copy h _ _ => some (h, 0x10) | .copy2 h _ _ => some (h, 0x11) | .fill h _ _ _ _ _ => some (h, 0x12)
  | .prefetch h _ => some (h, 0x13) | .reside h _ => some (h, 0x14) | .evict h _ => some (h, 0x15) | .cfgld h _ _ _ => some (h, 0x20)
  | .cfgldInband h _ _ _ _ _ => some (h, 0x20) | .sow h _ _ => some (h, 0x30) | .reap h _ _ => some (h, 0x31)
  | .drillrun h _ => some (h, 0x32) | .bind h _ _ _ _ => some (h, 0x40) | .attn h _ _ => some (h, 0x41) | .kvseq h _ _ _ => some (h, 0x42)
  | .kvapp h _ _ _ _ _ => some (h, 0x43) | .kvbias h _ _ _ _ => some (h, 0x44) | .jmark h _ _ => some (h, 0x45)
  | .jcommit h _ _ => some (h, 0x46) | .jroll h _ _ _ _ => some (h, 0x47)
  | _ => none

/-- The command in hand passes the checks that every command has: its flags, its class, its timeline (R145, R167). -/
structure State.passes (s : State) (h : CmdHdr) (op : BitVec 8) : Prop where
  flags : h.rsv = 0
  cls   : classOfCtx s.ctx = some (op.toNat / 16)
  tl    : s.core.on.tlCtx h.tl = some s.ctx

/-- Number n of a selector counts as completed (R362). -/
def Queues.Done (q : Queues) (tl : BitVec 4) (n : Nat) : Prop := n ≤ q.completed[tl.toNat] ∨ (tl.toNat, n) ∈ q.above

/-- The command in hand is turned away (R147): a record with its code, its context and its number; of an engine only the last fault code of the drill or of the AP changes (R285, R317); and its number counts as completed once the record is written. -/
def Turned (i : Instr) (s : State) (h : CmdHdr) (code : BitVec 8) : Prop :=
  ∃ t r, exec i s = .next t ∧ Reported s t r ∧ r.code = code ∧ r.ctx = s.core.qs.dlv.ctx ∧ r.t = true ∧
    r.seq = BitVec.ofNat 64 (s.core.qs.dlv.num.getD 0) ∧
    t.core = { s.core with
      fq := t.core.fq, qs := t.core.qs, cellar := t.core.cellar
      drill := { s.core.drill with code := if s.core.qs.dlv.ctx = 0x49 then code else s.core.drill.code }
      ap := { s.core.ap with code := if s.core.qs.dlv.ctx = 0x4A then code else s.core.ap.code } } ∧
    (s.core.fq.isFull = false → s.core.fq.waiting = [] → ∀ n, s.core.qs.dlv.num = some n → t.core.qs.Done h.tl n)

/-- The first code whose condition holds. -/
def firstCode (l : List (Bool × BitVec 8)) : Option (BitVec 8) := (l.find? (·.1)).map (·.2)

/-- A command is under way at a port context, behind one that still sends its tokens (R144). -/
def Port.runs (x : Port) (r : PRun) : Port :=
  { x with run := some r, prev := match x.run with | some y => x.prev ++ [(y, x.flags)] | none => x.prev
           held := [], spill := [], blk := [], flags := 0, st := .running, resum := false, short := false, done := 0, replay := false }

/-- A data command is under way: what DIMS wrote has been captured and cleared (R156). -/
def Port.runsData (x : Port) (r : PRun) : Port := { x.runs r with dims := Port.noDims, dset := [], par := .reset }

/-- What a data command captures at its start (R141, R156), and that no element has been dealt with. -/
structure PRun.Fresh (r : PRun) (s : State) (h : CmdHdr) (op : BitVec 8) (kind : PKind) (base : Int) (f : Nat) (chain : BitVec 6)
    (hint : BitVec 2) (cnt : List Nat) (str : List Int) (limit : Nat) : Prop where
  tag   : r.tag = ⟨s.core.qs.dlv.num, h.tl, h.notice, op, s.core.qs.dlv.sup⟩
  kind  : r.kind = kind
  place : r.base = base ∧ r.cnt = cnt ∧ r.str = str ∧ r.limit = limit
  form  : r.f = f ∧ r.k = s.core.field.portFmt s.ctx ∧ r.chain = chain ∧ r.hint = hint
  par   : r.par = (s.port s.ctx).par ∧ r.scale = s.core.mat.sc[(s.port s.ctx).par.scale.toNat]
  none  : r.idx = 0 ∧ r.out = [] ∧ r.buf = [] ∧ r.acc = none ∧ r.due = none ∧ r.closed = false ∧ r.tile = none

/-- The token operations of the matrix node (R75), with their numbers. -/
def matrixForms (t : MTok) : List (Instr × Nat) :=
  [(.mma t, 1), (.mmaz t, 2), (.mvec t, 3), (.mmac t, 4), (.mdrn t, 5), (.spma t, 6), (.spmb t, 7)]

/-! ## Nodes and links -/

/-- l' is the link l whose producer has placed some tokens: under way, or in the result register of a zero-slot link (R184, R186). -/
def Link.Got (l l' : Link) (ts : List Token) : Prop :=
  l'.slots = l.slots ∧ l'.fly = l.fly ++ (if l.slots = 0 then [] else ts) ∧ l'.result = l.result ++ (if l.slots = 0 then ts else [])

/-- From f to f', some tokens were sent on the link of a producer endpoint. -/
def Field.Sent (f f' : Field) (e : BitVec 20) (ts : List Token) : Prop :=
  ∀ i l, f.linkFrom e = some i → f.links[i]? = some l → ∃ l', f'.links[i]? = some l' ∧ l.Got l' ts

/-- From f to f', the consumer at an endpoint took n tokens. -/
def Field.Took (f f' : Field) (e : BitVec 20) (n : Nat) : Prop := f'.availTo e = (f.availTo e).drop n

/-- The buffers of a node's inputs hold what their consumer sees as it stands: no decoder of FW8 blocks (R190), no empty entry. -/
def Field.PlainInputs (f : Field) (d : Node) : Prop :=
  ∀ k i l, f.linkTo (d.ep k) = some i → f.links[i]? = some l → l.expands = false ∧ ∀ b ∈ l.buf, 1 ≤ b.2

/-- A node faults (R383): its record of class 7 with the code, its region FROZEN with the code latched, the node stopped; no link changes. -/
def NodeFaults (i : Instr) (s : State) (n : Nat) (d : Node) (code : BitVec 8) : Prop :=
  ∃ t r, exec i s = .next t ∧ Reported s t r ∧ r.code = code ∧ r.cls = 7 ∧ r.ctx = BitVec.ofNat 8 d.region ∧ r.r = false ∧
    t.core.field.links = s.core.field.links ∧ (t.core.field.region d.region).fcode = code ∧
    (∀ d', t.core.field.nodes[n]? = some d' → d'.stopped = true) ∧ (t.core.field.region d.region).st ≠ .armed

end Sys2Proof.Machine

namespace Sys2Proof

/-- The guard of a scalar instruction; none for a stream command, a matrix token or an event. -/
def Instr.guard : Instr → Option Guard
  | .add q _ _ _ | .sub q _ _ _ | .and q _ _ _ | .or q _ _ _ | .xor q _ _ _ | .andn q _ _ _ | .sll q _ _ _ | .srl q _ _ _
  | .sra q _ _ _ | .min q _ _ _ | .max q _ _ _ | .minu q _ _ _ | .maxu q _ _ _ | .addi q _ _ _ | .andi q _ _ _ | .ori q _ _ _
  | .xori q _ _ _ | .slli q _ _ _ | .srli q _ _ _ | .srai q _ _ _ | .mul q _ _ _ | .mulh q _ _ _ | .mulhu q _ _ _ | .div q _ _ _
  | .divu q _ _ _ | .rem q _ _ _ | .remu q _ _ _ | .lui q _ _ | .addpc q _ _ | .sel q _ _ _ _ _ | .clz q _ _ | .popc q _ _
  | .cmp q _ _ _ _ _ | .cmpImm q _ _ _ _ _ | .br q _ | .call q _ | .jmp q _ _ _ | .ldS8 q _ _ _ | .ldZ8 q _ _ _ | .ldS16 q _ _ _
  | .ldZ16 q _ _ _ | .ldS32 q _ _ _ | .ldZ32 q _ _ _ | .ld64 q _ _ _ | .st8 q _ _ _ | .st16 q _ _ _ | .st32 q _ _ _ | .st64 q _ _ _
  | .fence q _ | .ldaZ8 q _ _ _ | .ldaZ16 q _ _ _ | .ldaZ32 q _ _ _ | .lda64 q _ _ _ | .stl8 q _ _ _ | .stl16 q _ _ _
  | .stl32 q _ _ _ | .stl64 q _ _ _ | .bar q _ | .atomAdd q _ _ _ _ _ | .atomAnd q _ _ _ _ _ | .atomOr q _ _ _ _ _
  | .atomXor q _ _ _ _ _ | .atomMin q _ _ _ _ _ | .atomMax q _ _ _ _ _ | .atomSwap q _ _ _ _ _ | .atomCas q _ _ _ _ _
  | .clearw q _ _ _ | .pres q _ _ _ | .cmdf q _ _ _ _ | .issue q _ _ _ | .waitt q _ _ _ | .waitc q _ | .patch q _ _ _ | .arm q _ _
  | .lstat q _ _ | .exit q _ | .exitx q _ | .yield q _ | .wall q _ _ | .wqry q _ _ | .stash q _ _ _ | .unstash q _ _ | .drain q _ _
  | .trap q | .brk q | .eret q | .mfcr q _ _ | .mtcr q _ _ => some q
  | _ => none

end Sys2Proof
end

