-- ==== Sys2Proof/WellFormed.lean ====
section
/-! DEFINITION. Which terms of Instr stand for something the hardware can meet: every other term is refused by the encoder's statements. -/

namespace Sys2Proof

/-- The assigned stream opcodes (R67). -/
def streamAssigned (op : BitVec 8) : Bool :=
  let k := op.toNat
  (1 ≤ k && k ≤ 0x0C) || (0x10 ≤ k && k ≤ 0x15) || k == 0x20 || (0x30 ≤ k && k ≤ 0x32) || (0x40 ≤ k && k ≤ 0x47)

/-- The assigned matrix operations (R75). -/
def matrixAssigned (op : BitVec 6) : Bool := 1 ≤ op.toNat && op.toNat ≤ 7

/-- The codes a reserved encoding earns: some of 0x10, 0x11, 0x14 (R59). -/
def codesOk (codes : List (BitVec 8)) : Bool :=
  !codes.isEmpty && codes.all fun c => c == 0x10 || c == 0x11 || c == 0x14

/-- The codes of a failed fetch (R367, R379). -/
def fetchCodes : List (BitVec 8) := [0x20, 0x21, 0x22, 0x32]

/-- An aligned access of 1, 2, 4 or 8 bytes (R343). -/
def sizeOk (pa size : Nat) : Bool :=
  (size == 1 || size == 2 || size == 4 || size == 8) && pa % size == 0

/-- Well-formed instructions and events. -/
def Instr.wf : Instr → Bool
  | .add q _ _ _ => q.ok
  | .sub q _ _ _ => q.ok
  | .and q _ _ _ => q.ok
  | .or q _ _ _ => q.ok
  | .xor q _ _ _ => q.ok
  | .andn q _ _ _ => q.ok
  | .sll q _ _ _ => q.ok
  | .srl q _ _ _ => q.ok
  | .sra q _ _ _ => q.ok
  | .min q _ _ _ => q.ok
  | .max q _ _ _ => q.ok
  | .minu q _ _ _ => q.ok
  | .maxu q _ _ _ => q.ok
  | .addi q _ _ _ => q.ok
  | .andi q _ _ _ => q.ok
  | .ori q _ _ _ => q.ok
  | .xori q _ _ _ => q.ok
  | .slli q _ _ _ => q.ok
  | .srli q _ _ _ => q.ok
  | .srai q _ _ _ => q.ok
  | .mul q _ _ _ => q.ok
  | .mulh q _ _ _ => q.ok
  | .mulhu q _ _ _ => q.ok
  | .div q _ _ _ => q.ok
  | .divu q _ _ _ => q.ok
  | .rem q _ _ _ => q.ok
  | .remu q _ _ _ => q.ok
  | .lui q _ _ => q.ok
  | .addpc q _ _ => q.ok
  | .sel q _ _ _ _ _ => q.ok
  | .clz q _ _ => q.ok
  | .popc q _ _ => q.ok
  | .cmp q _ _ _ _ cond => q.ok && cond != 7
  | .cmpImm q _ _ _ _ cond => q.ok && cond != 7
  | .br q _ => q.ok
  | .call q _ => q.ok
  | .jmp q _ _ _ => q.ok
  | .ldS8 q _ _ _ => q.ok
  | .ldZ8 q _ _ _ => q.ok
  | .ldS16 q _ _ _ => q.ok
  | .ldZ16 q _ _ _ => q.ok
  | .ldS32 q _ _ _ => q.ok
  | .ldZ32 q _ _ _ => q.ok
  | .ld64 q _ _ _ => q.ok
  | .st8 q _ _ _ => q.ok
  | .st16 q _ _ _ => q.ok
  | .st32 q _ _ _ => q.ok
  | .st64 q _ _ _ => q.ok
  | .fence q _ => q.ok
  | .ldaZ8 q _ _ _ => q.ok
  | .ldaZ16 q _ _ _ => q.ok
  | .ldaZ32 q _ _ _ => q.ok
  | .lda64 q _ _ _ => q.ok
  | .stl8 q _ _ _ => q.ok
  | .stl16 q _ _ _ => q.ok
  | .stl32 q _ _ _ => q.ok
  | .stl64 q _ _ _ => q.ok
  | .bar q _ => q.ok
  | .atomAdd q _ _ _ _ _ => q.ok
  | .atomAnd q _ _ _ _ _ => q.ok
  | .atomOr q _ _ _ _ _ => q.ok
  | .atomXor q _ _ _ _ _ => q.ok
  | .atomMin q _ _ _ _ _ => q.ok
  | .atomMax q _ _ _ _ _ => q.ok
  | .atomSwap q _ _ _ _ _ => q.ok
  | .atomCas q _ _ _ _ _ => q.ok
  | .clearw q _ _ _ => q.ok
  | .pres q _ _ _ => q.ok
  | .cmdf q _ _ pos width => q.ok && decide (pos.toNat + width.toNat + 1 ≤ 64)
  | .issue q _ _ _ => q.ok
  | .waitt q n _ _ => q.ok && decide (n.toNat < 16)
  | .waitc q _ => q.ok
  | .patch q _ _ _ => q.ok
  | .arm q _ _ => q.ok
  | .lstat q _ _ => q.ok
  | .exit q _ => q.ok
  | .exitx q _ => q.ok
  | .yield q _ => q.ok
  | .wall q _ _ => q.ok
  | .wqry q _ _ => q.ok
  | .stash q _ _ _ => q.ok
  | .unstash q _ _ => q.ok
  | .drain q _ _ => q.ok
  | .trap q => q.ok
  | .brk q => q.ok
  | .eret q => q.ok
  | .mfcr q _ cr => q.ok && crExists cr
  | .mtcr q cr _ => q.ok && crExists cr
  | .asyncTrap => true
  | .loads _ _ => true
  | .stores _ _ => true
  | .dims _ _ _ => true
  | .gather _ _ => true
  | .scatter _ _ => true
  | .scadd _ _ => true
  | .push _ _ _ _ => true
  | .pushi _ _ _ _ _ => true
  | .mark _ _ _ _ _ _ => true
  | .accrst _ _ _ _ => true
  | .accrd _ _ _ _ => true
  | .resume _ _ _ => true
  | .copy _ _ _ => true
  | .copy2 _ _ _ => true
  | .fill _ _ _ _ _ _ => true
  | .prefetch _ _ => true
  | .reside _ _ => true
  | .evict _ _ => true
  | .cfgld _ _ _ _ => true
  | .cfgldInband _ _ _ _ _ _ => true
  | .sow _ _ _ => true
  | .reap _ _ _ => true
  | .drillrun _ _ => true
  | .bind _ _ _ _ _ => true
  | .attn _ _ _ => true
  | .kvseq _ _ _ _ => true
  | .kvapp _ _ _ _ _ _ => true
  | .kvbias _ _ _ _ _ => true
  | .jmark _ _ _ => true
  | .jcommit _ _ _ => true
  | .jroll _ _ _ _ _ => true
  | .mma _ => true
  | .mmaz _ => true
  | .mvec _ => true
  | .mmac _ => true
  | .mdrn _ => true
  | .spma _ => true
  | .spmb _ => true
  | .matrixTokenComplete _ => true
  | .matrixEp0ControlToken => true
  | .drainQueueSend => true
  | .accumulatorToken _ => true
  | .nodeFire _ => true
  | .recvWaitTake _ => true
  | .firingCommit _ => true
  | .stopForward _ => true
  | .stopAbsorb _ _ => true
  | .eosPropagate _ => true
  | .drainRequestPropagate _ => true
  | .mergeLoopClose _ => true
  | .joinEos _ => true
  | .cfgPacketApply _ => true
  | .cfgPacketForward _ => true
  | .contextSwap _ => true
  | .linkTokenDelivery _ => true
  | .creditReturn _ => true
  | .zeroSlotPull _ => true
  | .cmdPairAccept _ => true
  | .commandComplete ctx _ => decide (ctx.toNat ≤ 0x4B)
  | .noticeSend => true
  | .headlandElementSend _ => true
  | .headlandTokenTake _ => true
  | .extentReply _ => true
  | .expandReread _ => true
  | .regionLoad _ => true
  | .drillTokenTake => true
  | .drillVectorFire => true
  | .drillOutputSend => true
  | .apBlockStage _ => true
  | .wallMoveComplete => true
  | .stashLazyWriteBack _ _ => true
  | .onceLocationFill pa size _ => sizeOk pa size
  | .deferredReadRetry _ => true
  | .ticketSkip _ _ => true
  | .faultRecordWrite => true
  | .fqheadWrite _ => true
  | .invalWrite _ => true
  | .invalComplete => true
  | .invalRead _ => true
  | .svcresContinue _ => true
  | .svcresAbort _ => true
  | .occrstWrite _ => true
  | .hintdropWrite _ => true
  | .quiescenceDetectorFire _ => true
  | .watchdogFault _ => true
  | .lateEvent _ _ _ => true
  | .deadlineBudgetElapsed _ => true
  | .governorSample _ _ _ _ _ => true
  | .admissionPass order => order.all (fun c => decide (c < 192)) && decide order.Nodup
  | .strandStart => true
  | .preemptionSaveDone _ => true
  | .launchComplete _ => true
  | .powerUp => true
  | .mbFwgo => true
  | .firmwareVerifyDone => true
  | .trainingDone _ => true
  | .coreSelfTestDone core _ _ => decide (core < 192)
  | .pcieFunctionReset => true
  | .mbArm _ => true
  | .mbEnd _ => true
  | .mbCap _ => true
  | .mbHfqhead _ => true
  | .mbInval _ => true
  | .mbLink _ => true
  | .mbAttest _ => true
  | .attestReportDone => true
  | .volenPortTrained _ _ _ => true
  | .volenPortDown _ => true
  | .reservedEncoding codes => codesOk codes
  | .fetchFault code _ => fetchCodes.contains code
  | .unassignedStreamOpcode _ op _ => !streamAssigned op
  | .unassignedMatrixOperation op _ => !matrixAssigned op
  | .waitcTargetReached => true
  | .hostMemoryAccess pa size _ _ => sizeOk pa size
  | .remoteRequest _ pa size _ _ => sizeOk pa size
  | .numberExchange _ _ _ => true
  | .powerLoss => true
  | .bitError _ _ _ => true

end Sys2Proof
end

