-- ==== Sys2Proof/Certificates/Slice0/Obligations.lean ====
section
/-! DEFINITION. The statements about this model that the provers prove: one Prop each. -/

open Sys2Proof Sys2Proof.Machine

/-! ## Integer words -/

/-- R92, R93, R95: what the ALU group, the immediate forms and the MULDIV group leave in gd. Shifts use gb[5:0] only, or n of the word; ADDI and ANDI extend the immediate by its sign, ORI and XORI by zeros; quotients are truncated toward zero, remainders take the sign of ga, with the edge cases of a zero gb and of the most negative number over -1. A function number that the tables do not assign earns 0x10, and a shift with a non-zero imm12[11:6] 0x11. -/
def Obligations.IntegerResults : Prop :=
  (∀ (q : Guard) (gd ga gb : BitVec 5) (s : State), s.goes q →
    let a := s.g ga
    let b := s.g gb
    let n := b.toNat % 64
    Writes (.add q gd ga gb) s gd (BitVec.ofNat 64 (a.toNat + b.toNat)) ∧
    Writes (.sub q gd ga gb) s gd (BitVec.ofInt 64 (a.toInt - b.toInt)) ∧
    Writes (.and q gd ga gb) s gd (a &&& b) ∧
    Writes (.or q gd ga gb) s gd (a ||| b) ∧
    Writes (.xor q gd ga gb) s gd (a ^^^ b) ∧
    Writes (.andn q gd ga gb) s gd (a &&& ~~~b) ∧
    Writes (.sll q gd ga gb) s gd (BitVec.ofNat 64 (a.toNat * 2 ^ n)) ∧
    Writes (.srl q gd ga gb) s gd (BitVec.ofNat 64 (a.toNat / 2 ^ n)) ∧
    Writes (.sra q gd ga gb) s gd (BitVec.ofInt 64 (a.toInt / 2 ^ n)) ∧
    Writes (.min q gd ga gb) s gd (BitVec.ofInt 64 (min a.toInt b.toInt)) ∧
    Writes (.max q gd ga gb) s gd (BitVec.ofInt 64 (max a.toInt b.toInt)) ∧
    Writes (.minu q gd ga gb) s gd (BitVec.ofNat 64 (min a.toNat b.toNat)) ∧
    Writes (.maxu q gd ga gb) s gd (BitVec.ofNat 64 (max a.toNat b.toNat))) ∧
  (∀ (q : Guard) (gd ga : BitVec 5) (imm : BitVec 12) (n : BitVec 6) (s : State), s.goes q →
    let a := s.g ga
    Writes (.addi q gd ga imm) s gd (BitVec.ofInt 64 (a.toInt + imm.toInt)) ∧
    Writes (.andi q gd ga imm) s gd (a &&& BitVec.ofInt 64 imm.toInt) ∧
    Writes (.ori q gd ga imm) s gd (a ||| BitVec.ofNat 64 imm.toNat) ∧
    Writes (.xori q gd ga imm) s gd (a ^^^ BitVec.ofNat 64 imm.toNat) ∧
    Writes (.slli q gd ga n) s gd (BitVec.ofNat 64 (a.toNat * 2 ^ n.toNat)) ∧
    Writes (.srli q gd ga n) s gd (BitVec.ofNat 64 (a.toNat / 2 ^ n.toNat)) ∧
    Writes (.srai q gd ga n) s gd (BitVec.ofInt 64 (a.toInt / 2 ^ n.toNat))) ∧
  (∀ (q : Guard) (gd ga gb : BitVec 5) (s : State), s.goes q →
    let a := s.g ga
    let b := s.g gb
    Writes (.mul q gd ga gb) s gd (BitVec.ofNat 64 (a.toNat * b.toNat)) ∧
    Writes (.mulh q gd ga gb) s gd (BitVec.ofInt 64 (a.toInt * b.toInt / 2 ^ 64)) ∧
    Writes (.mulhu q gd ga gb) s gd (BitVec.ofNat 64 (a.toNat * b.toNat / 2 ^ 64)) ∧
    (b ≠ 0 →
      Writes (.div q gd ga gb) s gd (BitVec.ofInt 64 (a.toInt.tdiv b.toInt)) ∧
      Writes (.divu q gd ga gb) s gd (BitVec.ofNat 64 (a.toNat / b.toNat)) ∧
      Writes (.rem q gd ga gb) s gd (BitVec.ofInt 64 (a.toInt - b.toInt * a.toInt.tdiv b.toInt)) ∧
      Writes (.remu q gd ga gb) s gd (BitVec.ofNat 64 (a.toNat % b.toNat))) ∧
    (b = 0 →
      Writes (.div q gd ga gb) s gd 0xFFFFFFFFFFFFFFFF ∧ Writes (.divu q gd ga gb) s gd 0xFFFFFFFFFFFFFFFF ∧
      Writes (.rem q gd ga gb) s gd a ∧ Writes (.remu q gd ga gb) s gd a) ∧
    (a.toInt = -2 ^ 63 → b.toInt = -1 →
      Writes (.div q gd ga gb) s gd (BitVec.ofInt 64 (-2 ^ 63)) ∧ Writes (.rem q gd ga gb) s gd 0)) ∧
  (∀ w : BitVec 32,
    let op := (w.extractLsb' 22 6).toNat
    let fn := (w.extractLsb' 0 7).toNat
    (op = 0x00 → 13 ≤ fn → Earns w 0x10) ∧ (op = 0x08 → 7 ≤ fn → Earns w 0x10) ∧
    (5 ≤ op → op ≤ 7 → w.extractLsb' 6 6 ≠ 0 → Earns w 0x11)) ∧
  decodeScalar 0x01CA5003 = .ok (.srai ⟨false, 0⟩ 5 5 3) ∧ decodeScalar 0x0214B601 = .ok (.mulh ⟨false, 0⟩ 10 11 12)

/-- R62, R94, R96, R97, R98, R106: LUI, ADDPC, SEL, CLZ, POPC and CMDF; and CMP, which writes pd with the condition, combined with the pd that stood before. p0 takes no write (R86), and every other predicate and register keeps its value. LUI or ADDPC with an ADDI after it reaches every number of the range; a reserved field, a number not assigned, and a CMDF past bit 63 earn their codes at decode. -/
def Obligations.ConstantBitAndCompareResults : Prop :=
  (∀ (q : Guard) (gd ga gb : BitVec 5) (imm : BitVec 17) (neg : Bool) (n : BitVec 3) (pos width : BitVec 6) (s : State), s.goes q →
    Writes (.lui q gd imm) s gd (BitVec.ofInt 64 (imm.toInt * 2 ^ 12)) ∧
    Writes (.addpc q gd imm) s gd (BitVec.ofInt 64 (s.pc.toInt + imm.toInt * 2 ^ 12)) ∧
    Writes (.sel q gd ga gb neg n) s gd (if s.p n = !neg then s.g ga else s.g gb) ∧
    (∃ k : Nat, k ≤ 64 ∧ (∀ i, 64 - k ≤ i → i < 64 → (s.g ga).getLsbD i = false) ∧
      (k < 64 → (s.g ga).getLsbD (63 - k) = true) ∧ Writes (.clz q gd ga) s gd (BitVec.ofNat 64 k)) ∧
    Writes (.popc q gd ga) s gd (BitVec.ofNat 64 ((List.range 64).countP fun i => (s.g ga).getLsbD i)) ∧
    (pos.toNat + width.toNat + 1 ≤ 64 →
      ∃ v : Word, Writes (.cmdf q gd ga pos width) s gd v ∧
        ∀ i, i < 64 → v.getLsbD i =
          if pos.toNat ≤ i ∧ i < pos.toNat + width.toNat + 1 then (s.g ga).getLsbD (i - pos.toNat) else (s.g gd).getLsbD i)) ∧
  (∀ (q : Guard) (pd : BitVec 3) (cmb : BitVec 2) (ga gb imm : BitVec 5) (cond : BitVec 3) (s : State), s.goes q → cond ≠ 7 →
    ∀ (i : Instr) (b : Word), (i = .cmp q pd cmb ga gb cond ∧ b = s.g gb) ∨
        (i = .cmpImm q pd cmb ga imm cond ∧ b = BitVec.ofInt 64 imm.toInt) →
      ∃ t, exec i s = .next t ∧ t.pc = s.pc + 4 ∧
        (t = s.modCpu fun c => { c with p := t.cpu.p, pc := t.cpu.pc }) ∧
        (∀ n, n ≠ pd → t.p n = s.p n) ∧ t.p 0 = true ∧
        (pd ≠ 0 → ∃ c : Bool,
          (cond = 0 → (c = true ↔ s.g ga = b)) ∧ (cond = 1 → (c = true ↔ s.g ga ≠ b)) ∧
          (cond = 2 → (c = true ↔ (s.g ga).toInt < b.toInt)) ∧ (cond = 3 → (c = true ↔ b.toInt ≤ (s.g ga).toInt)) ∧
          (cond = 4 → (c = true ↔ (s.g ga).toNat < b.toNat)) ∧ (cond = 5 → (c = true ↔ b.toNat ≤ (s.g ga).toNat)) ∧
          (cond = 6 → (c = true ↔ s.g ga &&& b ≠ 0)) ∧
          (cmb = 0 → t.p pd = c) ∧ (cmb = 1 → t.p pd = (s.p pd && c)) ∧ (cmb = 2 → t.p pd = (s.p pd || c)) ∧
          (cmb = 3 → t.p pd = (s.p pd && !c)))) ∧
  (∀ (gd ga gb : BitVec 5) (s : State), s.goes ⟨false, 0⟩ →
    Writes (.sel ⟨false, 0⟩ gd ga gb true 0) s gd (s.g gb) ∧
    (canonical (s.pc + 8).toInt = true → gd ≠ 0 → ∀ e : Int, -2 ^ 28 - 2048 ≤ e → e ≤ 2 ^ 28 - 2049 → ∃ (hi : BitVec 17) (lo : BitVec 12) (t u t' u' : State),
      exec (.lui ⟨false, 0⟩ gd hi) s = .next t ∧ exec (.addi ⟨false, 0⟩ gd gd lo) t = .next u ∧ u.g gd = BitVec.ofInt 64 e ∧
      exec (.addpc ⟨false, 0⟩ gd hi) s = .next t' ∧ exec (.addi ⟨false, 0⟩ gd gd lo) t' = .next u' ∧ u'.g gd = s.pc + BitVec.ofInt 64 e)) ∧
  (∀ w : BitVec 32,
    let op := (w.extractLsb' 22 6).toNat
    let fn := w.extractLsb' 0 7
    (op = 0x0B → fn.extractLsb' 4 3 ≠ 0 → Earns w 0x11) ∧
    (op = 0x0C → 2 ≤ fn.toNat → Earns w 0x10) ∧ (op = 0x0C → fn.toNat < 2 → w.extractLsb' 7 5 ≠ 0 → Earns w 0x11) ∧
    (op = 0x10 → fn.extractLsb' 3 3 ≠ 0 → Earns w 0x11) ∧ (op = 0x10 → fn.extractLsb' 0 3 = 7 → Earns w 0x10) ∧
    (op = 0x30 → 64 < (w.extractLsb' 6 6).toNat + (w.extractLsb' 0 6).toNat + 1 → Earns w 0x11)) ∧
  decodeScalar 0x02482345 = .ok (.lui ⟨false, 0⟩ 4 0x2345) ∧ decodeScalar 0x028C0003 = .ok (.addpc ⟨false, 0⟩ 6 3) ∧
  decodeScalar 0x02CC740D = .ok (.sel ⟨false, 0⟩ 6 7 8 true 5) ∧ decodeScalar 0x03049000 = .ok (.clz ⟨false, 0⟩ 2 9) ∧
  decodeScalar 0x0C103C0F = .ok (.cmdf ⟨false, 0⟩ 8 3 48 15)

/-- R59, R91: with a false guard every guarded instruction retires with no effect: only the pc moves. -/
def Obligations.FalseGuardHasNoEffect : Prop :=
  ∀ (i : Instr) (q : Guard) (s : State), i.guard = some q → s.guard q = false → canonical (s.pc + 4).toInt = true →
    exec i s = .next (s.modCpu fun c => { c with pc := s.pc + 4 })

/-! ## Branches and traps -/

/-- R99, R100, R101: where BR, CALL and JMP continue, and the register that receives the address after the word; JMP reads ga before it writes gd. A target outside the canonical range traps with 0x22, a misaligned JMP target with 0x13: neither g31 nor gd is written and EPC holds the branch's address. A step of ADDI past the last canonical word traps with 0x22 after it has retired. -/
def Obligations.BranchResults : Prop :=
  (∀ (q : Guard) (off : BitVec 22) (gd ga : BitVec 5) (imm : BitVec 12) (s : State), s.guard q = true →
    let b := s.pc.toInt + 4 * off.toInt
    let j := (s.g ga).toInt + imm.toInt
    (canonical b = true →
      exec (.br q off) s = .next (s.modCpu fun c => { c with pc := BitVec.ofInt 64 b }) ∧
      ∃ t, exec (.call q off) s = .next t ∧ Holds s t 31 (s.pc + 4) ∧ t.pc = BitVec.ofInt 64 b ∧ OnlyRegs s t) ∧
    (canonical j = true → j % 4 = 0 →
      ∃ t, exec (.jmp q gd ga imm) s = .next t ∧ Holds s t gd (s.pc + 4) ∧ t.pc = BitVec.ofInt 64 j ∧ OnlyRegs s t)) ∧
  (∀ (q : Guard) (off : BitVec 22) (gd ga : BitVec 5) (imm : BitVec 12) (s : State), s.cpu.nest = false →
    let b := s.pc.toInt + 4 * off.toInt
    let j := (s.g ga).toInt + imm.toInt
    (s.guard q = true → canonical b = false →
      Traps (.br q off) s 0x22 (BitVec.ofInt 64 b) s.pc ∧ Traps (.call q off) s 0x22 (BitVec.ofInt 64 b) s.pc) ∧
    (s.guard q = true → canonical j = false → Traps (.jmp q gd ga imm) s 0x22 (BitVec.ofInt 64 j) s.pc) ∧
    (s.guard q = true → canonical j = true → j % 4 ≠ 0 → Traps (.jmp q gd ga imm) s 0x13 (BitVec.ofInt 64 j) s.pc) ∧
    (s.pc = 0x00FFFFFFFFFFFFFC → ∃ t, exec (.addi q gd ga imm) s = .next t ∧
      Entered (if s.guard q then s.setG gd (s.g ga + BitVec.ofInt 64 imm.toInt) else s) t 0x22 0x0100000000000000 0x0100000000000000)) ∧
  decodeScalar 0x06400040 = .ok (.call ⟨false, 0⟩ 0x40) ∧ decodeScalar 0x0681F000 = .ok (.jmp ⟨false, 0⟩ 0 31 0)

/-- R59, R101, R112, R113, R367, R368, R369, R371: what TRAP, BRK, a reserved encoding and a failed fetch take while NEST is 0, in every mode; of the codes that a reserved encoding earns one is taken (the choice is the model's, log 9). Each of them while NEST is 1 stops the core, writes a record with D = 1, the code and the addresses, or leaves it waiting for room, and ends the launch with cause 2 and that code. A pending trapping record traps at an instruction boundary while NEST is 0, with ASYNC set, no address, and the pc of the next instruction in EPC; otherwise nothing happens. -/
def Obligations.TrapEntry : Prop :=
  (∀ (q : Guard) (codes : List (BitVec 8)) (s : State), s.cpu.nest = false →
    (s.guard q = true → Traps (.trap q) s 0x16 0 s.pc ∧ Traps (.brk q) s 0x15 0 s.pc) ∧
    (codes ≠ [] → ∃ c ∈ codes, Traps (.reservedEncoding codes) s c 0 s.pc)) ∧
  (∀ (code : BitVec 8) (addr : Word) (s : State), s.cpu.nest = false →
    (code ∈ [0x20, 0x21, 0x22] → Traps (.fetchFault code addr) s code addr addr) ∧
    (code = 0x32 → Traps (.fetchFault code addr) s code 0 addr)) ∧
  (∀ (q : Guard) (codes : List (BitVec 8)) (code : BitVec 8) (addr : Word) (r : BitVec 12) (l : Launch) (s : State), s.cpu.nest = true →
    s.core.on.recIx = some r → s.launch r = some l → l.ending = none →
    let stops (i : Instr) (c : BitVec 8) (a epc : Word) : Prop := ∃ t rec, exec i s = .next t ∧ t.core.cpu.run = .dead ∧
      rec.code = c ∧ rec.cls = 0 ∧ rec.ctx = 0 ∧ rec.d = true ∧ rec.addr = a ∧ rec.iaddr = epc ∧ rec.cyc = BitVec.ofNat 64 s.cyc ∧
      Reported s t rec ∧ ∃ l', t.launch r = some l' ∧ l'.ending = some (2, c)
    (s.guard q = true → stops (.trap q) 0x16 0 s.pc ∧ stops (.brk q) 0x15 0 s.pc) ∧
    (codes ≠ [] → ∃ c ∈ codes, stops (.reservedEncoding codes) c 0 s.pc) ∧
    (code ∈ [0x20, 0x21, 0x22] → stops (.fetchFault code addr) code addr addr) ∧
    (code = 0x32 → stops (.fetchFault code addr) code 0 addr)) ∧
  (∀ (s : State),
    (∀ code, s.core.fq.pending = some code → s.cpu.nest = false →
      ∃ t, exec .asyncTrap s = .next t ∧ Entered s t (0x100 + code.setWidth 64) 0 s.pc) ∧
    (s.core.fq.pending = none ∨ s.cpu.nest = true → exec .asyncTrap s = .next s))

/-- R113, R101, R90: ERET in SUPER continues at EPC in the mode PMODE with NEST 0; that PMODE stays is the model's choice (log 34). A bad EPC traps instead, and in USER the word traps with 0x12. -/
def Obligations.ReturnFromTrap : Prop :=
  ∀ (q : Guard) (s : State), s.guard q = true →
    let e := s.cpu.epc
    (s.super = true → canonical e.toInt = true → e.extractLsb' 0 2 = 0 →
      exec (.eret q) s = .next (s.modCpu fun c => { c with
        pc := e, status := (c.status &&& ~~~7#64) ||| (if c.status.getLsbD 1 then 3 else 0) })) ∧
    (s.cpu.nest = false →
      (s.super = true → canonical e.toInt = false → Traps (.eret q) s 0x22 e s.pc) ∧
      (s.super = true → canonical e.toInt = true → e.extractLsb' 0 2 ≠ 0 → Traps (.eret q) s 0x13 e s.pc) ∧
      (s.super = false → Traps (.eret q) s 0x12 0 s.pc))

/-! ## Control registers -/

/-- R88, R111, R122, R140, R166, R168, R241, R285, R317, R318, R321, R322, R364, R371, R378, R385, R391, R395: what MFCR gives for every register, in the modes that may read it; the status words field by field. Only the read of cr.INVAL changes anything: it clears DROPPED. -/
def Obligations.ControlRegisterReads : Prop :=
  ∀ (q : Guard) (gd : BitVec 5) (s : State), s.goes q →
    let c := s.core
    (∀ e ∈ ([(0x000, BitVec.ofNat 64 s.cyc), (0x001, BitVec.ofNat 64 s.cur.val), (0x002, c.cpu.status), (0x003, c.cpu.fps.setWidth 64),
        (0x010, c.cpu.hintdrop), (0x011, c.cpu.hintlog), (0x020, c.on.lvl[0]), (0x027, c.on.lvl[7]), (0x082, c.on.asid.setWidth 64),
        (0x083, c.on.rank.setWidth 64), (0x084, c.cpu.late), (0x100, c.cpu.psel.setWidth 64), (0x2C0, c.ap.kvflt), (0x300, c.mat.mawin),
        (0x301, c.mat.mdest), (0x310, c.mat.sc[0].setWidth 64), (0x31F, c.mat.sc[15].setWidth 64), (0x3A0, c.cpu.oref)] :
          List (BitVec 12 × Word)), Writes (.mfcr q gd e.1) s gd e.2) ∧
    (s.super = true → ∀ e ∈ ([(0x004, c.cpu.tvec), (0x005, c.cpu.tcause), (0x006, c.cpu.epc), (0x007, c.cpu.ksave0),
        (0x008, c.cpu.ksave1), (0x040, c.cpu.qwin.setWidth 64), (0x080, BitVec.ofNat 64 s.porter.lpool), (0x200, c.cpu.taddr),
        (0x201, c.on.ptroot), (0x203, c.fq.base), (0x204, c.fq.e.setWidth 64), (0x205, c.fq.head.setWidth 64),
        (0x206, c.fq.tail.setWidth 64), (0x207, 0), (0x208, c.cpu.rsel.setWidth 64), (0x20A, c.cpu.qsnap), (0x20B, c.cpu.ecccnt)] :
          List (BitVec 12 × Word)), Writes (.mfcr q gd e.1) s gd e.2) ∧
    (∀ i : Fin 8, Writes (.mfcr q gd (0x020 + BitVec.ofNat 12 i.val)) s gd c.on.lvl[i]) ∧
    (∀ n : Fin 16,
      let counts (k : Nat) : Word := if (c.on.tlCtx (BitVec.ofNat 4 n.val)).isSome then BitVec.ofNat 64 k else 0
      Writes (.mfcr q gd (0x310 + BitVec.ofNat 12 n.val)) s gd (c.mat.sc[n].setWidth 64) ∧
      Writes (.mfcr q gd (0x380 + BitVec.ofNat 12 n.val)) s gd (counts c.qs.completed[n]) ∧
      Writes (.mfcr q gd (0x390 + BitVec.ofNat 12 n.val)) s gd (counts c.qs.issued[n])) ∧
    (∀ r, c.on.recIx = some r → Writes (.mfcr q gd 0x081) s gd (r.setWidth 64)) ∧
    (let walls := c.cellar.w1 + c.cellar.w2 * 2 ^ 8 + c.cellar.w3 * 2 ^ 16;
      (c.cellar.move = none → Writes (.mfcr q gd 0x030) s gd (BitVec.ofNat 64 walls)) ∧
      ∀ n p, c.cellar.move = some (n, p) → n < 4 → p < 2 ^ 8 → Writes (.mfcr q gd 0x030) s gd (BitVec.ofNat 64 (walls + n * 2 ^ 30 + p * 2 ^ 32))) ∧
    (∀ i : Fin 4, ∃ v : Word, Writes (.mfcr q gd (0x031 + BitVec.ofNat 12 i.val)) s gd v ∧ v.extractLsb' 0 17 = BitVec.ofNat 17 (c.liveUnits i.val) ∧
      v.extractLsb' 20 17 = BitVec.ofNat 17 (c.heldUnits i.val) ∧ v.extractLsb' 40 17 = BitVec.ofNat 17 c.cellar.high[i] ∧
      v.extractLsb' 17 3 = 0 ∧ v.extractLsb' 37 3 = 0 ∧ v.extractLsb' 57 7 = 0) ∧
    (∀ e ∈ ([(0x180, 0, c.cellar.w1), (0x181, c.cellar.w1, c.cellar.w2), (0x182, c.cellar.w2, c.cellar.w3), (0x183, c.cellar.w3, 64)] : List (BitVec 12 × Nat × Nat)),
      ∃ v : Word, Writes (.mfcr q gd e.1) s gd v ∧ ∀ i, i < 64 → (v.getLsbD i = true ↔ e.2.1 ≤ i ∧ i < e.2.2)) ∧
    Writes (.mfcr q gd 0x185) s gd (BitVec.ofNat 64 c.cellar.stash.length) ∧
    (64 ≤ c.cpu.psel.toNat → Writes (.mfcr q gd 0x101) s gd 0) ∧
    (c.cpu.psel.toNat < 64 →
      let x := s.port c.cpu.psel.toNat
      ∃ v : Word, Writes (.mfcr q gd 0x101) s gd v ∧
        v.extractLsb' 0 4 = (match x.st with | .idle => 0 | .running => 1 | .stalled => 2 | .extent => 3 | .frozen => 4) ∧
        v.getLsbD 4 = x.short ∧ v.extractLsb' 5 3 = 0 ∧ v.extractLsb' 8 8 = BitVec.ofNat 8 x.spill.length ∧ v.extractLsb' 16 8 = x.code ∧
        v.extractLsb' 24 40 = BitVec.ofNat 40 x.done) ∧
    (let a := c.ap
      ∃ v : Word, Writes (.mfcr q gd 0x280) s gd v ∧
        v.extractLsb' 0 8 = (if a.frozen then 3 else if a.stopped then 2 else if a.run = none ∧ a.start = none ∧ a.kv = none then 0 else 1) ∧
        v.extractLsb' 8 8 = a.code ∧ v.extractLsb' 16 16 = BitVec.ofNat 16 a.blocks ∧ v.extractLsb' 32 32 = BitVec.ofNat 32 a.rows) ∧
    (∃ v : Word, Writes (.mfcr q gd 0x281) s gd v ∧ v.extractLsb' 3 61 = 0 ∧ ∀ i : Fin 3, v.getLsbD i.val = c.ap.bind[i].isSome) ∧
    (let m := c.mat
      ∃ v : Word, Writes (.mfcr q gd 0x302) s gd v ∧ v.getLsbD 0 = m.ep.carry ∧ v.getLsbD 1 = m.aps.carry ∧ v.getLsbD 2 = !m.runs.isEmpty ∧
        v.getLsbD 3 = m.stopped ∧ v.extractLsb' 4 4 = 0 ∧ v.extractLsb' 8 15 = BitVec.ofNat 15 (m.dq.countP fun x => x.isNone) ∧ v.extractLsb' 23 9 = 0 ∧
        v.extractLsb' 32 32 = m.taken) ∧
    Writes (.mfcr q gd 0x303) s gd (if s.porter.narrow[s.cur] then 64 else 128) ∧
    (let d := c.drill
      ∃ v : Word, Writes (.mfcr q gd 0x340) s gd v ∧
        v.extractLsb' 0 4 = (if d.frozen then 4 else if d.stopped then 3 else if d.run ≠ none then 2 else if d.graph ≠ none then 1 else 0) ∧
        v.extractLsb' 4 6 = 0 ∧ v.extractLsb' 10 14 = BitVec.ofNat 14 (d.graph.elim 0 fun g => g.nodes.length) ∧
        v.extractLsb' 24 8 = BitVec.ofNat 8 (d.graph.elim 0 fun g => g.depth) ∧ v.extractLsb' 32 8 = d.code ∧ v.extractLsb' 40 24 = BitVec.ofNat 24 d.lastRun) ∧
    (s.super = true →
      (∃ t, exec (.mfcr q gd 0x202) s = .next t ∧ Holds s t gd (BitVec.ofNat 64 (c.inval.1.toNat + 2 * c.inval.2.toNat)) ∧ t.pc = s.pc + 4 ∧
        t.core.inval = (c.inval.1, false) ∧ t.mem = s.mem) ∧
      (let r := c.cpu.rsel.toNat
        let g := c.field.region (r % 16)
        let n := c.field.nodes.find? fun n => n.region == r % 16 && plotIndex n.y n.x == r / 16 % 16 && n.ctx == r / 256
        ∃ v : Word, Writes (.mfcr q gd 0x209) s gd v ∧ v.extractLsb' 0 8 = g.fcode ∧ v.extractLsb' 8 4 = BitVec.ofNat 4 g.fplot ∧
          v.extractLsb' 12 4 = BitVec.ofNat 4 g.fctx ∧ v.extractLsb' 16 5 = BitVec.ofNat 5 g.finstr ∧
          v.extractLsb' 21 3 = (match g.st with | .empty => 0 | .loading => 1 | .armed => 2 | .unarmed => 3 | .frozen => 4) ∧
          v.extractLsb' 24 5 = g.fflags ∧ v.getLsbD 31 = false ∧ v.extractLsb' 29 2 = BitVec.ofNat 2 (n.elim 0 fun n => n.reason) ∧
          v.extractLsb' 32 32 = BitVec.ofNat 32 (n.elim 0 fun n =>
            if n.reason = 1 then n.stIn else if n.reason = 2 then n.stOut else if n.reason = 3 then n.stCtx else 0)))

/-- R46, R88, R89, R90, R122, R140, R168, R241, R364, R388, R391, R395: what MTCR leaves in the control core's own registers and in the matrix node's, in the modes that may write them. Of STATUS only MODE, PMODE and NEST take the written bits; TVEC drops bits [1:0], QSNAP bits [5:0]. In USER, ERET, MFCR of a register whose USER column is a dash and MTCR of one that SUPER alone may write trap with 0x12; in either mode MTCR of a register that no mode may write traps with 0x10; no register changes. -/
def Obligations.ControlRegisterWrites : Prop :=
  (∀ (q : Guard) (ga : BitVec 5) (s : State), s.goes q →
    let v := s.g ga
    Sets (.mtcr q 0x003 ga) s (fun c => { c with fps := v.setWidth 5 }) ∧
    Sets (.mtcr q 0x010 ga) s (fun c => { c with hintdrop := v }) ∧
    Sets (.mtcr q 0x084 ga) s (fun c => { c with late := v }) ∧
    Sets (.mtcr q 0x100 ga) s (fun c => { c with psel := v.setWidth 7 }) ∧
    Sets (.mtcr q 0x3A0 ga) s (fun c => { c with oref := v }) ∧
    exec (.mtcr q 0x300 ga) s = .next ((s.modMat fun m => { m with mawin := BitVec.ofNat 64 (v.toNat % 2 ^ 48) }).modCpu fun c => { c with pc := s.pc + 4 }) ∧
    exec (.mtcr q 0x301 ga) s = .next ((s.modMat fun m => { m with mdest := BitVec.ofNat 64 (v.toNat % 2 ^ 38) }).modCpu fun c => { c with pc := s.pc + 4 }) ∧
    (∀ n : Fin 16, exec (.mtcr q (0x310 + BitVec.ofNat 12 n.val) ga) s =
      .next ((s.modMat fun m => { m with sc := m.sc.set n (v.setWidth 32) }).modCpu fun c => { c with pc := s.pc + 4 })) ∧
    (s.super = true →
      Sets (.mtcr q 0x002 ga) s (fun c => { c with status := (c.status &&& ~~~7#64) ||| (v &&& 7#64) }) ∧
      Sets (.mtcr q 0x004 ga) s (fun c => { c with tvec := v &&& ~~~3#64 }) ∧
      Sets (.mtcr q 0x006 ga) s (fun c => { c with epc := v }) ∧
      Sets (.mtcr q 0x007 ga) s (fun c => { c with ksave0 := v }) ∧
      Sets (.mtcr q 0x008 ga) s (fun c => { c with ksave1 := v }) ∧
      Sets (.mtcr q 0x208 ga) s (fun c => { c with rsel := v.setWidth 12 }) ∧
      Sets (.mtcr q 0x20A ga) s (fun c => { c with qsnap := v &&& ~~~63#64 }) ∧
      Sets (.mtcr q 0x20B ga) s (fun c => { c with ecccnt := v }) ∧
      Sets (.mtcr q 0x040 ga) s (fun c => { c with qwin :=
        if v.toNat % 2 ^ 32 = 0 then 0 else if v.toNat % 2 ^ 32 < 1024 then 1024 else v.setWidth 32 }))) ∧
  (∀ (q : Guard) (gd ga : BitVec 5) (s : State), s.guard q = true → s.cpu.nest = false →
    (s.super = false →
      (∀ cr ∈ ([0x004, 0x005, 0x006, 0x007, 0x008, 0x040, 0x080, 0x200, 0x201, 0x202, 0x203, 0x204, 0x205, 0x206, 0x207, 0x208, 0x209,
        0x20A, 0x20B] : List (BitVec 12)), Traps (.mfcr q gd cr) s 0x12 0 s.pc) ∧
      (∀ cr ∈ ([0x002, 0x004, 0x006, 0x007, 0x008, 0x040, 0x202, 0x203, 0x204, 0x205, 0x207, 0x208, 0x20A, 0x20B] : List (BitVec 12)),
        Traps (.mtcr q cr ga) s 0x12 0 s.pc) ∧ Traps (.eret q) s 0x12 0 s.pc) ∧
    (∀ cr : BitVec 12, crExists cr = true → (cr < 0x310 ∨ 0x31F < cr) →
      cr ∉ ([0x002, 0x003, 0x004, 0x006, 0x007, 0x008, 0x010, 0x040, 0x084, 0x100, 0x184, 0x202, 0x203, 0x204, 0x205, 0x207, 0x208, 0x20A, 0x20B,
        0x300, 0x301, 0x3A0] : List (BitVec 12)) → Traps (.mtcr q cr ga) s 0x10 0 s.pc))

/-! ## Loads and stores -/

/-- R101, R102, R103, R367, R368: an address outside the canonical range traps with 0x22, a misaligned one with 0x13, and a failed translation with its code; the address is in TADDR. The access then has no effect on memory or on a general register: what a failed translation leaves behind is only what the walk counts and caches. -/
def Obligations.ScalarAccessFaults : Prop :=
  ∀ (i : Instr) (q : Guard) (ea : Int) (n : Nat) (k : Kind) (s : State), accessOf s i = some (q, ea, n, k) →
    s.guard q = true → s.cpu.nest = false →
    (canonical ea = false → Traps i s 0x22 (BitVec.ofInt 64 ea) s.pc) ∧
    (canonical ea = true → ea % n ≠ 0 → Traps i s 0x13 (BitVec.ofInt 64 ea) s.pc) ∧
    (∀ c u, canonical ea = true → ea % n = 0 → s.xlateStrand k ea = (.error c, u) →
      AccessFrame s u ∧ u.mem = s.mem ∧ (∀ r, u.g r = s.g r) ∧ ∃ t, exec i s = .next t ∧
        Entered u t (c.setWidth 64) (if c = 0x13 ∨ (0x20 ≤ c.toNat ∧ c.toNat ≤ 0x24) then BitVec.ofInt 64 ea else 0) s.pc)

/-- R102, R103: a load of a PLAIN page gives gd the bytes that the core sees at the translated address, extended by the sign or by zeros. Memory, as the core sees it and at its homes, keeps every byte outside the line that the access evicts. -/
def Obligations.LoadResults : Prop :=
  ∀ (q : Guard) (gd ga : BitVec 5) (imm : BitVec 12) (s u : State) (x : Phys), s.goes q → s.memOk →
    ∀ e ∈ loadForms q gd ga imm, s.Reaches .load ((s.g ga).toInt + imm.toInt) e.2.1 x u → x.ext.once = false →
      s.viewErr (x.pa / 8) = false →
      ∃ t v, exec e.1 s = .next t ∧ Holds s t gd v ∧ t.pc = s.pc + 4 ∧ AccessFrame s t ∧
        Extends v e.2.1 e.2.2 (fun j => s.viewByte (x.pa + j)) ∧
        (∀ a, s.apart x.pa a → t.viewByte a = s.viewByte a ∧ memGet t.mem a = memGet s.mem a)

/-- R102, R104: a store to a PLAIN page writes the low bytes of the data register at the translated address, in the core's CACHE room, or at the home of a stashed page; every other byte stays, outside the line that the access evicts. -/
def Obligations.StoreResults : Prop :=
  ∀ (q : Guard) (gd ga : BitVec 5) (imm : BitVec 12) (s u : State) (x : Phys), s.goes q → s.memOk →
    ∀ e ∈ storeForms q gd ga imm, s.Reaches .store ((s.g ga).toInt + imm.toInt) e.2 x u → x.ext.once = false →
      s.mergeErr x.pa e.2 = false →
      ∃ t, exec e.1 s = .next t ∧ (∀ r, t.g r = s.g r) ∧ t.pc = s.pc + 4 ∧ AccessFrame s t ∧
        (∀ j, j < e.2 → t.viewByte (x.pa + j) = (s.g gd).extractLsb' (8 * j) 8) ∧
        (∀ a, a < x.pa ∨ x.pa + e.2 ≤ a → s.apart x.pa a → t.viewByte a = s.viewByte a) ∧
        (∀ a, (s.ownerOf x.pa).isSome = false ∨ a < x.pa ∨ x.pa + e.2 ≤ a → s.apart x.pa a → memGet t.mem a = memGet s.mem a)

/-! ## Ordering words -/

/-- R344, R346, R354, R355: acquire loads and release stores. Of a PLAIN page, at a scope of domain CORE or wider an acquire leaves no line in the CACHE room but those with dirty sectors, and a release writes every line back first, so that each dirty byte of the CACHE room is at its home; that it performs its own data at the home too is the model's choice (log 34); at a narrower scope, and outside the lines that the access evicts, every other byte stays. Of a ONCE page, a load of a full location returns the value at its home, one of an empty location waits at its pc; a store fills an empty location and retires, and traps with 0x30 at a full one. -/
def Obligations.AcquireAndReleaseResults : Prop :=
  (∀ (q : Guard) (gd ga : BitVec 5) (scope : BitVec 3) (s u : State) (x : Phys), s.goes q → s.memOk →
    ∀ e ∈ ([(.ldaZ8 q gd ga scope, 1), (.ldaZ16 q gd ga scope, 2), (.ldaZ32 q gd ga scope, 4), (.lda64 q gd ga scope, 8)] :
        List (Instr × Nat)), s.Reaches .load (s.g ga).toInt e.2 x u → x.ext.once = false → s.viewErr (x.pa / 8) = false →
      ∃ t v, exec e.1 s = .next t ∧ Holds s t gd v ∧ t.pc = s.pc + 4 ∧ AccessFrame s t ∧
        Extends v e.2 false (fun j => s.viewByte (x.pa + j)) ∧
        (∀ a, s.apart x.pa a → memGet t.mem a = memGet s.mem a) ∧
        (s.core.on.scopeWide scope.toNat = false → ∀ a, s.apart x.pa a → t.viewByte a = s.viewByte a) ∧
        (s.core.on.scopeWide scope.toNat = true → ∀ l ∈ t.core.cellar.cache, l.dirty ≠ 0)) ∧
  (∀ (q : Guard) (gd ga : BitVec 5) (scope : BitVec 3) (s u : State) (x : Phys), s.goes q → s.memOk →
    ∀ e ∈ ([(.stl8 q gd ga scope, 1), (.stl16 q gd ga scope, 2), (.stl32 q gd ga scope, 4), (.stl64 q gd ga scope, 8)] :
        List (Instr × Nat)), s.Reaches .store (s.g ga).toInt e.2 x u → x.ext.once = false →
      (u.release scope.toNat).mergeErr x.pa e.2 = false →
      ∃ t, exec e.1 s = .next t ∧ (∀ r, t.g r = s.g r) ∧ t.pc = s.pc + 4 ∧ AccessFrame s t ∧
        (∀ j, j < e.2 → t.viewByte (x.pa + j) = (s.g gd).extractLsb' (8 * j) 8) ∧
        (s.core.on.scopeWide scope.toNat = true →
          (∀ j, j < e.2 → memGet t.mem (x.pa + j) = (s.g gd).extractLsb' (8 * j) 8) ∧ (∀ l ∈ t.core.cellar.cache, l.dirty = 0) ∧
          (s.core.cellar.cacheOk → ∀ l ∈ s.core.cellar.cache, ∀ i, i < 64 → l.dirty.getLsbD i = true → l.addr + i < x.pa ∨ x.pa + e.2 ≤ l.addr + i →
            memGet t.mem (l.addr + i) = l.byte (l.addr + i))) ∧
        (∀ a, a < x.pa ∨ x.pa + e.2 ≤ a → s.uncached a → t.viewByte a = s.viewByte a ∧ memGet t.mem a = memGet s.mem a)) ∧
  (∀ (q : Guard) (gd ga : BitVec 5) (scope : BitVec 3) (s u : State) (x : Phys), s.goes q →
    ∀ e ∈ ([(.ldaZ8 q gd ga scope, 1), (.ldaZ16 q gd ga scope, 2), (.ldaZ32 q gd ga scope, 4), (.lda64 q gd ga scope, 8)] :
        List (Instr × Nat)), s.Reaches .load (s.g ga).toInt e.2 x u → x.ext.once = true → LoadsOnce e.1 s x gd e.2 false) ∧
  (∀ (q : Guard) (gd ga : BitVec 5) (scope : BitVec 3) (s u : State) (x : Phys), s.goes q → s.memOk →
    ∀ e ∈ ([(.stl8 q gd ga scope, 1), (.stl16 q gd ga scope, 2), (.stl32 q gd ga scope, 4), (.stl64 q gd ga scope, 8)] :
        List (Instr × Nat)), s.Reaches .store (s.g ga).toInt e.2 x u → x.ext.once = true → StoresOnce e.1 s (u.release scope.toNat) x gd e.2)

/-- R339, R344, R354, R361: FENCE at a scope narrower than CORE only retires; at a wider one every dirty byte reaches its home and the CACHE room is left empty; a byte that no line holds stays. A BAR whose level has domain PLOT, REGION or CORE acts as FENCE. Otherwise it is a release first, notes its arrival, and retires once every core of the party has arrived there or exited, as an acquire that leaves no line in the CACHE room, opening the next episode; before that it waits. That an arrival is a level with one episode number for all of them, and is noted once, is the model's choice (log 34). Whether the cores of the party on other devices have arrived is free (log 12): the statement is about a party on this device. -/
def Obligations.FenceAndBarrierResults : Prop :=
  (∀ (q : Guard) (scope : BitVec 3) (s : State), s.goes q → s.memOk →
    (s.core.on.scopeWide scope.toNat = false → exec (.fence q scope) s = .next (s.modCpu fun c => { c with pc := s.pc + 4 })) ∧
    (s.core.on.scopeWide scope.toNat = true →
      ∃ t, exec (.fence q scope) s = .next t ∧ (∀ r, t.g r = s.g r) ∧ t.pc = s.pc + 4 ∧ AccessFrame s t ∧
        t.core.cellar.cache = [] ∧ (∀ a, s.uncached a → memGet t.mem a = memGet s.mem a) ∧
        (s.core.cellar.cacheOk → ∀ l ∈ s.core.cellar.cache, ∀ i, i < 64 → l.dirty.getLsbD i = true →
          memGet t.mem (l.addr + i) = l.byte (l.addr + i)))) ∧
  (∀ (q : Guard) (scope : BitVec 3) (s : State), s.goes q →
    (s.core.on.scopeDomain scope.toNat ≤ 2 → exec (.bar q scope) s = exec (.fence q scope) s) ∧
    (2 < s.core.on.scopeDomain scope.toNat →
      (s.core.on.scopeDomain scope.toNat = 6 → lvlExtent (s.core.on.lvl.toList.getD (s.core.on.scopeLevel scope.toNat) 0) ≤ 1) →
      let here := (s.core.on.scopeLevel scope.toNat, s.cpu.episode)
      let noted := if s.cpu.arrived.contains here then s.cpu.arrived else s.cpu.arrived ++ [here]
      ∃ t, exec (.bar q scope) s = .next t ∧ AccessFrame { s with cores := s.cores.set s.cur { s.core with cpu := t.cpu } } t ∧
        (s.core.on.scopeWide scope.toNat = true → ∀ l ∈ t.core.cellar.cache, l.dirty = 0) ∧
        ((∀ i ∈ s.party scope.toNat, i ≠ s.cur.val → (s.coreAt i).cpu.run = .exited ∨ here ∈ (s.coreAt i).cpu.arrived) →
          t.cpu = { s.cpu with pc := s.pc + 4, episode := s.cpu.episode + 1, arrived := noted } ∧
          (s.core.on.scopeWide scope.toNat = true → t.core.cellar.cache = [])) ∧
        ((∃ i ∈ s.party scope.toNat, i < 192 ∧ i ≠ s.cur.val ∧ (s.coreAt i).cpu.run ≠ .exited ∧ here ∉ (s.coreAt i).cpu.arrived) →
          t.cpu = { s.cpu with arrived := noted })))

/-- R345, R376: an ATOM of a PLAIN page that may be written gives gd the old value and leaves the new one at the location's home, as one step; a CAS that finds another value writes nothing. The core's own copy of the line is written back and dropped first; bytes that the ATOM does not write and no line holds stay. On a ONCE page, or on a page that may not be written, an ATOM traps with 0x21. -/
def Obligations.AtomicResults : Prop :=
  (∀ (q : Guard) (gd ga gb : BitVec 5) (scope : BitVec 3) (wide : Bool) (s u : State) (x : Phys), s.goes q → s.memOk →
    let n := if wide then 8 else 4
    let z := 8 * n
    s.Reaches .load (s.g ga).toInt n x u → x.ext.once = false → x.ext.allows .store (!s.super) = true →
    let w := u.flushWhere fun l => l.addr == x.pa / 64 * 64
    w.heldErr2 (x.pa / 8) = false →
    let old := memNat w.mem x.pa n
    let b := (s.g gb).toNat % 2 ^ z
    let c := (s.g gd).toNat % 2 ^ z
    ∀ e ∈ ([(.atomAdd q gd ga gb scope wide, (old + b) % 2 ^ z), (.atomAnd q gd ga gb scope wide, old &&& b),
        (.atomOr q gd ga gb scope wide, old ||| b), (.atomXor q gd ga gb scope wide, old ^^^ b),
        (.atomMin q gd ga gb scope wide, if signed z old < signed z b then old else b),
        (.atomMax q gd ga gb scope wide, if signed z old < signed z b then b else old),
        (.atomSwap q gd ga gb scope wide, b), (.atomCas q gd ga gb scope wide, if old = c then b else old)] : List (Instr × Nat)),
      ∃ t, exec e.1 s = .next t ∧ Holds s t gd (BitVec.ofNat 64 old) ∧ t.pc = s.pc + 4 ∧ AccessFrame s t ∧
        memNat t.mem x.pa n = e.2 ∧
        (∀ a, a < x.pa ∨ x.pa + n ≤ a → s.uncached a → t.viewByte a = s.viewByte a ∧ memGet t.mem a = memGet s.mem a)) ∧
  (∀ (q : Guard) (gd ga gb : BitVec 5) (scope : BitVec 3) (wide : Bool) (s u : State) (x : Phys), s.guard q = true → s.cpu.nest = false →
    s.Reaches .load (s.g ga).toInt (if wide then 8 else 4) x u → x.ext.once = true ∨ x.ext.allows .store (!s.super) = false →
    ∀ i ∈ [Instr.atomAdd q gd ga gb scope wide, .atomAnd q gd ga gb scope wide, .atomOr q gd ga gb scope wide,
        .atomXor q gd ga gb scope wide, .atomMin q gd ga gb scope wide, .atomMax q gd ga gb scope wide,
        .atomSwap q gd ga gb scope wide, .atomCas q gd ga gb scope wide],
      ∃ t, exec i s = .next t ∧ Entered u t 0x21 (s.g ga) s.pc)

/-- R346, R349: a load of a full ONCE location returns the value at its home, or the one that served the read while it was deferred; one of an empty location waits at its pc, deferred at its home or refused with a ticket, and no register changes. A store to an empty location writes its bytes, sets every other byte of the location to zero and the location full, and retires; one to a full location traps with 0x30 and changes no location. -/
def Obligations.OnceResults : Prop :=
  (∀ (q : Guard) (gd ga : BitVec 5) (imm : BitVec 12) (s u : State) (x : Phys), s.goes q →
    ∀ e ∈ loadForms q gd ga imm, s.Reaches .load ((s.g ga).toInt + imm.toInt) e.2.1 x u → x.ext.once = true →
      LoadsOnce e.1 s x gd e.2.1 e.2.2) ∧
  (∀ (q : Guard) (gd ga : BitVec 5) (imm : BitVec 12) (s u : State) (x : Phys), s.goes q → s.memOk →
    ∀ e ∈ storeForms q gd ga imm, s.Reaches .store ((s.g ga).toInt + imm.toInt) e.2 x u → x.ext.once = true → StoresOnce e.1 s u x gd e.2)

/-- R348, R379: PRES gives bit 1 for a ONCE page, and bit 0 when the location is full or the page is PLAIN; it never waits, and is not checked for alignment. CLEARW checks its range before any effect: 0x13 for a start or a length that is no multiple of 8, for no bytes and for more than 2^32; 0x23 for a carry out of bit 63 (log 46); 0x22 and 0x24 for a start and an end that is not canonical; then the first page of it that may not be written or is not ONCE. It empties every location of its range: each byte 0, and not full; locations outside stay as they were. -/
def Obligations.PresenceAndClearResults : Prop :=
  (∀ (q : Guard) (gd ga : BitVec 5) (scope : BitVec 3) (s u : State) (x : Phys), s.goes q →
    canonical (s.g ga).toInt = true → s.xlateStrand .load (s.g ga).toInt = (.ok x, u) →
    ∃ t, exec (.pres q gd ga scope) s = .next t ∧ t.pc = s.pc + 4 ∧ AccessFrame s t ∧ t.mem = s.mem ∧ t.full = s.full ∧
      Holds s t gd (if x.ext.once = false then 1 else if s.full.contains (x.pa / 8) then 3 else 2)) ∧
  (∀ (q : Guard) (ga gb : BitVec 5) (scope : BitVec 3) (s u : State) (rs : List (Nat × Nat)), s.guard q = true →
    let a := (s.g ga).toInt
    let n := (s.g gb).toNat
    let bad := a % 8 ≠ 0 ∨ n % 8 ≠ 0 ∨ n = 0 ∨ 2 ^ 32 < n
    (s.cpu.nest = false →
      (bad → Traps (.clearw q ga gb scope) s 0x13 (s.g ga) s.pc) ∧
      (¬ bad → 2 ^ 63 < a + n → Traps (.clearw q ga gb scope) s 0x23 (s.g ga) s.pc) ∧
      (¬ bad → a + n ≤ 2 ^ 63 → canonical a = false → Traps (.clearw q ga gb scope) s 0x22 (s.g ga) s.pc) ∧
      (¬ bad → a + n ≤ 2 ^ 63 → canonical a = true → canonical (a + n - 1) = false → Traps (.clearw q ga gb scope) s 0x24 (s.g ga) s.pc) ∧
      (∀ c va, ¬ bad → canonical a = true → canonical (a + n - 1) = true → s.clearRanges (pagePieces a n (n / 4096 + 2)) = (.error (c, va), u) →
        ∃ t, exec (.clearw q ga gb scope) s = .next t ∧
          Entered u t (c.setWidth 64) (if c = 0x13 ∨ (0x20 ≤ c.toNat ∧ c.toNat ≤ 0x24) then BitVec.ofInt 64 va else 0) s.pc)) ∧
    (canonical (s.pc + 4).toInt = true → ¬ bad → canonical a = true → canonical (a + n - 1) = true →
      s.clearRanges (pagePieces a n (n / 4096 + 2)) = (.ok rs, u) → (∀ r ∈ rs, ∀ l ∈ locsOf r.1 r.2, u.heldErr2 l = false) → s.memOk →
      ∃ t, exec (.clearw q ga gb scope) s = .next t ∧ (∀ r, t.g r = s.g r) ∧ t.pc = s.pc + 4 ∧
        (∀ r ∈ rs, ∀ i, r.1 ≤ i → i < r.1 + r.2 → memGet t.mem i = 0) ∧ (∀ r ∈ rs, ∀ l, r.1 / 8 ≤ l → l < (r.1 + r.2) / 8 → l ∉ t.full) ∧
        (∀ i, (∀ r ∈ rs, i < r.1 ∨ r.1 + r.2 ≤ i) → s.uncached i ∨ s.core.on.scopeWide scope.toNat = false → memGet t.mem i = memGet s.mem i) ∧
        (∀ l, (∀ r ∈ rs, l < r.1 / 8 ∨ (r.1 + r.2) / 8 ≤ l) → (l ∈ t.full ↔ l ∈ s.full))) ∧
    (∀ (x : Phys), a % 4096 + n ≤ 4096 → 0 < n → s.xlateStrand .store a = (.ok x, u) → x.ext.once = true →
      s.clearRanges (pagePieces a n (n / 4096 + 2)) = (.ok [(x.pa, n)], u)))

/-- R319, R346, R354, log 11: the operations that change a CACHE room keep its form: a fill, a write-back of a line that it holds, a flush, an acquire, the strand's and an engine's writes; and it holds at reset. -/
def Obligations.CacheRoomKeepsItsForm : Prop :=
  (∀ (s : State) (h : BitVec 2) (pa : Nat) (bs : List Byte) (f : CLine → Bool), s.core.cellar.cacheOk →
    (s.fillOne h pa).core.cellar.cacheOk ∧ (∀ l ∈ s.core.cellar.cache, (s.cleanLine l).core.cellar.cacheOk) ∧
    (s.flushWhere f).core.cellar.cacheOk ∧ s.discardClean.core.cellar.cacheOk ∧ (s.writeThrough pa bs).core.cellar.cacheOk ∧
    ∀ t, s.strandPut pa bs = some t → t.core.cellar.cacheOk) ∧
  State.reset.core.cellar.cacheOk

/-! ## Commands, waits, launches -/

/-- R107, R108, R115, R148: ISSUE to an unbound queue traps with 0x53 and appends nothing; to a full one it stalls, and so it does in a cycle in which a pair from the field has drawn a number of its timeline, by the model's choice (log 2); else the command is appended, with the next number of the timeline that its bits [119:116] select when that selector is mapped, and with none when it is not. -/
def Obligations.IssueResults : Prop :=
  ∀ (q : Guard) (qn : BitVec 3) (ga gb : BitVec 5) (s : State), s.guard q = true →
    let w : BitVec 128 := s.g ga ++ s.g gb
    let tl := w.extractLsb' 116 4
    (s.cpu.nest = false → s.core.on.queueCtx qn = none → Traps (.issue q qn ga gb) s 0x53 0 s.pc) ∧
    (s.core.on.queueCtx qn ≠ none → 16 ≤ s.core.qs.q[qn.toNat].length ∨ (tl.toNat, s.cyc) ∈ s.core.qs.drew → exec (.issue q qn ga gb) s = .next s) ∧
    (canonical (s.pc + 4).toInt = true → s.core.on.queueCtx qn ≠ none → s.core.qs.q[qn.toNat].length < 16 → (tl.toNat, s.cyc) ∉ s.core.qs.drew →
      ∃ qs : Queues, exec (.issue q qn ga gb) s = .next ((s.modQs fun _ => qs).modCpu fun c => { c with pc := s.pc + 4 }) ∧
        qs = { s.core.qs with q := qs.q, issued := qs.issued } ∧
        qs.q[qn.toNat] = s.core.qs.q[qn.toNat] ++ [⟨w, (s.core.on.tlCtx tl).map fun _ => s.core.qs.issued[tl.toNat] + 1, s.super, false⟩] ∧
        (∀ j : BitVec 3, j ≠ qn → qs.q[j.toNat] = s.core.qs.q[j.toNat]) ∧
        (∀ j : BitVec 4, qs.issued[j.toNat] = if j = tl ∧ s.core.on.tlCtx tl ≠ none then s.core.qs.issued[tl.toNat] + 1 else s.core.qs.issued[j.toNat]))

/-- R133, R135, R136, R140, R233, R363: WAITT retires once the selector's completed count has reached ga plus the immediate, and traps with 0x11 on a selector that is not mapped or above 15; WAITC retires once cr.CYC has reached ga, and notes a late event when in deadline mode the target had passed at issue. EXIT stops the strand with the value of ga once every queue is empty and every timeline has completed what it issued, and waits before; the flags that nodes and the AP still hold are then in cr.FPS, and the retirement is a release at the outermost level; EXITX first discards what is not delivered and counts it. YIELD waits for the next admission pass; it then gives 0 when no record gained by this launch's pre-emption, or 1 after the launch was pre-empted at this instruction. -/
def Obligations.WaitExitAndYieldResults : Prop :=
  (∀ (q : Guard) (sel ga : BitVec 5) (imm : BitVec 12) (s : State), s.goes q →
    let tl := sel.extractLsb' 0 4
    let n := (s.g ga + BitVec.ofInt 64 imm.toInt).toNat
    let now := s.cyc % 2 ^ 64
    (s.cpu.nest = false → sel.getLsbD 4 = true ∨ s.core.on.tlCtx tl = none → Traps (.waitt q sel ga imm) s 0x11 0 s.pc) ∧
    (sel.getLsbD 4 = false → s.core.on.tlCtx tl ≠ none → n ≤ s.core.qs.completed[tl.toNat] →
      exec (.waitt q sel ga imm) s = .next (s.modCpu fun c => { c with pc := s.pc + 4 })) ∧
    (sel.getLsbD 4 = false → s.core.on.tlCtx tl ≠ none → s.core.qs.completed[tl.toNat] < n → exec (.waitt q sel ga imm) s = .next s) ∧
    (now < (s.g ga).toNat → exec (.waitc q ga) s = .next (s.modCpu fun c => { c with waitc := some (s.g ga) })) ∧
    ((s.g ga).toNat ≤ now → s.cpu.waitc.isSome = true ∨ (s.g ga).toNat = now ∨ s.cpu.status.getLsbD 8 = false →
      exec (.waitc q ga) s = .next (s.modCpu fun c => { c with waitc := none, pc := s.pc + 4 })) ∧
    ((s.g ga).toNat < now → s.cpu.waitc = none → s.cpu.status.getLsbD 8 = true →
      ∃ t, exec (.waitc q ga) s = .next t ∧ t.pc = s.pc + 4 ∧ t.cpu.late = s.cpu.late + 1 ∧ (∀ r, t.g r = s.g r)) ∧
    (∀ v, s.cpu.waitc = some v → v.toNat ≤ now →
      exec .waitcTargetReached s = .next (s.modCpu fun c => { c with waitc := none, pc := s.pc + 4 }))) ∧
  (∀ (q : Guard) (ga : BitVec 5) (s : State), s.guard q = true →
    (s.core.drained = true →
      ∃ t, exec (.exit q ga) s = .next t ∧
        AccessFrame { s with cores := s.cores.set s.cur { s.core with cpu := t.cpu, ap := t.core.ap, field := t.core.field } } t ∧
        (s.core.on.scopeWide s.core.on.outer = true → ∀ l ∈ t.core.cellar.cache, l.dirty = 0) ∧
        t.core.ap = { s.core.ap with flags := 0 } ∧
        t.core.field = { s.core.field with nodes := s.core.field.nodes.map fun (d : Node) => { d with flags := 0 } } ∧
        t.cpu = { s.cpu with run := .exited, exitVal := s.g ga, exitX := false
                             fps := s.core.field.nodes.foldl (fun f d => f ||| d.flags) (s.cpu.fps ||| s.core.ap.flags) }) ∧
    (s.core.drained = false → exec (.exit q ga) s = .next s) ∧
    ∃ t, exec (.exitx q ga) s = .next t ∧ t.core.qs.q = .replicate 8 [] ∧ t.core.qs.pairs = [] ∧
      t.cpu.dropped = s.cpu.dropped + ((s.core.qs.q.toList.map List.length).sum + s.core.qs.pairs.length) ∧
      (s.discardCommands.core.drained = true → t.cpu.run = .exited ∧ t.cpu.exitVal = s.g ga ∧ t.cpu.exitX = true) ∧
      (s.discardCommands.core.drained = false → t.cpu.run = s.cpu.run ∧ t.pc = s.pc)) ∧
  (∀ (q : Guard) (gd : BitVec 5) (s : State), s.goes q →
    (s.cpu.yield = .none → exec (.yield q gd) s = .next (s.modCpu fun c => { c with yield := .waiting })) ∧
    (s.cpu.yield = .waiting → exec (.yield q gd) s = .next s) ∧
    (∀ v : Word, (s.cpu.yield = .refused ∧ v = 0) ∨ (s.cpu.yield = .taken ∧ v = 1) →
      ∃ t, exec (.yield q gd) s = .next t ∧ Holds s t gd v ∧
        t = s.modCpu fun c => { c with g := t.cpu.g, pc := s.pc + 4, yield := .none }))

/-- R123, R124, R125, R126: the statuses of PATCH and of ARM in their order, from the record at its home with what the strand itself has stored there; with status 0 PATCH writes its argument word and nothing else in memory, and ARM leaves the record ARMED, its exit record clear, the launch with the argument block as it stood and the cycle of the arm, and no dirty byte in the core's CACHE room. LSTAT gives 0xF for a malformed handle and, in USER, for a record of another ASID; else the state in [3:0], and of a record that is not ARMED its priority in [6:4], with the cause and the code when DONE; a DONE record whose outermost level is CORE or wider is an acquire. -/
def Obligations.LaunchInstructionResults : Prop :=
  (∀ (q : Guard) (gd ga gb : BitVec 5) (s : State), s.goes q → s.memOk →
    let a := s.g ga
    let r := a.extractLsb' 0 12
    let u := s.syncRec r
    let ctl := u.recHome r 0
    let bad := a &&& 0xFFFFFFFFFFF8F000 ≠ 0
    let denied := s.super = false ∧ (u.recHome r 8 % 2 ^ 16 ≠ s.core.on.asid.toNat ∨ ctl.testBit 11 = false)
    let st := ctl % 16
    let ends (v : Word) : Prop := ∃ t, exec (.patch q gd ga gb) s = .next t ∧ Holds s t gd v ∧ t.pc = s.pc + 4 ∧ AccessFrame s t ∧ t.mem = u.mem
    (bad → Writes (.patch q gd ga gb) s gd 4) ∧
    (¬ bad → denied → ends 2) ∧
    (¬ bad → ¬ denied → st = 0 → ends 3) ∧
    (¬ bad → ¬ denied → st ≠ 0 → st ≠ 1 → st ≠ 4 → ends 1) ∧
    (¬ bad → ¬ denied → st = 1 ∨ st = 4 →
      let p := s.recAt r (0xC0 + 8 * (a.extractLsb' 16 3).toNat)
      ∃ t, exec (.patch q gd ga gb) s = .next t ∧ Holds s t gd 0 ∧ t.pc = s.pc + 4 ∧ AccessFrame s t ∧
        (∀ j, j < 8 → t.viewByte (p + j) = (s.g gb).extractLsb' (8 * j) 8 ∧ memGet t.mem (p + j) = (s.g gb).extractLsb' (8 * j) 8) ∧
        (∀ i, i < p ∨ p + 8 ≤ i → memGet t.mem i = memGet u.mem i))) ∧
  (∀ (q : Guard) (gd ga : BitVec 5) (s : State), s.goes q → s.memOk →
    let a := s.g ga
    let r := a.extractLsb' 0 12
    let u := s.syncRec r
    let rd := u.recHome r
    let bad := 2 ^ 12 ≤ a.toNat
    let denied := s.super = false ∧ (rd 8 % 2 ^ 16 ≠ s.core.on.asid.toNat ∨ (rd 0).testBit 11 = false)
    let st := rd 0 % 16
    let ends (v : Word) : Prop := ∃ t, exec (.arm q gd ga) s = .next t ∧ Holds s t gd v ∧ t.pc = s.pc + 4 ∧ AccessFrame s t ∧ t.mem = u.mem
    (bad → Writes (.arm q gd ga) s gd 4) ∧
    (¬ bad → denied → ends 2) ∧
    (¬ bad → ¬ denied → st = 0 → ends 3) ∧
    (¬ bad → ¬ denied → 5 ≤ st → ends 5) ∧
    (¬ bad → ¬ denied → st = 2 ∨ st = 3 → ends 1) ∧
    (¬ bad → ¬ denied → st = 1 ∨ st = 4 → recOk rd = false → ends 5) ∧
    (¬ bad → ¬ denied → st = 1 ∨ st = 4 → recOk rd = true →
      ∃ t l, exec (.arm q gd ga) s = .next t ∧ Holds s t gd 0 ∧ t.pc = s.pc + 4 ∧ (∀ m ∈ t.core.cellar.cache, m.dirty = 0) ∧
        memNat t.mem (s.recAt r 0) 8 = rd 0 - st + 2 ∧
        (∀ o ∈ [0xA0, 0xA8, 0xB0, 0xB8], memNat t.mem (s.recAt r o) 8 = 0) ∧
        t.launch r = some l ∧ l.arm = s.cyc ∧ l.running = false ∧ l.pre = false ∧
        (∀ i : Fin 8, l.args[i] = BitVec.ofNat 64 (rd (0xC0 + 8 * i.val))))) ∧
  (∀ (q : Guard) (gd ga : BitVec 5) (s : State), s.goes q →
    let a := s.g ga
    let r := a.extractLsb' 0 12
    let u := s.syncRec r
    let rd := u.recHome r
    let hidden := s.super = false ∧ rd 8 % 2 ^ 16 ≠ s.core.on.asid.toNat
    let st := rd 0 % 16
    let prio := rd 0 / 16 % 8
    let ends (v : Word) (P : State → Prop) : Prop := ∃ t, exec (.lstat q gd ga) s = .next t ∧ Holds s t gd v ∧ t.pc = s.pc + 4 ∧ AccessFrame s t ∧
      t.mem = u.mem ∧ P t
    (2 ^ 12 ≤ a.toNat → Writes (.lstat q gd ga) s gd 0xF) ∧
    (a.toNat < 2 ^ 12 →
      (hidden → ends 0xF fun _ => True) ∧
      (¬ hidden → st ≠ 2 → st ≠ 4 → ends (BitVec.ofNat 64 (st + 16 * prio)) fun _ => True) ∧
      (¬ hidden → st = 4 → ends (BitVec.ofNat 64 (4 + 16 * prio + rd 0xA0 % 2 ^ 8 * 2 ^ 8 + rd 0xA0 / 2 ^ 8 % 2 ^ 8 * 2 ^ 16))
        fun t => recWide rd = true → ∀ l ∈ t.core.cellar.cache, l.dirty ≠ 0) ∧
      (∀ l, ¬ hidden → st = 2 → s.launch r = some l → ends (BitVec.ofNat 64
        (2 + 16 * u.effective (rd 0) l + (if u.gangReady l then 0 else 2 ^ 7) + (if l.pre then 2 ^ 24 else 0))) fun _ => True)))

/-! ## The cellar words -/

/-- R325, R326, R327, R331: the cases of WALL in their order, with the refusals of R326 as the model computes them, and the start of a move, which the strand then waits for; WQRY gives the same code with the dirty sectors that CACHE would surrender, and changes nothing. A move runs to its switch: its wall stands at the target, the others where they were, and no move is under way; when w3 rises, no line is left in a bank that CACHE surrendered; when PAD loses banks, each area in them stands at the place that the plan gives it, with its bytes. While an area finds no place the move does not end. -/
def Obligations.WallResults : Prop :=
  (∀ (q : Guard) (gd ga : BitVec 5) (s : State), s.goes q →
    let a := s.g ga
    let p := (a.extractLsb' 0 8).toNat
    let n := (a.extractLsb' 8 2).toNat
    let c := s.core.cellar
    let bad := 2 ^ 10 ≤ a.toNat ∨ n = 0
    let w1 := if n = 1 then p else c.w1
    let w2 := if n = 2 then p else c.w2
    let w3 := if n = 3 then p else c.w3
    let code : Nat := if s.core.on.fixw then 7 else if c.move.isSome then 6 else if 64 < p ∨ w2 < w1 ∨ w3 < w2 then 5
      else if w1 < 2 ∨ 63 < w3 then 4 else if c.wall n = p then 0 else s.core.wallRefusal n p
    let runs := s.core.on.fixw = false ∧ c.move = none ∧ code = 0 ∧ c.wall n ≠ p
    (s.cpu.nest = false → bad → Traps (.wall q gd ga) s 0x11 0 s.pc ∧ Traps (.wqry q gd ga) s 0x11 0 s.pc) ∧
    (¬ bad → s.core.on.fixw = false → c.move = some (n, p) → exec (.wall q gd ga) s = .next s) ∧
    (¬ bad → ¬ (s.core.on.fixw = false ∧ c.move = some (n, p)) → ¬ runs → Writes (.wall q gd ga) s gd (BitVec.ofNat 64 code)) ∧
    (¬ bad → runs → exec (.wall q gd ga) s = .next (s.modCellar fun c => { c with move := some (n, p) })) ∧
    (¬ bad → Writes (.wqry q gd ga) s gd (BitVec.ofNat 64
      (code + (if n = 3 ∧ c.w3 < p ∧ p ≤ 64 then c.dirtyIn c.w3 p else 0) % 2 ^ 32 * 2 ^ 8)))) ∧
  (∀ (s : State) (n p : Nat),
    let c := s.core.cellar
    let loses := (n = 2 ∧ c.w2 < p) ∨ (n = 3 ∧ p < c.w3)
    (c.move = none → exec .wallMoveComplete s = .next s) ∧
    (c.move = some (n, p) → loses → s.core.padPlan n p = none → exec .wallMoveComplete s = .next s) ∧
    (c.move = some (n, p) → loses → s.core.padPlan n p ≠ none ∨ ¬ loses →
      ∃ t, exec .wallMoveComplete s = .next t ∧ t.core.cellar.move = none ∧
        t.core.cellar.w1 = (if n = 1 then p else c.w1) ∧ t.core.cellar.w2 = (if n = 2 then p else c.w2) ∧
        t.core.cellar.w3 = (if n = 3 then p else c.w3) ∧ t.cpu = s.cpu ∧
        (n = 3 → c.w3 < p → ∀ l ∈ t.core.cellar.cache, l.bank < c.w3 ∨ p ≤ l.bank) ∧
        (∀ o k d, loses → s.core.padPlan n p = some [(o, k, d)] → Memory.wf c.bytes = true →
          (∀ a, memGet t.core.cellar.bytes a = if d ≤ a ∧ a < d + k then memGet c.bytes (o + (a - d)) else memGet c.bytes a) ∧
          t.core.field.bindings = s.core.field.bindings.map fun (b : Binding) => { b with off := if b.size ≠ 0 ∧ b.off = o then d else b.off })))

/-- R332, R333, R334, R336: what STASH checks and answers (0x23 for a carry out of bit 63 is the model's, log 46; so is the order of the statuses 1 to 4, log 18), the range and the owners that status 0 adds, what UNSTASH gives back, and a sector that the device writes back on its own. DRAIN waits for its paths and gives the sectors that it wrote back, which for the STORE path are the ones that the CACHE path would write, since a store is performed at its home; a path above 3 traps with 0x11. -/
def Obligations.StashAndDrainResults : Prop :=
  (∀ (q : Guard) (gd ga gb : BitVec 5) (s u : State) (pages : List Nat), s.goes q →
    let a := (s.g ga).toInt
    let n := (s.g gb).toNat
    let bad := a % 4096 ≠ 0 ∨ n % 4096 ≠ 0 ∨ n = 0
    let other := ∃ p ∈ pages, ∃ o, s.ownerOf (p * 4096) = some o ∧ o ≠ s.cur.val
    let mine := ∃ p ∈ pages, s.ownerOf (p * 4096) = some s.cur.val
    (s.cpu.nest = false →
      (bad → Traps (.stash q gd ga gb) s 0x13 (s.g ga) s.pc) ∧
      (¬ bad → 2 ^ 63 < a + n → Traps (.stash q gd ga gb) s 0x23 (s.g ga) s.pc) ∧
      (¬ bad → a + n ≤ 2 ^ 63 → canonical a = false → Traps (.stash q gd ga gb) s 0x22 (s.g ga) s.pc) ∧
      (¬ bad → a + n ≤ 2 ^ 63 → canonical a = true → canonical (a + n - 1) = false → Traps (.stash q gd ga gb) s 0x24 (s.g ga) s.pc) ∧
      (∀ c va, ¬ bad → canonical a = true → canonical (a + n - 1) = true → s.stashPages (pagePieces a n (n / 4096 + 1)) = (.error (c, va), u) →
        ∃ t, exec (.stash q gd ga gb) s = .next t ∧
          Entered u t (c.setWidth 64) (if c = 0x13 ∨ (0x20 ≤ c.toNat ∧ c.toNat ≤ 0x24) then BitVec.ofInt 64 va else 0) s.pc)) ∧
    (¬ bad → canonical a = true → canonical (a + n - 1) = true → s.stashPages (pagePieces a n (n / 4096 + 1)) = (.ok pages, u) →
      (∀ v : Word, (s.core.padAlloc n = none ∧ v = 1) ∨ (s.core.padAlloc n ≠ none ∧ other ∧ v = 2) ∨
          (s.core.padAlloc n ≠ none ∧ ¬ other ∧ mine ∧ v = 3) ∨
          (s.core.padAlloc n ≠ none ∧ ¬ other ∧ ¬ mine ∧ 16 ≤ s.core.cellar.stash.length ∧ v = 4) →
        ∃ t, exec (.stash q gd ga gb) s = .next t ∧ Holds s t gd v ∧ t.pc = s.pc + 4 ∧ AccessFrame s t ∧ t.mem = s.mem) ∧
      (∀ off, s.core.padAlloc n = some off → ¬ other → ¬ mine → s.core.cellar.stash.length < 16 →
        ∃ t, exec (.stash q gd ga gb) s = .next t ∧ Holds s t gd 0 ∧ t.pc = s.pc + 4 ∧
          t.owners = s.owners ++ pages.map (fun p => (p, s.cur.val)) ∧
          t.core.cellar.stash.getLast? = some ⟨a, n, off, pages, [], []⟩ ∧ t.core.cellar.stash.length = s.core.cellar.stash.length + 1 ∧
          (∀ l ∈ t.core.cellar.cache, l.addr / 4096 ∉ pages))) ∧
    (s.core.cellar.stash.find? (fun r => r.va == a) = none → Writes (.unstash q gd ga) s gd 1) ∧
    (∀ r, s.core.cellar.stash.find? (fun r => r.va == a) = some r →
      ∃ t, exec (.unstash q gd ga) s = .next t ∧ Holds s t gd 0 ∧ t.pc = s.pc + 4 ∧ t.mem = s.mem ∧
        t.owners = s.owners.filter (fun e => !(e.2 == s.cur.val && r.pages.contains e.1)) ∧
        t.core.cellar.stash = s.core.cellar.stash.filter (fun x => x.va != r.va)) ∧
    (∀ i sector r, s.core.cellar.stash[i]? = some r →
      ∃ t, exec (.stashLazyWriteBack i sector) s = .next t ∧ t.mem = s.mem ∧ t.cpu = s.cpu ∧
        t.core.cellar.stash = s.core.cellar.stash.set i { r with dirty := delNat sector r.dirty })) ∧
  (∀ (q : Guard) (gd ga : BitVec 5) (s : State), s.goes q →
    (s.cpu.nest = false → 4 ≤ (s.g ga).toNat → Traps (.drain q gd ga) s 0x11 0 s.pc) ∧
    (s.g ga = 0 ∨ s.g ga = 1 → ∃ t, exec (.drain q gd ga) s = .next t ∧ t.pc = s.pc + 4 ∧ AccessFrame s t ∧
      Holds s t gd (BitVec.ofNat 64 ((s.core.cellar.cache.map CLine.dirtyCount).sum)) ∧ ∀ l ∈ t.core.cellar.cache, l.dirty = 0) ∧
    (s.g ga = 2 → ∃ t, exec (.drain q gd ga) s = .next t ∧ t.pc = s.pc + 4 ∧ AccessFrame s t ∧ t.mem = s.mem ∧
      Holds s t gd (BitVec.ofNat 64 ((s.core.cellar.stash.map fun r => r.dirty.length).sum)) ∧ ∀ r ∈ t.core.cellar.stash, r.dirty = []) ∧
    (s.g ga = 3 → s.core.cellar.move = none → Writes (.drain q gd ga) s gd 0) ∧
    (s.g ga = 3 → s.core.cellar.move ≠ none → exec (.drain q gd ga) s = .next s))

/-! ## Events of the device -/

/-- R370, R371, R372, R140, R395: a record that waited is written once a slot is free, its eight words at FQTAIL's slot and no other byte of memory; a write of FQHEAD advances it at most to the tail; BASE keeps bits [51:6] and E stays from 4 to 12; a late event is a record with code 0x70 and T = 0, counted in cr.LATE. R378, R166, R321, R401: invalidation through cr.INVAL and MB.INVAL, which a second write while BUSY leaves alone but for DROPPED; it is noted with its word and its cycle, and ends once no read that it concerns is still deferred or goes on retrying; every translation is discarded at the write and again at the end, which is the model's choice (log 33), and a read that is deferred goes on with its own; a read of cr.INVAL; the writes of cr.HINTDROP and cr.OCCRST. -/
def Obligations.FaultQueueAndInvalidationResults : Prop :=
  (∀ (s : State) (v : Word),
    let f := s.core.fq
    (f.waiting = [] ∨ f.isFull = true → exec .faultRecordWrite s = .next s) ∧
    (∀ r rest, f.waiting = r :: rest → f.isFull = false → s.memOk →
      let pa := f.base.toNat + 64 * (f.tail.toNat % 2 ^ f.e.toNat)
      ∃ t, exec .faultRecordWrite s = .next t ∧ t.cpu = s.cpu ∧
        t.core.fq = { f with waiting := rest, tail := f.tail + 1, written := f.written ++ [(f.tail, r.code, r.t)] } ∧
        memNat t.mem pa 8 = r.code.toNat + r.cls.toNat * 2 ^ 8 + r.ctx.toNat * 2 ^ 16 + r.t.toNat * 2 ^ 24 + r.r.toNat * 2 ^ 25 +
          r.s.toNat * 2 ^ 26 + r.d.toNat * 2 ^ 27 + s.cur.val * 2 ^ 32 + s.core.on.asid.toNat * 2 ^ 48 ∧
        memNat t.mem (pa + 8) 8 = r.cyc.toNat ∧ memNat t.mem (pa + 16) 8 = r.addr.toNat ∧ memNat t.mem (pa + 24) 8 = r.seq.toNat ∧
        memNat t.mem (pa + 32) 8 = r.detail.toNat ∧ memNat t.mem (pa + 40) 8 = r.node.toNat ∧ memNat t.mem (pa + 48) 8 = r.iaddr.toNat ∧
        memNat t.mem (pa + 56) 8 = f.tail.toNat + 2 ^ 63 ∧
        ∀ a, a < pa ∨ pa + 64 ≤ a → memGet t.mem a = memGet s.mem a) ∧
    (let d := (v.setWidth 32 - f.head).toNat
      let h := if d ≤ (f.tail - f.head).toNat then v.setWidth 32 else if d < 2 ^ 31 then f.tail else f.head
      exec (.fqheadWrite v) s = .next (s.modFq fun f => { f with
        head := h, written := f.written.filter fun e => decide ((e.1 - h).toNat < (f.tail - h).toNat) })) ∧
    (∀ (q : Guard) (ga : BitVec 5), s.goes q → s.super = true →
      exec (.mtcr q 0x203 ga) s = .next ((s.modFq fun f => { f with base := BitVec.ofNat 64 ((s.g ga).toNat % 2 ^ 52 / 64 * 64) }).modCpu fun c =>
        { c with pc := s.pc + 4 }) ∧
      exec (.mtcr q 0x204 ga) s = .next ((s.modFq fun f => { f with e := BitVec.ofNat 4 (min 12 (max 4 ((s.g ga).toNat % 16))) }).modCpu fun c =>
        { c with pc := s.pc + 4 })) ∧
    (∀ (cls ctx : BitVec 8), (s.cpu.status.getLsbD 8 = false → exec (.lateEvent cls ctx v) s = .next s) ∧
      (s.cpu.status.getLsbD 8 = true → ∃ t r, exec (.lateEvent cls ctx v) s = .next t ∧ t.cpu = { s.cpu with late := s.cpu.late + 1 } ∧
        Reported s t r ∧ r.code = 0x70 ∧ r.t = false ∧ r.cls = cls ∧ r.ctx = ctx ∧ r.detail = v ∧ r.cyc = BitVec.ofNat 64 s.cyc))) ∧
  (∀ (s : State) (v : Word) (gd : BitVec 5),
    (s.core.inval.1 = true → exec (.invalWrite v) s = .next (s.modCore fun c => { c with inval := (true, true) })) ∧
    (s.core.inval.1 = false → ∃ t, exec (.invalWrite v) s = .next t ∧ t.core.inval = (true, s.core.inval.2) ∧ t.core.invalOf = (v, s.cyc) ∧ t.untranslated ∧
      t.mem = s.mem ∧ (∀ r, t.g r = s.g r) ∧ t.pc = s.pc) ∧
    (s.porter.inval.1 = true → exec (.mbInval v) s = .next (s.modPorter fun p => { p with inval := (true, true) })) ∧
    (s.porter.inval.1 = false → ∃ t, exec (.mbInval v) s = .next t ∧ t.porter.inval = (true, s.porter.inval.2) ∧ t.porter.invalOf = (v, s.cyc) ∧ t.untranslated ∧
      t.mem = s.mem ∧ (∀ r, t.g r = s.g r) ∧ t.pc = s.pc) ∧
    (let mine := s.core.inval.1 = true ∧ s.invalOpen s.core.invalOf (fun i => decide (i < 192) && (s.coreAt i).on.asid == s.core.on.asid) = false
      let host := s.porter.inval.1 = true ∧ s.invalOpen s.porter.invalOf (fun i => decide (i < 192)) = false
      (¬ mine → ¬ host → exec .invalComplete s = .next s) ∧
      (mine ∨ host → ∃ t, exec .invalComplete s = .next t ∧ (mine → t.core.inval = (false, s.core.inval.2)) ∧ (¬ mine → t.core.inval = s.core.inval) ∧
        (host → t.porter.inval = (false, s.porter.inval.2)) ∧ (¬ host → t.porter.inval = s.porter.inval) ∧ t.untranslated ∧ t.mem = s.mem)) ∧
    (∀ (w : Word × Nat) (f : Nat → Bool),
      let a := signed 57 (w.1.toNat / 2 ^ 12 % 2 ^ 45 * 4096)
      let concerns (core first : Nat) (x : Option Extent) : Prop := f core = true ∧ first ≤ w.2 ∧
        ∃ y, x = some y ∧ (w.1.getLsbD 2 = true ∨ (y.va ≤ a ∧ a < y.va + y.len))
      s.invalOpen w f = true ↔ ∃ t : DeferTab, ((∃ i : Fin 12, t = s.slices[i]) ∨ t = s.far ∨ ∃ (c : Fin 192) (b : Nat × DeferTab), b ∈ s.cores[c].cellar.banks ∧ t = b.2) ∧
        ((∃ e ∈ t.entries, e.val = none ∧ concerns e.core e.first e.page) ∨ ∃ x ∈ t.tickets, x.gone = false ∧ concerns x.core x.first x.page)) ∧
    (∀ (i : Fin 12) (e : DEntry) (x : Extent) (va : Int), e ∈ s.slices[i].entries → e.core = s.cur.val → e.agent = .strand → e.page = some x →
      x.va ≤ va → va < x.va + x.len → inWindow va = false → (x.pa + (va - x.va).toNat) / 8 = e.loc →
      (∀ t ∈ s.tabs, ∀ y, t.page s.cur.val .strand va = some y → y = x) → s.xlateStrand .load va = (.ok ⟨x.pa + (va - x.va).toNat, x⟩, s)) ∧
    (∃ t, exec (.invalRead gd) s = .next t ∧ Holds s t gd (BitVec.ofNat 64 (s.core.inval.1.toNat + 2 * s.core.inval.2.toNat)) ∧
      t.core.inval = (s.core.inval.1, false) ∧ t.pc = s.pc ∧ t.mem = s.mem) ∧
    exec (.hintdropWrite v) s = .next (s.modCpu fun c => { c with hintdrop := v }) ∧
    (∃ t, exec (.occrstWrite v) s = .next t ∧ t = (s.modCellar fun c => { c with high := t.core.cellar.high }) ∧
      ∀ i : Fin 4, t.core.cellar.high[i] = if v.getLsbD i.val then s.core.liveUnits i.val else s.core.cellar.high[i]))

/-- R346, R347, R359, R360: a write of another agent fills an empty ONCE location and serves every read deferred there, and leaves a full one alone; when a refused read retries, one whose location has become full is served at once, the one that next-to-serve names takes a free entry, and any other is counted in cr.OREF, one that next-to-serve names being noted as tried. That a full location serves at once, that an abandoned read does not retry, and that a ticket which next-to-serve names is skipped after 4,096 cycles only when it has not retried, are the model's choices (log 33). -/
def Obligations.DeferralEventResults : Prop :=
  ∀ (s : State),
    let skips (d d' : DeferTab) : Prop := d'.entries = d.entries ∧ d'.tickets =
      (if d.since + 4096 ≤ s.cyc ∧ ∃ x ∈ d.tickets, x.num = d.nextServe ∧ x.tried = false then d.tickets.filter fun y => y.num != d.nextServe else d.tickets)
    (∀ (pa size : Nat) (data : Word),
      let l := pa / 8
      (s.full.contains l = true → exec (.onceLocationFill pa size data) s = .next s) ∧
      (s.full.contains l = false → s.memOk → 0 < size → pa % 8 + size ≤ 8 →
        ∃ t, exec (.onceLocationFill pa size data) s = .next t ∧ t.full = insNat l s.full ∧ t.cpu = s.cpu ∧
          (∀ a, l * 8 ≤ a → a < l * 8 + 8 → memGet t.mem a =
            if pa ≤ a ∧ a < pa + size then data.extractLsb' (8 * (a - pa)) 8 else 0) ∧
          (∀ a, a < l * 8 ∨ l * 8 + 8 ≤ a → memGet t.mem a = memGet s.mem a) ∧
          ((∀ o b, s.homeOf l = .bank o b → o < 192) → ∀ e ∈ (t.tab (s.homeOf l)).1.entries, e.loc = l → e.val ≠ none))) ∧
    (∀ (a : Agent) (i : Fin 12), s.owners = [] → s.core.cellar.banks = [] →
      (∀ j : Fin 12, j ≠ i → ∀ y ∈ s.slices[j].tickets, y.core ≠ s.cur.val ∨ y.agent ≠ a ∨ y.gone = true) →
      let d := s.slices[i]
      let mine := d.tickets.find? fun x => x.core == s.cur.val && x.agent == a && !x.gone
      (mine = none → exec (.deferredReadRetry a) s = .next s) ∧
      (∀ x, mine = some x →
        (∀ v, (s.full.contains x.loc = true ∧ v = some (s.homeWord x.loc)) ∨ (s.full.contains x.loc = false ∧ x.num = d.nextServe ∧ d.used < 1024 ∧ v = none) →
          ∃ t, exec (.deferredReadRetry a) s = .next t ∧ t.cpu = s.cpu ∧ t.mem = s.mem ∧
            t.slices[i].entries = d.entries ++ [⟨x.core, x.agent, x.loc, x.size, x.first, x.page, v⟩] ∧
            t.slices[i].tickets = d.tickets.filter fun y => y.num != x.num) ∧
        (s.full.contains x.loc = false → x.num ≠ d.nextServe → exec (.deferredReadRetry a) s = .next (s.modCpu fun c => { c with oref := c.oref + 1 })) ∧
        (s.full.contains x.loc = false → x.num = d.nextServe → 1024 ≤ d.used → ∃ t, exec (.deferredReadRetry a) s = .next t ∧
          t.cpu = { s.cpu with oref := s.cpu.oref + 1 } ∧ t.slices[i].entries = d.entries ∧
          t.slices[i].tickets = d.tickets.map fun (y : Ticket) => if y.num = x.num then { y with tried := true } else y))) ∧
    (∀ i : Fin 12, ∃ t, exec (.ticketSkip false i.val) s = .next t ∧ t = { s with slices := s.slices.set i t.slices[i] } ∧ skips s.slices[i] t.slices[i]) ∧
    (∀ b : Nat, ∃ t, exec (.ticketSkip true b) s = .next t ∧ t.mem = s.mem ∧ t.cpu = s.cpu ∧ skips (s.core.cellar.bank b) (t.core.cellar.bank b))

/-- R346, R357, R390, R400, R404, log 26: the host's and another device's accesses. One past HBM stops, one on a port that joins no peer is not served; a read changes no byte and no location. A write of the host inside one location is PLAIN: its bytes stand there and no other byte changes, but one that would merge with an uncorrectable word writes nothing, and one of an empty location for which reads wait fills it (log 26, the model's choice). A write of another device does the same, or acts as on a ONCE page, which fills an empty location and leaves a full one alone: which of the two is free (log 26). A double error is noted as uncorrectable and a single one beside it, where no double one stands, in HBM, the cellar, the loft or a node's registers; no datum changes, and a place outside the memory takes none. -/
def Obligations.OutsideAccessAndBitErrorResults : Prop :=
  (∀ (port : BitVec 4) (pa size : Nat) (data : Word) (w : Bool) (s : State), s.memOk →
    (Config.hbmBytes < pa + size → exec (.hostMemoryAccess pa size w data) s = .fault .noSuchMemory ∧
      (s.porter.ports[port.toNat].isSome = true → exec (.remoteRequest port pa size w data) s = .fault .noSuchMemory)) ∧
    (s.porter.ports[port.toNat] = none → exec (.remoteRequest port pa size w data) s = .next s) ∧
    (pa + size ≤ Config.hbmBytes →
      ∀ i ∈ [Instr.hostMemoryAccess pa size w data, .remoteRequest port pa size w data],
        (i = .remoteRequest port pa size w data → s.porter.ports[port.toNat].isSome = true) →
        ∃ t, exec i s = .next t ∧ t.cpu = s.cpu ∧ t.launches = s.launches ∧
          (w = false → t.mem = s.mem ∧ t.full = s.full) ∧
          (w = true → 0 < size → pa % 8 + size ≤ 8 →
            let l := pa / 8
            let empty := s.full.contains l = false
            let waited := ∃ e ∈ (s.tab (s.homeOf l)).1.entries, e.loc = l ∧ e.val = none
            let merges := size < 8 ∧ s.heldErr2 l = true
            let fills := t.full = insNat l s.full ∧ (∀ a, l * 8 ≤ a → a < l * 8 + 8 → memGet t.mem a =
              if pa ≤ a ∧ a < pa + size then data.extractLsb' (8 * (a - pa)) 8 else 0)
            let plain := t.full = s.full ∧ (merges → t.mem = s.mem) ∧
              (¬ merges → ∀ a, memGet t.mem a = if pa ≤ a ∧ a < pa + size then data.extractLsb' (8 * (a - pa)) 8 else memGet s.mem a)
            let host := (waited ∧ empty → fills) ∧ (¬ (waited ∧ empty) → plain)
            (∀ a, a < l * 8 ∨ l * 8 + 8 ≤ a → memGet t.mem a = memGet s.mem a) ∧
            (i = .hostMemoryAccess pa size w data → host) ∧ (host ∨ (empty ∧ fills) ∨ (¬ empty ∧ t.mem = s.mem ∧ t.full = s.full))))) ∧
  (∀ (s : State) (w : Nat) (double : Bool),
    let Noted (a b a' b' : NatSet) (w : Nat := w) : Prop :=
      (∀ x, x ≠ w → (x ∈ a' ↔ x ∈ a) ∧ (x ∈ b' ↔ x ∈ b)) ∧ (double = true → w ∈ b' ∧ w ∉ a') ∧
      (double = false → w ∉ b → w ∈ a' ∧ w ∉ b') ∧ (double = false → w ∈ b → a' = a ∧ b' = b)
    (Config.hbmBytes / 8 ≤ w → exec (.bitError .hbm w double) s = .next s) ∧
    (w < Config.hbmBytes / 8 → ∃ t, exec (.bitError .hbm w double) s = .next t ∧
      t = { s with ecc1 := t.ecc1, ecc2 := t.ecc2 } ∧ Noted s.ecc1 s.ecc2 t.ecc1 t.ecc2) ∧
    (524288 ≤ w → exec (.bitError .cellar w double) s = .next s) ∧
    (w < 524288 → w / 8192 < s.core.cellar.w3 → ∃ t, exec (.bitError .cellar w double) s = .next t ∧
      t = (s.modCellar fun c => { c with err1 := t.core.cellar.err1, err2 := t.core.cellar.err2 }) ∧
      Noted s.core.cellar.err1 s.core.cellar.err2 t.core.cellar.err1 t.core.cellar.err2) ∧
    (w < 524288 → s.core.cellar.w3 ≤ w / 8192 → ∃ t, exec (.bitError .cellar w double) s = .next t ∧
      t = (s.modCellar fun c => { c with cache := t.core.cellar.cache }) ∧
      ∀ k : Nat, (t.core.cellar.cache[k]?).map CLine.data = (s.core.cellar.cache[k]?).map CLine.data) ∧
    (2097152 ≤ w → exec (.bitError .loft w double) s = .next s) ∧
    (w < 2097152 → ∃ t, exec (.bitError .loft w double) s = .next t ∧
      t = (s.modCore fun c => { c with loft := { c.loft with err1 := t.core.loft.err1, err2 := t.core.loft.err2 } }) ∧
      Noted s.core.loft.err1 s.core.loft.err2 t.core.loft.err1 t.core.loft.err2) ∧
    (s.core.field.nodes[w / 16]? = none → exec (.bitError .node w double) s = .next s) ∧
    (∀ d, s.core.field.nodes[w / 16]? = some d → ∃ t d', exec (.bitError .node w double) s = .next t ∧
      t = (s.modField fun f => f.modNode (w / 16) fun _ => d') ∧ d' = { d with err1 := d'.err1, err2 := d'.err2 } ∧
      Noted d.err1 d.err2 d'.err1 d'.err2 (w % 16)))

/-! ## The launch scheduler -/

/-- R26, R101, R117, R120, R122, R127, R132, R320, R370: a pass in stage 4 or 5 admits the only ARMED record when it belongs to no gang, names no image list, which is what address 0 says by the model's choice (log 27), and its levels have a placement on free cores: the record is RUNNING, and each core of the placement holds the launch with its rank, its ASID, the status and the walls that the record gives, in USER with PMODE and NEST 0 by the model's choice (log 3), and its strand not yet started; in the other stages a pass does nothing. A strand of a running launch starts at the record's entry with the argument words in g1 to g8, the rank in g9 and zeros beyond; a bad entry traps before the first instruction, by the model's choice (log 31); a resumed one goes on where it stood; and none starts while a core of the launch still loads its images (log 27). The search for a placement is the model's (log 8). -/
def Obligations.AdmissionResults : Prop :=
  (∀ (s : State) (r : BitVec 12) (l : Launch), s.core.on.recIx = some r → s.launch r = some l → l.running = true → l.ending = none →
    s.core.mat.frozen = false →
    let e : Word := BitVec.ofNat 64 (memNat s.mem (s.recAt r 0x10) 8)
    (s.core.loader.boot = none → (∃ i ∈ l.cores, (s.coreAt i).loader.boot ≠ none) → exec .strandStart s = .next s) ∧
    (s.core.loader.boot ≠ none → s.core.loader.run ≠ none → exec .strandStart s = .next s) ∧
    (s.core.loader.boot = none → (∀ i ∈ l.cores, (s.coreAt i).loader.boot = none) →
    (s.cpu.run = .off → canonical e.toInt = true → e.toNat % 4 = 0 →
      ∃ t, exec .strandStart s = .next t ∧ t.pc = e ∧ t.cpu.run = .running ∧ t.cpu.status = s.cpu.status ∧ t.mem = s.mem ∧
        (∀ i : Fin 8, t.g (BitVec.ofNat 5 (i.val + 1)) = l.args[i]) ∧ t.g 9 = s.core.on.rank.setWidth 64 ∧
        (∀ n, 10 ≤ n → n < 32 → t.g (BitVec.ofNat 5 n) = 0) ∧ ∃ l', t.launch r = some l' ∧ l'.start.isSome = true) ∧
    (s.cpu.run = .off → s.cpu.nest = false → canonical e.toInt = false ∨ e.toNat % 4 ≠ 0 →
      ∃ t, exec .strandStart s = .next t ∧ t.pc = s.cpu.tvec ∧ t.cpu.run = .running ∧ t.cpu.epc = e ∧ t.cpu.taddr = e ∧
        t.cpu.tcause = if canonical e.toInt then 0x13 else 0x22) ∧
    (s.cpu.run = .halted → ∃ t, exec .strandStart s = .next t ∧ t.cpu = { s.cpu with run := .running } ∧ t.mem = s.mem))) ∧
  (∀ (s : State) (order : List Nat) (l : Launch) (cores : List Nat),
    (s.porter.stage ≠ 4 → s.porter.stage ≠ 5 → exec (.admissionPass order) s = .next s) ∧
    (s.porter.stage = 4 ∨ s.porter.stage = 5 → s.memOk → s.launches = [l] → l.running = false → l.pre = false → l.ending = none →
      (s.recHome l.recIx 0x90).testBit 15 = false → s.recHome l.recIx 0x18 = 0 →
      s.impossible (coreOrder order) [l] = false → placement (coreOrder order) s.freeCoreAt (s.levelsOf l.recIx) = some cores →
      (∀ i ∈ cores, i < 192) →
      let ctl := s.recHome l.recIx 0
      let rooms := s.recHome l.recIx 0x68
      ∃ t l', exec (.admissionPass order) s = .next t ∧ t.launch l.recIx = some l' ∧ l'.running = true ∧ l'.cores = cores ∧
        l'.ending = none ∧ memNat t.mem (s.recAt l.recIx 0) 8 = ctl / 16 * 16 + 3 ∧
        ∀ i ∈ cores, ∃ k, cores[k]? = some i ∧
          let c := t.coreAt i
          c.on.recIx = some l.recIx ∧ c.on.rank = BitVec.ofNat 8 k ∧ c.on.asid.toNat = s.recHome l.recIx 8 % 2 ^ 16 ∧
          c.cpu.run = .off ∧ c.cpu.tvec = s.porter.tvec &&& 0xFFFFFFFFFFFFFFFC ∧ c.cpu.qwin = 65536 ∧
          c.cpu.status = BitVec.ofNat 64 ((if ctl.testBit 7 then 2 ^ 8 else 0) + (if ctl.testBit 8 then 2 ^ 4 else 0) +
            (if ctl.testBit 9 then 2 ^ 3 else 0)) ∧
          c.fq.head = 0 ∧ c.fq.tail = 0 ∧ c.cellar.w1 = rooms % 2 ^ 8 ∧ c.cellar.w2 = rooms % 2 ^ 8 + rooms / 2 ^ 8 % 2 ^ 8 ∧
          c.cellar.w3 = rooms % 2 ^ 8 + rooms / 2 ^ 8 % 2 ^ 8 + rooms / 2 ^ 16 % 2 ^ 8))

/-- R132, R133, R134, R391: a launch that has an end, or whose cores have all exited, goes to DONE with its cause, code, exited cores and cycle in the exit record, and its cores are free; any other goes on. Once every core of a running launch stands frozen, with no wall move under way (R328), the save leaves the record ARMED with PRE set and frees its cores, each kept in the launch (log 10). -/
def Obligations.LaunchEndResults : Prop :=
  (∀ (s : State) (r : BitVec 12) (l : Launch), s.launch r = some l → s.memOk →
    (l.running = false ∨ l.ending ≠ none ∨ (∃ i ∈ l.cores, (s.coreAt i).mat.frozen = false ∨ (s.coreAt i).cellar.move ≠ none) →
      exec (.preemptionSaveDone r) s = .next s) ∧
    (l.running = true → l.ending = none → (∀ i ∈ l.cores, i < 192 ∧ (s.coreAt i).mat.frozen = true ∧ (s.coreAt i).cellar.move = none) →
      ∃ t l', exec (.preemptionSaveDone r) s = .next t ∧ t.launch r = some l' ∧ l'.running = false ∧ l'.pre = true ∧
        l'.args = l.args ∧ l'.saved.map (·.1) = l.saved.map (·.1) ++ l.cores ∧
        memNat t.mem (s.recAt r 0) 8 % 16 = 2 ∧ ∀ i ∈ l.cores, (t.coreAt i).free ∧ (t.coreAt i).drill.graph = (s.coreAt i).drill.graph)) ∧
  (∀ (s : State) (r : BitVec 12) (l : Launch), s.launch r = some l → s.memOk →
    (l.ending = none → l.running = false ∨ (∃ i ∈ l.cores, (s.coreAt i).cpu.run ≠ .exited) → exec (.launchComplete r) s = .next s) ∧
    (∀ cause code : BitVec 8, l.ending = some (cause, code) ∨
        (l.ending = none ∧ l.running = true ∧ (∀ i ∈ l.cores, (s.coreAt i).cpu.run = .exited) ∧ code = 0 ∧
          cause = if ∃ i ∈ l.cores, (s.coreAt i).cpu.exitX = true then 1 else 0) →
      ∃ t, exec (.launchComplete r) s = .next t ∧ t.launch r = none ∧
        memNat t.mem (s.recAt r 0) 8 % 16 = 4 ∧
        memNat t.mem (s.recAt r 0xA0) 8 % 2 ^ 8 = cause.toNat ∧
        memNat t.mem (s.recAt r 0xA0) 8 / 2 ^ 8 % 2 ^ 8 = (if cause = 2 ∨ cause = 3 then code.toNat else 0) ∧
        (l.running = true → memNat t.mem (s.recAt r 0xA0) 8 / 2 ^ 16 = (l.cores.countP fun i => (s.coreAt i).cpu.run == .exited) % 2 ^ 16) ∧
        memNat t.mem (s.recAt r 0xB8) 8 = s.cyc % 2 ^ 64 ∧
        (l.running = true → ∀ i ∈ l.cores, i < 192 → (t.coreAt i).free ∧ (t.coreAt i).drill.graph = none)))

/-- R28, R30, R138, R140, R394, R408: a started launch that runs past its budget raises one late event on its core of rank 0 (the rank is the model's choice, log 31), and so does each step of the clock below 1.5 GHz for a running launch that asks for it; after a freeze or a pre-emption request, a missed stopping point ends the launch with cause 2 and code 0xF0, resets the core but for its loft, which it keeps by the model's choice (log 31), and tells the host. What one sample makes of the clock: one step lower for more than 3,200 W on average or a wing above 105 degrees, at once down to the cap (the average over the samples held and the cap taken at once are the model's choices, log 32), one step higher after 50 samples that allow it; a wing at 115 degrees or the tenth further sample above 3,200 W at the lowest step stops every core, ends every launch with cause 2 and code 0xF2, and leaves stage 7. -/
def Obligations.DeadlineAndGovernorResults : Prop :=
  (∀ (s : State) (r : BitVec 12) (l : Launch) (ctx : BitVec 8), s.launch r = some l →
    let b := memNat s.mem (s.recAt r 0x88) 8 % 2 ^ 48
    (b = 0 ∨ l.budget = true ∨ l.running = false ∨ l.start = none → exec (.deadlineBudgetElapsed r) s = .next s) ∧
    (∀ c rest n, b ≠ 0 → l.budget = false → l.running = true → l.start = some n → l.cores = c :: rest → c < 192 →
      (s.cyc < n + b → exec (.deadlineBudgetElapsed r) s = .next s) ∧
      (n + b ≤ s.cyc → ∃ t l', exec (.deadlineBudgetElapsed r) s = .next t ∧ t.launch r = some l' ∧ l' = { l with budget := true } ∧
        (t.coreAt c).cpu = { (s.coreAt c).cpu with late := (s.coreAt c).cpu.late + 1 } ∧ t.cur = s.cur)) ∧
    (s.core.on.recIx = none ∨ (s.core.mat.frozen = false ∧ ∀ k : Fin 16, (s.core.field.regions[k]).st ≠ .frozen) → exec (.watchdogFault ctx) s = .next s) ∧
    (s.core.on.recIx = some r → s.core.mat.frozen = true ∨ (∃ k : Fin 16, (s.core.field.regions[k]).st = .frozen) → ∃ t l', exec (.watchdogFault ctx) s = .next t ∧ t.launch r = some l' ∧
      l'.ending = some (l.ending.getD (2, 0xF0)) ∧ t.cpu = { Cpu.reset with run := .dead, ecccnt := s.cpu.ecccnt } ∧
      t.core.qs = .reset ∧ t.core.mat = .reset ∧ t.core.ap = .reset ∧ t.core.drill = .reset ∧ t.core.field = .reset ∧
      t.core.loft = s.core.loft ∧ HostTold s t)) ∧
  (∀ (s : State) (watts t0 t1 t2 t3 : Nat), s.porter.step ≤ 3 → s.porter.cap ≤ 3 →
    let p := s.porter
    let temps := [t0, t1, t2, t3]
    let samples := (watts :: p.samples).take 10
    let above := 3200 * samples.length < samples.sum
    let hot := above ∨ ∃ x ∈ temps, 105 < x
    let cool := samples.sum < 2900 * samples.length ∧ ∀ x ∈ temps, x ≤ 95
    let trips := (∃ x ∈ temps, 115 ≤ x) ∨ (10 ≤ p.high + 1 ∧ p.step = 3 ∧ above)
    let running := p.stage ≠ 0 ∧ p.stage ≠ 7
    (p.stage = 0 ∨ p.stage = 7 → exec (.governorSample watts t0 t1 t2 t3) s = .next s) ∧
    (running → ∃ t, exec (.governorSample watts t0 t1 t2 t3) s = .next t ∧ t.porter.samples = samples ∧
      (hot → t.porter.step = max (min 3 (p.step + 1)) p.cap) ∧
      (¬ hot → p.step < p.cap → t.porter.step = p.cap) ∧
      (¬ hot → p.cap ≤ p.step → t.porter.step = if cool ∧ 50 ≤ p.low + 1 ∧ p.cap < p.step then p.step - 1 else p.step) ∧
      (t.porter.step ≠ p.step → t.porter.low = 0) ∧ (t.porter.step = p.step → t.porter.low = if cool then p.low + 1 else 0) ∧
      (¬ trips → t.porter.stage = p.stage) ∧
      (∀ l c rest, ¬ trips → t.porter.step ≠ p.step → t.porter.step ≠ 0 → s.launches = [l] → l.running = true → (s.recHome l.recIx 0x88).testBit 48 = true →
        l.cores = c :: rest → c < 192 → (t.coreAt c).cpu = { (s.coreAt c).cpu with late := (s.coreAt c).cpu.late + 1 }) ∧
      (¬ trips → t.porter.step = p.step ∨ t.porter.step = 0 → t.cores = s.cores) ∧
      (trips → t.porter.stage = 7 ∧
        ∀ l ∈ s.launches, s.launch l.recIx = some l → ∃ l', t.launch l.recIx = some l' ∧ l'.ending = some (l.ending.getD (2, 0xF2)))))

/-! ## The porter -/

/-- R402, R405, R406, R408: power-up and power loss leave nothing but the ROM and the fused counter; the ROM takes an image in stage 1 or 6, refuses it with a reason or goes on to training, and training to the self-test, with the pools and the launch setup that the firmware image gives (log 6), after whose last core stage 5 begins; a function reset starts again and keeps memory (PRESUMED). -/
def Obligations.BootResults : Prop :=
  ∀ (s : State) (ok pass narrow : Bool) (core : Nat),
    let p := s.porter
    (∀ e ∈ ([(.powerUp, 1), (.powerLoss, 0), (.pcieFunctionReset, 1)] : List (Instr × BitVec 4)),
      ∃ t, exec e.1 s = .next t ∧ t.porter = { Porter.reset with stage := e.2, fused := p.fused } ∧ t.launches = [] ∧
        (∀ i : Fin 192, t.cores[i] = .reset) ∧ t.hostMem = s.hostMem ∧
        (e.1 = .pcieFunctionReset → t.mem = s.mem ∧ t.full = s.full) ∧
        (e.1 ≠ .pcieFunctionReset → ∀ a, a.testBit 51 = false → memGet t.mem a = 0)) ∧
    (p.stage ≠ 1 → p.stage ≠ 6 → exec .mbFwgo s = .next s) ∧
    (p.stage = 1 ∨ p.stage = 6 → exec .mbFwgo s = .next (s.modPorter fun p => { p with
      stage := 2, reason := 0, digest := []
      image := if 4096 ≤ p.fwlen.toNat ∧ p.fwlen.toNat ≤ 2 ^ 26 then memBytes s.hostMem p.fwaddr.toNat p.fwlen.toNat else [] })) ∧
    (p.stage ≠ 2 → exec .firmwareVerifyDone s = .next s) ∧
    (p.stage = 2 →
      let f (off n : Nat) : Nat := ofBytes ((p.image.drop off).take n)
      let key := (p.image.drop 0x40).take 1793
      let digest := Config.shake256 (p.image.take 0x40 ++ p.image.drop 0x1000)
      let reason : BitVec 8 :=
        if p.fwlen.toNat < 4096 ∨ 2 ^ 26 < p.fwlen.toNat ∨ f 0 8 ≠ 1 then 5
        else if f 8 8 < p.fused ∨ f 8 8 < f 0x10 8 then 3
        else if f 0x18 8 = 0 ∨ p.image.length ≠ 4096 + f 0x18 8 ∨ f 0x20 8 % 4 ≠ 0 ∨ f 0x18 8 ≤ f 0x20 8 ∨ f 0x28 24 ≠ 0 then 5
        else if Config.shake256 key ≠ Config.fusedKeyHash then 1
        else if Config.falconVerify key digest ((p.image.drop 0x780).take 1330) = false then 2 else 0
      exec .firmwareVerifyDone s = .next (s.modPorter fun p =>
        if reason = 0 then { p with stage := 3, digest := digest } else { p with stage := 6, reason := reason, image := [] })) ∧
    (p.stage ≠ 3 → exec (.trainingDone ok) s = .next s) ∧
    (p.stage = 3 → exec (.trainingDone ok) s = .next (s.modPorter fun p =>
      if ok then { p with stage := 4, fused := max p.fused (ofBytes ((p.image.drop 0x10).take 8)), affine := p.setup.affine, lpool := p.setup.lpool
                          tvec := p.setup.tvec, fqbase := p.setup.fqbase, fqe := p.setup.fqe, qsnap := p.setup.qsnap, roots := p.setup.roots }
      else { p with stage := 6, reason := 4 })) ∧
    (p.stage ≠ 4 ∨ 192 ≤ core → exec (.coreSelfTestDone core pass narrow) s = .next s) ∧
    (∀ c : Fin 192, p.stage = 4 → p.tests[c] = .untested → (∀ i : Fin 192, i.val < c.val / 48 * 48 → p.tests[i] ≠ .untested) →
      ∃ t, exec (.coreSelfTestDone c.val pass narrow) s = .next t ∧ t = (s.modPorter fun p => { p with
          tests := p.tests.set c (if pass then .online else .failed), narrow := p.narrow.set c (pass && narrow), stage := t.porter.stage }) ∧
        t.porter.stage = if ∀ i : Fin 192, t.porter.tests[i] ≠ .untested then 5 else 4)

/-- R134, R400, R401, R402, R403, R404, R407: the statuses of MB.ARM, with the record armed under status 0; the end of a launch or of a gang by MB.END, whose cores stop and drop what they have not delivered; the cap, the head of the host queue and the device's number. What the host reads of the mailbox and of a core's register page. A request of MB.ATTEST is noted; with no image running, or none noted, no report is written; that it needs a running image and reads its nonce when the report is written is the model's choice (log 32); the report holds the nonce, the digest, the fused counter and the identity key at their offsets, the request is done and vector 0 is signalled. -/
def Obligations.MailboxResults : Prop :=
  (∀ (s : State) (v : Word),
    let r : BitVec 12 := v.extractLsb' 0 12
    let rd := s.recHome r
    let st := rd 0 % 16
    let answers (n : BitVec 4) : Prop := exec (.mbArm v) s = .next (s.modPorter fun p => { p with armSt := n })
    (s.porter.stage.toNat < 4 → answers 6) ∧
    (4 ≤ s.porter.stage.toNat → (st = 0 → answers 3) ∧ (5 ≤ st → answers 5) ∧ (st = 2 ∨ st = 3 → answers 1) ∧
      (st = 1 ∨ st = 4 → recOk rd = false → answers 5) ∧
      (st = 1 ∨ st = 4 → recOk rd = true → s.memOk →
        ∃ t l, exec (.mbArm v) s = .next t ∧ t.porter = { s.porter with armSt := 0 } ∧ t.cores = s.cores ∧
          memNat t.mem (s.recAt r 0) 8 = rd 0 - st + 2 ∧ (∀ o ∈ [0xA0, 0xA8, 0xB0, 0xB8], memNat t.mem (s.recAt r o) 8 = 0) ∧
          t.launch r = some l ∧ l.arm = s.cyc ∧ l.running = false ∧ l.pre = false ∧
          ∀ i : Fin 8, l.args[i] = BitVec.ofNat 64 (rd (0xC0 + 8 * i.val)))) ∧
    (s.launch r = none → exec (.mbEnd v) s = .next s) ∧
    (∀ l, s.launch r = some l →
      let ends (m : Launch) : Prop := m = l ∨ ((rd 0x90).testBit 15 = true ∧ sameGang (rd 0x90) (s.recHome m.recIx 0x90) = true)
      ∃ t, exec (.mbEnd v) s = .next t ∧ t.mem = s.mem ∧
        (∀ m ∈ s.launches, ends m → s.launch m.recIx = some m → ∃ m', t.launch m.recIx = some m' ∧ m'.ending = some (m.ending.getD (4, 0)) ∧
          (m.running = true → ∀ i ∈ m.cores, i < 192 → (t.coreAt i).mat.frozen = true ∧ (t.coreAt i).qs.q = .replicate 8 [] ∧
            (t.coreAt i).cpu.run = if (s.coreAt i).cpu.run = .exited then .exited else .dead)) ∧
        ∀ m ∈ s.launches, ¬ ends m → (∀ k ∈ s.launches, ends k → k.recIx ≠ m.recIx) → m ∈ t.launches) ∧
    exec (.mbCap v) s = .next (s.modPorter fun p => { p with cap := v.toNat % 4 }) ∧
    (let p := s.porter
      let d := (v.setWidth 32 - p.hfqHead).toNat
      let h := if d ≤ (p.hfqTail - p.hfqHead).toNat then v.setWidth 32 else if d < 2 ^ 31 then p.hfqTail else p.hfqHead
      (p.hfqWait = [] → exec (.mbHfqhead v) s = .next (s.modPorter fun p => { p with hfqHead := h })) ∧
      ∃ t, exec (.mbHfqhead v) s = .next t ∧ t.porter.hfqHead = h ∧ t.mem = s.mem ∧ t.cores = s.cores ∧
        (t.porter.hfqWait = [] ∨ t.porter.hfqFull = true)) ∧
    exec (.mbLink v) s = .next (s.modPorter fun p => { p with link := v.extractLsb' 0 6 })) ∧
  (∀ (s : State),
    let p := s.porter
    (let v := s.mbWord 0x000;
      v.extractLsb' 0 4 = p.stage ∧ v.extractLsb' 4 4 = 0 ∧ v.extractLsb' 8 8 = BitVec.ofNat 8 ((List.finRange 192).countP fun i => p.tests[i] == .online) ∧
        v.extractLsb' 16 8 = (if p.stage = 6 then p.reason else 0) ∧ v.extractLsb' 24 40 = 0) ∧
    (∀ c : Fin 192, ((s.mbWord (0x008 + 8 * (c.val / 64))).getLsbD (c.val % 64) = true ↔ p.tests[c] = .online) ∧
      (s.mbWord (0x020 + 8 * (c.val / 64))).getLsbD (c.val % 64) = p.narrow[c]) ∧
    (let v := s.mbWord 0x038;
      v.extractLsb' 0 2 = BitVec.ofNat 2 p.step ∧ v.extractLsb' 8 2 = BitVec.ofNat 2 p.cap ∧ v.extractLsb' 16 32 = BitVec.ofNat 32 (p.samples.sum / p.samples.length) ∧
        v.extractLsb' 2 6 = 0 ∧ v.extractLsb' 10 6 = 0 ∧ v.extractLsb' 48 16 = 0) ∧
    s.mbWord 0x048 = p.armSt.setWidth 64 ∧ s.mbWord 0x058 = p.hfqBase + p.hfqE.setWidth 64 ∧ s.mbWord 0x060 = p.hfqHead.setWidth 64 ∧
    s.mbWord 0x068 = p.hfqTail.setWidth 64 ∧ s.mbWord 0x070 = BitVec.ofNat 64 (p.inval.1.toNat + 2 * p.inval.2.toNat) ∧ s.mbWord 0x078 = p.fwaddr ∧
    s.mbWord 0x080 = p.fwlen ∧
    (let v := s.mbWord 0x090;
      v.extractLsb' 0 6 = p.link ∧ v.extractLsb' 6 10 = 0 ∧ v.extractLsb' 32 32 = 0 ∧ ∀ i : Fin 16, v.getLsbD (16 + i.val) = p.ports[i].isSome) ∧
    (∀ off, 0x098 ≤ off ∨ off % 8 ≠ 0 ∨ off = 0x040 ∨ off = 0x050 ∨ off = 0x088 → s.mbWord off = 0) ∧
    ∀ (n : Fin 192) (off m : Nat), s.pageWord n.val 0x08 = s.cores[n].fq.head.setWidth 64 ∧ s.pageWord n.val 0x10 = s.cores[n].fq.tail.setWidth 64 ∧
      s.pageWord n.val 0x18 = s.cores[n].fq.base ∧ (off ≠ 0x08 → off ≠ 0x10 → off ≠ 0x18 → s.pageWord n.val off = 0) ∧ (192 ≤ m → s.pageWord m off = 0)) ∧
  (∀ (s : State) (v : Word), Memory.wf s.hostMem = true →
    exec (.mbAttest v) s = .next (s.modPorter fun p => { p with attest := some v }) ∧
    (s.porter.attest = none ∨ s.porter.digest = [] → exec .attestReportDone s = .next s) ∧
    (s.porter.attest = some v → s.porter.digest ≠ [] →
      let dst := memNat s.hostMem (v.toNat + 32) 8
      ∃ t, exec .attestReportDone s = .next t ∧ t.porter = { s.porter with attest := none, msix0 := s.porter.msix0 + 1 } ∧
        t.mem = s.mem ∧ t.cores = s.cores ∧
        (∀ j, j < 32 → memGet t.hostMem (dst + j) = memGet s.hostMem (v.toNat + j)) ∧
        (∀ j, j < 64 → memGet t.hostMem (dst + 0x20 + j) = s.porter.digest.getD j 0) ∧
        memNat t.hostMem (dst + 0x60) 8 = s.porter.fused % 2 ^ 64 ∧
        (∀ j, j < 1793 → memGet t.hostMem (dst + 0x68 + j) = Config.identityKey.getD j 0) ∧
        ∀ a, a < dst ∨ dst + 0xCA2 ≤ a → memGet t.hostMem a = memGet s.hostMem a))

/-- R357, R404: a port that trains joins its peer and hears of the members that the peer reaches, and so do later exchanges on a trained port; when the last port to a peer goes down, every launch with a LINKSET level ends with cause 2 and code 0xF1, and the host is told. That the numbers heard there stay members, and that one lost peer suffices, are the model's choices (log 32). -/
def Obligations.LinksetResults : Prop :=
  ∀ (s : State) (port : BitVec 4) (peer : BitVec 6) (heard : List (BitVec 6)),
    let up := s.modPorter fun p => { p with
      ports := p.ports.set port.toNat (some peer), heard := (port, heard) :: p.heard.filter (fun e => e.1 != port),
      downs := p.downs.filter fun d => d != peer }
    exec (.volenPortTrained port peer heard) s = .next up ∧
    (s.porter.ports[port.toNat] ≠ none → exec (.numberExchange port peer heard) s = .next up) ∧
    (s.porter.ports[port.toNat] = none → exec (.numberExchange port peer heard) s = .next s ∧ exec (.volenPortDown port) s = .next s) ∧
    (s.porter.ports[port.toNat] = some peer →
      ((∃ j : BitVec 4, j ≠ port ∧ s.porter.ports[j.toNat] = some peer) →
        exec (.volenPortDown port) s = .next (s.modPorter fun p => { p with ports := p.ports.set port.toNat none })) ∧
      ((∀ j : BitVec 4, j ≠ port → s.porter.ports[j.toNat] ≠ some peer) →
        ∃ t, exec (.volenPortDown port) s = .next t ∧ peer ∈ t.porter.downs ∧ t.porter.heard = s.porter.heard ∧ t.porter.ports[port.toNat] = none ∧ t.mem = s.mem ∧ HostTold s t ∧
          (∀ l ∈ s.launches, s.launch l.recIx = some l → ∃ l', t.launch l.recIx = some l' ∧
            l'.ending = if (s.levelsOf l.recIx).any (fun v => v.domain == 6) then some (l.ending.getD (2, 0xF1)) else l.ending)))

/-! ## Stream commands -/

/-- R66, R67, R145, R147, R362, R363: a stream command whose reserved flags are not zero, whose class is not its context's, or whose selector is not mapped to its context is turned away, in this order; so is every command of an empty cell; no engine changes, and the number completes. When a number completes, a selector has completed exactly the numbers that it had and this one, and its prefix stops below the first that it has not; the other selectors stay. -/
def Obligations.CompletionAndRefusalOfCommands : Prop :=
  (∀ (i : Instr) (h : CmdHdr) (op : BitVec 8) (s : State),
    (streamOf i = some (h, op) →
      (h.rsv ≠ 0 → Turned i s h 0x50) ∧
      (h.rsv = 0 → classOfCtx s.ctx ≠ some (op.toNat / 16) ∨ s.core.on.tlCtx h.tl ≠ some s.ctx → Turned i s h 0x53)) ∧
    ∀ body, Turned (.unassignedStreamOpcode h op body) s h 0x50) ∧
  (∀ (q : Queues) (tl : Fin 16) (n : Nat), (tl.val, q.completed[tl] + 1) ∉ q.above →
    let u := q.complete tl.val n
    (∀ m, (m ≤ u.completed[tl] ∨ (tl.val, m) ∈ u.above) ↔ (m ≤ q.completed[tl] ∨ (tl.val, m) ∈ q.above ∨ m = n)) ∧
    (tl.val, u.completed[tl] + 1) ∉ u.above ∧ u.issued = q.issued ∧ u.q = q.q ∧
    ∀ j : Fin 16, j ≠ tl → u.completed[j] = q.completed[j] ∧ ∀ m, (j.val, m) ∈ u.above ↔ (j.val, m) ∈ q.above)

/-- R149 to R158: what LOADS, STORES, GATHER, SCATTER and SCADD check, in order, and what they capture when nothing is wrong; the parameters of DIMS are then cleared. That F must be K whenever neither dequantise nor quantise stands in the chain, other steps or not, is the model's choice (log 35). For LOADS and STORES the loader then fills the extent of the base (R26; the moment is the model's choice, log 36). What a transposed GATHER reads is the model's choice too (log 20). -/
def Obligations.DataCommandStarts : Prop :=
  ∀ (s : State) (h : CmdHdr),
    let x := s.port s.ctx
    let k := s.core.field.portFmt s.ctx
    let sources : List Nat := [14, 1, 2, 3, 8, 9, 10]
    let streams (i : Instr) (op : BitVec 8) (base : Int) (codes : List (Bool × BitVec 8)) (P : PRun → Prop) : Prop :=
      s.passes h op → match firstCode codes with
        | some c => Turned i s h c
        | none => ∀ e u, s.extentOf base = (e, u) → ∃ r, exec i s = .next (u.modPort s.ctx fun x =>
            { x.runsData r with ext := match e with | .ok e => some e | .error _ => none }) ∧ P r
    let starts (i : Instr) (op : BitVec 8) (codes : List (Bool × BitVec 8)) (P : PRun → Prop) : Prop :=
      s.passes h op → match firstCode codes with
        | some c => Turned i s h c
        | none => ∃ r, exec i s = .next (s.modPort s.ctx fun x => x.runsData r) ∧ P r
    (∀ o : StreamOps,
      let f := o.f.toNat
      let cnt := (o.n0.toNat + 1) :: x.dims.map (·.1)
      let str := o.stride.toInt :: x.dims.map (·.2)
      let upper := o.chain.extractLsb' 3 3 != 0
      let lower := o.chain.extractLsb' 0 3 != 0
      let plain := f == 10 && o.chain == 0 && !(o.stride == 1 && cnt.tail.all (· == 1))
      streams (.loads h o) 0x01 o.base.toInt
        [(!s.kindOk true, 0x53), (f == 0 || decide (14 < f), 0x50), (upper && lower, 0x51), (lower, 0x50),
         (if o.chain.getLsbD 4 then !((sources ++ [11, 12]).contains f && [11, 12, 13].contains k) else f != k, 0x50),
         (decide (2 ^ 40 < totalOf cnt), 0x54), (plain, 0x54), (o.chain.getLsbD 5 && !slotsOk f o.base.toInt cnt o.stride.toInt, 0x54),
         (o.chain.getLsbD 3 && !s.tileOk f (o.n0.toNat + 1) (cnt.getD 1 1) (cnt.drop 2), 0x54)]
        (fun r => r.Fresh s h 0x01 .loads o.base.toInt f o.chain o.hint
          (if o.chain.getLsbD 3 then cnt.getD 1 1 :: (o.n0.toNat + 1) :: cnt.drop 2 else cnt)
          (if o.chain.getLsbD 3 then str.getD 1 0 :: o.stride.toInt :: str.drop 2 else str) (totalOf cnt)) ∧
      streams (.stores h o) 0x02 o.base.toInt
        [(!s.kindOk false, 0x53), (f == 0 || decide (14 < f), 0x50), (upper && lower, 0x51), (upper, 0x50),
         (if o.chain.getLsbD 1 then !(sources.contains f && [11, 12, 13].contains k) else f != k, 0x50),
         (decide (2 ^ 40 < totalOf cnt), 0x54), (plain, 0x54), (o.chain.getLsbD 2 && decide (2 ≤ x.par.stop.toNat), 0x54),
         (o.chain.getLsbD 1 && f == 10 && totalOf cnt % 32 != 0, 0x54), (o.chain.getLsbD 0 && !slotsOk f o.base.toInt cnt o.stride.toInt, 0x54)]
        (fun r => r.Fresh s h 0x02 .stores o.base.toInt f o.chain o.hint cnt str (totalOf cnt))) ∧
    (∀ o : IndexOps,
      let f := o.f.toNat
      let cnt := (o.len.toNat + 1) :: x.dims.map (·.1)
      let rest := x.dims.map (·.2)
      let str := 1 :: if 1 ∈ x.dset then rest else rest.set 0 (o.len.toNat + 1)
      let upper := o.chain.extractLsb' 3 3 != 0
      let lower := o.chain.extractLsb' 0 3 != 0
      let v := if k = 16 then 11 else 13
      let quantised := !(sources.contains f && [11, 12, 13].contains v)
      let pairs := o.chain.getLsbD 2 || o.chain.getLsbD 0
      starts (.gather h o) 0x04
        [(!s.kindOk true || (s.core.field.linkTo (headEndpoint s.ctx)).isNone, 0x53), (f == 0 || decide (13 < f), 0x50), (upper && lower, 0x51),
         (lower, 0x50), (if o.chain.getLsbD 4 then !((sources ++ [11, 12]).contains f && [11, 12, 13].contains k) else f != k, 0x50),
         (decide (2 ^ 40 < totalOf cnt), 0x54), (o.chain.getLsbD 5 && (!slotsOk f o.base.toInt cnt 1 || x.dset.contains 1), 0x54),
         (o.chain.getLsbD 3 && (o.count == 0 || !s.tileOk f (o.len.toNat + 1) o.count.toNat (cnt.drop 2)), 0x54)]
        (fun r => r.Fresh s h 0x04 .gather o.base.toInt f o.chain o.hint cnt str o.count.toNat) ∧
      starts (.scatter h o) 0x05
        [(!s.kindOk false, 0x53), (f == 0 || decide (13 < f), 0x50), (upper && lower, 0x51), (upper, 0x50),
         (if o.chain.getLsbD 1 then quantised else f != v, 0x50), (pairs, 0x50), (k != 16 && k != 17, 0x50), (o.len != 0, 0x50),
         (o.chain.getLsbD 1 && f == 10 && o.count.toNat % 32 != 0, 0x54)]
        (fun r => r.Fresh s h 0x05 .scatter o.base.toInt f o.chain o.hint [o.count.toNat] [1] o.count.toNat) ∧
      starts (.scadd h o) 0x06
        [(!s.kindOk false, 0x53), (decide (f < 11) || decide (13 < f), 0x50), (upper && lower, 0x51), (upper, 0x50),
         (o.chain.getLsbD 1 && quantised, 0x50), (pairs, 0x50), (k != 16 && k != 17, 0x50), (o.len != 0, 0x50)]
        (fun r => r.Fresh s h 0x06 .scadd o.base.toInt f o.chain o.hint [o.count.toNat] [1] o.count.toNat))

/-- R156, R159, R160, R161: DIMS writes parameter set 0 or one dimension set, which then counts as set whatever its values (the model's choice, log 35); PUSH, PUSHI and MARK start with the tokens that they place; ACCRST clears the sums, the indices and the count of its accumulator; ACCRD writes a lone sum at its address and leaves the sums and SHORT alone; RESUME lets a port that is stalled after a fault go on, which then reads a compressed block afresh, and leaves any other alone. Each checks its fields first. -/
def Obligations.PortCommandResults : Prop :=
  ∀ (s : State) (h : CmdHdr) (n : BitVec 4),
    let p := s.ctx
    let k := s.core.field.portFmt p
    let any := s.kindOk true || s.kindOk false
    let tag (op : BitVec 8) : Tag := ⟨s.core.qs.dlv.num, h.tl, h.notice, op, s.core.qs.dlv.sup⟩
    let starts (i : Instr) (op : BitVec 8) (codes : List (Bool × BitVec 8)) (P : PRun → Prop) : Prop :=
      s.passes h op → match firstCode codes with
        | some c => Turned i s h c
        | none => ∃ r, exec i s = .next (s.modPort p fun x => x.runs r) ∧ r.tag = tag op ∧ r.kind = .push ∧ P r
    (∀ (d : BitVec 3) (body : BitVec 109), s.passes h 0x03 →
      let b (lo w : Nat) : BitVec w := body.extractLsb' lo w
      match firstCode [(!any, 0x53), (decide (5 ≤ d.toNat), 0x50), (d == 0 && b 101 2 == 3, 0x50),
          (if d = 0 then b 0 10 != 0 else b 0 57 != 0, 0x50)] with
      | some c => Turned (.dims h d body) s h c
      | none => exec (.dims h d body) s = .next ((s.modPort p fun x =>
          if d = 0 then { x with par := ⟨b 105 4, b 103 2, b 101 2, b 99 2, b 42 57, b 10 32⟩ }
          else { x with dims := x.dims.set (d.toNat - 1) ((b 89 20).toNat + 1, (b 57 32).toInt), dset := insNat d.toNat x.dset }).finish p (tag 0x03))) ∧
    (∀ (rsv : BitVec 32) (m : BitVec 16) (v : Word), starts (.push h rsv m v) 0x07 [(!s.kindOk true, 0x53), (rsv != 0, 0x50)]
      fun r => r.cnt = [m.toNat + 1] ∧ r.acc = some v ∧ r.idx = 0 ∧ r.out = [] ∧ r.closed = false) ∧
    (∀ (start : BitVec 32) (inc : BitVec 16) (m : BitVec 24) (rsv : BitVec 40), starts (.pushi h start inc m rsv) 0x08
      [(!s.kindOk true, 0x53), (rsv != 0, 0x50), (!((1 ≤ k && k ≤ 7) || k == 15), 0x50)]
      fun r => r.cnt = [m.toNat + 1] ∧ r.base = start.toNat ∧ r.str = [inc.toInt] ∧ r.acc = none ∧ r.idx = 0 ∧ r.out = [] ∧ r.closed = false) ∧
    (∀ (rsv : BitVec 40) (kind : BitVec 8) (count : BitVec 32) (rsv2 : BitVec 29) (level : BitVec 3),
      starts (.mark h rsv kind count rsv2 level) 0x09
        [(!s.kindOk true, 0x53), (rsv != 0, 0x50), (decide (3 ≤ kind.toNat), 0x50), (kind != 0 && count != 0, 0x50), (rsv2 != 0, 0x50),
         (kind != 0 && level != 0, 0x50)]
        fun r => r.closed = true ∧ r.out = [if kind = 0 then ⟨1, count ++ rsv2 ++ level⟩ else if kind = 1 then eosToken else drainToken]) ∧
    (∀ (base : BitVec 57) (rsv : BitVec 51),
      (s.passes h 0x0A → match firstCode [(!s.kindOk false, 0x53), ((s.core.field.accNode n).isNone, 0x53), (base != 0, 0x50), (rsv != 0, 0x50)] with
        | some c => Turned (.accrst h base n rsv) s h c
        | none => ∃ i, s.core.field.accNode n = some i ∧ exec (.accrst h base n rsv) s = .next ((s.modField fun f => f.modNode i fun d =>
            { d with acc := d.acc.map fun (a : Acc) => { a with sums := List.replicate a.sums.length 0, i := 0, j := 0, got := 0 } }).finish p (tag 0x0A))) ∧
      (s.passes h 0x0B → match firstCode [(!s.kindOk false, 0x53), ((s.core.field.accNode n).isNone, 0x53), (rsv != 0, 0x50),
          (base.toNat % 4 != 0, 0x54)] with
        | some c => Turned (.accrd h base n rsv) s h c
        | none => ∀ i d a v e u x, s.core.field.accNode n = some i → s.core.field.nodes[i]? = some d → d.acc = some a → a.sums = [v] →
            s.extentOf base.toInt = (.ok e, u) → e.holds base.toInt = true → s.porter.checkLeaf e base.toInt .store (!s.core.qs.dlv.sup) = .ok x →
            canonical (base.toInt + 3) = true → x.ext.once = false → s.mergeErr x.pa 4 = false → Memory.wf s.mem = true →
            ∃ t, exec (.accrd h base n rsv) s = .next t ∧ t.core.field.nodes = s.core.field.nodes ∧ (t.port p).run = none ∧ (t.port p).short = (s.port p).short ∧
              (∀ j, j < 4 → memGet t.mem (x.pa + j) = v.extractLsb' (8 * j) 8) ∧
              ∀ b, b < x.pa ∨ x.pa + 4 ≤ b → s.uncached b → memGet t.mem b = memGet s.mem b)) ∧
    (∀ (rsv : BitVec 104) (c : BitVec 8), s.passes h 0x0C →
      match firstCode [(!any, 0x53), (rsv != 0, 0x50), (decide (64 ≤ c.toNat), 0x50)] with
      | some e => Turned (.resume h rsv c) s h e
      | none => ∃ t, exec (.resume h rsv c) s = .next t ∧ t.mem = s.mem ∧ t.core.field = s.core.field ∧
          ((s.port c.toNat).run ≠ none → (s.port c.toNat).st = .stalled →
            t.port c.toNat = { s.port c.toNat with st := .running, replay := !(s.port c.toNat).spill.isEmpty, run := (s.port c.toNat).run.map fun r =>
              (if r.chain.getLsbD 5 then { r with slot := [], place := none } else r) }) ∧
          ((s.port c.toNat).run = none ∨ ¬ ((s.port c.toNat).st = .stalled ∨ ((s.port c.toNat).st = .frozen ∧ (s.port c.toNat).before = .stalled)) → t.port c.toNat = s.port c.toNat))

/-! ## Links, ports and command ports -/

/-- R184, R185, R186, R191, R194: the oldest token under way arrives at the end of an unfiltered link's buffer; a credit comes home; a consumer pulls a zero-slot link's result. Other links and the nodes stay. -/
def Obligations.LinkResults : Prop :=
  ∀ (s : State) (i : Nat) (l : Link), s.core.field.links[i]? = some l →
    let ends (e : Instr) (P : Link → Prop) : Prop := ∃ t l', exec e s = .next t ∧ t.core.field.links[i]? = some l' ∧ P l' ∧
      (∀ j, j ≠ i → t.core.field.links[j]? = s.core.field.links[j]?) ∧ t.core.field.nodes = s.core.field.nodes ∧ t.cpu = s.cpu ∧ t.mem = s.mem
    (l.fly = [] → exec (.linkTokenDelivery i) s = .next s) ∧
    (∀ tok rest, l.fly = tok :: rest → l.filt = none → l.expands = false →
      ends (.linkTokenDelivery i) fun l' => l'.fly = rest ∧ l'.avail = l.avail ++ [tok] ∧
        (l.thresh = 0 → l' = { l with fly := rest, buf := l.buf ++ [(tok, 1)] })) ∧
    ends (.creditReturn i) (fun l' => l' = { l with credit := l.credit - 1 }) ∧
    (l.slots ≠ 0 ∨ l.buf ≠ [] ∨ l.result = [] → exec (.zeroSlotPull i) s = .next s) ∧
    (∀ tok rest, l.slots = 0 → l.buf = [] → l.result = tok :: rest → s.wants l = true → l.filt = none → l.expands = false →
      ends (.zeroSlotPull i) fun l' => l' = { l with result := rest, fly := [], buf := [(tok, 1)] })

/-- R141, R142, R144, R149, R151, R157, R159, R365: an in port sends the next token of a PUSH, a PUSHI, which the model extends by the sign or by zeros as the link's format is (log 35), or a LOADS without a chain step, whose element is the bytes at its address; while a command before it still sends, which the model lets stand beside it (log 36), the tokens of that one go first, and its last one completes it; an out port writes the next element of a STORES without one; an extent that the loader forms lets its port go on; a compressed slot that has become whole ends the rereads. -/
def Obligations.PortMotionResults : Prop :=
  ∀ (s : State) (r : PRun) (p : BitVec 5),
    let plain := r.chain = 0 ∧ r.f ≠ 10 ∧ r.f ≠ 14
    (∀ (i : Nat) (l : Link) (w : Word) (u : State),
      let x := s.port p.toNat
      let e := headEndpoint p.toNat
      let o := offsetOf r.cnt r.str r.idx
      (s.core.loader.inband.all fun b => b.port != p) = true → x.run = some r → x.prev = [] → x.st = .running → x.spill = [] → r.out = [] → r.closed = false →
      s.core.field.linkFrom e = some i → s.core.field.links[i]? = some l → 0 < s.core.field.freeFrom e →
      (r.kind = .push ∧ u = s ∧ w = r.acc.getD (let v : BitVec 32 := BitVec.ofInt 32 (r.base + r.idx * r.str.headD 0)
          if (intFmt r.k).2 then v.signExtend 64 else v.setWidth 64)) ∨
        (r.kind = .loads ∧ plain ∧ ∃ bs, s.portGet p.toNat r (r.addr o) r.size false = .ok bs u ∧ w = payloadOf r.f (ofBytes bs)) →
      ∃ t, exec (.headlandElementSend p) s = .next t ∧ t.core.field.links[i]? = some (l.place ⟨0, w⟩) ∧
        (∀ j, j ≠ i → t.core.field.links[j]? = s.core.field.links[j]?) ∧
        (∀ r', (t.port p.toNat).run = some r' → r'.idx = r.idx + 1 ∧ r'.closed = decide (totalOf r.cnt ≤ r.idx + 1))) ∧
    (∀ (l : Link) (w : Word) (u : State),
      let q := 32 + p.toNat
      let x := s.port q
      let e := headEndpoint q
      x.run = some r → x.st = .running → x.spill = [] → x.discard = false → r.kind = .stores → plain → r.full = false → r.due = none →
      s.core.field.portLink q = some l → (∀ b ∈ l.buf, 1 ≤ b.2) → l.head = some ⟨0, w⟩ →
      s.portPut q r (r.addr (offsetOf r.cnt r.str r.idx)) (toBytes r.size w.toNat) false = .ok () u →
      ∃ t, exec (.headlandTokenTake p) s = .next t ∧ t.mem = u.mem ∧ t.core.field.availTo e = (s.core.field.availTo e).tail ∧
        (t.port q).done = x.done + 1 ∧ ∀ r', (t.port q).run = some r' → r'.idx = r.idx + 1) ∧
    (∀ q : BitVec 6, ((s.port q.toNat).st ≠ .extent → exec (.extentReply q) s = .next s) ∧
      (∀ x u, (s.port q.toNat).st = .extent → s.extentOf (s.port q.toNat).want = (.ok x, u) →
        exec (.extentReply q) s = .next (u.modPort q.toNat fun c => { c with
          ext := some x, held := x :: c.held, st := .running }))) ∧
    (∀ (y : PRun) (fl : BitVec 5) (ys : List (PRun × BitVec 5)) (tok : Token) (ts : List Token) (i : Nat) (l : Link),
      let x := s.port p.toNat
      let e := headEndpoint p.toNat
      (s.core.loader.inband.all fun b => b.port != p) = true → x.run = some r →
      x.st = .extent ∨ (x.st = .running ∧ x.spill = [] ∧ (r.out ≠ [] ∨ r.closed = true)) → x.prev = (y, fl) :: ys → y.out = tok :: ts → tok.kind ≠ 3 →
      0 < s.core.field.freeFrom e → s.core.field.linkFrom e = some i → s.core.field.links[i]? = some l →
      ∃ t, exec (.headlandElementSend p) s = .next t ∧ t.core.field.links[i]? = some (l.place tok) ∧ (t.port p.toNat).run = some r ∧
        (ts ≠ [] → (t.port p.toNat).prev = ({ y with out := ts }, fl) :: ys ∧ t.cpu = s.cpu) ∧
        (ts = [] → (t.port p.toNat).prev = ys ∧ t.cpu.fps = s.cpu.fps ||| fl ∧
          (s.core.fq.holds p.toNat = false → ∀ m, y.tag.num = some m → t.core.qs.Done y.tag.tl m))) ∧
    ((s.port p.toNat).run = none ∨ ((s.port p.toNat).run = some r ∧ r.tries = 0) → exec (.expandReread p) s = .next s) ∧
    (∀ (o : Option (List Word)) (u : State),
      let x := s.port p.toNat
      let b := r.size * offsetOf r.cnt r.str r.idx / 4096
      x.run = some r → x.prev = [] → x.st = .running → x.spill = [] → r.out = [] → r.closed = false → r.kind = .loads → r.chain = 32 → r.f ≠ 10 → r.f ≠ 14 →
      r.tries ≠ 0 → r.place ≠ some b → s.readSlot p.toNat r (r.base + 4128 * b) false = .ok o u →
      ∃ t, exec (.expandReread p) s = .next t ∧
        (o = none → r.tries < 4 → (t.port p.toNat).run = some { r with tries := r.tries + 1 }) ∧
        (o ≠ none → ∀ r', (t.port p.toNat).run = some r' → r'.tries = 0 ∧ r'.place = some b ∧ r'.idx = r.idx + 1))

/-- R68, R145, R148: the first half of a pair waits in its port; the second completes a command with the next number of its selector, which then waits for its context; with no token nothing happens. The oldest notice leaves on ep6 when a link has room, waits when it has none, and is discarded where ep6 is not bound. -/
def Obligations.CommandPortResults : Prop :=
  ∀ (s : State) (loader : Bool),
    let port := if loader then 7 else 5
    let e := epEndpoint port
    let hi := (s.core.qs.hi.find? fun x => x.1 == port).map (·.2)
    (s.portHead e = none → exec (.cmdPairAccept loader) s = .next s) ∧
    (∀ i l w, s.core.field.linkTo e = some i → s.core.field.links[i]? = some l → (∀ b ∈ l.buf, 1 ≤ b.2) → l.head = some ⟨0, w⟩ →
      ∃ t, exec (.cmdPairAccept loader) s = .next t ∧ t.core.field.availTo e = (s.core.field.availTo e).tail ∧ t.mem = s.mem ∧
        (hi = none → t.core.qs = { s.core.qs with hi := (s.core.qs.hi.filter fun x => x.1 != port) ++ [(port, w)] }) ∧
        (∀ v c, hi = some v →
          let cmd : BitVec 128 := v ++ w
          let tl := cmd.extractLsb' 116 4
          let cls := (cmd.extractLsb' 124 4).toNat
          (∀ h op body, decodeStream cmd ≠ .unassignedStreamOpcode h op body) → cmd.extractLsb' 113 3 = 0 →
          (if loader then cls = 0 ∨ cls = 2 else cls = 1) → s.core.on.tlCtx tl = some c →
          t.core.qs = { s.core.qs with
            hi := s.core.qs.hi.filter fun x => x.1 != port
            issued := s.core.qs.issued.set tl.toNat (s.core.qs.issued[tl.toNat] + 1)
            drew := (s.core.qs.drew.filter fun x => x.1 != tl.toNat) ++ [(tl.toNat, s.cyc)]
            pairs := s.core.qs.pairs ++ [(BitVec.ofNat 8 c, ⟨cmd, some (s.core.qs.issued[tl.toNat] + 1), false, true⟩)] })) ∧
    (s.core.qs.notices = [] → exec .noticeSend s = .next s) ∧
    (∀ w rest, s.core.qs.notices = w :: rest →
      let gone := s.modQs fun q => { q with notices := rest }
      let e := epEndpoint 6
      (s.core.field.bound true 6 = false → exec .noticeSend s = .next gone) ∧
      (s.core.field.bound true 6 = true → ∀ i, s.core.field.linkFrom e = some i →
        (s.core.field.freeFrom e = 0 → exec .noticeSend s = .next s) ∧
        (0 < s.core.field.freeFrom e → exec .noticeSend s = .next (gone.modField fun f => f.modLink i fun l => l.place ⟨0, w⟩)))) ∧
    (∀ (ctx : BitVec 7) (n : Word), ctx.toNat < 0x40 ∨ ctx = 0x48 ∨ ctx = 0x49 ∨ 0x4B < ctx.toNat → exec (.commandComplete ctx n) s = .next s)

/-! ## Service and the quiescence detector -/

/-- R161, R207, R384, R385, R386: SVCRES leaves a target that is not stopped on a fault alone. It lets a port, which then reads a compressed block afresh, a copy context, the matrix node, the drill, the AP or a FROZEN region go on; or, with ABORT, it ends the command, whose number counts as completed, and a region becomes UNARMED, its firings end, and the tokens on their way into it go. That the thaw clears the region's code and an aborted region keeps its nodes is the model's choice (log 37); so is what counts as a port stopped on a fault while a pre-emption has frozen it (log 35). A region that only a pre-emption froze is left alone; a descriptor that could not be corrected ends only by an abort. R388, R389, R383: the detector of a region that has not quiesced does nothing. One that fires freezes the region, latches code 0x60 there by the model's choice (log 37), and writes the record: class 0xA, R = 0, cr.QSNAP, and the count of full links. With QSNAP set, the snapshot stands at that address while no record of the queue is written over it. -/
def Obligations.ServiceAndQuiescenceResults : Prop :=
  (∀ (s : State) (k : BitVec 8) (abort : Bool),
    let i : Instr := if abort then .svcresAbort k else .svcresContinue k
    let n := k.toNat
    let x := s.port n
    let ap := s.core.ap
    let d := s.core.drill
    let f := s.core.field
    let held := s.core.mat.frozen
    let faulted (r : Nat) : Prop := if held = true then (f.region r).before = .frozen else (f.region r).st = .frozen
    let done (t : State) (g : Tag) : Prop := s.core.fq.holds n = false → ∀ m, g.num = some m → t.core.qs.Done g.tl m
    ((0x4B ≤ n ∧ n < 0x80) ∨ 0x90 ≤ n ∨ (n < 0x40 ∧ (x.run = none ∨ (x.st ≠ .stalled ∧ (x.st ≠ .frozen ∨ x.before ≠ .stalled)))) ∨
      (0x40 ≤ n ∧ n < 0x48 ∧ ∀ r ∈ (s.copyCtx n).runs, r.flt = none) ∨ (n = 0x49 ∧ d.stopped = false) ∨ (n = 0x4A ∧ ap.stopped = false) ∨
      (0x80 ≤ n ∧ n < 0x90 ∧ ¬ faulted (n - 0x80)) → exec i s = .next s) ∧
    (∀ r, n < 0x40 → x.run = some r → x.st = .stalled ∨ (x.st = .frozen ∧ x.before = .stalled) →
      let y : Port := if x.st = .frozen then { x with before := .running } else { x with st := .running }
      ∃ t, exec i s = .next t ∧ t.mem = s.mem ∧ t.core.field = f ∧ t.port n =
        if abort then { y with
          spill := [], blk := [], replay := false, short := true, discard := if n < 32 then x.discard else true
          run := some (if n < 32 then { r with out := [eosToken], closed := true } else r) }
        else { y with replay := !x.spill.isEmpty, run := some (if r.chain.getLsbD 5 then { r with slot := [], place := none } else r) }) ∧
    (∀ r, 0x40 ≤ n → n < 0x48 → r ∈ (s.copyCtx n).runs → r.flt ≠ none → ((s.copyCtx n).runs.Pairwise fun a b => a.tag.num ≠ b.tag.num) →
      ∃ t, exec i s = .next t ∧ t.mem = s.mem ∧ (t.copyCtx n).frozen = (s.copyCtx n).frozen ∧
        if abort then (t.copyCtx n).runs = (s.copyCtx n).runs.filter (fun y => y.flt.isNone) ∧ done t r.tag
        else (t.copyCtx n).runs = (s.copyCtx n).runs.map fun (y : CRun) => if y.desc ≠ none ∧ y.flt = some false then y else { y with flt := none }) ∧
    (n = 0x48 → exec i s = .next (s.modMat fun m => { m with stopped := false, stopAp := false })) ∧
    (∀ r, n = 0x49 → d.stopped = true → d.reap = none → d.run = some r →
      if abort then ∃ t, exec i s = .next t ∧ t.core.drill = { d with stopped := false, run := none, asm := [], inq := [] } ∧
          t.cpu.fps = s.cpu.fps ||| d.flags ∧ done t r.tag
      else r.ops.count ≠ 0 → r.fired < r.ops.count.toNat → (d.inq = [] ∨ ∃ v rest, d.inq = .vec v :: rest) →
        exec i s = .next (s.modDrill fun d => { d with stopped := false })) ∧
    (∀ r, n = 0x4A → ap.stopped = true → ap.start = none → ap.run = some r →
      ∃ t, exec i s = .next t ∧ t.mem = s.mem ∧
        if abort then t.core.ap = { ap with stopped := false, run := none, flags := 0 } ∧ t.cpu.fps = s.cpu.fps ||| ap.flags ∧ done t r.tag
        else t.core.ap = { ap with stopped := false, run := some r.restart } ∧ t.cpu = s.cpu) ∧
    (∀ r, n = 0x80 + r → r < 16 → faulted r →
      ∃ t, exec i s = .next t ∧ t.mem = s.mem ∧
        t.core.field.nodes.length = f.nodes.length ∧ t.core.field.links.length = f.links.length ∧
        (t.core.field.region r).before = (if abort then .unarmed else .armed) ∧
        (t.core.field.region r).st = (if abort then .unarmed else if held then .frozen else .armed) ∧
        if abort then
          (∀ (j : Nat) (m : Link), t.core.field.links[j]? = some m → nodeRegion m.cons = some r →
            m.avail = [] ∧ m.fly = [] ∧ m.result = [] ∧ m.tile = [] ∧ m.credit = 0) ∧
          (∀ e ∈ t.core.field.nodes, e.region = r → e.fir = []) ∧
          ((∀ e ∈ f.nodes, e.region = r → e.fir = []) → t.cpu = s.cpu ∧ (∀ q, q ≠ r → t.core.field.region q = f.region q) ∧
            ∀ (j : Nat) (l : Link), f.links[j]? = some l → nodeRegion l.cons ≠ some r → t.core.field.links[j]? = some l)
        else t.cpu = s.cpu ∧ (∀ q, q ≠ r → t.core.field.region q = f.region q) ∧ (t.core.field.region r).fcode = 0 ∧ t.core.field.links = f.links ∧
          ∀ (j : Nat) (e : Node), f.nodes[j]? = some e → t.core.field.nodes[j]? = some { e with stopped := if e.region = r then false else e.stopped })) ∧
  (∀ (s : State) (r : BitVec 4),
    let f := s.core.field
    (s.quiesced r.toNat = false → exec (.quiescenceDetectorFire r) s = .next s) ∧
    (s.quiesced r.toNat = true → ∃ t rec, exec (.quiescenceDetectorFire r) s = .next t ∧ Reported s t rec ∧
      rec.code = 0x60 ∧ rec.cls = 0xA ∧ rec.ctx = r.setWidth 8 ∧ rec.r = false ∧ rec.addr = s.cpu.qsnap ∧ rec.cyc = BitVec.ofNat 64 s.cyc ∧
      rec.detail = BitVec.ofNat 64 (f.links.countP fun l => nodeRegion l.cons == some r.toNat && l.isFull) ∧
      (t.core.field.region r.toNat).st = .frozen ∧ (t.core.field.region r.toNat).fcode = 0x60 ∧ t.core.field.links = f.links ∧
      (∀ q, q ≠ r.toNat → t.core.field.region q = f.region q) ∧
      (s.cpu.qsnap ≠ 0 → s.memOk → s.core.fq.isFull = true → ∃ ws, ws = s.snapshot r.toNat ∧
        (∀ (j : Nat) (w : Word), ws[j]? = some w → memNat t.mem (s.cpu.qsnap.toNat + 8 * j) 8 = w.toNat) ∧
        (∀ a, a < s.cpu.qsnap.toNat ∨ s.cpu.qsnap.toNat + 8 * ws.length ≤ a → memGet t.mem a = memGet s.mem a)) ∧
      (s.cpu.qsnap = 0 → s.core.fq.isFull = true → t.mem = s.mem)))

/-! ## The copy engine, the hints and the loader -/

/-- R155, R162, R163, R372, R379, R384: COPY and COPY2 check their fields, read their descriptor, and start with the operands that it gives; one that breaks a rule is turned away and its number counts as completed; a fault of the read stops the context with all ones in word 4, and a range that breaks R379 with the address that fails: that such a range fault has no effect and stops the context is the model's choice (log 36). FILL checks its fields and its range, and starts. -/
def Obligations.CopyStartResults : Prop :=
  ∀ (s : State) (h : CmdHdr),
    let runs := (s.copyCtx s.ctx).runs
    let tag (op : BitVec 8) : Tag := ⟨s.core.qs.dlv.num, h.tl, h.notice, op, s.core.qs.dlv.sup⟩
    let stopped (i : Instr) (v : State) (c : BitVec 8) (a : Int) (rs : List CRun) : Prop := ∃ t rec, exec i s = .next t ∧ Reported v t rec ∧ rec.code = c ∧
      rec.addr = BitVec.ofInt 64 a ∧ rec.detail = 0 ∧ rec.r = false ∧ t.core.loft = s.core.loft ∧ (t.copyCtx s.ctx).runs = runs ++ rs
    (∀ (two : Bool) (desc : BitVec 57) (rsv : BitVec 55),
      let i : Instr := if two then .copy2 h desc rsv else .copy h desc rsv
      let op : BitVec 8 := if two then 0x11 else 0x10
      let size := if two then 64 else 32
      s.passes h op → (∀ y ∈ runs, y.tag.num ≠ s.core.qs.dlv.num) → match firstCode [(rsv != 0, 0x50), (desc.toNat % size != 0, 0x54)] with
        | some c => Turned i s h c
        | none => ∃ r0 : CRun, r0.tag = tag op ∧ r0.fill = none ∧ r0.desc = some desc.toNat ∧ r0.two = two ∧ r0.row = 0 ∧ r0.off = 0 ∧ r0.flt = none ∧
          let u := s.modCopy s.ctx fun x => { x with runs := x.runs ++ [r0] }
          let read := u.readVirt (ctxAgent s.ctx) (!s.core.qs.dlv.sup) desc.toInt size
          (∀ c va v, read = .fault c va v → ∃ t rec, exec i s = .next t ∧ Reported v t rec ∧ rec.code = c ∧ rec.addr = BitVec.ofInt 64 va ∧
            rec.detail = 0xFFFFFFFFFFFFFFFF ∧ rec.r = (c == 0x20 || c == 0x21) ∧ t.core.loft = s.core.loft ∧
            (t.copyCtx s.ctx).runs = runs ++ [{ r0 with flt := some (c == 0x20 || c == 0x21) }]) ∧
          (∀ bs v, read = .ok bs v →
            let w (k : Nat) : Nat := ofBytes ((bs.drop (8 * k)).take 8)
            let fl := w (if two then 5 else 3)
            let width := if two then w 2 % 2 ^ 32 else w 2
            let rows := if two then w 2 / 2 ^ 32 else 1
            let src := (BitVec.ofNat 64 (w 0)).toInt
            let dst := (BitVec.ofNat 64 (w 1)).toInt
            let sp := if two then (BitVec.ofNat 64 (w 3)).toInt else 0
            let dp := if two then (BitVec.ofNat 64 (w 4)).toInt else 0
            let loft := fl / 64 % 4 == 1
            let legal := fl < 2 ^ 8 ∧ fl / 64 ≤ 1 ∧ fl % 4 = 0 ∧ (two = true → w 6 = 0 ∧ w 7 = 0)
            let turned (c : BitVec 8) : Prop := ∃ t rec, exec i s = .next t ∧ Reported v t rec ∧ rec.code = c ∧ rec.seq = BitVec.ofNat 64 (s.core.qs.dlv.num.getD 0) ∧
              t.core.loft = s.core.loft ∧ (t.copyCtx s.ctx).runs = runs
            (¬ legal → turned 0x50) ∧
            (legal → width = 0 ∨ rows = 0 ∨ (two = false ∧ 2 ^ 40 < width) ∨ (loft = true ∧ loftOk dst dp width rows = false) → turned 0x54) ∧
            (legal → width ≠ 0 → rows ≠ 0 → (two = false → width ≤ 2 ^ 40) → (loft = true → loftOk dst dp width rows = true) →
              let q : CRun := { r0 with
                desc := none, src := src, dst := dst, loft := loft, width := width, rows := rows, sp := sp, dp := dp
                hs := BitVec.ofNat 2 (fl / 4), hd := BitVec.ofNat 2 (fl / 16) }
              let span := (rowsFault src sp width rows).orElse fun _ => if loft then none else rowsFault dst dp width rows
              (span = none → ∃ t, exec i s = .next t ∧ t.mem = v.mem ∧ (t.copyCtx s.ctx).runs = runs ++ [q]) ∧
              (∀ c a, span = some (c, a) → stopped i v c a [{ q with flt := some false }])))) ∧
    (∀ (dst : BitVec 57) (len : BitVec 40) (space : BitVec 2) (b : Byte) (rsv : BitVec 5), s.passes h 0x12 → (∀ y ∈ runs, y.tag.num ≠ s.core.qs.dlv.num) →
      let i : Instr := .fill h dst len space b rsv
      let d := dst.toInt
      match firstCode [(decide (2 ≤ space.toNat), 0x50), (rsv != 0, 0x50), (len == 0, 0x54),
          (space == 1 && !(d % 64 == 0 && len.toNat % 64 == 0 && decide (0 ≤ d) && decide (d + len.toNat ≤ 2 ^ 24)), 0x54)] with
      | some c => Turned i s h c
      | none => ∃ r : CRun, r.tag = tag 0x12 ∧ r.fill = some b ∧ r.desc = none ∧ r.dst = d ∧ r.loft = (space == 1) ∧ r.width = len.toNat ∧
          r.rows = 1 ∧ r.row = 0 ∧ r.off = 0 ∧ r.flt = none ∧ match if space = 1 then none else rowsFault d 0 len.toNat 1 with
        | some (c, a) => stopped i s c a [{ r with flt := some false }]
        | none => exec i s = .next (s.modCopy s.ctx fun x => { x with runs := x.runs ++ [r] }))

/-- R146, R162, R163, R362, R384: COMMAND_COMPLETE at a copy context moves what the command has left to move, and its number counts as completed: a FILL of the loft leaves its byte in every byte of the range and no other byte changes; a COPY of one piece to the loft leaves there what stands at its source. A command that is stopped on a fault does nothing; one that has moved nothing checks its range first, again on going on after service, and a fault of it leaves memory but for its record. That all pieces move in one event, and that the range is checked again, are the model's choices (log 36). -/
def Obligations.CopyMotionResults : Prop :=
  ∀ (s : State) (c : BitVec 7) (n : Word) (r : CRun), 0x40 ≤ c.toNat → c.toNat < 0x48 → (s.copyCtx c.toNat).frozen = false →
    (s.copyCtx c.toNat).find (some n.toNat) = some r → ((s.copyCtx c.toNat).runs.Pairwise fun a b => a.tag.num ≠ b.tag.num) →
    let past (t : State) : Prop :=
      (t.copyCtx c.toNat).runs = (s.copyCtx c.toNat).runs.eraseP (fun y => y.tag.num == some n.toNat) ∧
      (s.core.fq.holds c.toNat = false → t.core.qs.Done r.tag.tl n.toNat)
    (r.flt ≠ none → exec (.commandComplete c n) s = .next s) ∧
    (∀ code a, r.flt = none → r.desc = none → r.row = 0 → r.off = 0 → r.ranges = some (code, a) → ∃ t rec, exec (.commandComplete c n) s = .next t ∧
      Reported s t rec ∧ rec.code = code ∧ rec.addr = BitVec.ofInt 64 a ∧ RecordOnly s t ∧ t.core.loft = s.core.loft ∧
      (t.copyCtx c.toNat).find (some n.toNat) = some { r with flt := some (code == 0x20 || code == 0x21) }) ∧
    (∀ b, r.flt = none → r.desc = none → r.fill = some b → r.loft = true → r.rows = 1 → r.row = 0 → r.off = 0 → r.width ≠ 0 → 0 ≤ r.dst →
      Memory.wf s.core.loft.bytes = true → ∃ t, exec (.commandComplete c n) s = .next t ∧ past t ∧ t.mem = s.mem ∧ t.cpu = s.cpu ∧
        ∀ a, memGet t.core.loft.bytes a = if r.dst.toNat ≤ a ∧ a < r.dst.toNat + r.width then b else memGet s.core.loft.bytes a) ∧
    (∀ bs u, r.flt = none → r.desc = none → r.fill = none → r.loft = true → r.rows = 1 → r.row = 0 → r.off = 0 → r.width = 64 → 0 ≤ r.dst →
      rowsFault r.src r.sp 64 1 = none → Memory.wf s.core.loft.bytes = true → s.readVirtAt (ctxAgent c.toNat) (!r.tag.sup) r.src 64 r.hs = .ok bs u →
      ∃ t, exec (.commandComplete c n) s = .next t ∧ past t ∧ t.mem = u.mem ∧
        (∀ j, j < 64 → some (memGet t.core.loft.bytes (r.dst.toNat + j)) = bs[j]?) ∧
        ∀ a, a < r.dst.toNat ∨ r.dst.toNat + 64 ≤ a → memGet t.core.loft.bytes a = memGet s.core.loft.bytes a)

/-- R155, R164, R165, R166: PREFETCH, RESIDE and EVICT check their fields, act on their range and complete. Of one page that cannot be read they only count a drop, with its address when the count was 0. Of one line of PLAIN memory, this device's or another's, PREFETCH fills every sector; RESIDE also gives it class KEEP while the room has fewer KEEP lines than the limit, or pins it in the LLC; EVICT writes its dirty bytes home and drops it, or unpins it. That a drop counts once for each page that cannot be read, and once for each line past the pin limit, is the model's choice (log 36). -/
def Obligations.HintResults : Prop :=
  ∀ (s : State) (h : CmdHdr) (o : HintOps) (i : Instr) (op : BitVec 8),
    (i, op) ∈ [((Instr.prefetch h o, 0x13) : Instr × BitVec 8), (.reside h o, 0x14), (.evict h o, 0x15)] → s.passes h op →
    let va := o.addr.toInt
    let n := o.len.toNat
    let done (t : State) : Prop := s.core.fq.holds s.ctx = false → ∀ m, s.core.qs.dlv.num = some m → t.core.qs.Done h.tl m
    match firstCode [(decide (2 ≤ o.level.toNat), 0x52), (o.rsv != 0, 0x50), (o.len == 0, 0x54)] with
    | some c => Turned i s h c
    | none => va % 4096 + n ≤ 4096 →
      (s.hintXlate (!s.core.qs.dlv.sup) va = none →
        ∃ t, exec i s = .next t ∧ done t ∧ t.mem = s.mem ∧ t.pins = s.pins ∧ t.core.cellar = s.core.cellar ∧
          t.cpu = { s.cpu with ecccnt := t.cpu.ecccnt
                               hintdrop := if s.cpu.hintdrop = 0xFFFFFFFFFFFFFFFF then s.cpu.hintdrop else s.cpu.hintdrop + 1
                               hintlog := if s.cpu.hintdrop = 0 then BitVec.ofInt 64 va else s.cpu.hintlog }) ∧
      (∀ x, s.hintXlate (!s.core.qs.dlv.sup) va = some x → x.pa % 64 + n ≤ 64 →
        let line := x.pa / 64 * 64
        x.ext.once = false → s.ownerOf line = none →
        ∃ t, exec i s = .next t ∧ done t ∧
          (o.level = 0 → t.cpu = { s.cpu with ecccnt := t.cpu.ecccnt } ∧ t.pins = s.pins ∧
            (op ≠ 0x15 → ∃ l, t.core.cellar.line x.pa = some l ∧ l.valid = 15 ∧
              (op = 0x14 → 2 * s.core.cellar.cache.countP (fun l => l.cls == 2) + 2 ≤ (64 - s.core.cellar.w3) * 1024 → l.cls = 2)) ∧
            (op = 0x15 → t.core.cellar.line x.pa = none ∧ (s.core.cellar.cacheOk → s.memOk →
              ∀ l, s.core.cellar.line x.pa = some l → ∀ k, k < 64 → l.dirty.getLsbD k = true → memGet t.mem (line + k) = l.byte (line + k)))) ∧
          (∀ r, o.level = 1 → s.core.on.recIx = some r → t.core.cellar = s.core.cellar ∧
            (op = 0x13 → t.pins = s.pins) ∧
            (op = 0x14 → (r, line) ∉ s.pins →
              let wing (a : Nat) : Nat := (s.porter.stackOf a).val / 3
              let held := s.pins.countP fun e => e.1 == r && wing e.2 == wing line
              (held < 2 ^ 18 → t.pins = s.pins ++ [(r, line)] ∧ t.cpu = { s.cpu with ecccnt := t.cpu.ecccnt }) ∧
              (2 ^ 18 ≤ held → t.pins = s.pins ∧ t.cpu.hintdrop = if s.cpu.hintdrop = 0xFFFFFFFFFFFFFFFF then s.cpu.hintdrop else s.cpu.hintdrop + 1)) ∧
            (op = 0x15 → ∀ e, e ∈ t.pins ↔ e ∈ s.pins ∧ ¬ (e.1 = r ∧ e.2 = line))))

/-- R172, R173, R174, R175, R199, R409: CFGLD checks its fields and reads its image: a header that fails writes a record and loads nothing; else the selected regions wait for their loads. CFGLD in band notes its port and its count, and each word goes out as a CFG token. The loader loads the least region that may load: it is LOADING while the image is read; then it becomes ARMED with the nodes of its group, or EMPTY, or, on a fault, UNARMED with nothing left of it; and the load goes on with the others. That the header pass reads the whole header first, that a region loads in two events, and that a region whose load fails is emptied, are the model's choices (log 36). -/
def Obligations.LoaderResults : Prop :=
  ∀ (s : State) (h : CmdHdr) (addr : BitVec 57),
    let a := addr.toInt
    let user := !s.core.qs.dlv.sup
    let tag : Tag := ⟨s.core.qs.dlv.num, h.tl, h.notice, 0x20, s.core.qs.dlv.sup⟩
    (∀ (sel : BitVec 16) (rsv : BitVec 38), s.passes h 0x20 → match firstCode [(rsv != 0, 0x50), (addr.toNat % 8 != 0, 0x54)] with
      | some c => Turned (.cfgld h addr sel rsv) s h c
      | none =>
        (∀ c va u, s.headerPass user a = (.error (c, va), u) → ∃ t rec, exec (.cfgld h addr sel rsv) s = .next t ∧ Reported u t rec ∧
          rec.code = c ∧ rec.ctx = 0x4B ∧ rec.addr = BitVec.ofInt 64 va ∧ rec.r = false ∧ t.core.field = u.core.field ∧ t.core.loader = u.core.loader) ∧
        (∀ n rs u, s.headerPass user a = (.ok (n, rs), u) →
          let left := selectedRegions rs sel.toNat
          ∃ t, exec (.cfgld h addr sel rsv) s = .next t ∧ t.core.field = u.core.field ∧ t.mem = u.mem ∧
            t.core.loader.run = if left = [] then none else some ⟨tag, a, n, [], [], left, left, none⟩)) ∧
    (∀ (port : BitVec 5) (rsv : BitVec 11) (words : BitVec 16) (rsv2 : BitVec 22), s.passes h 0x20 →
      match firstCode [(!s.core.field.bound false port.toNat, 0x53), (rsv != 0, 0x50), (rsv2 != 0, 0x50), (addr.toNat % 8 != 0, 0x54)] with
      | some c => Turned (.cfgldInband h addr port rsv words rsv2) s h c
      | none => exec (.cfgldInband h addr port rsv words rsv2) s =
          .next (s.modLoader fun l => { l with inband := some ⟨tag, a, port, words.toNat + 1⟩ })) ∧
    (∀ (b : Inband) (n w : Word) (u : State) (k : Nat) (l : Link), s.core.loader.inband = some b → s.core.mat.frozen = false → (s.port b.port.toNat).run = none →
      let e := headEndpoint b.port.toNat
      s.core.field.linkFrom e = some k → s.core.field.links[k]? = some l → 0 < s.core.field.freeFrom e → canonical b.addr = true →
      s.imageWord b.tag.user b.addr = (.ok w, u) →
      ∃ t, exec (.commandComplete 0x4B n) s = .next t ∧ exec (.headlandElementSend b.port) s = .next t ∧
        t.core.field.links[k]? = some (l.place ⟨2, w⟩) ∧ t.core.loader.run = s.core.loader.run ∧
        t.core.loader.inband = if b.left ≤ 1 then none else some { b with addr := b.addr + 8, left := b.left - 1 }) ∧
    (∀ r : BitVec 4,
      let f := s.core.field
      (s.core.loader.run = none → exec (.regionLoad r) s = .next s) ∧
      (∀ run, s.core.loader.run = some run →
        let next := run.now = none ∧ r.toNat ∈ run.left ∧ f.mayLoad r.toNat = true ∧ ∀ x ∈ run.left, x < r.toNat → f.mayLoad x = false
        let left (l : List Nat) : Option LRun := if l = [] then none else some { run with left := l, now := none }
        (s.core.mat.frozen = true ∨ (run.now ≠ some r.toNat ∧ ¬ next) → exec (.regionLoad r) s = .next s) ∧
        (s.core.mat.frozen = false → next → ∀ ws bad u, s.imageWords run.tag.user run.image run.len = ((ws, bad), u) →
          ∃ t, exec (.regionLoad r) s = .next t ∧ t.mem = u.mem ∧ t.core.field.nodes = u.core.field.nodes ∧ t.core.field.links = u.core.field.links ∧
            (t.core.field.region r.toNat).st = .loading ∧ (t.core.field.region r.toNat).before = (u.core.field.region r.toNat).st ∧
            t.core.loader.run = some { run with words := ws, bad := bad, now := some r.toNat }) ∧
        (s.core.mat.frozen = false → run.now = some r.toNat → r.toNat ∈ run.sel →
          ((s.core.loadRegion run.groups run.sel r.toNat s.cyc).isOk = true → ∃ t, exec (.regionLoad r) s = .next t ∧ t.mem = s.mem ∧
            (∃ g ∈ run.groups, g.region = r.toNat ∧ (t.core.field.region r.toNat).st = (if g.count = 0 then .empty else .armed) ∧
              (t.core.field.nodes.countP fun d => d.region == r.toNat) = g.nodes.length) ∧
            t.core.loader.run = left (run.left.filter fun x => x != r.toNat)) ∧
          (∀ e, s.core.loadRegion run.groups run.sel r.toNat s.cyc = .error e → ∃ t rec, exec (.regionLoad r) s = .next t ∧ Reported s t rec ∧
            rec.code = e.code ∧ rec.ctx = 0x4B ∧ rec.detail = BitVec.ofNat 64 e.edge ∧ (t.core.field.region r.toNat).st = .unarmed ∧
            (∀ d ∈ t.core.field.nodes, d.region ≠ r.toNat) ∧ (∀ l ∈ t.core.field.links, l.group ≠ r.toNat) ∧
            t.core.loader.run = left (run.left.filter fun x => x != r.toNat && !(e.also.contains x && run.sel.contains x))))))

/-! ## The drill -/

/-- R76, R304, R305, R309, R310, R316, R409: SOW checks its image in full: a refused one leaves its record and the loaded graph, an accepted one replaces it with the nodes, lanes and scales that it gives, a count of 0 and no flags. REAP writes the record unless its address is 0, and empties the drill. DRILLRUN checks what it finds, and starts. That a REAP whose write faults stops the drill with its start kept, and that DRILLRUN asks for 0x53, 0x50, 0x46 and 0x54 in this order, are the model's choices (log 39). -/
def Obligations.SeedCommandResults : Prop :=
  ∀ (s : State) (h : CmdHdr),
    let d := s.core.drill
    let user := !s.core.qs.dlv.sup
    let tag (op : BitVec 8) : Tag := ⟨s.core.qs.dlv.num, h.tl, h.notice, op, s.core.qs.dlv.sup⟩
    let done (u t : State) : Prop := u.core.fq.holds 0x49 = false → ∀ m, s.core.qs.dlv.num = some m → t.core.qs.Done h.tl m
    (∀ (addr : BitVec 57) (rsv : BitVec 55), s.passes h 0x30 →
      let i : Instr := .sow h addr rsv
      let a := addr.toInt
      let refused (c : BitVec 8) (u : State) : Prop := ∃ t rec, exec i s = .next t ∧ Reported u t rec ∧ rec.code = c ∧ rec.ctx = 0x49 ∧
        t.core.drill = { d with code := c }
      match firstCode [(rsv != 0, 0x50), (addr.toNat % 8 != 0, 0x54)] with
      | some c => Turned i s h c
      | none =>
        (∀ c u, s.imageWord user a = (.error c, u) → refused c u) ∧
        (∀ w u, s.imageWord user a = (.ok w, u) →
          (∀ c, seedHdrErr w = some c → refused c u) ∧
          (∀ body v, seedHdrErr w = none → u.imageWords user (a + 8) (seedWords w - 1) = ((body, []), v) →
            let ws := body.take (seedNodes w)
            let bad := (ws.zipIdx.findSome? fun x => seedNodeErr ws (seedTab w) x.2 x.1).orElse fun _ => seedGraphErr ws (seedV w) (seedW w)
            (∀ c, bad = some c → refused c v) ∧
            (bad = none → v.sowPlace w body = none → refused 0x47 v) ∧
            (bad = none → (v.sowPlace w body).isSome = true → ∃ t g, exec i s = .next t ∧ done v t ∧ t.mem = v.mem ∧
              t.core.drill = { d with graph := some g, total := 0, flags := 0 } ∧ g.nodes = ws ∧ g.v = seedV w ∧ g.w = seedW w ∧ g.depth = seedDepth ws ∧
              g.scales.length = min (seedTab w) (2 * (body.length - seedNodes w)))))) ∧
    (∀ (addr : BitVec 57) (rsv : BitVec 55), s.passes h 0x31 →
      let i : Instr := .reap h addr rsv
      let record : List Byte := match d.graph with
        | none => List.replicate 32 0
        | some g => toBytes 8 d.total ++ toBytes 8 (g.nodes.length + 2 ^ 16 * g.depth) ++ toBytes 8 d.flags.toNat ++ toBytes 8 0
      let emptied (u : State) : Prop := ∃ t, exec i s = .next t ∧ done u t ∧ t.mem = u.mem ∧
        t.core.drill = { d with graph := none, total := 0, flags := 0, reap := none } ∧ ∀ a ∈ t.core.cellar.areas, a.owner ≠ drillOwner
      match firstCode [(rsv != 0, 0x50), (addr.toNat % 32 != 0, 0x54)] with
      | some c => Turned i s h c
      | none =>
        (addr = 0 → emptied s) ∧
        (∀ u, addr ≠ 0 → s.writeVirt user addr.toInt record = .ok () u → emptied u) ∧
        (∀ c va u, addr ≠ 0 → s.writeVirt user addr.toInt record = .fault c va u → ∃ t rec, exec i s = .next t ∧ Reported u t rec ∧
          rec.code = c ∧ rec.r = true ∧ rec.addr = BitVec.ofInt 64 va ∧
          t.core.drill = { d with reap := some (tag 0x31, addr.toInt), stopped := true, code := c })) ∧
    (∀ o : DrillOps, s.passes h 0x32 →
      let i : Instr := .drillrun h o
      let ep3 := s.core.field.epLinkIn 3
      let ep4 := s.core.field.epLinkOut 4
      match firstCode [(d.graph.isNone || (!o.src && ep3.isNone) || (!o.dst && ep4.isNone), 0x53),
          (!o.src && (o.inFmt || o.inOff != 0 || o.inPitch != 0), 0x50), (!o.dst && (o.outOff != 0 || o.outPitch != 0), 0x50), (o.rsv != 0, 0x50),
          (!o.dst && ep4.map (fun l => l.fmt) != some (if o.outFmt then 5 else 13), 0x50),
          ((if o.src then o.inFmt else ep3.map (fun l => l.fmt) == some 3) &&
            (d.graph.any fun g => g.nodes.any fun w => seedKind w == 0 && seedWidth w == 8), 0x46),
          (o.src && o.count == 0, 0x54), (d.graph.any fun g => s.core.drillRange o g, 0x54)] with
      | some c => Turned i s h c
      | none => exec i s = .next (s.modDrill fun d => { d with run := some ⟨tag 0x32, o, 0, false⟩, asm := [], inq := [], lastRun := 0 }))

/-- R306, R311, R312, R313: a run takes a token of ep3 only while the buffer has room for a vector. DATA goes into the vector in hand, and a level-0 STOP after V of them makes it whole; after another count the run faults with 0x61. A whole vector fires when the queue has room: each OUTPUT leaves its scaled or saturated value in its lane, the STOP follows, and the count and the flags move on. The queue sends its tokens in order, and the last one of a run completes it. That no token of any kind is taken while four whole vectors wait, and that a STOP after another count of DATA is what faults, at its own place, are the model's choices (log 23). -/
def Obligations.DrillRunResults : Prop :=
  ∀ (s : State) (r : DRun) (g : Graph),
    let d := s.core.drill
    let f := s.core.field
    let e := epEndpoint 3
    let e' := epEndpoint 4
    let more := r.ops.count = 0 ∨ r.fired + d.vecs < r.ops.count.toNat
    (d.run = none ∨ d.stopped = true → exec .drillTokenTake s = .next s) ∧
    (∀ (i : Nat) (l : Link) (tok : Token), d.run = some r → d.graph = some g → d.stopped = false → d.frozen = false → r.ops.src = false → r.ended = false →
      more → f.linkTo e = some i → f.links[i]? = some l → (∀ b ∈ l.buf, 1 ≤ b.2) → l.head = some tok →
      let took (d' : Drill) : Prop := ∃ t, exec .drillTokenTake s = .next t ∧ t.core.field.availTo e = (f.availTo e).tail ∧ t.core.drill = d' ∧ t.mem = s.mem
      (4 ≤ d.vecs → exec .drillTokenTake s = .next s) ∧
      (tok.kind = 0 → d.vecs < 4 → took { d with asm := d.asm ++ [intOf l.fmt tok.payload.toNat] }) ∧
      (tok.kind = 1 → d.vecs < 4 → stopLevel tok.payload = 0 → d.asm.length = g.v → took { d with asm := [], inq := d.inq ++ [.vec d.asm] }) ∧
      (tok.kind = 1 → d.vecs < 4 → stopLevel tok.payload = 0 → d.asm.length ≠ g.v → ∃ t rec, exec .drillTokenTake s = .next t ∧ Reported s t rec ∧
        rec.code = 0x61 ∧ rec.ctx = 0x49 ∧ rec.r = true ∧ rec.detail = BitVec.ofNat 64 (r.fired + d.vecs) ∧ t.core.drill.stopped = true ∧ t.core.drill.graph = d.graph)) ∧
    (∀ x, d.run = some r → d.graph = some g → d.stopped = false → d.frozen = false → r.ops.src = false → r.ops.dst = false →
      r.ops.count = 0 ∨ r.fired < r.ops.count.toNat → d.inq = [.vec x] →
      (4096 < d.outq.length + g.w + 1 → ∃ t, exec .drillVectorFire s = .next t ∧ t.core.drill = d) ∧
      (d.outq.length + g.w + 1 ≤ 4096 → ∃ t, exec .drillVectorFire s = .next t ∧ t.core.drill = { d with
        run := some { r with fired := r.fired + 1 }, total := d.total + 1, lastRun := r.fired + 1, inq := []
        flags := d.flags ||| (g.outputs s.fenv r.ops.outFmt x).2
        outq := d.outq ++ ((g.outputs s.fenv r.ops.outFmt x).1.map fun y => ⟨0, if r.ops.outFmt then y.signExtend 64 else y.setWidth 64⟩) ++
          [⟨1, stopPayload 0 g.w⟩] })) ∧
    (∀ (x : List Int) (k : Nat) (w : Word) (int : Bool) (v : FEnv), g.nodes[k]? = some w →
      (seedKind w ≠ 0 → seedA w < k) → (seedKind w = 1 ∨ seedKind w = 2 → seedB w < k) →
      let val (j : Nat) : Int := (seedVals g.nodes x).getD j 0
      (seedKind w = 0 → val k = x.getD (seedInLane w) 0) ∧
      (seedKind w = 1 → val k = val (seedA w) + val (seedB w) * 2 ^ seedShift w) ∧
      (seedKind w = 2 → val k = val (seedA w) - val (seedB w) * 2 ^ seedShift w) ∧
      (seedKind w = 3 → val k = val (seedA w) ∧
        (seedOutLane w < g.w → (∀ (j : Nat) (w' : Word), g.nodes[j]? = some w' → seedKind w' = 3 → seedOutLane w' = seedOutLane w → j = k) →
          (g.outputs v int x).1[seedOutLane w]? = some (seedOut v int (g.scales.getD (seedEntry w) 0) (val (seedA w))).1 ∧
          (int = true → (g.outputs v int x).1[seedOutLane w]? = some (BitVec.ofInt 32 (max (-2 ^ 31) (min (2 ^ 31 - 1) (val (seedA w))))))))) ∧
    (d.outq = [] ∨ d.frozen = true ∨ f.freeFrom e' = 0 → exec .drillOutputSend s = .next s) ∧
    (∀ (tok : Token) (rest : List Token) (i : Nat) (l : Link), d.outq = tok :: rest → tok.kind ≠ 3 → d.frozen = false → 0 < f.freeFrom e' →
      f.linkFrom e' = some i → f.links[i]? = some l → d.inq = [] → d.run = some r →
      let ends := (if r.ops.count = 0 then r.ended = true else r.fired = r.ops.count.toNat) ∧ rest = [] ∧ d.stopped = false
      ∃ t, exec .drillOutputSend s = .next t ∧ t.core.field.links[i]? = some (l.place tok) ∧ t.mem = s.mem ∧ t.core.drill.outq = rest ∧
        (ends → t.core.drill.run = none ∧ t.cpu.fps = s.cpu.fps ||| d.flags ∧
          (s.core.fq.holds 0x49 = false → ∀ m, r.tag.num = some m → t.core.qs.Done r.tag.tl m)) ∧
        (¬ ends → t.core.drill.run = some r ∧ t.cpu.fps = s.cpu.fps))

/-! ## The attention pipeline -/

/-- R267, R268, R270, R271, R273, R274, R281, R282: BIND puts back a default, or binds the stage image that it reads and checks; a refused one leaves the binding. ATTN reads its descriptor; a fault there, or in SRC 1's walk, stops the AP with its start kept; a bad descriptor or link turns it away; else it starts with what it captures: the bindings, the scale, the blocks to form and the identity state of every row. That an unbound ep2 earns 0x53, that a fault of the descriptor's read stops the AP with its start kept, and that cr.KVFLT then holds position 0, are the model's choices (log 40). -/
def Obligations.AttentionStartResults : Prop :=
  ∀ (s : State) (h : CmdHdr),
    let ap := s.core.ap
    let user := !s.core.qs.dlv.sup
    let tag (op : BitVec 8) : Tag := ⟨s.core.qs.dlv.num, h.tl, h.notice, op, s.core.qs.dlv.sup⟩
    let done (u t : State) : Prop := u.core.fq.holds 0x4A = false → ∀ m, s.core.qs.dlv.num = some m → t.core.qs.Done h.tl m
    let refused (i : Instr) (c : BitVec 8) (u : State) (a' : Ap) : Prop := ∃ t rec, exec i s = .next t ∧ Reported u t rec ∧ rec.code = c ∧ rec.ctx = 0x4A ∧
      rec.seq = BitVec.ofNat 64 (s.core.qs.dlv.num.getD 0) ∧ t.core.ap = { a' with code := c }
    (∀ (image : BitVec 57) (stage : BitVec 2) (dflt : Bool) (rsv : BitVec 52), s.passes h 0x40 →
      let i : Instr := .bind h image stage dflt rsv
      let a := image.toInt
      match firstCode [(dflt && image != 0, 0x50), (stage == 3, 0x50), (rsv != 0, 0x50), (image.toNat % 8 != 0, 0x54)] with
      | some c => Turned i s h c
      | none =>
        let bound (u : State) (p : Option Stage) : Prop := ∃ t, exec i s = .next t ∧ done u t ∧ t.mem = u.mem ∧
          t.core.ap = { ap with bind := t.core.ap.bind } ∧ ∀ k : Fin 3, t.core.ap.bind[k] = if k.val = stage.toNat then p else ap.bind[k]
        (dflt = true → bound s none) ∧
        (∀ w hdr u ins v, dflt = false → s.imageWords user a 2 = (([w, hdr], []), u) →
          u.imageWords user (a + 16) (Block.count ⟨hdr, []⟩) = ((ins, []), v) →
          let p : Stage := ⟨w.extractLsb' 16 16, blockOfWords (hdr :: ins)⟩
          (stageWordOk w stage.toNat = false → refused i 0x43 v ap) ∧
          (∀ c, stageWordOk w stage.toNat = true → p.blk.check (some (stage.toNat, p.declared)) = some c → refused i c v ap) ∧
          (stageWordOk w stage.toNat = true → p.blk.check (some (stage.toNat, p.declared)) = none → bound v (some p)))) ∧
    (∀ (desc : BitVec 57) (rsv : BitVec 55), s.passes h 0x41 →
      let i : Instr := .attn h desc rsv
      match firstCode [(rsv != 0, 0x50), (desc.toNat % 64 != 0, 0x54)] with
      | some c => Turned i s h c
      | none =>
        (∀ c va u, s.apList (tag 0x41) desc.toInt 8 16 = .fault c va u → ∃ t rec, exec i s = .next t ∧ Reported u t rec ∧ rec.code = c ∧ rec.r = true ∧
          rec.addr = BitVec.ofInt 64 va ∧ t.core.ap.stopped = true ∧ t.core.ap.start = some (tag 0x41, desc.toInt) ∧ t.core.ap.run = ap.run) ∧
        (∀ ws u, s.apList (tag 0x41) desc.toInt 8 16 = .ok ws u →
          let d : Desc := ⟨Vector.ofFn fun k => BitVec.ofNat 64 (ws.getD k.val 0)⟩
          let bad := d.bad ((ws.drop 12).map (BitVec.ofNat 64))
          (bad = true → refused i 0x50 u { ap with start := none }) ∧
          (∀ c, bad = false → u.core.apLinks d = some c → refused i c u { ap with start := none }) ∧
          (bad = false → u.core.apLinks d = none →
            (d.src ≠ 1 → u.attnSeq (tag 0x41) d = .ok (.ok []) u) ∧
            (∀ c va v, u.attnSeq (tag 0x41) d = .fault c va v → ∃ t rec, exec i s = .next t ∧ Reported v t rec ∧ rec.code = c ∧ rec.r = true ∧
              rec.addr = BitVec.ofInt 64 va ∧ t.core.ap.stopped = true ∧ t.core.ap.start = some (tag 0x41, desc.toInt) ∧ t.core.ap.run = ap.run ∧
              t.core.ap.kvflt = BitVec.ofNat 64 (c.toNat * 2 ^ 8 + 0x41)) ∧
            (∀ c v, u.attnSeq (tag 0x41) d = .ok (.error c) v → refused i c v { ap with start := none }) ∧
            ∀ path v, u.attnSeq (tag 0x41) d = .ok (.ok path) v → ∃ t r, exec i s = .next t ∧ t.mem = v.mem ∧
            t.core.ap = { ap with start := none, run := some r, rows := 0, blocks := 0 } ∧ r.tag = tag 0x41 ∧ r.desc = d ∧ r.stages = ap.bind ∧ r.path = path ∧
            r.sa = s.core.mat.sc.toList.getD d.sa 0 ∧ r.todo = List.range d.blocks ∧ r.blks = [] ∧ r.begun = [] ∧ r.offer = none ∧ r.fresh = [] ∧ r.merged = [] ∧ r.merges = 0 ∧
            r.rows = 0 ∧ r.q = [] ∧ r.out = [] ∧
            r.states = if d.src = 2 then [] else (List.range d.rows).map fun i => (d.blocks, i, ⟨0xFF800000, 0, List.replicate d.dim 0⟩))))

/-- R20, R260, R264, R265, R270, R271, R277, R278, R281, R282, R286: one stage step of a running ATTN. It takes a token of Q; reads the keys of a block, or stops at a read that faults, with the row; gives the array a block's next token when the array's turn is the AP's (R20): QK, with the scores, the masks and the weights behind it, or PV, with the last of which the block's state stands; reads both states of SRC 2; omits a block that a MASK without score and bias masks for every row, before its QK; merges two states of one row by the blend; emits the next row; or sends an output token. Without a run, or while the AP is stopped or frozen, nothing happens. That FETCH of a block, a token of a block at the array, a merge of one row and a row of the output are each one step, and that a block's next token waits at the array's port with no token of another block, are the model's choices (log 24), and so are the place of a misplaced Q token and what a fault names (log 40). -/
def Obligations.AttentionStepResults : Prop :=
  ∀ (s : State) (a : ApAct),
    let ap := s.core.ap
    let f := s.core.field
    let e := epEndpoint 2
    let v := s.fenv
    (ap.run = none ∨ ap.stopped = true ∨ ap.frozen = true → exec (.apBlockStage a) s = .next s) ∧
    (∀ r, ap.run = some r → ap.stopped = false → ap.frozen = false →
      let d := r.desc
      let goes (a : ApAct) (u : State) (r' : ARun) : Prop := ∃ t, exec (.apBlockStage a) s = .next t ∧ t.mem = u.mem ∧ t.core.ap.run = some r' ∧ t.core.ap.stopped = false
      let stops (a : ApAct) (u : State) (code : BitVec 8) (va : Int) (b i : Nat) : Prop := ∃ t rec, exec (.apBlockStage a) s = .next t ∧ Reported u t rec ∧
        rec.code = code ∧ rec.r = true ∧ rec.addr = BitVec.ofInt 64 va ∧ rec.detail = BitVec.ofNat 64 (b % 2 ^ 32 * 2 ^ 32 + i % 2 ^ 32) ∧ t.core.ap.stopped = true
      -- states of a block's rows come to stand, but for the rows that have merged the block
      let plus (r : ARun) (b : Nat) (st : List RowSt) : ARun :=
        let new := (st.zipIdx.filter fun x => !r.merged.contains (b, x.2)).map fun x => (b, x.2, x.1)
        { r with fresh := r.fresh ++ new.map (fun x => (x.1, x.2.1)), states := r.states ++ new }
      (∀ (i : Nat) (l : Link) (tok : Token), d.qport = true → r.qend = false → f.linkTo e = some i → f.links[i]? = some l → (∀ b ∈ l.buf, 1 ≤ b.2) → l.head = some tok →
        (tok.kind = 0 → r.q.length ≠ d.rows → r.qin.length ≠ d.dim → goes .takeQ s { r with qin := r.qin ++ [tok.payload.extractLsb' 0 16] }) ∧
        (tok.kind = 1 → stopLevel tok.payload = 0 → r.q.length ≠ d.rows → r.qin.length = d.dim → goes .takeQ s { r with q := r.q ++ [r.qin], qin := [] }) ∧
        (tok.kind = 0 → r.q.length = d.rows ∨ r.qin.length = d.dim → stops .takeQ s 0x61 0 0 r.q.length)) ∧
      (∀ b, b ∈ r.todo → d.fixo = false → d.src ≠ 2 → (r.blks.find? fun y => y.b == b) = none →
        (∀ u, s.attnQ r = (.error none, u) → exec (.apBlockStage (.block b)) s = .next u) ∧
        (∀ c va i u, s.attnQ r = (.error (some (c, va, i)), u) → stops (.block b) u c va b i) ∧
        (∀ r' u c va j w, s.attnQ r = (.ok r', u) → (gatherAt u (d.keysOf b) fun j x => x.fetchKey r' j) = (.error (some (c, va, j)), w) →
          stops (.block b) w c va b 0) ∧
        (∀ r' u ks w, s.attnQ r = (.ok r', u) → (gatherAt u (d.keysOf b) fun j x => x.fetchKey r' j) = (.ok ks, w) →
          exec (.apBlockStage (.block b)) s = .next (w.setRun { r' with blks := r'.blks ++ [⟨b, ks, none, none⟩] }))) ∧
      (∀ b x, b ∈ r.todo → d.fixo = false → d.src ≠ 2 → (r.blks.find? fun y => y.b == b) = some x →
        let m := s.core.mat
        let turn := m.portOpen true = true ∧ (m.lastAp = false ∨ s.core.takeable false = false)
        let r0 : ARun := { r with offer := none }
        let token (P : ARun → Prop) : Prop := ∃ t r', exec (.apBlockStage (.block b)) s = .next t ∧ t.mem = s.matPass.mem ∧ t.core.mat.lastAp = true ∧
          t.core.ap.run = some r' ∧ P r'
        let under (y : BRun) : ARun := { r0 with blks := r.blks.map fun z => if z.b = b then y else z }
        let formed (es : List (BitVec 32 × BitVec 32 × List (BitVec 16))) (r' : ARun) : Prop := ∃ st, st.length = es.length ∧
          (∀ (i : Nat) (e : BitVec 32 × BitVec 32 × List (BitVec 16)) (q : RowSt), es[i]? = some e → st[i]? = some q → q.m = e.1 ∧ q.l = e.2.1) ∧
          r' = plus { r0 with todo := r.todo.filter (fun y => y != b), blks := r.blks.filter (fun y => y.b != b) } b st
        (∀ o, r.offer = some o → o ≠ b → exec (.apBlockStage (.block b)) s = .next s) ∧
        (r.offer = none ∨ r.offer = some b →
          (¬ turn → exec (.apBlockStage (.block b)) s = .next (s.setRun { r with offer := some b })) ∧
          (turn → x.exps = none → token fun r' => ∃ es, es.length = d.rows ∧ r' = { under { x with exps := some es } with begun := insNat b r.begun }) ∧
          (∀ es, turn → x.exps = some es → x.part = none → 128 < d.dim → token fun r' => ∃ a, r' = under { x with part := some a }) ∧
          (∀ es, turn → x.exps = some es → (x.part = none → d.dim ≤ 128) → token (formed es)))) ∧
      (0 ∈ r.todo → d.fixo = false → d.src = 2 →
        (∀ c va i u, s.mergeStates r = (.error (some (c, va, i)), u) → stops (.block 0) u c va 0 i) ∧
        (∀ xs u, s.mergeStates r = (.ok xs, u) → exec (.apBlockStage (.block 0)) s =
          .next (u.setRun (plus (plus { r with todo := [] } 0 (xs.map (·.1))) 1 (xs.map (·.2)))))) ∧
      (∀ b, b ∈ r.begun ∨ r.offer = some b → exec (.apBlockStage (.cull b)) s = .next s) ∧
      (∀ b p, b ∈ r.todo → b ∉ r.begun → r.offer ≠ some b → d.fixo = false → d.src ≠ 2 → r.stages[1] = some p → p.declared.getLsbD 0 = false → p.declared.getLsbD 4 = false →
        ∀ r' u ks w, s.attnQ r = (.ok r', u) → (gatherAt u (d.keysOf b) fun j x => (x.attnKey r' j).bind fun y z => Got.ok (j, y) z) = (.ok ks, w) →
          let masked := ∀ i, i < d.rows → ∀ k ∈ ks, ((r'.prog w.fenv p (r'.input w.fenv 0 i k.1 k.2)).1 0).testBit 0 = false
          (masked → goes (.cull b) w { r' with todo := r'.todo.filter (fun x => x != b), blks := r'.blks.filter (fun x => x.b != b) }) ∧ (¬ masked → goes (.cull b) w r')) ∧
      (∀ (i j row : Nat) (p q : RowSt), i ≠ j → d.fixo = false → d.src ≠ 2 →
        let of (k : Nat) (z : Nat × Nat × RowSt) : Bool := z.1 == k && z.2.1 == row
        let mine (z : Nat × Nat) : Bool := z == (i, row) || z == (j, row)
        (r.states.find? (of i)).map (fun z => z.2.2) = some p → (r.states.find? (of j)).map (fun z => z.2.2) = some q →
        ∃ t z, exec (.apBlockStage (.merge i j row)) s = .next t ∧ t.mem = s.mem ∧ t.core.ap.blocks = (r.merges + 1) / d.rows ∧
          t.core.ap.run = some { r with
            states := (r.states.filter fun x => !(of i x || of j x)) ++ [(i, row, z)], fresh := r.fresh.filter fun x => !mine x
            merged := r.merged ++ r.fresh.filter mine, merges := r.merges + 1 } ∧
          (r.stages[2] = none →
            let m := fmax v 13 p.m.toNat q.m.toNat
            let α := (apExp v p.m.toNat m).1
            let β := (apExp v q.m.toNat m).1
            let sum (x y : BitVec 32) : BitVec 32 := BitVec.ofNat 32 (fadd v 13 0 (fmul v 13 0 x.toNat α).1 (fmul v 13 0 y.toNat β).1).1
            z.m = BitVec.ofNat 32 m ∧ z.l = sum p.l q.l ∧ z.acc = (p.acc.zip q.acc).map fun c => sum c.1 c.2)) ∧
      (r.ready = none → exec (.apBlockStage .emit) s = .next s) ∧
      (∀ x outs words fl, r.ready = some x → r.emitRow v x = (outs, words, fl) →
        let z := fmtBytes d.outf
        let ws : List (Int × List Byte) :=
          (if d.oport then [] else outs.zipIdx.map fun o => (d.at' 1 + ((r.rows * d.dim + o.2) * z : Nat), toBytes z o.1)) ++
          words.zipIdx.map fun w => (d.at' 2 + (16 * r.rows + 8 * w.2 : Nat), toBytes 8 w.1)
        ((unpack v 13 x.l.toNat).isZero = true → (unpack v 13 x.m.toNat).isNan = false →
          outs = x.acc.map (fun _ => 0) ∧ words = [0xFF800000 + 2 ^ 32, x.m.toNat + x.l.toNat * 2 ^ 32] ∧ fl = 0) ∧
        (∀ u, s.emitStores r ws (ws.length + 1) = (u, none) → r.rows + 1 < d.rows → ∃ t, exec (.apBlockStage .emit) s = .next t ∧ t.mem = u.mem ∧
          t.core.ap.rows = r.rows + 1 ∧ ∀ r', t.core.ap.run = some r' → r'.rows = r.rows + 1 ∧ r'.put = 0 ∧
            (d.oport = true → r'.out.length = r.out.length + outs.length + 1))) ∧
      (r.out = [] ∨ f.freeFrom e = 0 → exec (.apBlockStage .sendOut) s = .next s) ∧
      (∀ (tok : Token) (rest : List Token) (i : Nat) (l : Link), r.out = tok :: rest → tok.kind ≠ 3 → 0 < f.freeFrom e → f.linkFrom e = some i → f.links[i]? = some l →
        let ends := d.rows ≤ r.rows ∧ rest = [] ∧ (d.qport = true → r.qend = true)
        ∃ t, exec (.apBlockStage .sendOut) s = .next t ∧ t.core.field.links[i]? = some (l.place tok) ∧ t.mem = s.mem ∧
          (¬ ends → t.core.ap = { ap with run := some { r with out := rest } }) ∧
          (ends → t.core.ap = { ap with run := none, flags := 0 } ∧ t.cpu.fps = s.cpu.fps ||| ap.flags ∧
            (s.core.fq.holds 0x4A = false → ∀ m, r.tag.num = some m → t.core.qs.Done r.tag.tl m))))

/-- R281, R292, R299, R362: a kv command checks its fields, waits while the AP is stopped or frozen, and then makes its first step; each COMMAND_COMPLETE of the AP makes the next one. A step that ends the command completes its number; a step that faults has no effect but to stop the AP, with the fault in cr.KVFLT and a record; what position they hold is the model's choice where R299 names none (log 40). R293, R294, R295, R296, R297: where what they read may be read and what they write may be written, KVSEQ, KVBIAS, JMARK, JCOMMIT, a KVAPP of one token and a JROLL of one entry or none complete at once with their effect, and a KVAPP or JROLL of more goes on to the next. -/
def Obligations.KvCommandResults : Prop :=
  ∀ (s : State) (h : CmdHdr) (desc node : BitVec 51),
    let ap := s.core.ap
    let run (op : BitVec 8) (desc src : Int) (cnt n : Nat) (flag : Bool) : KvRun :=
      ⟨⟨s.core.qs.dlv.num, h.tl, h.notice, op, s.core.qs.dlv.sup⟩, desc, src, cnt, flag, 0, n⟩
    let steps (i : Instr) (u : State) (r : KvRun) : Prop :=
      (∀ n v, u.kvStep r = .ok (true, n) v → ∃ t, exec i s = .next t ∧ t.mem = v.mem ∧ t.core.ap = { v.core.ap with kv := none } ∧
        (v.core.fq.holds 0x4A = false → ∀ m, r.tag.num = some m → t.core.qs.Done r.tag.tl m)) ∧
      (∀ n v, u.kvStep r = .ok (false, n) v → exec i s = .next (v.modAp fun a => { a with kv := some { r with done := r.done + 1, n := n } })) ∧
      (∀ v, u.kvStep r = .wait v → exec i s = .next v) ∧
      (∀ c va v, u.kvStep r = .fault c va v →
        let pos := u.kvPos r c va
        ∃ t rec, exec i s = .next t ∧ Reported s t rec ∧ RecordOnly s t ∧ rec.code = c ∧ rec.ctx = 0x4A ∧ rec.r = true ∧
          rec.addr = BitVec.ofInt 64 va ∧ rec.detail = BitVec.ofNat 64 pos ∧ t.core.qs = s.core.qs ∧ t.core.ap = { u.core.ap with
            stopped := true, code := c, kvflt := BitVec.ofNat 64 (pos % 2 ^ 32 * 2 ^ 32 + c.toNat * 2 ^ 8 + r.tag.op.toNat) })
    let starts (i : Instr) (op : BitVec 8) (codes : List (Bool × BitVec 8)) (r : KvRun) : Prop :=
      s.passes h op → match firstCode codes with
        | some c => Turned i s h c
        | none =>
          let u := s.modAp fun a => { a with kv := some r }
          (ap.stopped = true ∨ ap.frozen = true → exec i s = .next u) ∧ (ap.stopped = false → ap.frozen = false → steps i u r)
    (∀ rsv : BitVec 10, starts (.kvseq h desc node rsv) 0x42 [(rsv != 0, 0x50)] (run 0x42 (desc.toInt * 64) (node.toInt * 64) 0 0 false)) ∧
    (∀ (count : BitVec 6) (j : Bool) (rsv : BitVec 3),
      starts (.kvapp h desc node count j rsv) 0x43 [(rsv != 0, 0x50)] (run 0x43 (desc.toInt * 64) (node.toInt * 64) (count.toNat + 1) 0 j)) ∧
    (∀ (head : BitVec 6) (clr : Bool) (rsv : BitVec 54),
      starts (.kvbias h node head clr rsv) 0x44 [(rsv != 0, 0x50), (clr && node != 0, 0x50)] (run 0x44 0 (node.toInt * 64) 0 head.toNat clr)) ∧
    (∀ rsv : BitVec 61, starts (.jmark h desc rsv) 0x45 [(rsv != 0, 0x50)] (run 0x45 (desc.toInt * 64) 0 0 0 false) ∧
      starts (.jcommit h desc rsv) 0x46 [(rsv != 0, 0x50)] (run 0x46 (desc.toInt * 64) 0 0 0 false)) ∧
    (∀ (mk : Bool) (n : BitVec 32) (rsv : BitVec 28),
      starts (.jroll h desc mk n rsv) 0x47 [(rsv != 0, 0x50), (mk && n != 0, 0x50)] (run 0x47 (desc.toInt * 64) 0 0 n.toNat mk)) ∧
    (∀ (num : Word) (r : KvRun), ap.start = none → ap.stopped = false → ap.frozen = false → ap.kv = some r → steps (.commandComplete 0x4A num) s r) ∧
    (∀ num : Word, ap.stopped = true ∨ ap.frozen = true ∨ (ap.start = none ∧ ap.kv = none) → exec (.commandComplete 0x4A num) s = .next s) ∧
    (ap.stopped = false → ap.frozen = false →
      let da := desc.toInt * 64
      let na := node.toInt * 64
      let on (r : KvRun) : State := s.modAp fun a => { a with kv := some r }
      let ends (i : Instr) (r : KvRun) (v : State) (bias : List (Nat × List (BitVec 16))) : Prop := ∃ t, exec i s = .next t ∧ t.mem = v.mem ∧
        t.core.ap = { v.core.ap with kv := none, bias := bias } ∧ (v.core.fq.holds 0x4A = false → ∀ m, r.tag.num = some m → t.core.qs.Done r.tag.tl m)
      let goesOn (i : Instr) (r : KvRun) (v : State) (n : Nat) : Prop := exec i s = .next (v.modAp fun a => { a with kv := some { r with done := 1, n := n } })
      (let r := run 0x42 da na 0 0 false;
        s.passes h 0x42 → ∀ n q path u1 u2 u3 u4 u5 u6 v, (on r).freshNode r.tag na = .ok n u1 → u1.readDesc r.tag da = .ok q u2 →
          u2.readPath r.tag n.parent 15 [] = .ok path u3 →
          let start := (path.getLast?).elim 0 (fun p => (p.start + p.len) % 2 ^ 32);
          u3.apWords r.tag (na + 16) [start, 1] = .ok () u4 →
          ((path = [] ∧ u5 = u4) ∨ ∃ p, path.getLast? = some p ∧ u4.addRef r.tag (p.addr + 24) = .ok () u5) →
          u5.apWords r.tag da [(BitVec.ofInt 64 na).toNat] = .ok () u6 → u6.apWords r.tag (da + 16) [start, 0] = .ok () v →
          ends (.kvseq h desc node 0) r v v.core.ap.bias) ∧
      (∀ (count : BitVec 6) (j : Bool), s.passes h 0x43 →
        let i : Instr := .kvapp h desc node count j 0
        let cnt := count.toNat + 1
        let r := run 0x43 da na cnt 0 j
        let t := r.tag
        ∀ q leaf sc path page k knew vnew u1 u2 u3 u4 u5 u6 u7 u8 u9 u10 u11 u12 v, (on r).readSeq t da = .ok q u1 →
          q.leaf ≠ 0 → u1.readNode t q.leaf.toInt = .ok leaf u2 → leaf.refs = 1 → leaf.len ≠ 4096 →
          let row := q.row
          let ka := page + (k * row : Nat)
          let va := page + ((64 + k) * row : Nat)
          let ea := page + (128 * row + k : Nat)
          u2.apGet t (na + (2 * cnt * row : Nat)) 1 = .ok [sc] u3 → sc ≠ 255 → u3.seqPath t q = .ok path u4 →
          u4.slotOf t (pathParts path) q.len = .ok (page, k) u5 → (j = true → q.used ≠ q.cap) →
          u5.apGet t na row = .ok knew u6 → u6.apGet t (na + (cnt * row : Nat)) row = .ok vnew u7 →
          -- with a journal, the entry of the slot as it stands, and used
          ((j = false ∧ u8 = u7) ∨ (j = true ∧ q.jbase.toNat % 32 = 0 ∧ ∃ kold vold eold y1 y2 y3 y4, u7.apGet t ka row = .ok kold y1 ∧
            y1.apGet t va row = .ok vold y2 ∧ y2.apGet t ea 1 = .ok [eold] y3 ∧
            y3.apPut t (q.jbase.toInt + (q.used * q.entry : Nat)) ((toBytes 8 (BitVec.ofInt 64 page).toNat ++ toBytes 8 (k + eold.toNat * 2 ^ 8) ++
              toBytes 8 q.len ++ toBytes 8 q.leaf.toNat) ++ kold ++ vold) = .ok () y4 ∧
            y4.apWords t (da + 24) [q.used + 1 + q.mark * 2 ^ 32] = .ok () u8)) →
          u8.apPut t ka knew = .ok () u9 → u9.apPut t va vnew = .ok () u10 → u10.apPut t ea [sc] = .ok () u11 →
          u11.cleanAll.apWords t (leaf.addr + 16) [leaf.start + (leaf.len + 1) % 2 ^ 13 * 2 ^ 32] = .ok () u12 →
          u12.apWords t (da + 16) [(q.len + 1) % 2 ^ 32] = .ok () v →
          (count = 0 → ends i r v v.core.ap.bias) ∧ (count ≠ 0 → goesOn i r v 0)) ∧
      (∀ (head : BitVec 6), s.passes h 0x44 →
        let rest (v : State) : List (Nat × List (BitVec 16)) := v.core.ap.bias.filter fun e => e.1 != head.toNat
        (let r := run 0x44 0 0 0 head.toNat true;
          ends (.kvbias h 0 head true 0) r (on r) (rest s)) ∧
        (let r := run 0x44 0 na 0 head.toNat false;
          ∀ ws v, (on r).apList r.tag na 2 32 = .ok ws v → ws ≠ [] →
            ends (.kvbias h node head false 0) r v (rest v ++ [(head.toNat, ws.map (BitVec.ofNat 16))]))) ∧
      (∀ (i : Instr) (op : BitVec 8), (i, op) ∈ [(Instr.jmark h desc 0, (0x45 : BitVec 8)), (.jcommit h desc 0, 0x46)] → s.passes h op →
        let r := run op da 0 0 0 false
        ∀ q u1 v, (on r).readDesc r.tag da = .ok q u1 →
          u1.apWords r.tag (da + 24) [if op = 0x46 then 0 else q.used + q.used * 2 ^ 32] = .ok () v → ends i r v v.core.ap.bias) ∧
      (∀ (mk : Bool) (n : BitVec 32), (mk = true → n = 0) → s.passes h 0x47 →
        let i : Instr := .jroll h desc mk n 0
        let r := run 0x47 da 0 0 n.toNat mk
        let t := r.tag
        ∀ q u1 v, (on r).readSeq t da = .ok q u1 →
          let to' := if mk then q.mark else n.toNat
          (q.used = to' → u1.apWords t (da + 24) [q.used + min q.mark to' * 2 ^ 32] = .ok () v → ends i r v v.core.ap.bias) ∧
          (∀ leaf w old u2 u3 u4 u5 u6 u7 u8 u9 u10, to' < q.used → u1.strayEntry r q q.jbase.toInt to' = none → q.leaf ≠ 0 →
            u1.readNode t q.leaf.toInt = .ok leaf u2 → q.jbase.toNat % 32 = 0 →
            let row := q.row
            let a := q.jbase.toInt + ((q.used - 1) * q.entry : Nat)
            let page := (BitVec.ofNat 64 (w.getD 0 0)).toInt
            let k := w.getD 1 0 % 2 ^ 6
            let l := w.getD 2 0 % 2 ^ 32
            u2.apList t a 8 4 = .ok w u3 → w.getD 3 0 = q.leaf.toNat → u3.apGet t (a + 32) (2 * row) = .ok old u4 →
            u4.apPut t (page + (k * row : Nat)) (old.take row) = .ok () u5 → u5.apPut t (page + ((64 + k) * row : Nat)) (old.drop row) = .ok () u6 →
            u6.apPut t (page + (128 * row + k : Nat)) (toBytes 1 (w.getD 1 0 / 2 ^ 8 % 2 ^ 8)) = .ok () u7 →
            u7.apWords t (da + 24) [q.used - 1 + q.mark * 2 ^ 32] = .ok () u8 →
            u8.cleanAll.apWords t (leaf.addr + 16) [leaf.start + (((l : Int) - leaf.start) % 2 ^ 13).toNat * 2 ^ 32] = .ok () u9 →
            u9.apWords t (da + 16) [l] = .ok () u10 →
            (q.used - 1 = to' → u10.apWords t (da + 24) [to' + min q.mark to' * 2 ^ 32] = .ok () v → ends i r v v.core.ap.bias) ∧
            (to' < q.used - 1 → goesOn i r u10 to'))))

/-- R287, R293, R294, R296, R297, R298: what one step of a kv command reads and writes. KVSEQ checks the node and the path of its parent, sets the node's start and one reference, counts one more at the parent by an atomic add, and makes the node the leaf with L = start. KVAPP faults in the order of R294, and without a journal writes the token's K row, V row and scale at slot i of its page and then both lengths. JMARK writes mark = used, JCOMMIT writes 0; JROLL refuses an n above used, replays nothing where an entry from n on names another leaf, and, with nothing to roll, lowers the mark. KVBIAS takes 32 entries or goes back to zeros. What KVSEQ checks, its atomic count, the 0x81 for a leaf of 0, position L resolved as though L were L + 1, the sums modulo 2 to the 32 and the 0x43 before any entry is replayed are the model's choices (log 40). -/
def Obligations.KvStepResults : Prop :=
  ∀ (s u1 : State) (r : KvRun),
    let t := r.tag
    (∀ (n : WNode) (q : SeqD) (u2 u3 u4 u6 : State) (p : WNode) (path : List WNode), t.op = 0x42 →
      s.freshNode t r.src = .ok n u1 → u1.readDesc t r.desc = .ok q u2 → u2.readPath t n.parent 15 [] = .ok (path ++ [p]) u3 →
      let start := (p.start + p.len) % 2 ^ 32
      u3.apWords t (r.src + 16) [start, 1] = .ok () u4 → u4.addRef t (p.addr + 24) = .ok () u6 →
      s.kvStep r = ((u6.apWords t r.desc [(BitVec.ofInt 64 r.src).toNat]).bind fun _ x => x.apWords t (r.desc + 16) [start, 0]).bind fun _ x => .ok (true, 0) x) ∧
    (∀ (a : Int) (x : Phys) (v : State), s.xlateNew .store t.user a = (.ok x, v) → x.ext.once = false →
      let w := v.flushWhere fun l => l.addr == x.pa / 64 * 64
      w.memOk → (∀ l ∈ locsOf x.pa 4, w.heldErr2 l = false) → ∃ z, s.addRef t a = .ok () z ∧
        (∀ i, i < 4 → memGet z.mem (x.pa + i) = (BitVec.ofNat 32 (memNat w.mem x.pa 4) + 1).extractLsb' (8 * i) 8) ∧
        ∀ b, b < x.pa ∨ x.pa + 4 ≤ b → memGet z.mem b = memGet w.mem b) ∧
    (∀ (c : BitVec 8) (va : Int) (v : State), t.op = 0x42 → s.freshNode t r.src = .fault c va v → s.kvStep r = .fault c va v) ∧
    (∀ q, t.op = 0x43 → s.readSeq t r.desc = .ok q u1 →
      let row := q.row
      (q.leaf = 0 → s.kvStep r = .fault 0x81 0 u1) ∧
      (∀ leaf u2, q.leaf ≠ 0 → u1.readNode t q.leaf.toInt = .ok leaf u2 →
        (leaf.refs ≠ 1 → s.kvStep r = .fault 0x80 leaf.addr u2) ∧
        (leaf.refs = 1 → leaf.len = 4096 → s.kvStep r = .fault 0x81 leaf.addr u2) ∧
        (∀ (sc : Byte) (u3 : State), leaf.refs = 1 → leaf.len ≠ 4096 → u2.apGet t (r.src + (2 * r.cnt * row + r.done : Nat)) 1 = .ok [sc] u3 →
          (sc = 255 → s.kvStep r = .fault 0x90 (r.src + (2 * r.cnt * row + r.done : Nat)) u3) ∧
          (∀ path u4 page i u5, sc ≠ 255 → u3.seqPath t q = .ok path u4 → u4.slotOf t (pathParts path) q.len = .ok (page, i) u5 →
            r.flag = true → q.used = q.cap → s.kvStep r = .fault 0x82 r.desc u5) ∧
          (∀ path u4 page i u5 k u6 w u7, sc ≠ 255 → u3.seqPath t q = .ok path u4 → u4.slotOf t (pathParts path) q.len = .ok (page, i) u5 →
            u5.apGet t (r.src + (r.done * row : Nat)) row = .ok k u6 → u6.apGet t (r.src + ((r.cnt + r.done) * row : Nat)) row = .ok w u7 →
            (r.flag = false → s.kvStep r =
              (((((u7.apPut t (page + (i * row : Nat)) k).bind fun _ x => x.apPut t (page + ((64 + i) * row : Nat)) w).bind fun _ x =>
                x.apPut t (page + (128 * row + i : Nat)) [sc]).bind fun _ x =>
                x.cleanAll.apWords t (leaf.addr + 16) [leaf.start + (leaf.len + 1) % 2 ^ 13 * 2 ^ 32]).bind fun _ x =>
                x.apWords t (r.desc + 16) [(q.len + 1) % 2 ^ 32]).bind fun _ x => .ok (decide (r.cnt ≤ r.done + 1), 0) x))))) ∧
    (t.op = 0x44 → r.flag = true → ∃ v, s.kvStep r = .ok (true, 0) v ∧ v.mem = s.mem ∧ v.core.ap.bias = s.core.ap.bias.filter fun e => e.1 != r.n) ∧
    (∀ ws, t.op = 0x44 → r.flag = false → s.apList t r.src 2 32 = .ok ws u1 → ws ≠ [] → ∃ v, s.kvStep r = .ok (true, 0) v ∧ v.mem = u1.mem ∧
      (v.core.ap.bias.find? fun e => e.1 == r.n) = some (r.n, ws.map (BitVec.ofNat 16)) ∧
      ∀ n, n ≠ r.n → (v.core.ap.bias.find? fun e => e.1 == n) = s.core.ap.bias.find? fun e => e.1 == n) ∧
    (∀ q v, t.op = 0x45 ∨ t.op = 0x46 → s.readDesc t r.desc = .ok q u1 →
      u1.apWords t (r.desc + 24) [if t.op = 0x46 then 0 else q.used + q.used * 2 ^ 32] = .ok () v → s.kvStep r = .ok (true, 0) v) ∧
    (∀ q v, t.op = 0x47 → s.readSeq t r.desc = .ok q u1 → r.done = 0 →
      let n := if r.flag then q.mark else r.n
      (q.used < n → s.kvStep r = .fault 0x83 r.desc u1) ∧
      (∀ a, n < q.used → u1.strayEntry r q q.jbase.toInt n = some a → s.kvStep r = .fault 0x43 a u1) ∧
      (q.used = n → u1.apWords t (r.desc + 24) [q.used + min q.mark n * 2 ^ 32] = .ok () v → s.kvStep r = .ok (true, n) v))

/-! ## The matrix node -/

/-- R20, R242, R244, R250, R251, R256: a token at the head of ep0 stays there while its port takes nothing, while it must wait, and while the AP's turn comes first. One that fails a check is taken, leaves a record with 0x64 and its number, stops ep0 and counts as completed, and the stores, the window and the drain queue stay. Any other takes a number and steps the window, and stands in its passes with what its take captured; a token in its passes ends them before the next take. An operation number that is not assigned fails its check. The window moves by its step modulo 2^18, its other fields stay. R243, R245, R246, R247: the passes leave sums that start from +0, or for every operation but MMAZ from what the port carries; they stay in the store, or they drain and the store is cleared; a fault in the passes gives the store up. R48: element (i, j) of an INT8 token is the sum of the products of row i and column j, added to the partial it started from, with saturation. R251: of memory that changed during the passes, each element read is one that its memory has held since the take. That a token which fails a check is taken and takes a number, that the operands are read in the passes, which end before the next take or with the completion, that the passes of each row read the columns of B anew but MMAC reads them once, and that an element is one of the contents by a free choice, are the model's choices (log 38); and so is it that every token of ep0 waits while w1 or w2 moves (log 44). -/
def Obligations.MatrixTakeResults : Prop :=
  (∀ (s : State) (t : MTok) (i : Instr) (op : Nat) (w : Word),
    (i, op) ∈ matrixForms t ∨ (∃ o body, i = .unassignedMatrixOperation o body ∧ op = o.toNat ∧ t = (tokenOf (o ++ body)).2 ∧ (op = 0 ∨ 8 ≤ op)) →
    let c := s.core
    let m := c.mat
    let e := epEndpoint 0
    let bad := c.tokenBad false op t
    let num := ((c.on.ctxTl 0x48).bind fun tl => (c.on.tlCtx tl).map fun _ => c.qs.issued[tl.toNat] + 1).getD 0
    let take := if num = 0 then m.taken.toNat + 1 else num
    let done (u : State) : Prop := ∀ tl, c.on.ctxTl 0x48 = some tl → c.on.tlCtx tl ≠ none → u.core.qs.Done tl num
    -- the AP's port holds a token: one in its list, or the next one of a block of the running ATTN
    let apFirst : Bool := c.takeable true || (m.portOpen true && !c.ap.stopped && !c.ap.frozen && c.ap.run.any fun r => r.offer.isSome)
    m.taking = false → s.portHead e = some ⟨0, w⟩ → (∀ k l, c.field.linkTo e = some k → c.field.links[k]? = some l → ∀ b ∈ l.buf, 1 ≤ b.2) →
    (m.portOpen false = false → exec i s = .next s) ∧
    (m.portOpen false = true → (m.runs.countP fun r => r.pend.isSome) ≤ 1 → exec i s = exec i s.matPass) ∧
    (m.portOpen false = true → (∀ r ∈ m.runs, r.pend = none) →
      ((bad = false ∧ c.tokenWaits t = true) ∨ (m.lastAp = false ∧ apFirst = true) → exec i s = .next s) ∧
      (m.lastAp = true ∨ apFirst = false →
        (op = 0 ∨ 8 ≤ op → bad = true) ∧
        (bad = true → ∃ u rec, exec i s = .next u ∧ Reported s u rec ∧ rec.code = 0x64 ∧ rec.ctx = 0x48 ∧ rec.r = true ∧ rec.seq = BitVec.ofNat 64 take ∧
          rec.detail = 0 ∧ u.core.mat = { m with lastAp := false, stopped := true } ∧ u.core.field.availTo e = (c.field.availTo e).tail ∧ done u) ∧
        (bad = false → c.tokenWaits t = false → ∃ u r, exec i s = .next u ∧ u.mem = s.mem ∧ u.core.fq = c.fq ∧
          u.core.field.availTo e = (c.field.availTo e).tail ∧
          u.core.mat = { m with lastAp := false, taken := m.taken + 1, mawin := winNext m.mawin, runs := m.runs ++ [r] } ∧
          r.ap = false ∧ r.take = take ∧ r.num = num ∧ r.drain = !t.acc ∧ r.tomat = destTomat m.mdest ∧
          r.int = (if op = 5 then m.ep.int else t.fa == 1) ∧ r.rows = t.rows ∧ r.n = t.cols ∧ r.items = [] ∧ r.flags = 0 ∧
          r.off = 64 * destOff m.mdest ∧ r.pitch = 64 * destPitch m.mdest t.cols ∧ r.fmt = destFmt m.mdest ∧ r.rnd = destRnd m.mdest ∧
          r.pend = some ⟨op, t, m.mawin, m.sc[t.sa.toNat], m.sc[t.sb.toNat], m.mdest, [(c.cellar.bytes, c.loft.bytes)]⟩)))) ∧
  (∀ (s : State) (k : Nat) (r : MRun) (p : MPend), (s.core.mat.runs.findIdx? fun r => r.pend.isSome) = some k → s.core.mat.runs[k]? = some r → r.pend = some p →
    (∀ x ∈ p.was, x = (s.core.cellar.bytes, s.core.loft.bytes)) →
    let c := s.core
    let m := c.mat
    let v := s.fenv
    let t := p.tok
    let op := p.op
    let u := s.matPass
    let rows := (List.range t.rows).map (c.rowStrm v p.win op t)
    let cols := (List.range t.cols).map (c.colStrm v op t)
    let reads := rows.map fun r => (r, cols)
    let old := if op ≠ 2 ∧ m.ep.carry = true then m.ep.vals else []
    let sums := if op = 5 then (m.ep.vals, 0) else arraySums v r.int t.depth old reads
    let fault := if op = 5 then none else firstFault op (chunkOf t.fa.toNat) t.depth reads
    let one : Val := .fin false 1 0
    let drained := drainAll v r.int t.cols sums.1 (if op = 5 then one else unpack v 13 p.sa.toNat) fun _ => if op = 5 then one else unpack v 13 p.sb.toNat
    (∀ code row col, fault = some (code, row, col) → ∃ rec, Reported s u rec ∧ rec.code = code ∧ rec.ctx = 0x48 ∧ rec.r = true ∧
      rec.seq = BitVec.ofNat 64 r.take ∧ rec.detail = BitVec.ofNat 64 (row * 256 + col) ∧
      u.core.mat = { m with ep := .reset, runs := m.runs.eraseIdx k, stopped := true } ∧ ∀ tl, c.on.ctxTl 0x48 = some tl → u.core.qs.Done tl r.num) ∧
    (fault = none → u.mem = s.mem ∧ u.core.fq = c.fq ∧ u.core.field = c.field ∧ u.core.mat = { m with
      ep := if t.acc then ⟨true, t.rows, t.cols, r.int, sums.1⟩ else .reset
      runs := m.runs.set k { r with
        items := if t.acc then [] else drainItems t.rows t.cols drained.1
        flags := if t.acc then sums.2 else sums.2 ||| drained.2
        pend := none } })) ∧
  (∀ w : Word, winPtr (winNext w) = (((winPtr w : Int) + winStep w) % 2 ^ 18).toNat ∧ winStep (winNext w) = winStep w ∧ winPitch (winNext w) = winPitch w) ∧
  (∀ (v : FEnv) (k n : Nat) (old : List (BitVec 32)) (reads : List RowRead) (i j : Nat) (a b : Strm) (bs : List Strm) (xs ys : List Int),
    (∀ r ∈ reads, r.2.length = n) → reads[i]? = some (a, bs) → bs[j]? = some b → a.vals = xs.map (fun x => some (valOfInt x)) → b.vals = ys.map (fun y => some (valOfInt y)) →
    (arraySums v true k old reads).1[i * n + j]? = some (BitVec.ofInt 32
      (max (-2 ^ 31) (min (2 ^ 31 - 1) ((old.getD (i * n + j) 0).toInt + ((xs.zip ys).map fun p => p.1 * p.2).sum))))) ∧
  (∀ (seed z q : Nat) (was : List Memory) (new : Memory), 0 < z → (∀ m ∈ was, Memory.wf m = true) → Memory.wf new = true →
    ∃ m ∈ was ++ [new], ∀ k, k < z → memGet (mixMem seed z was new) (q * z + k) = memGet m (q * z + k)) ∧
  ∀ (s : State) (p : MPend), p.op ≠ 5 → (s.passReads p).1.length = p.tok.rows ∧
    ∀ (i : Nat) (x : RowRead), (s.passReads p).1[i]? = some x →
      let core (n : Nat) : Core := if p.steady s.core then s.core else p.asRead s.core (s.pick + 2 * p.span s.core * n)
      x.1 = (core i).rowStrm s.fenv p.win p.op p.tok i ∧
      x.2 = (List.range p.tok.cols).map ((core (if p.op = 4 then p.tok.rows else i)).colStrm s.fenv p.op p.tok)

/-- R199, R242, R246, R250, R252, R256: the oldest token of a port leaves the array, its passes ended: one that accumulates completes, with its flags; one that drains to the MAT room writes its rows and completes; one that drains to ep1 leaves its elements in the queue's bank and waits, the queue's tokens go out in order, and its closing STOP completes it. A word of the MAT room or of the queue's bank that cannot be merged or read ends its token with 0x32. Of ep0's other tokens a STOP and a drain-request go, an EOS ends the port's taking, a CFG token faults with 0x43. Where in its bank an element of the queue stands, and that 0x32 ends the queue's oldest token, are the model's choices (log 44), and so is it that a drain-request at ep0 goes (log 38). -/
def Obligations.MatrixCompletionResults : Prop :=
  (∀ (s : State) (ap : Bool),
    let m := s.core.mat
    let f := s.core.field
    let cel := s.core.cellar
    let e := epEndpoint 0
    let e' := epEndpoint 1
    let done (u : State) (n : Nat) : Prop := ∀ tl, s.core.on.ctxTl 0x48 = some tl → u.core.qs.Done tl n
    let hurt (i : Instr) (num take row col : Nat) : Prop := ∃ u rec, exec i s = .next u ∧ Reported s u rec ∧ rec.code = 0x32 ∧ rec.ctx = 0x48 ∧ rec.r = true ∧
      rec.seq = BitVec.ofNat 64 take ∧ rec.detail = BitVec.ofNat 64 (row * 256 + col) ∧ u.core.mat.stopped = true ∧ done u num
    ((m.runs.find? fun r => r.ap == ap) = none ∨ m.frozen = true → exec (.matrixTokenComplete ap) s = .next s) ∧
    (∀ r, (m.runs.find? fun r => r.ap == ap) = some r → m.frozen = false → r.pend ≠ none →
      let x := s.matPass.core.mat.runs.find? fun x => x.ap == ap && x.take == r.take
      (x = none → exec (.matrixTokenComplete ap) s = .next s.matPass) ∧
      ∀ y, x = some y → exec (.matrixTokenComplete ap) s = .next ((s.matPass.modMat fun m => { m with runs := m.runs.erase y }).matDone y)) ∧
    (∀ r, (m.runs.find? fun r => r.ap == ap) = some r → m.frozen = false → r.pend = none →
      let left := m.runs.eraseP fun r => r.ap == ap
      let u := s.modMat fun m => { m with runs := left }
      let place := (m.qpos + m.dq.countP fun x => x.isNone) % 16384
      (ap = false → r.drain = false → ∃ t, exec (.matrixTokenComplete ap) s = .next t ∧ t.core.mat = { m with runs := left } ∧
        t.cpu.fps = s.cpu.fps ||| r.flags ∧ done t r.num ∧ t.mem = s.mem) ∧
      (ap = false → r.drain = true → r.tomat = false →
        (∀ c, cel.enqueue place r.elems = .ok c → exec (.matrixTokenComplete ap) s = .next ((u.modCellar fun _ => c).modMat fun m =>
          { m with dq := m.dq ++ r.items.map QItem.mark, closes := m.closes ++ [(r.num, r.take, r.flags)] })) ∧
        (∀ k, cel.enqueue place r.elems = .error k → hurt (.matrixTokenComplete ap) r.num r.take 0 0)) ∧
      (ap = false → r.drain = true → r.tomat = true →
        (∀ v fl, u.tomatRows r r.rows 0 r.flags = (v, .ok fl) →
          ∃ t, exec (.matrixTokenComplete ap) s = .next t ∧ t.core.cellar = v.core.cellar ∧ t.cpu.fps = s.cpu.fps ||| fl ∧ done t r.num ∧ t.mem = s.mem) ∧
        (∀ v row col, u.tomatRows r r.rows 0 r.flags = (v, .error (row, col)) → hurt (.matrixTokenComplete ap) r.num r.take row col)) ∧
      (ap = true → exec (.matrixTokenComplete ap) s = .next (u.modAp fun a =>
        { a with flags := a.flags ||| r.flags, opbuf := if r.drain then { a.opbuf with res := r.elems } else a.opbuf }))) ∧
    (m.dq = [] ∨ m.frozen = true ∨ f.freeFrom e' = 0 → exec .drainQueueSend s = .next s) ∧
    (∀ (x : Option (Nat × Nat)) (rest : List (Option (Nat × Nat))) (i : Nat) (l : Link), m.dq = x :: rest → m.frozen = false → 0 < f.freeFrom e' →
      f.linkFrom e' = some i → f.links[i]? = some l →
      let a := cel.queueBase + 4 * m.qpos
      let sends (tok : Token) (m' : Matrix) (u : State) : Prop := exec .drainQueueSend s = .next u ∧ u.core.field.links[i]? = some (l.place tok) ∧
        u.core.mat = m' ∧ u.mem = s.mem
      (x = none → cel.err2.contains (a / 8) = false →
        let v := BitVec.ofNat 32 (memNat cel.bytes a 4)
        ∃ u, sends ⟨0, if l.fmt = 5 then v.signExtend 64 else v.setWidth 64⟩ { m with dq := rest, qpos := (m.qpos + 1) % 16384 } u) ∧
      (∀ num take fl cs, x = none → cel.err2.contains (a / 8) = true → m.closes = (num, take, fl) :: cs → hurt .drainQueueSend num take 0 0) ∧
      (∀ lv n, x = some (lv, n) →
        (lv ≠ 1 ∨ m.closes = [] → ∃ u, sends ⟨1, stopPayload lv n⟩ { m with dq := rest } u) ∧
        (∀ num take fl cs, lv = 1 → m.closes = (num, take, fl) :: cs →
          ∃ u, sends ⟨1, stopPayload lv n⟩ { m with dq := rest, closes := cs } u ∧ u.cpu.fps = s.cpu.fps ||| fl ∧ done u num))) ∧
    (m.portOpen false = false ∨ s.portHead e = none → exec .matrixEp0ControlToken s = .next s) ∧
    (∀ (i : Nat) (l : Link) (tok : Token), m.portOpen false = true → f.linkTo e = some i → f.links[i]? = some l → (∀ b ∈ l.buf, 1 ≤ b.2) → l.head = some tok → tok.kind ≠ 0 →
      ∃ u, exec .matrixEp0ControlToken s = .next u ∧ u.core.field.availTo e = (f.availTo e).tail ∧
        (tok.kind = 1 ∨ tok = drainToken → u.core.mat = m ∧ u.core.fq = s.core.fq) ∧ (tok = eosToken → u.core.mat = { m with eos := true }) ∧
        (tok.kind = 2 → ∃ rec, Reported s u rec ∧ rec.code = 0x43 ∧ rec.ctx = 0x48))) ∧
  ∀ (c c' : Cellar) (p j : Nat) (vs : List (BitVec 32)) (v : BitVec 32), Memory.wf c.bytes = true → p < 16384 → vs.length ≤ 16384 →
    c.enqueue p vs = .ok c' → vs[j]? = some v → memNat c'.bytes (c.queueBase + 4 * ((p + j) % 16384)) 4 = v.toNat

/-- R253, R187, R199: an accumulator node acts in a cycle in which its region's counter selects its context, with a free slot on its output. It adds a DATA token to its sum and moves to the next column; a level-0 STOP moves it to the next row; a higher STOP counts, and with the last count the sums go out row by row and start again from +0; a token past the last column or row faults with 0x61. During a release it sends, and takes nothing. That it moves one token an event, that a STOP of level 2 or more goes on only with a release, and that an EOS is noted and ends its taking, are readings of the model (DEDUCED, log 37). -/
def Obligations.AccumulatorResults : Prop :=
  ∀ (s : State) (n : BitVec 4) (i : Nat) (d : Node) (a : Acc),
    let f := s.core.field
    let act : Instr := .accumulatorToken n
    (f.nodes.findIdx? fun d => match d.acc with | some a => a.num == n | none => false) = some i → f.nodes[i]? = some d → d.acc = some a →
    let stands := (f.region d.region).st = .armed ∧ d.stopped = false ∧ (f.region d.region).resident.contains d.ctx = true ∧
      s.canFire d = true ∧ s.selected d.region = some d.ctx
    let acc (t : State) : Option Acc := (t.core.field.nodes[i]?).bind fun d => d.acc
    (¬ stands → exec act s = .next s) ∧
    (f.freeFrom (d.ep 0) = 0 → exec act s = .next s) ∧
    (∀ (tok : Token) (rest : List Token) (k : Nat) (l : Link), stands → a.out = tok :: rest → tok.kind ≠ 3 → 0 < f.freeFrom (d.ep 0) → f.linkFrom (d.ep 0) = some k →
      f.links[k]? = some l → ∃ t, exec act s = .next t ∧ t.core.field.links[k]? = some (l.place tok) ∧ acc t = some { a with out := rest } ∧
        (t.core.field.region d.region).selAt = some s.cyc ∧ (t.core.field.region d.region).ctr = d.ctx) ∧
    (a.out = [] → f.nodeIn d 0 = [] → exec act s = .next s) ∧
    (∀ (tok : Token) (k : Nat) (l : Link), stands → a.out = [] → d.eosIn.contains 0 = false → f.linkTo (d.ep 0) = some k → f.links[k]? = some l → l.expands = false →
      (∀ b ∈ l.buf, 1 ≤ b.2) → l.head = some tok →
      let takes (a' : Acc) : Prop := ∃ t, exec act s = .next t ∧ t.core.field.availTo (d.ep 0) = (f.availTo (d.ep 0)).tail ∧ acc t = some a' ∧ t.core.fq = s.core.fq
      let faults : Prop := ∃ t rec, exec act s = .next t ∧ Reported s t rec ∧ rec.code = 0x61 ∧ rec.cls = 7 ∧ acc t = some a ∧
        (t.core.field.region d.region).st = .frozen
      (tok.kind = 0 → a.n ≤ a.j → faults) ∧
      (tok.kind = 0 → a.j < a.n → takes { a with
        sums := a.sums.set (a.i * a.n + a.j) (BitVec.ofNat 32 (fadd s.fenv 13 0 (a.sums.getD (a.i * a.n + a.j) 0).toNat (tok.payload.toNat % 2 ^ 32)).1), j := a.j + 1 }) ∧
      (tok.kind = 1 → stopLevel tok.payload = 0 → a.m ≤ a.i + 1 → faults) ∧
      (tok.kind = 1 → stopLevel tok.payload = 0 → a.i + 1 < a.m → takes { a with i := a.i + 1, j := 0 }) ∧
      (tok.kind = 1 → stopLevel tok.payload ≠ 0 → a.got + 1 < a.count → takes { a with i := 0, j := 0, got := a.got + 1 }) ∧
      (tok.kind = 1 → stopLevel tok.payload ≠ 0 → a.count ≤ a.got + 1 → ∃ out, takes { a with
          i := 0, j := 0, got := 0, sums := a.sums.map (fun _ => 0), out := out } ∧
        (stopLevel tok.payload = 1 → out.length = a.m * (a.n + 1) ∨ a.sums.length ≠ a.m * a.n) ∧
        ∀ k, k < a.m → a.sums.length = a.m * a.n → (out.drop (k * (a.n + 1))).take (a.n + 1) =
          (((a.sums.drop (k * a.n)).take a.n).map fun v => (⟨0, v.setWidth 64⟩ : Token)) ++
            [⟨1, if k + 1 = a.m then stopPayload 1 a.m else stopPayload 0 a.n⟩]))

/-! ## Nodes of the field -/

/-- R187, R206, R207, R208, R209, R210, R233, R234, R383: a node fires when its inputs and outputs are ready and its region's counter selects its context: the firing joins those in progress, and the region and the node note the cycle. A predicated RECV that waited goes on. The oldest firing that waits on nothing commits: its tokens leave the inputs, its results go out, its registers and flags are written. A token that no firing may meet faults, and so does a firing that fails; a node that is not ready does nothing. That a firing is evaluated when it starts, as far as the tokens there let it resolve, that one which faults writes nothing, and that the firings before it still commit, are readings of the model (DEDUCED, log 37). -/
def Obligations.FiringResults : Prop :=
  ∀ (s : State) (n : Nat) (d : Node), s.core.field.nodes[n]? = some d →
    let f := s.core.field
    let e := s.nodeEnv d d.fir.length
    (f.active d = false → exec (.nodeFire n) s = .next s ∧ exec (.recvWaitTake n) s = .next s) ∧
    (f.active d = true → d.region < 16 →
      (f.badCtl d = true → NodeFaults (.nodeFire n) s n d 0x62) ∧
      (f.badCtl d = false → d.mayStart s.cyc = true → d.strayStop e = true → NodeFaults (.nodeFire n) s n d 0x61) ∧
      (f.badCtl d = false → (d.mayStart s.cyc = false ∨ d.strayStop e = false) →
        (f.stopsReady d = true ∨ s.canFire d = false ∨ s.selected d.region ≠ some d.ctx → exec (.nodeFire n) s = .next s) ∧
        (f.stopsReady d = false → s.canFire d = true → s.selected d.region = some d.ctx →
          let r := d.blk.fire e d.red d.replay
          (r.fault = none → ∃ t, exec (.nodeFire n) s = .next t ∧ t.core.field.links = f.links ∧ t.mem = s.mem ∧
            t.core.field.nodes[n]? = some { d with fir := d.fir ++ [r], last := some s.cyc, reason := 0 } ∧
            (t.core.field.region d.region).selAt = some s.cyc ∧ (t.core.field.region d.region).ctr = d.ctx ∧ (t.core.field.region d.region).quiet = s.cyc) ∧
          (∀ c j, r.fault = some (c, j) → NodeFaults (.nodeFire n) s n d c)))) ∧
    (∀ r rest, f.active d = true → d.region < 16 → d.fir = r :: rest →
      (r.opens = [] → exec (.recvWaitTake n) s = .next s) ∧
      (r.opens ≠ [] →
        let r' := r.resume d.blk (s.nodeEnv d 0)
        (r'.fault = none → ∃ t, exec (.recvWaitTake n) s = .next t ∧ t.core.field.links = f.links ∧ t.core.field.nodes[n]? = some { d with fir := r' :: rest }) ∧
        ∀ c j, r'.fault = some (c, j) → NodeFaults (.recvWaitTake n) s n d c)) ∧
    (∀ r rest, d.fir = r :: rest →
      let g := (f.region d.region).st
      (r.opens ≠ [] ∨ (g ≠ .armed ∧ g ≠ .frozen) → exec (.firingCommit n) s = .next s) ∧
      (r.opens = [] → g = .armed ∨ g = .frozen → f.PlainInputs d → (∀ x ∈ r.outs, x.2 ≠ eosToken) →
        ∃ t d', exec (.firingCommit n) s = .next t ∧ t.mem = s.mem ∧ t.core.field.nodes[n]? = some d' ∧ d'.fir = rest ∧ d'.done = some (s.cyc, d.commitsIn s.cyc + 1) ∧
          d'.regs = r.writes.foldl (fun v w => if h : w.1 < 16 then v.set w.1 w.2 else v) d.regs ∧ d'.red = r.red ∧ d'.replay = r.replay ∧
          d'.flags = d.flags ||| r.flags ∧ (∀ k, k < 8 → f.Took t.core.field (d.ep k) (r.taken.getD k 0)) ∧
          ∀ k, f.Sent t.core.field (d.ep k) ((r.outs.filter fun x => d.ep x.1 == d.ep k).map (·.2)))) ∧
    (d.fir = [] → exec (.firingCommit n) s = .next s ∧ (f.active d = true → exec (.recvWaitTake n) s = .next s)) ∧
    ∀ (b : Block) (e : BEnv) (r : Firing) (x : Nat), x ∈ (r.resume b e).opens → x ∈ r.opens

/-- R69, R210, R211, R227, R232, R233: what a node does with the tokens that are no DATA. Under "forward" one STOP of each input becomes one on each output, and STOPs of different levels fault with 0x61; under "absorb" a STOP that comes next at an input is taken, behind the tokens that firings in progress have taken. An EOS of every input goes on with the node's flags, and so does a drain-request; a MERGE node closes its loop through drain-requests, and a mode-3 JOIN through a lone STOP, with which it starts no firing. -/
def Obligations.ControlTokenResults : Prop :=
  ∀ (s : State) (n : Nat) (d : Node), s.core.field.nodes[n]? = some d → s.core.field.active d = true → s.core.field.PlainInputs d →
    let f := s.core.field
    let takes (t : State) (ls : List Nat) : Prop := ∀ k ∈ ls, f.Took t.core.field (d.ep k) 1
    let sends (t : State) (ls : List Nat) (x : Token) : Prop := ∀ k ∈ ls, f.Sent t.core.field (d.ep k) [x]
    let node (t : State) (P : Node → Prop) : Prop := ∃ d', t.core.field.nodes[n]? = some d' ∧ P d'
    let noted (t : State) (d' : Node) (ins outs : List Nat) : Prop :=
      (∀ k, k ∈ d'.eosIn ↔ k ∈ d.eosIn ∨ k ∈ ins) ∧ (∀ k, k ∈ d'.eosOut ↔ k ∈ d.eosOut ∨ k ∈ outs) ∧ d'.flags = 0 ∧ t.cpu.fps = s.cpu.fps ||| d.flags
    (f.stopsReady d = false → exec (.stopForward n) s = .next s) ∧
    (∀ x xs, f.stopsReady d = true → f.heads d = x :: xs →
      ((∃ y ∈ xs, stopLevel y.payload ≠ stopLevel x.payload) → d.region < 16 → NodeFaults (.stopForward n) s n d 0x61) ∧
      ((∀ y ∈ xs, stopLevel y.payload = stopLevel x.payload) →
        (s.canFire d = false ∨ s.selected d.region ≠ some d.ctx → exec (.stopForward n) s = .next s) ∧
        (s.canFire d = true → s.selected d.region = some d.ctx →
          ∃ t, exec (.stopForward n) s = .next t ∧ takes t d.blk.ins' ∧ sends t d.blk.outs ⟨1, x.payload &&& 0xFFFFFFFF00000007⟩))) ∧
    (∀ k : BitVec 3, (f.nodeIn d k.toNat)[d.held k.toNat]? = none → exec (.stopAbsorb n k) s = .next s) ∧
    (∀ (k : BitVec 3) (x : Token), (f.nodeIn d k.toNat)[d.held k.toNat]? = some x →
      (d.blk.policy ≠ 1 ∨ x.kind ≠ 1 → exec (.stopAbsorb n k) s = .next s) ∧
      (d.blk.policy = 1 → d.blk.li k.toNat ≠ 0 → x.kind = 1 → ∃ t, exec (.stopAbsorb n k) s = .next t ∧
        t.core.field.availTo (d.ep k.toNat) = (f.availTo (d.ep k.toNat)).eraseIdx (d.held k.toNat) ∧
        (∀ j, j < 8 → j ≠ k.toNat → f.Took t.core.field (d.ep j) 0) ∧ t.core.field.nodes = f.nodes)) ∧
    (d.merge = none → f.roomEach d d.blk.outs = true →
      (f.allHeads d eosToken = false → exec (.eosPropagate n) s = .next s) ∧
      (f.allHeads d eosToken = true → ∃ t, exec (.eosPropagate n) s = .next t ∧ takes t d.blk.ins' ∧ sends t d.blk.outs ⟨3, 0⟩ ∧
        node t fun d' => noted t d' d.blk.ins' d.blk.outs)) ∧
    (d.merge = none → f.badCtl d = false → f.roomEach d d.drainOuts = true →
      (f.allHeads d drainToken = false → exec (.drainRequestPropagate n) s = .next s) ∧
      (f.allHeads d drainToken = true → ∃ t, exec (.drainRequestPropagate n) s = .next t ∧ takes t d.blk.ins' ∧ sends t d.drainOuts drainToken)) ∧
    (d.merge = none → f.badCtl d = true → d.region < 16 → NodeFaults (.drainRequestPropagate n) s n d 0x62) ∧
    (d.merge = none → exec (.mergeLoopClose n) s = .next s) ∧
    (∀ w, d.merge = some w → d.fir = [] →
      let x := w.ib 2 0
      let y := w.ib 5 3
      let hx := (f.nodeIn d x).head?
      let hy := (f.nodeIn d y).head?
      (d.eosIn.contains x = true → hy = some eosToken → ∃ t, exec (.mergeLoopClose n) s = .next t ∧ takes t [y] ∧ node t fun d' => ∀ k, k ∈ d'.eosIn ↔ k ∈ d.eosIn ∨ k = y) ∧
      (d.eosIn.contains x = false → f.roomEach d d.blk.outs = true →
        (d.closing = false → hx ≠ some eosToken → exec (.mergeLoopClose n) s = .next s) ∧
        (d.closing = false → hx = some eosToken → ∃ t, exec (.mergeLoopClose n) s = .next t ∧ sends t d.blk.outs drainToken ∧
          (∀ k, f.Took t.core.field (d.ep k) 0) ∧ node t fun d' => d'.closing = true ∧ d'.seen = false) ∧
        (d.closing = true → hy = some drainToken → d.seen = true → ∃ t, exec (.mergeLoopClose n) s = .next t ∧ takes t [y] ∧ sends t d.blk.outs drainToken ∧
          node t fun d' => d'.closing = true ∧ d'.seen = false) ∧
        (d.closing = true → hy = some drainToken → d.seen = false → d.ep x ≠ d.ep y → ∃ t, exec (.mergeLoopClose n) s = .next t ∧ takes t [x, y] ∧ sends t d.blk.outs ⟨3, 0⟩ ∧
          node t fun d' => d'.closing = false ∧ noted t d' [x] d.blk.outs))) ∧
    (d.blk.join3 = none → exec (.joinEos n) s = .next s) ∧
    (∀ w x i l, d.blk.join3 = some w → d.fir = [] →
      let a := w.ib 2 0
      let b := w.ib 5 3
      let own (k : Nat) : Bool := ((f.linkFrom (d.ep k)).bind fun i => f.links[i]?).any fun l =>
        epKind l.cons == 0 && epY l.cons == d.y && epX l.cons == d.x && epCtx l.cons == d.ctx
      let outs := d.blk.outs.filter fun k => !own k
      d.ep a ≠ d.ep b → f.nodeIn d a = [x] → x.kind = 1 → f.linkTo (d.ep a) = some i → f.links[i]? = some l → l.fly = [] →
        (f.nodeIn d b).head? = some eosToken → f.roomEach d outs = true →
        (f.badCtl d = false → d.strayStop (s.nodeEnv d 0) = false → exec (.nodeFire n) s = .next s) ∧
        ∃ t, exec (.joinEos n) s = .next t ∧ takes t [a, b] ∧ sends t outs ⟨3, 0⟩ ∧ node t fun d' => noted t d' [a, b] outs)

/-- R197, R198, R383, R196: an idle node takes the lead of a CFG packet, then its body; with the last word of one with no hops it takes the block, or the registers of the mask, in the state that its block starts from, or it faults. A packet with hops goes on with one hop less. The steward puts a waiting context in the place of the resident one that has waited longest, which takes over its REG area. -/
def Obligations.PacketAndSwapResults : Prop :=
  ∀ s : State,
    let f := s.core.field
    (∀ (k : BitVec 3) (n : Nat), f.nodes[n]? = none → ∀ i ∈ [Instr.nodeFire n, .recvWaitTake n, .firingCommit n, .stopForward n, .stopAbsorb n k,
      .eosPropagate n, .drainRequestPropagate n, .mergeLoopClose n, .joinEos n, .cfgPacketApply n, .cfgPacketForward n], exec i s = .next s) ∧
    (∀ r : BitVec 4,
      let g := f.region r.toNat
      let waits (c : Nat) : Bool := !g.resident.contains c && s.readyCtx r.toNat c
      let rests (c : Nat) : Bool := !g.pinned.contains c && !s.readyCtx r.toNat c && decide (g.lastReady c + 64 ≤ s.cyc)
      (g.st ≠ .armed ∨ g.bound.any waits = false ∨ g.resident.any rests = false → exec (.contextSwap r) s = .next s) ∧
      (∀ w v, g.st = .armed → g.bound.find? waits = some w → v ∈ g.resident → rests v = true →
        (∀ c ∈ g.resident, c ≠ v → rests c = true → g.lastReady v < g.lastReady c) →
        exec (.contextSwap r) s =
          .next ((s.modField fun f => f.modRegion r.toNat fun g => { g with resident := insNat w (delNat v g.resident) }).swapArea r.toNat w v))) ∧
    (∀ r w v : Nat,
      let c := s.core.cellar
      let at' := c.areas.find? fun a => a.owner == r && a.ctx == w
      (at' = none → s.swapArea r w v = s) ∧
      (∀ a, at' = some a → (∀ d ∈ f.nodes, c.bad (a.off + 256 * plotIndex d.y d.x) 256 = false) →
        let t := s.swapArea r w v
        t.core.field = f ∧ t.core.fq = s.core.fq ∧ t.mem = s.mem ∧
        t.core.cellar.areas = c.areas.map (fun (x : RegArea) => if x.owner = r ∧ x.ctx = w then { x with ctx := v } else x) ∧
        t.core.cellar.bytes = c.bytes)) ∧
    ∀ (n : Nat) (d : Node), f.nodes[n]? = some d →
    let apply : Instr := .cfgPacketApply n
    let forward : Instr := .cfgPacketForward n
    (f.packetReady d = false → exec apply s = .next s ∧ exec forward s = .next s) ∧
    (f.packetReady d = true → f.PlainInputs d → d.region < 16 →
      (∀ k w, d.packet = none → f.leadAt d = some (k, w) →
        (leadOk d w = false → NodeFaults apply s n d 0x43 ∧ NodeFaults forward s n d 0x43) ∧
        (leadOk d w = true → leadHops w = 0 → exec forward s = .next s ∧ ∃ t, exec apply s = .next t ∧ f.Took t.core.field (d.ep k) 1 ∧
          t.core.field.nodes[n]? = some { d with packet := some ⟨k, w, [], leadBody w⟩ }) ∧
        (leadOk d w = true → leadHops w ≠ 0 → exec apply s = .next s ∧
          (f.freeFrom (d.ep (leadOut w)) = 0 → exec forward s = .next s) ∧
          (f.freeFrom (d.ep (leadOut w)) ≠ 0 → ∃ t w', exec forward s = .next t ∧ f.Took t.core.field (d.ep k) 1 ∧ f.Sent t.core.field (d.ep (leadOut w)) [⟨2, w'⟩] ∧
            leadHops w' = leadHops w - 1 ∧ w' &&& 0xF83FFFFFFFFFFFFF = w &&& 0xF83FFFFFFFFFFFFF ∧
            t.core.field.nodes[n]? = some { d with packet := some ⟨k, w, [], leadBody w⟩ }))) ∧
      (∀ p w, d.packet = some p → (f.availTo (d.ep p.inp)).head? = some ⟨2, w⟩ → p.left ≠ 0 →
        let ws := p.words ++ [w]
        (leadHops p.lead = 0 → 1 < p.left → ∃ t, exec apply s = .next t ∧ f.Took t.core.field (d.ep p.inp) 1 ∧
          t.core.field.nodes[n]? = some { d with packet := some { p with words := ws, left := p.left - 1 } }) ∧
        (leadHops p.lead = 0 → p.left = 1 → f.packetFault d p.lead ws = none → ∃ t d', exec apply s = .next t ∧ f.Took t.core.field (d.ep p.inp) 1 ∧
          t.core.field.nodes[n]? = some d' ∧ d'.packet = none ∧ d'.eosIn = [] ∧ d'.eosOut = [] ∧ d'.fir = [] ∧ d'.red = [] ∧ d'.flags = d.flags ∧
          (leadKind p.lead ≠ 1 → d'.regs = d.regs ∧ d'.blk = blockOfWords ws) ∧
          (leadKind p.lead = 1 → d'.blk = d.blk ∧ ∀ j : Fin 16,
            d'.regs[j] = if (ws.headD 0).getLsbD j then ws.tail.getD ((List.range j.val).countP fun k => (ws.headD 0).getLsbD k) 0 else d.regs[j])) ∧
        (∀ c x, leadHops p.lead = 0 → p.left = 1 → f.packetFault d p.lead ws = some (c, x) → ∃ t r, exec apply s = .next t ∧ Reported s t r ∧ r.code = c ∧ r.cls = 7 ∧
          r.detail = BitVec.ofNat 64 x ∧ (t.core.field.region d.region).st = .frozen) ∧
        (leadHops p.lead ≠ 0 → f.freeFrom (d.ep (leadOut p.lead)) ≠ 0 → ∃ t, exec forward s = .next t ∧ f.Took t.core.field (d.ep p.inp) 1 ∧
          f.Sent t.core.field (d.ep (leadOut p.lead)) [⟨2, w⟩] ∧
          t.core.field.nodes[n]? = some { d with packet := if p.left ≤ 1 then none else some { p with left := p.left - 1 } })))

/-! ## The whole machine -/

/-- R58 to R65, R74, R75: words that the spec writes out decode to the instructions that it writes them for. -/
def Obligations.DecodeWords : Prop :=
  decodeScalar 0x004A3FFC = .ok (.addi ⟨false, 0⟩ 5 3 0xFFC) ∧
  decodeScalar 0xA42274C2 = .ok (.cmpImm ⟨true, 2⟩ 4 1 7 9 2) ∧
  decodeScalar 0x163FFFFD = .ok (.br ⟨false, 1⟩ 0x3FFFFD) ∧
  decodeScalar 0x0C508480 = .ok (.issue ⟨false, 0⟩ 2 8 9) ∧
  decodeScalar 0x0B4642AF = .ok (.atomCas ⟨false, 0⟩ 3 4 5 2 true) ∧
  decodeScalar 0x0CC0A000 = .ok (.waitc ⟨false, 0⟩ 10) ∧
  decodeStream 0x0131000000000800003000000FC00001 =
    .loads ⟨3, 0, true⟩ ⟨0x100000, 12, 0, 0, 63, 1⟩ ∧
  decodeStream 0x20000000000010000000080000000000 = .cfgld ⟨0, 0, false⟩ 0x200000 0x20 0 ∧
  decodeStream 0x43600000000038000000000007100018 = .kvapp ⟨6, 0, false⟩ 0x1C000 0x1C400 1 true 0 ∧
  decodeStream 0x321000040C0040000002000000000000 =
    .drillrun ⟨1, 0, false⟩ ⟨64, true, true, false, false, 0x100, 0, 0x200, 0, 0⟩ ∧
  decodeMatrix 0x07FFF0E124280028 = .mma ⟨127, 127, 7, false, 1, 2, 8, 10, 40⟩ ∧
  decodeMatrix 0x0C07FFE014200000 = .mvec ⟨0, 127, 127, false, 0, 1, 8, 8, 0⟩

/-- R58 to R67, R74, R75: a well-formed instruction reads back from the words it is written in, with every operand. -/
def Obligations.EncodingsReadBack : Prop :=
  ∀ i : Instr, i.wf = true →
    (∀ w, encode i = some (.scalar w) → decodeScalar w = .ok i) ∧
    (∀ w, encode i = some (.stream w) → decodeStream w = i) ∧
    ∀ w, encode i = some (.matrix w) → decodeMatrix w = i

/-- R58 to R67, R74, R75: every bit of a word matters. A scalar word that is no reserved encoding, and any command and any matrix token, is the one word of a well-formed instruction. -/
def Obligations.WordsHaveOneReading : Prop :=
  (∀ w i, decodeScalar w = .ok i → i.wf = true ∧ encode i = some (.scalar w)) ∧
  (∀ w, (decodeStream w).wf = true ∧ encode (decodeStream w) = some (.stream w)) ∧
  ∀ w, (decodeMatrix w).wf = true ∧ encode (decodeMatrix w) = some (.matrix w)

/-- R59, R87, R107, R242, R367: what a step runs, on the model's agenda (log 1). With the agenda empty, or at the strand's turn, what the strand fetches: the decoded word, a reserved encoding or a failed fetch; a pending asynchronous trap comes before it, but not before a synchronous trap that it takes itself. That such a trap counts as due when the instruction, run, enters the handler with its own address in cr.EPC, and that an asynchronous trap on the agenda does nothing by itself, are the model's choices (log 1). Else the event at the agenda's head, the next command of an engine context, or the next token of the matrix node. R251, R322: after it, the high-water fields of the core in focus, and of the cores that own stash ranges, hold the larger of their old value and the live units, and a token in its passes notes contents of its memories that have changed. -/
def Obligations.StepRunsWhatComesNext : Prop :=
  let traps (i : Instr) (v : State) : Prop := (∀ q g, i = .mtcr q 0x002 g → v.super = false) ∧
    ∃ t, exec i v = .next t ∧ t.cpu.nest = true ∧ t.cpu.epc = v.pc ∧ t.pc = t.cpu.tvec
  let strand (s u : State) : Prop := (u.cpu.run ≠ .running ∨ u.core.fq.holdsStrand = true → step s = .next u) ∧
    (u.cpu.run = .running → u.core.fq.holdsStrand = false → ∀ v i,
      ((∃ c, u.fetchWord = (.error c, v) ∧ i = .fetchFault c v.pc) ∨
        ∃ w, u.fetchWord = (.ok w, v) ∧ (decodeScalar w = .ok i ∨ ∃ cs, decodeScalar w = .error cs ∧ i = .reservedEncoding cs)) →
      let due := v.core.fq.pending.isSome = true ∧ v.cpu.nest = false
      (¬ due ∨ traps i v → step s = afterExec (exec i v)) ∧ (due → ¬ traps i v → step s = afterExec (exec .asyncTrap v)))
  (∀ s : State, s.agenda = [] → strand s (s.tick 1)) ∧
  (∀ (s : State) (e : Sched) (rest : List Sched), s.agenda = e :: rest →
    let u := ({ s with agenda := rest, cur := e.core } : State).tick e.dt
    (e.act = .strand → strand s u) ∧
    (∀ x, e.act = .firmware x → step s = .next (if x.ok then u.modPorter fun p => { p with setup := x } else u)) ∧
    (∀ a bs, e.act = .hostStore a bs → step s = .next { u with hostMem := memPut u.hostMem a bs }) ∧
    (∀ off w, e.act = .mbWrite off w → step s = .next (u.mbWrite off w)) ∧
    (∀ off, e.act = .mbRead off → step s = .next (if off = 0x070 then (u.modPorter fun p => { p with inval := (p.inval.1, false) }) else u)) ∧
    (e.act = .ev .asyncTrap → step s = .next u) ∧
    (∀ i, i ≠ .asyncTrap → e.act = .ev i → ((∀ c, unitOf i = some c → u.core.fq.holds c = false) → step s = afterExec (exec i u)) ∧
      ∀ c, unitOf i = some c → u.core.fq.holds c = true → step s = .next u) ∧
    (∀ ctx cmd qs, e.act = .start ctx → u.core.nextCommand ctx.toNat = some (cmd, qs) → u.core.canStart ctx.toNat = true →
      step s = afterExec (exec (decodeStream cmd.word)
        (u.modCore fun c => { c with qs := { qs with dlv := ⟨ctx, cmd.num, cmd.sup, cmd.field⟩ } }))) ∧
    ∀ ap w, e.act = .take ap → u.core.matHead ap = some ⟨0, w⟩ → u.core.fq.holds 0x48 = false →
      step s = afterExec (exec (decodeMatrix w) (u.modMat fun m => { m with taking := ap }))) ∧
  (∀ (u u' : State) (x : Phys), canonical u.pc.toInt = true → u.xlateStrand .fetch u.pc.toInt = (.ok x, u') →
    u'.heldErr2 (x.pa / 8) = false → u'.cpu.icache = [] →
    ∃ v, u.fetchWord = (.ok (BitVec.ofNat 32 (memNat u'.mem x.pa 4)), v) ∧
      v = u'.modCpu fun c => { c with icache := v.cpu.icache, ecccnt := v.cpu.ecccnt }) ∧
  (∀ t, afterExec (.next t) = .next t.tally) ∧
  ∀ t : State, t.tally = { t with cores := t.tally.cores } ∧ ∀ i : Fin 192,
    let c := t.cores[i]
    let notes := i = t.cur ∨ ∃ o ∈ t.owners, o.2 = i.val
    let now := (c.cellar.bytes, c.loft.bytes)
    (¬ notes → t.tally.cores[i] = c) ∧
    (notes → (∀ k : Fin 4, t.tally.cores[i].cellar.high[k] = max c.cellar.high[k] (c.liveUnits k.val)) ∧
      t.tally.cores[i] = { c with
        cellar := { c.cellar with high := t.tally.cores[i].cellar.high }
        mat := { c.mat with runs := c.mat.runs.map fun r => { r with pend := r.pend.map fun p =>
          (if p.was.getLast? = some now then p else { p with was := p.was ++ [now] }) } } })

/-- R22, R28, R30, R86, R96, R173, R245, R274, R357, R362, R370, R402: what reset leaves, where the spec gives the value; p0 reads 1. The agenda is empty and both memories are in canonical form. -/
def Obligations.ResetValues : Prop :=
  State.reset.porter.stage = 0 ∧ State.reset.porter.reason = 0 ∧ State.reset.porter.step = 0 ∧ State.reset.porter.cap = 0 ∧
  State.reset.porter.link = 0 ∧ State.reset.launches = [] ∧ State.reset.agenda = [] ∧ State.reset.memOk ∧
  ∀ i : Fin 192, let c := State.reset.cores[i]
    (∀ r, c.cpu.g[BitVec.toNat (r : BitVec 5)] = 0) ∧ ({ State.reset with cur := i } : State).p 0 = true ∧ c.fq.head = 0 ∧ c.fq.tail = 0 ∧
    (∀ t : Fin 16, c.qs.issued[t] = 0 ∧ c.qs.completed[t] = 0) ∧ (∀ q : Fin 8, c.qs.q[q] = []) ∧
    (∀ r : Fin 16, (c.field.regions[r]).st = .empty) ∧ c.field.nodes = [] ∧
    c.ap.bind = .replicate 3 none ∧ c.drill.graph = none ∧ c.loft.asid = none ∧ c.loft.bytes = []

/-- Every step keeps both memories in the canonical form: addresses rising, no entry equal to what an unlisted address reads as (log 4). -/
def Obligations.StepsKeepMemoryCanonical : Prop :=
  ∀ s t : State, s.memOk → step s = .next t → t.memOk
end

