-- ==== Sys2Proof/Laws/Memory.lean ====
section
/-! SUPPORT. Memory as a canonical list: every operation keeps the form, and reads what was written. -/

namespace Sys2Proof.Machine

/-! ## The canonical form as a sorted list -/

/-- The canonical form, in a shape that induction likes. -/
theorem Memory.wf_cons (e : Host.Cell) (t : Memory) :
    Memory.wf (e :: t) = true ↔ e.2 ≠ 0 ∧ (∀ x ∈ t.head?, e.1 < x.1) ∧ Memory.wf t = true := by
  obtain ⟨k, v⟩ := e
  cases t with
  | nil => simp [Memory.wf]
  | cons f r => obtain ⟨k', v'⟩ := f; simp [Memory.wf, and_assoc]

theorem Memory.wf_nil : Memory.wf [] = true := rfl

/-- Every address of a canonical tail lies above the head's. -/
theorem Memory.wf_lt (e : Host.Cell) (t : Memory) (h : Memory.wf (e :: t) = true) : ∀ x ∈ t, e.1 < x.1 := by
  induction t generalizing e with
  | nil => simp
  | cons f r ih =>
    obtain ⟨-, h2, h3⟩ := (Memory.wf_cons e _).1 h
    have hf : e.1 < f.1 := h2 f (by simp)
    intro x hx
    rcases List.mem_cons.1 hx with rfl | hx
    · exact hf
    · exact Nat.lt_trans hf (ih f h3 x hx)

/-- An address that no entry has reads 0. -/
theorem memGet_none (m : Memory) (a : Nat) (h : ∀ x ∈ m, x.1 ≠ a) : memGet m a = 0 := by
  induction m with
  | nil => rfl
  | cons e t ih =>
    obtain ⟨k, v⟩ := e
    have : k ≠ a := h (k, v) (by simp)
    simp only [memGet, this, if_false]
    exact ih fun x hx => h x (by simp [hx])

/-! ## Writing one byte -/

/-- The first address of a memory after a write. -/
theorem memSet_head (m : Memory) (a : Nat) (b : Byte) (k : Nat) (hk : ∀ x ∈ m, k < x.1) (ha : k < a) :
    ∀ x ∈ memSet m a b, k < x.1 := by
  induction m with
  | nil => unfold memSet; split <;> simp [ha]
  | cons e t ih =>
    obtain ⟨j, v⟩ := e
    have hj : k < j := hk (j, v) (by simp)
    have ht : ∀ x ∈ t, k < x.1 := fun x hx => hk x (by simp [hx])
    unfold memSet
    have cons {x : Host.Cell} {l : Memory} (hx : k < x.1) (hl : ∀ y ∈ l, k < y.1) : ∀ y ∈ x :: l, k < y.1 := List.forall_mem_cons.2 ⟨hx, hl⟩
    repeat' split
    · exact hk
    · exact cons ha hk
    · exact ht
    · exact cons ha ht
    · exact cons hj (ih ht)

theorem memSet_wf (m : Memory) (a : Nat) (b : Byte) (h : Memory.wf m = true) : Memory.wf (memSet m a b) = true := by
  induction m with
  | nil => unfold memSet; split <;> simp_all [Memory.wf]
  | cons e t ih =>
    have hl := Memory.wf_lt e t h
    obtain ⟨h1, h2, h3⟩ := (Memory.wf_cons e t).1 h
    obtain ⟨k, v⟩ := e
    unfold memSet
    split
    · split
      · exact h
      · exact (Memory.wf_cons _ _).2 ⟨by assumption, by simpa using ‹_›, h⟩
    · split
      · split
        · exact h3
        · refine (Memory.wf_cons _ _).2 ⟨by assumption, ?_, h3⟩
          rename_i e _; subst e; exact h2
      · refine (Memory.wf_cons _ _).2 ⟨h1, ?_, ih h3⟩
        intro x hx
        exact memSet_head t a b k hl (by omega) x (List.mem_of_mem_head? hx)

/-- A byte written reads back; every other byte stays. -/
theorem memGet_memSet (m : Memory) (a : Nat) (b : Byte) (x : Nat) (h : Memory.wf m = true) :
    memGet (memSet m a b) x = if x = a then b else memGet m x := by
  induction m with
  | nil =>
    unfold memSet; split
    · rename_i hb; subst hb; simp [memGet]
    · simp [memGet, eq_comm]
  | cons e t ih =>
    have hl := Memory.wf_lt e t h
    obtain ⟨h1, h2, h3⟩ := (Memory.wf_cons e t).1 h
    obtain ⟨k, v⟩ := e
    unfold memSet
    split
    · rename_i hak
      have hn : memGet ((k, v) :: t) a = 0 := by
        refine memGet_none _ _ fun y hy => ?_
        rcases List.mem_cons.1 hy with rfl | hy
        · simp; omega
        · have := hl y hy; simp at this; omega
      split
      · rename_i hb; subst hb
        split
        · rename_i e; subst e; exact hn
        · rfl
      · rw [memGet]; simp [eq_comm]
    · split
      · rename_i e; subst e
        have hn : memGet t a = 0 := memGet_none _ _ fun y hy => by have := hl y hy; simp at this; omega
        split
        · rename_i hb; subst hb
          split
          · rename_i e; subst e; exact hn
          · rename_i hx; have : ¬ a = x := fun e => hx e.symm
            simp [memGet, this]
        · simp [memGet, eq_comm]
          split <;> simp_all
      · rename_i hka hne
        simp only [memGet, ih h3]
        split
        · rename_i e; subst e; simp; intro e; exact absurd e.symm hne
        · rfl

/-- A byte that is not written stays, whatever the form of the memory. -/
theorem memGet_memSet_ne (m : Memory) (a : Nat) (b : Byte) (x : Nat) (h : x ≠ a) : memGet (memSet m a b) x = memGet m x := by
  have h' : ¬ a = x := fun e => h e.symm
  induction m with
  | nil => unfold memSet; split <;> simp [memGet, h']
  | cons e t ih =>
    obtain ⟨k, v⟩ := e
    unfold memSet
    split
    · split
      · rfl
      · rw [memGet, if_neg h']
    · split
      · rename_i e; subst e
        split
        · rw [memGet, if_neg h']
        · rw [memGet, if_neg h', memGet, if_neg h']
      · simp only [memGet, ih]

/-! ## Writing several bytes -/

/-- Bytes outside those written stay, whatever the form of the memory. -/
theorem memGet_memPut_out (bs : List Byte) (m : Memory) (a x : Nat) (h : x < a ∨ a + bs.length ≤ x) :
    memGet (memPut m a bs) x = memGet m x := by
  induction bs generalizing m a with
  | nil => rfl
  | cons b bs ih =>
    simp only [List.length_cons] at h
    rw [memPut, ih _ _ (by omega), memGet_memSet_ne _ _ _ _ (by omega)]

theorem memPut_wf (bs : List Byte) (m : Memory) (a : Nat) (h : Memory.wf m = true) : Memory.wf (memPut m a bs) = true := by
  induction bs generalizing m a with
  | nil => exact h
  | cons b bs ih => exact ih _ _ (memSet_wf m a b h)

/-- Bytes written from an address read back in order; every other byte stays. -/
theorem memGet_memPut (bs : List Byte) (m : Memory) (a x : Nat) (h : Memory.wf m = true) :
    memGet (memPut m a bs) x = if a ≤ x ∧ x < a + bs.length then bs.getD (x - a) 0 else memGet m x := by
  induction bs generalizing m a with
  | nil => simp [memPut] <;> omega
  | cons b bs ih =>
    rw [memPut, ih _ _ (memSet_wf m a b h), memGet_memSet _ _ _ _ h]
    by_cases hx : x = a
    · subst hx; simp <;> omega
    · by_cases h1 : a + 1 ≤ x ∧ x < a + 1 + bs.length
      · have h2 : a ≤ x ∧ x < a + (b :: bs).length := by simp; omega
        have h3 : x - a = (x - (a + 1)) + 1 := by omega
        rw [if_pos h1, if_pos h2, h3]; rfl
      · have h2 : ¬ (a ≤ x ∧ x < a + (b :: bs).length) := by simp; omega
        rw [if_neg h1, if_neg h2]; simp [hx]

/-! ## Clearing -/

theorem memFilter_wf (m : Memory) (f : Host.Cell → Bool) (h : Memory.wf m = true) : Memory.wf (m.filter f) = true := by
  induction m with
  | nil => exact h
  | cons e t ih =>
    have hl := Memory.wf_lt e t h
    obtain ⟨h1, -, h3⟩ := (Memory.wf_cons e t).1 h
    simp only [List.filter]
    split
    · refine (Memory.wf_cons _ _).2 ⟨h1, fun x hx => hl x ?_, ih h3⟩
      exact List.mem_filter.1 (List.mem_of_mem_head? hx) |>.1
    · exact ih h3

theorem memClear_wf (m : Memory) (lo hi : Nat) (h : Memory.wf m = true) : Memory.wf (memClear m lo hi) = true :=
  memFilter_wf m _ h

/-- A cleared range reads 0; every other byte stays. -/
theorem memGet_memClear (m : Memory) (lo hi x : Nat) :
    memGet (memClear m lo hi) x = if lo ≤ x ∧ x < hi then 0 else memGet m x := by
  induction m with
  | nil => simp [memClear, memGet]
  | cons e t ih =>
    obtain ⟨k, v⟩ := e
    unfold memClear at ih ⊢
    simp only [List.filter]
    split
    · rename_i hk
      simp only [memGet]
      split
      · rename_i e; subst e; simp at hk; split
        · omega
        · rfl
      · exact ih
    · rename_i hk
      rw [ih]; simp at hk
      split
      · rfl
      · simp only [memGet]; split
        · omega
        · rfl

/-! ## Write-back of a line -/

/-- A fold over memory, and other data, that keeps the form at each step keeps it. -/
theorem foldl_wf {α β : Type} (l : List α) (f : Memory × β → α → Memory × β) (x : Memory × β) (h : Memory.wf x.1 = true)
    (hf : ∀ y a, Memory.wf y.1 = true → Memory.wf (f y a).1 = true) : Memory.wf (l.foldl f x).1 = true :=
  List.foldlRecOn (motive := fun y => Memory.wf y.1 = true) l f h fun y hy a _ => hf y a hy

theorem foldl_mem_wf {α : Type} (l : List α) (f : Memory → α → Memory) (m : Memory) (h : Memory.wf m = true)
    (hf : ∀ y a, Memory.wf y = true → Memory.wf (f y a) = true) : Memory.wf (l.foldl f m) = true :=
  List.foldlRecOn (motive := fun y => Memory.wf y = true) l f h fun y hy a _ => hf y a hy

theorem homePutLine_wf (m : Memory) (e1 e2 : NatSet) (l : CLine) (h : Memory.wf m = true) :
    Memory.wf (homePutLine m e1 e2 l).1 = true := by
  refine foldl_wf _ _ _ h fun y k hy => ?_
  obtain ⟨m, a, b⟩ := y
  show Memory.wf (if _ then _ else _ : Memory × NatSet × NatSet).1 = true
  split
  · exact hy
  · refine foldl_mem_wf _ _ _ hy fun m i hm => ?_
    split
    · exact memSet_wf _ _ _ hm
    · exact hm

end Sys2Proof.Machine
end

