-- ==== Sys2Proof/Laws/State.lean ====
section
/-! SUPPORT. One lemma per field per update of the state: no later proof unfolds a record update. -/

namespace Sys2Proof.Machine

/-! ## The core in focus -/

@[simp] theorem State.setCore_core (s : State) (c : Core) : (s.setCore c).core = c := by
  simp [State.setCore, State.core]

@[simp] theorem State.setCore_setCore (s : State) (c d : Core) : (s.setCore c).setCore d = s.setCore d := by
  simp [State.setCore]

@[simp] theorem State.setCore_self (s : State) : s.setCore s.core = s := by
  simp [State.setCore, State.core]

@[simp] theorem State.modCore_core (s : State) (f : Core → Core) : (s.modCore f).core = f s.core := by
  simp [State.modCore]

@[simp] theorem State.modCore_modCore (s : State) (f g : Core → Core) :
    (s.modCore f).modCore g = s.modCore fun c => g (f c) := by simp [State.modCore]

theorem State.modCore_id (s : State) : s.modCore (fun c => c) = s := by simp [State.modCore]

@[simp] theorem State.modCpu_cpu (s : State) (f : Cpu → Cpu) : (s.modCpu f).cpu = f s.cpu := by
  simp [State.modCpu, State.cpu]

@[simp] theorem State.modCpu_modCpu (s : State) (f g : Cpu → Cpu) :
    (s.modCpu f).modCpu g = s.modCpu fun c => g (f c) := by simp [State.modCpu]

@[simp] theorem State.modCpu_id (s : State) : s.modCpu (fun c => c) = s := State.modCore_id s

@[simp] theorem State.modCpu_self (s : State) (c : Cpu) (h : c = s.cpu) : s.modCpu (fun _ => c) = s := by
  subst h; exact State.setCore_self s

/-- Two changes of the control core that agree on it are the same change of the state. -/
theorem State.modCpu_congr (s : State) (f g : Cpu → Cpu) (h : f s.cpu = g s.cpu) : s.modCpu f = s.modCpu g := by
  simp only [State.modCpu, State.modCore, State.cpu] at *; rw [h]

/-- Two changes of the core in focus that agree on it are the same change of the state. -/
theorem State.modCore_congr (s : State) (f g : Core → Core) (h : f s.core = g s.core) : s.modCore f = s.modCore g := by
  simp only [State.modCore] at *; rw [h]

/-! ## Fields of the device -/

@[simp] theorem State.setCore_agenda (s : State) (c : Core) : (s.setCore c).agenda = s.agenda := rfl
@[simp] theorem State.setCore_cur (s : State) (c : Core) : (s.setCore c).cur = s.cur := rfl
@[simp] theorem State.setCore_pick (s : State) (c : Core) : (s.setCore c).pick = s.pick := rfl
@[simp] theorem State.setCore_cyc (s : State) (c : Core) : (s.setCore c).cyc = s.cyc := rfl
@[simp] theorem State.setCore_time (s : State) (c : Core) : (s.setCore c).time = s.time := rfl
@[simp] theorem State.setCore_mem (s : State) (c : Core) : (s.setCore c).mem = s.mem := rfl
@[simp] theorem State.setCore_full (s : State) (c : Core) : (s.setCore c).full = s.full := rfl
@[simp] theorem State.setCore_ecc1 (s : State) (c : Core) : (s.setCore c).ecc1 = s.ecc1 := rfl
@[simp] theorem State.setCore_ecc2 (s : State) (c : Core) : (s.setCore c).ecc2 = s.ecc2 := rfl
@[simp] theorem State.setCore_hostMem (s : State) (c : Core) : (s.setCore c).hostMem = s.hostMem := rfl
@[simp] theorem State.setCore_slices (s : State) (c : Core) : (s.setCore c).slices = s.slices := rfl
@[simp] theorem State.setCore_far (s : State) (c : Core) : (s.setCore c).far = s.far := rfl
@[simp] theorem State.setCore_pins (s : State) (c : Core) : (s.setCore c).pins = s.pins := rfl
@[simp] theorem State.setCore_owners (s : State) (c : Core) : (s.setCore c).owners = s.owners := rfl
@[simp] theorem State.setCore_launches (s : State) (c : Core) : (s.setCore c).launches = s.launches := rfl
@[simp] theorem State.setCore_admits (s : State) (c : Core) : (s.setCore c).admits = s.admits := rfl
@[simp] theorem State.setCore_porter (s : State) (c : Core) : (s.setCore c).porter = s.porter := rfl

@[simp] theorem State.modCore_agenda (s : State) (f : Core → Core) : (s.modCore f).agenda = s.agenda := rfl
@[simp] theorem State.modCore_cur (s : State) (f : Core → Core) : (s.modCore f).cur = s.cur := rfl
@[simp] theorem State.modCore_pick (s : State) (f : Core → Core) : (s.modCore f).pick = s.pick := rfl
@[simp] theorem State.modCore_cyc (s : State) (f : Core → Core) : (s.modCore f).cyc = s.cyc := rfl
@[simp] theorem State.modCore_time (s : State) (f : Core → Core) : (s.modCore f).time = s.time := rfl
@[simp] theorem State.modCore_mem (s : State) (f : Core → Core) : (s.modCore f).mem = s.mem := rfl
@[simp] theorem State.modCore_full (s : State) (f : Core → Core) : (s.modCore f).full = s.full := rfl
@[simp] theorem State.modCore_ecc1 (s : State) (f : Core → Core) : (s.modCore f).ecc1 = s.ecc1 := rfl
@[simp] theorem State.modCore_ecc2 (s : State) (f : Core → Core) : (s.modCore f).ecc2 = s.ecc2 := rfl
@[simp] theorem State.modCore_hostMem (s : State) (f : Core → Core) : (s.modCore f).hostMem = s.hostMem := rfl
@[simp] theorem State.modCore_slices (s : State) (f : Core → Core) : (s.modCore f).slices = s.slices := rfl
@[simp] theorem State.modCore_far (s : State) (f : Core → Core) : (s.modCore f).far = s.far := rfl
@[simp] theorem State.modCore_pins (s : State) (f : Core → Core) : (s.modCore f).pins = s.pins := rfl
@[simp] theorem State.modCore_owners (s : State) (f : Core → Core) : (s.modCore f).owners = s.owners := rfl
@[simp] theorem State.modCore_launches (s : State) (f : Core → Core) : (s.modCore f).launches = s.launches := rfl
@[simp] theorem State.modCore_admits (s : State) (f : Core → Core) : (s.modCore f).admits = s.admits := rfl
@[simp] theorem State.modCore_porter (s : State) (f : Core → Core) : (s.modCore f).porter = s.porter := rfl

@[simp] theorem State.modCpu_agenda (s : State) (f : Cpu → Cpu) : (s.modCpu f).agenda = s.agenda := rfl
@[simp] theorem State.modCpu_cur (s : State) (f : Cpu → Cpu) : (s.modCpu f).cur = s.cur := rfl
@[simp] theorem State.modCpu_pick (s : State) (f : Cpu → Cpu) : (s.modCpu f).pick = s.pick := rfl
@[simp] theorem State.modCpu_cyc (s : State) (f : Cpu → Cpu) : (s.modCpu f).cyc = s.cyc := rfl
@[simp] theorem State.modCpu_time (s : State) (f : Cpu → Cpu) : (s.modCpu f).time = s.time := rfl
@[simp] theorem State.modCpu_mem (s : State) (f : Cpu → Cpu) : (s.modCpu f).mem = s.mem := rfl
@[simp] theorem State.modCpu_full (s : State) (f : Cpu → Cpu) : (s.modCpu f).full = s.full := rfl
@[simp] theorem State.modCpu_ecc1 (s : State) (f : Cpu → Cpu) : (s.modCpu f).ecc1 = s.ecc1 := rfl
@[simp] theorem State.modCpu_ecc2 (s : State) (f : Cpu → Cpu) : (s.modCpu f).ecc2 = s.ecc2 := rfl
@[simp] theorem State.modCpu_hostMem (s : State) (f : Cpu → Cpu) : (s.modCpu f).hostMem = s.hostMem := rfl
@[simp] theorem State.modCpu_slices (s : State) (f : Cpu → Cpu) : (s.modCpu f).slices = s.slices := rfl
@[simp] theorem State.modCpu_far (s : State) (f : Cpu → Cpu) : (s.modCpu f).far = s.far := rfl
@[simp] theorem State.modCpu_pins (s : State) (f : Cpu → Cpu) : (s.modCpu f).pins = s.pins := rfl
@[simp] theorem State.modCpu_owners (s : State) (f : Cpu → Cpu) : (s.modCpu f).owners = s.owners := rfl
@[simp] theorem State.modCpu_launches (s : State) (f : Cpu → Cpu) : (s.modCpu f).launches = s.launches := rfl
@[simp] theorem State.modCpu_admits (s : State) (f : Cpu → Cpu) : (s.modCpu f).admits = s.admits := rfl
@[simp] theorem State.modCpu_porter (s : State) (f : Cpu → Cpu) : (s.modCpu f).porter = s.porter := rfl

@[simp] theorem State.modQs_agenda (s : State) (f : Queues → Queues) : (s.modQs f).agenda = s.agenda := rfl
@[simp] theorem State.modQs_cur (s : State) (f : Queues → Queues) : (s.modQs f).cur = s.cur := rfl
@[simp] theorem State.modQs_pick (s : State) (f : Queues → Queues) : (s.modQs f).pick = s.pick := rfl
@[simp] theorem State.modQs_cyc (s : State) (f : Queues → Queues) : (s.modQs f).cyc = s.cyc := rfl
@[simp] theorem State.modQs_time (s : State) (f : Queues → Queues) : (s.modQs f).time = s.time := rfl
@[simp] theorem State.modQs_mem (s : State) (f : Queues → Queues) : (s.modQs f).mem = s.mem := rfl
@[simp] theorem State.modQs_full (s : State) (f : Queues → Queues) : (s.modQs f).full = s.full := rfl
@[simp] theorem State.modQs_ecc1 (s : State) (f : Queues → Queues) : (s.modQs f).ecc1 = s.ecc1 := rfl
@[simp] theorem State.modQs_ecc2 (s : State) (f : Queues → Queues) : (s.modQs f).ecc2 = s.ecc2 := rfl
@[simp] theorem State.modQs_hostMem (s : State) (f : Queues → Queues) : (s.modQs f).hostMem = s.hostMem := rfl
@[simp] theorem State.modQs_slices (s : State) (f : Queues → Queues) : (s.modQs f).slices = s.slices := rfl
@[simp] theorem State.modQs_far (s : State) (f : Queues → Queues) : (s.modQs f).far = s.far := rfl
@[simp] theorem State.modQs_pins (s : State) (f : Queues → Queues) : (s.modQs f).pins = s.pins := rfl
@[simp] theorem State.modQs_owners (s : State) (f : Queues → Queues) : (s.modQs f).owners = s.owners := rfl
@[simp] theorem State.modQs_launches (s : State) (f : Queues → Queues) : (s.modQs f).launches = s.launches := rfl
@[simp] theorem State.modQs_admits (s : State) (f : Queues → Queues) : (s.modQs f).admits = s.admits := rfl
@[simp] theorem State.modQs_porter (s : State) (f : Queues → Queues) : (s.modQs f).porter = s.porter := rfl

@[simp] theorem State.modFq_agenda (s : State) (f : FaultQ → FaultQ) : (s.modFq f).agenda = s.agenda := rfl
@[simp] theorem State.modFq_cur (s : State) (f : FaultQ → FaultQ) : (s.modFq f).cur = s.cur := rfl
@[simp] theorem State.modFq_pick (s : State) (f : FaultQ → FaultQ) : (s.modFq f).pick = s.pick := rfl
@[simp] theorem State.modFq_cyc (s : State) (f : FaultQ → FaultQ) : (s.modFq f).cyc = s.cyc := rfl
@[simp] theorem State.modFq_time (s : State) (f : FaultQ → FaultQ) : (s.modFq f).time = s.time := rfl
@[simp] theorem State.modFq_mem (s : State) (f : FaultQ → FaultQ) : (s.modFq f).mem = s.mem := rfl
@[simp] theorem State.modFq_full (s : State) (f : FaultQ → FaultQ) : (s.modFq f).full = s.full := rfl
@[simp] theorem State.modFq_ecc1 (s : State) (f : FaultQ → FaultQ) : (s.modFq f).ecc1 = s.ecc1 := rfl
@[simp] theorem State.modFq_ecc2 (s : State) (f : FaultQ → FaultQ) : (s.modFq f).ecc2 = s.ecc2 := rfl
@[simp] theorem State.modFq_hostMem (s : State) (f : FaultQ → FaultQ) : (s.modFq f).hostMem = s.hostMem := rfl
@[simp] theorem State.modFq_slices (s : State) (f : FaultQ → FaultQ) : (s.modFq f).slices = s.slices := rfl
@[simp] theorem State.modFq_far (s : State) (f : FaultQ → FaultQ) : (s.modFq f).far = s.far := rfl
@[simp] theorem State.modFq_pins (s : State) (f : FaultQ → FaultQ) : (s.modFq f).pins = s.pins := rfl
@[simp] theorem State.modFq_owners (s : State) (f : FaultQ → FaultQ) : (s.modFq f).owners = s.owners := rfl
@[simp] theorem State.modFq_launches (s : State) (f : FaultQ → FaultQ) : (s.modFq f).launches = s.launches := rfl
@[simp] theorem State.modFq_admits (s : State) (f : FaultQ → FaultQ) : (s.modFq f).admits = s.admits := rfl
@[simp] theorem State.modFq_porter (s : State) (f : FaultQ → FaultQ) : (s.modFq f).porter = s.porter := rfl

@[simp] theorem State.modCellar_agenda (s : State) (f : Cellar → Cellar) : (s.modCellar f).agenda = s.agenda := rfl
@[simp] theorem State.modCellar_cur (s : State) (f : Cellar → Cellar) : (s.modCellar f).cur = s.cur := rfl
@[simp] theorem State.modCellar_pick (s : State) (f : Cellar → Cellar) : (s.modCellar f).pick = s.pick := rfl
@[simp] theorem State.modCellar_cyc (s : State) (f : Cellar → Cellar) : (s.modCellar f).cyc = s.cyc := rfl
@[simp] theorem State.modCellar_time (s : State) (f : Cellar → Cellar) : (s.modCellar f).time = s.time := rfl
@[simp] theorem State.modCellar_mem (s : State) (f : Cellar → Cellar) : (s.modCellar f).mem = s.mem := rfl
@[simp] theorem State.modCellar_full (s : State) (f : Cellar → Cellar) : (s.modCellar f).full = s.full := rfl
@[simp] theorem State.modCellar_ecc1 (s : State) (f : Cellar → Cellar) : (s.modCellar f).ecc1 = s.ecc1 := rfl
@[simp] theorem State.modCellar_ecc2 (s : State) (f : Cellar → Cellar) : (s.modCellar f).ecc2 = s.ecc2 := rfl
@[simp] theorem State.modCellar_hostMem (s : State) (f : Cellar → Cellar) : (s.modCellar f).hostMem = s.hostMem := rfl
@[simp] theorem State.modCellar_slices (s : State) (f : Cellar → Cellar) : (s.modCellar f).slices = s.slices := rfl
@[simp] theorem State.modCellar_far (s : State) (f : Cellar → Cellar) : (s.modCellar f).far = s.far := rfl
@[simp] theorem State.modCellar_pins (s : State) (f : Cellar → Cellar) : (s.modCellar f).pins = s.pins := rfl
@[simp] theorem State.modCellar_owners (s : State) (f : Cellar → Cellar) : (s.modCellar f).owners = s.owners := rfl
@[simp] theorem State.modCellar_launches (s : State) (f : Cellar → Cellar) : (s.modCellar f).launches = s.launches := rfl
@[simp] theorem State.modCellar_admits (s : State) (f : Cellar → Cellar) : (s.modCellar f).admits = s.admits := rfl
@[simp] theorem State.modCellar_porter (s : State) (f : Cellar → Cellar) : (s.modCellar f).porter = s.porter := rfl

@[simp] theorem State.modMat_agenda (s : State) (f : Matrix → Matrix) : (s.modMat f).agenda = s.agenda := rfl
@[simp] theorem State.modMat_cur (s : State) (f : Matrix → Matrix) : (s.modMat f).cur = s.cur := rfl
@[simp] theorem State.modMat_pick (s : State) (f : Matrix → Matrix) : (s.modMat f).pick = s.pick := rfl
@[simp] theorem State.modMat_cyc (s : State) (f : Matrix → Matrix) : (s.modMat f).cyc = s.cyc := rfl
@[simp] theorem State.modMat_time (s : State) (f : Matrix → Matrix) : (s.modMat f).time = s.time := rfl
@[simp] theorem State.modMat_mem (s : State) (f : Matrix → Matrix) : (s.modMat f).mem = s.mem := rfl
@[simp] theorem State.modMat_full (s : State) (f : Matrix → Matrix) : (s.modMat f).full = s.full := rfl
@[simp] theorem State.modMat_ecc1 (s : State) (f : Matrix → Matrix) : (s.modMat f).ecc1 = s.ecc1 := rfl
@[simp] theorem State.modMat_ecc2 (s : State) (f : Matrix → Matrix) : (s.modMat f).ecc2 = s.ecc2 := rfl
@[simp] theorem State.modMat_hostMem (s : State) (f : Matrix → Matrix) : (s.modMat f).hostMem = s.hostMem := rfl
@[simp] theorem State.modMat_slices (s : State) (f : Matrix → Matrix) : (s.modMat f).slices = s.slices := rfl
@[simp] theorem State.modMat_far (s : State) (f : Matrix → Matrix) : (s.modMat f).far = s.far := rfl
@[simp] theorem State.modMat_pins (s : State) (f : Matrix → Matrix) : (s.modMat f).pins = s.pins := rfl
@[simp] theorem State.modMat_owners (s : State) (f : Matrix → Matrix) : (s.modMat f).owners = s.owners := rfl
@[simp] theorem State.modMat_launches (s : State) (f : Matrix → Matrix) : (s.modMat f).launches = s.launches := rfl
@[simp] theorem State.modMat_admits (s : State) (f : Matrix → Matrix) : (s.modMat f).admits = s.admits := rfl
@[simp] theorem State.modMat_porter (s : State) (f : Matrix → Matrix) : (s.modMat f).porter = s.porter := rfl

@[simp] theorem State.modDrill_agenda (s : State) (f : Drill → Drill) : (s.modDrill f).agenda = s.agenda := rfl
@[simp] theorem State.modDrill_cur (s : State) (f : Drill → Drill) : (s.modDrill f).cur = s.cur := rfl
@[simp] theorem State.modDrill_pick (s : State) (f : Drill → Drill) : (s.modDrill f).pick = s.pick := rfl
@[simp] theorem State.modDrill_cyc (s : State) (f : Drill → Drill) : (s.modDrill f).cyc = s.cyc := rfl
@[simp] theorem State.modDrill_time (s : State) (f : Drill → Drill) : (s.modDrill f).time = s.time := rfl
@[simp] theorem State.modDrill_mem (s : State) (f : Drill → Drill) : (s.modDrill f).mem = s.mem := rfl
@[simp] theorem State.modDrill_full (s : State) (f : Drill → Drill) : (s.modDrill f).full = s.full := rfl
@[simp] theorem State.modDrill_ecc1 (s : State) (f : Drill → Drill) : (s.modDrill f).ecc1 = s.ecc1 := rfl
@[simp] theorem State.modDrill_ecc2 (s : State) (f : Drill → Drill) : (s.modDrill f).ecc2 = s.ecc2 := rfl
@[simp] theorem State.modDrill_hostMem (s : State) (f : Drill → Drill) : (s.modDrill f).hostMem = s.hostMem := rfl
@[simp] theorem State.modDrill_slices (s : State) (f : Drill → Drill) : (s.modDrill f).slices = s.slices := rfl
@[simp] theorem State.modDrill_far (s : State) (f : Drill → Drill) : (s.modDrill f).far = s.far := rfl
@[simp] theorem State.modDrill_pins (s : State) (f : Drill → Drill) : (s.modDrill f).pins = s.pins := rfl
@[simp] theorem State.modDrill_owners (s : State) (f : Drill → Drill) : (s.modDrill f).owners = s.owners := rfl
@[simp] theorem State.modDrill_launches (s : State) (f : Drill → Drill) : (s.modDrill f).launches = s.launches := rfl
@[simp] theorem State.modDrill_admits (s : State) (f : Drill → Drill) : (s.modDrill f).admits = s.admits := rfl
@[simp] theorem State.modDrill_porter (s : State) (f : Drill → Drill) : (s.modDrill f).porter = s.porter := rfl

@[simp] theorem State.modAp_agenda (s : State) (f : Ap → Ap) : (s.modAp f).agenda = s.agenda := rfl
@[simp] theorem State.modAp_cur (s : State) (f : Ap → Ap) : (s.modAp f).cur = s.cur := rfl
@[simp] theorem State.modAp_pick (s : State) (f : Ap → Ap) : (s.modAp f).pick = s.pick := rfl
@[simp] theorem State.modAp_cyc (s : State) (f : Ap → Ap) : (s.modAp f).cyc = s.cyc := rfl
@[simp] theorem State.modAp_time (s : State) (f : Ap → Ap) : (s.modAp f).time = s.time := rfl
@[simp] theorem State.modAp_mem (s : State) (f : Ap → Ap) : (s.modAp f).mem = s.mem := rfl
@[simp] theorem State.modAp_full (s : State) (f : Ap → Ap) : (s.modAp f).full = s.full := rfl
@[simp] theorem State.modAp_ecc1 (s : State) (f : Ap → Ap) : (s.modAp f).ecc1 = s.ecc1 := rfl
@[simp] theorem State.modAp_ecc2 (s : State) (f : Ap → Ap) : (s.modAp f).ecc2 = s.ecc2 := rfl
@[simp] theorem State.modAp_hostMem (s : State) (f : Ap → Ap) : (s.modAp f).hostMem = s.hostMem := rfl
@[simp] theorem State.modAp_slices (s : State) (f : Ap → Ap) : (s.modAp f).slices = s.slices := rfl
@[simp] theorem State.modAp_far (s : State) (f : Ap → Ap) : (s.modAp f).far = s.far := rfl
@[simp] theorem State.modAp_pins (s : State) (f : Ap → Ap) : (s.modAp f).pins = s.pins := rfl
@[simp] theorem State.modAp_owners (s : State) (f : Ap → Ap) : (s.modAp f).owners = s.owners := rfl
@[simp] theorem State.modAp_launches (s : State) (f : Ap → Ap) : (s.modAp f).launches = s.launches := rfl
@[simp] theorem State.modAp_admits (s : State) (f : Ap → Ap) : (s.modAp f).admits = s.admits := rfl
@[simp] theorem State.modAp_porter (s : State) (f : Ap → Ap) : (s.modAp f).porter = s.porter := rfl

@[simp] theorem State.modField_agenda (s : State) (f : Field → Field) : (s.modField f).agenda = s.agenda := rfl
@[simp] theorem State.modField_cur (s : State) (f : Field → Field) : (s.modField f).cur = s.cur := rfl
@[simp] theorem State.modField_pick (s : State) (f : Field → Field) : (s.modField f).pick = s.pick := rfl
@[simp] theorem State.modField_cyc (s : State) (f : Field → Field) : (s.modField f).cyc = s.cyc := rfl
@[simp] theorem State.modField_time (s : State) (f : Field → Field) : (s.modField f).time = s.time := rfl
@[simp] theorem State.modField_mem (s : State) (f : Field → Field) : (s.modField f).mem = s.mem := rfl
@[simp] theorem State.modField_full (s : State) (f : Field → Field) : (s.modField f).full = s.full := rfl
@[simp] theorem State.modField_ecc1 (s : State) (f : Field → Field) : (s.modField f).ecc1 = s.ecc1 := rfl
@[simp] theorem State.modField_ecc2 (s : State) (f : Field → Field) : (s.modField f).ecc2 = s.ecc2 := rfl
@[simp] theorem State.modField_hostMem (s : State) (f : Field → Field) : (s.modField f).hostMem = s.hostMem := rfl
@[simp] theorem State.modField_slices (s : State) (f : Field → Field) : (s.modField f).slices = s.slices := rfl
@[simp] theorem State.modField_far (s : State) (f : Field → Field) : (s.modField f).far = s.far := rfl
@[simp] theorem State.modField_pins (s : State) (f : Field → Field) : (s.modField f).pins = s.pins := rfl
@[simp] theorem State.modField_owners (s : State) (f : Field → Field) : (s.modField f).owners = s.owners := rfl
@[simp] theorem State.modField_launches (s : State) (f : Field → Field) : (s.modField f).launches = s.launches := rfl
@[simp] theorem State.modField_admits (s : State) (f : Field → Field) : (s.modField f).admits = s.admits := rfl
@[simp] theorem State.modField_porter (s : State) (f : Field → Field) : (s.modField f).porter = s.porter := rfl

@[simp] theorem State.modLoader_agenda (s : State) (f : Loader → Loader) : (s.modLoader f).agenda = s.agenda := rfl
@[simp] theorem State.modLoader_cur (s : State) (f : Loader → Loader) : (s.modLoader f).cur = s.cur := rfl
@[simp] theorem State.modLoader_pick (s : State) (f : Loader → Loader) : (s.modLoader f).pick = s.pick := rfl
@[simp] theorem State.modLoader_cyc (s : State) (f : Loader → Loader) : (s.modLoader f).cyc = s.cyc := rfl
@[simp] theorem State.modLoader_time (s : State) (f : Loader → Loader) : (s.modLoader f).time = s.time := rfl
@[simp] theorem State.modLoader_mem (s : State) (f : Loader → Loader) : (s.modLoader f).mem = s.mem := rfl
@[simp] theorem State.modLoader_full (s : State) (f : Loader → Loader) : (s.modLoader f).full = s.full := rfl
@[simp] theorem State.modLoader_ecc1 (s : State) (f : Loader → Loader) : (s.modLoader f).ecc1 = s.ecc1 := rfl
@[simp] theorem State.modLoader_ecc2 (s : State) (f : Loader → Loader) : (s.modLoader f).ecc2 = s.ecc2 := rfl
@[simp] theorem State.modLoader_hostMem (s : State) (f : Loader → Loader) : (s.modLoader f).hostMem = s.hostMem := rfl
@[simp] theorem State.modLoader_slices (s : State) (f : Loader → Loader) : (s.modLoader f).slices = s.slices := rfl
@[simp] theorem State.modLoader_far (s : State) (f : Loader → Loader) : (s.modLoader f).far = s.far := rfl
@[simp] theorem State.modLoader_pins (s : State) (f : Loader → Loader) : (s.modLoader f).pins = s.pins := rfl
@[simp] theorem State.modLoader_owners (s : State) (f : Loader → Loader) : (s.modLoader f).owners = s.owners := rfl
@[simp] theorem State.modLoader_launches (s : State) (f : Loader → Loader) : (s.modLoader f).launches = s.launches := rfl
@[simp] theorem State.modLoader_admits (s : State) (f : Loader → Loader) : (s.modLoader f).admits = s.admits := rfl
@[simp] theorem State.modLoader_porter (s : State) (f : Loader → Loader) : (s.modLoader f).porter = s.porter := rfl

@[simp] theorem State.modPorter_agenda (s : State) (f : Porter → Porter) : (s.modPorter f).agenda = s.agenda := rfl
@[simp] theorem State.modPorter_cur (s : State) (f : Porter → Porter) : (s.modPorter f).cur = s.cur := rfl
@[simp] theorem State.modPorter_pick (s : State) (f : Porter → Porter) : (s.modPorter f).pick = s.pick := rfl
@[simp] theorem State.modPorter_cyc (s : State) (f : Porter → Porter) : (s.modPorter f).cyc = s.cyc := rfl
@[simp] theorem State.modPorter_time (s : State) (f : Porter → Porter) : (s.modPorter f).time = s.time := rfl
@[simp] theorem State.modPorter_mem (s : State) (f : Porter → Porter) : (s.modPorter f).mem = s.mem := rfl
@[simp] theorem State.modPorter_full (s : State) (f : Porter → Porter) : (s.modPorter f).full = s.full := rfl
@[simp] theorem State.modPorter_ecc1 (s : State) (f : Porter → Porter) : (s.modPorter f).ecc1 = s.ecc1 := rfl
@[simp] theorem State.modPorter_ecc2 (s : State) (f : Porter → Porter) : (s.modPorter f).ecc2 = s.ecc2 := rfl
@[simp] theorem State.modPorter_hostMem (s : State) (f : Porter → Porter) : (s.modPorter f).hostMem = s.hostMem := rfl
@[simp] theorem State.modPorter_slices (s : State) (f : Porter → Porter) : (s.modPorter f).slices = s.slices := rfl
@[simp] theorem State.modPorter_far (s : State) (f : Porter → Porter) : (s.modPorter f).far = s.far := rfl
@[simp] theorem State.modPorter_pins (s : State) (f : Porter → Porter) : (s.modPorter f).pins = s.pins := rfl
@[simp] theorem State.modPorter_owners (s : State) (f : Porter → Porter) : (s.modPorter f).owners = s.owners := rfl
@[simp] theorem State.modPorter_launches (s : State) (f : Porter → Porter) : (s.modPorter f).launches = s.launches := rfl
@[simp] theorem State.modPorter_admits (s : State) (f : Porter → Porter) : (s.modPorter f).admits = s.admits := rfl
@[simp] theorem State.modPorter_porter (s : State) (f : Porter → Porter) : (s.modPorter f).porter = f s.porter := rfl
@[simp] theorem State.modPorter_cores (s : State) (f : Porter → Porter) : (s.modPorter f).cores = s.cores := rfl
@[simp] theorem State.modPorter_core (s : State) (f : Porter → Porter) : (s.modPorter f).core = s.core := rfl
@[simp] theorem State.modPorter_cpu (s : State) (f : Porter → Porter) : (s.modPorter f).cpu = s.cpu := rfl

/-! ## Parts of the core in focus -/

@[simp] theorem State.modCpu_core_cpu (s : State) (f : Cpu → Cpu) : (s.modCpu f).core.cpu = f s.core.cpu := by simp [State.modCpu]
@[simp] theorem State.modCpu_core_on (s : State) (f : Cpu → Cpu) : (s.modCpu f).core.on = s.core.on := by simp [State.modCpu]
@[simp] theorem State.modCpu_core_fq (s : State) (f : Cpu → Cpu) : (s.modCpu f).core.fq = s.core.fq := by simp [State.modCpu]
@[simp] theorem State.modCpu_core_inval (s : State) (f : Cpu → Cpu) : (s.modCpu f).core.inval = s.core.inval := by simp [State.modCpu]
@[simp] theorem State.modCpu_core_invalOf (s : State) (f : Cpu → Cpu) : (s.modCpu f).core.invalOf = s.core.invalOf := by simp [State.modCpu]
@[simp] theorem State.modCpu_core_qs (s : State) (f : Cpu → Cpu) : (s.modCpu f).core.qs = s.core.qs := by simp [State.modCpu]
@[simp] theorem State.modCpu_core_ports (s : State) (f : Cpu → Cpu) : (s.modCpu f).core.ports = s.core.ports := by simp [State.modCpu]
@[simp] theorem State.modCpu_core_edge (s : State) (f : Cpu → Cpu) : (s.modCpu f).core.edge = s.core.edge := by simp [State.modCpu]
@[simp] theorem State.modCpu_core_copies (s : State) (f : Cpu → Cpu) : (s.modCpu f).core.copies = s.core.copies := by simp [State.modCpu]
@[simp] theorem State.modCpu_core_loader (s : State) (f : Cpu → Cpu) : (s.modCpu f).core.loader = s.core.loader := by simp [State.modCpu]
@[simp] theorem State.modCpu_core_mat (s : State) (f : Cpu → Cpu) : (s.modCpu f).core.mat = s.core.mat := by simp [State.modCpu]
@[simp] theorem State.modCpu_core_drill (s : State) (f : Cpu → Cpu) : (s.modCpu f).core.drill = s.core.drill := by simp [State.modCpu]
@[simp] theorem State.modCpu_core_ap (s : State) (f : Cpu → Cpu) : (s.modCpu f).core.ap = s.core.ap := by simp [State.modCpu]
@[simp] theorem State.modCpu_core_field (s : State) (f : Cpu → Cpu) : (s.modCpu f).core.field = s.core.field := by simp [State.modCpu]
@[simp] theorem State.modCpu_core_cellar (s : State) (f : Cpu → Cpu) : (s.modCpu f).core.cellar = s.core.cellar := by simp [State.modCpu]
@[simp] theorem State.modCpu_core_loft (s : State) (f : Cpu → Cpu) : (s.modCpu f).core.loft = s.core.loft := by simp [State.modCpu]

@[simp] theorem State.modQs_core_cpu (s : State) (f : Queues → Queues) : (s.modQs f).core.cpu = s.core.cpu := by simp [State.modQs]
@[simp] theorem State.modQs_core_on (s : State) (f : Queues → Queues) : (s.modQs f).core.on = s.core.on := by simp [State.modQs]
@[simp] theorem State.modQs_core_fq (s : State) (f : Queues → Queues) : (s.modQs f).core.fq = s.core.fq := by simp [State.modQs]
@[simp] theorem State.modQs_core_inval (s : State) (f : Queues → Queues) : (s.modQs f).core.inval = s.core.inval := by simp [State.modQs]
@[simp] theorem State.modQs_core_invalOf (s : State) (f : Queues → Queues) : (s.modQs f).core.invalOf = s.core.invalOf := by simp [State.modQs]
@[simp] theorem State.modQs_core_qs (s : State) (f : Queues → Queues) : (s.modQs f).core.qs = f s.core.qs := by simp [State.modQs]
@[simp] theorem State.modQs_core_ports (s : State) (f : Queues → Queues) : (s.modQs f).core.ports = s.core.ports := by simp [State.modQs]
@[simp] theorem State.modQs_core_edge (s : State) (f : Queues → Queues) : (s.modQs f).core.edge = s.core.edge := by simp [State.modQs]
@[simp] theorem State.modQs_core_copies (s : State) (f : Queues → Queues) : (s.modQs f).core.copies = s.core.copies := by simp [State.modQs]
@[simp] theorem State.modQs_core_loader (s : State) (f : Queues → Queues) : (s.modQs f).core.loader = s.core.loader := by simp [State.modQs]
@[simp] theorem State.modQs_core_mat (s : State) (f : Queues → Queues) : (s.modQs f).core.mat = s.core.mat := by simp [State.modQs]
@[simp] theorem State.modQs_core_drill (s : State) (f : Queues → Queues) : (s.modQs f).core.drill = s.core.drill := by simp [State.modQs]
@[simp] theorem State.modQs_core_ap (s : State) (f : Queues → Queues) : (s.modQs f).core.ap = s.core.ap := by simp [State.modQs]
@[simp] theorem State.modQs_core_field (s : State) (f : Queues → Queues) : (s.modQs f).core.field = s.core.field := by simp [State.modQs]
@[simp] theorem State.modQs_core_cellar (s : State) (f : Queues → Queues) : (s.modQs f).core.cellar = s.core.cellar := by simp [State.modQs]
@[simp] theorem State.modQs_core_loft (s : State) (f : Queues → Queues) : (s.modQs f).core.loft = s.core.loft := by simp [State.modQs]

@[simp] theorem State.modQs_cpu (s : State) (f : Queues → Queues) : (s.modQs f).cpu = s.cpu := by simp [State.modQs, State.cpu]

@[simp] theorem State.modFq_core_cpu (s : State) (f : FaultQ → FaultQ) : (s.modFq f).core.cpu = s.core.cpu := by simp [State.modFq]
@[simp] theorem State.modFq_core_on (s : State) (f : FaultQ → FaultQ) : (s.modFq f).core.on = s.core.on := by simp [State.modFq]
@[simp] theorem State.modFq_core_fq (s : State) (f : FaultQ → FaultQ) : (s.modFq f).core.fq = f s.core.fq := by simp [State.modFq]
@[simp] theorem State.modFq_core_inval (s : State) (f : FaultQ → FaultQ) : (s.modFq f).core.inval = s.core.inval := by simp [State.modFq]
@[simp] theorem State.modFq_core_invalOf (s : State) (f : FaultQ → FaultQ) : (s.modFq f).core.invalOf = s.core.invalOf := by simp [State.modFq]
@[simp] theorem State.modFq_core_qs (s : State) (f : FaultQ → FaultQ) : (s.modFq f).core.qs = s.core.qs := by simp [State.modFq]
@[simp] theorem State.modFq_core_ports (s : State) (f : FaultQ → FaultQ) : (s.modFq f).core.ports = s.core.ports := by simp [State.modFq]
@[simp] theorem State.modFq_core_edge (s : State) (f : FaultQ → FaultQ) : (s.modFq f).core.edge = s.core.edge := by simp [State.modFq]
@[simp] theorem State.modFq_core_copies (s : State) (f : FaultQ → FaultQ) : (s.modFq f).core.copies = s.core.copies := by simp [State.modFq]
@[simp] theorem State.modFq_core_loader (s : State) (f : FaultQ → FaultQ) : (s.modFq f).core.loader = s.core.loader := by simp [State.modFq]
@[simp] theorem State.modFq_core_mat (s : State) (f : FaultQ → FaultQ) : (s.modFq f).core.mat = s.core.mat := by simp [State.modFq]
@[simp] theorem State.modFq_core_drill (s : State) (f : FaultQ → FaultQ) : (s.modFq f).core.drill = s.core.drill := by simp [State.modFq]
@[simp] theorem State.modFq_core_ap (s : State) (f : FaultQ → FaultQ) : (s.modFq f).core.ap = s.core.ap := by simp [State.modFq]
@[simp] theorem State.modFq_core_field (s : State) (f : FaultQ → FaultQ) : (s.modFq f).core.field = s.core.field := by simp [State.modFq]
@[simp] theorem State.modFq_core_cellar (s : State) (f : FaultQ → FaultQ) : (s.modFq f).core.cellar = s.core.cellar := by simp [State.modFq]
@[simp] theorem State.modFq_core_loft (s : State) (f : FaultQ → FaultQ) : (s.modFq f).core.loft = s.core.loft := by simp [State.modFq]

@[simp] theorem State.modFq_cpu (s : State) (f : FaultQ → FaultQ) : (s.modFq f).cpu = s.cpu := by simp [State.modFq, State.cpu]

@[simp] theorem State.modCellar_core_cpu (s : State) (f : Cellar → Cellar) : (s.modCellar f).core.cpu = s.core.cpu := by simp [State.modCellar]
@[simp] theorem State.modCellar_core_on (s : State) (f : Cellar → Cellar) : (s.modCellar f).core.on = s.core.on := by simp [State.modCellar]
@[simp] theorem State.modCellar_core_fq (s : State) (f : Cellar → Cellar) : (s.modCellar f).core.fq = s.core.fq := by simp [State.modCellar]
@[simp] theorem State.modCellar_core_inval (s : State) (f : Cellar → Cellar) : (s.modCellar f).core.inval = s.core.inval := by simp [State.modCellar]
@[simp] theorem State.modCellar_core_invalOf (s : State) (f : Cellar → Cellar) : (s.modCellar f).core.invalOf = s.core.invalOf := by simp [State.modCellar]
@[simp] theorem State.modCellar_core_qs (s : State) (f : Cellar → Cellar) : (s.modCellar f).core.qs = s.core.qs := by simp [State.modCellar]
@[simp] theorem State.modCellar_core_ports (s : State) (f : Cellar → Cellar) : (s.modCellar f).core.ports = s.core.ports := by simp [State.modCellar]
@[simp] theorem State.modCellar_core_edge (s : State) (f : Cellar → Cellar) : (s.modCellar f).core.edge = s.core.edge := by simp [State.modCellar]
@[simp] theorem State.modCellar_core_copies (s : State) (f : Cellar → Cellar) : (s.modCellar f).core.copies = s.core.copies := by simp [State.modCellar]
@[simp] theorem State.modCellar_core_loader (s : State) (f : Cellar → Cellar) : (s.modCellar f).core.loader = s.core.loader := by simp [State.modCellar]
@[simp] theorem State.modCellar_core_mat (s : State) (f : Cellar → Cellar) : (s.modCellar f).core.mat = s.core.mat := by simp [State.modCellar]
@[simp] theorem State.modCellar_core_drill (s : State) (f : Cellar → Cellar) : (s.modCellar f).core.drill = s.core.drill := by simp [State.modCellar]
@[simp] theorem State.modCellar_core_ap (s : State) (f : Cellar → Cellar) : (s.modCellar f).core.ap = s.core.ap := by simp [State.modCellar]
@[simp] theorem State.modCellar_core_field (s : State) (f : Cellar → Cellar) : (s.modCellar f).core.field = s.core.field := by simp [State.modCellar]
@[simp] theorem State.modCellar_core_cellar (s : State) (f : Cellar → Cellar) : (s.modCellar f).core.cellar = f s.core.cellar := by simp [State.modCellar]
@[simp] theorem State.modCellar_core_loft (s : State) (f : Cellar → Cellar) : (s.modCellar f).core.loft = s.core.loft := by simp [State.modCellar]

@[simp] theorem State.modCellar_cpu (s : State) (f : Cellar → Cellar) : (s.modCellar f).cpu = s.cpu := by simp [State.modCellar, State.cpu]

@[simp] theorem State.modMat_core_cpu (s : State) (f : Matrix → Matrix) : (s.modMat f).core.cpu = s.core.cpu := by simp [State.modMat]
@[simp] theorem State.modMat_core_on (s : State) (f : Matrix → Matrix) : (s.modMat f).core.on = s.core.on := by simp [State.modMat]
@[simp] theorem State.modMat_core_fq (s : State) (f : Matrix → Matrix) : (s.modMat f).core.fq = s.core.fq := by simp [State.modMat]
@[simp] theorem State.modMat_core_inval (s : State) (f : Matrix → Matrix) : (s.modMat f).core.inval = s.core.inval := by simp [State.modMat]
@[simp] theorem State.modMat_core_invalOf (s : State) (f : Matrix → Matrix) : (s.modMat f).core.invalOf = s.core.invalOf := by simp [State.modMat]
@[simp] theorem State.modMat_core_qs (s : State) (f : Matrix → Matrix) : (s.modMat f).core.qs = s.core.qs := by simp [State.modMat]
@[simp] theorem State.modMat_core_ports (s : State) (f : Matrix → Matrix) : (s.modMat f).core.ports = s.core.ports := by simp [State.modMat]
@[simp] theorem State.modMat_core_edge (s : State) (f : Matrix → Matrix) : (s.modMat f).core.edge = s.core.edge := by simp [State.modMat]
@[simp] theorem State.modMat_core_copies (s : State) (f : Matrix → Matrix) : (s.modMat f).core.copies = s.core.copies := by simp [State.modMat]
@[simp] theorem State.modMat_core_loader (s : State) (f : Matrix → Matrix) : (s.modMat f).core.loader = s.core.loader := by simp [State.modMat]
@[simp] theorem State.modMat_core_mat (s : State) (f : Matrix → Matrix) : (s.modMat f).core.mat = f s.core.mat := by simp [State.modMat]
@[simp] theorem State.modMat_core_drill (s : State) (f : Matrix → Matrix) : (s.modMat f).core.drill = s.core.drill := by simp [State.modMat]
@[simp] theorem State.modMat_core_ap (s : State) (f : Matrix → Matrix) : (s.modMat f).core.ap = s.core.ap := by simp [State.modMat]
@[simp] theorem State.modMat_core_field (s : State) (f : Matrix → Matrix) : (s.modMat f).core.field = s.core.field := by simp [State.modMat]
@[simp] theorem State.modMat_core_cellar (s : State) (f : Matrix → Matrix) : (s.modMat f).core.cellar = s.core.cellar := by simp [State.modMat]
@[simp] theorem State.modMat_core_loft (s : State) (f : Matrix → Matrix) : (s.modMat f).core.loft = s.core.loft := by simp [State.modMat]

@[simp] theorem State.modMat_cpu (s : State) (f : Matrix → Matrix) : (s.modMat f).cpu = s.cpu := by simp [State.modMat, State.cpu]

@[simp] theorem State.modDrill_core_cpu (s : State) (f : Drill → Drill) : (s.modDrill f).core.cpu = s.core.cpu := by simp [State.modDrill]
@[simp] theorem State.modDrill_core_on (s : State) (f : Drill → Drill) : (s.modDrill f).core.on = s.core.on := by simp [State.modDrill]
@[simp] theorem State.modDrill_core_fq (s : State) (f : Drill → Drill) : (s.modDrill f).core.fq = s.core.fq := by simp [State.modDrill]
@[simp] theorem State.modDrill_core_inval (s : State) (f : Drill → Drill) : (s.modDrill f).core.inval = s.core.inval := by simp [State.modDrill]
@[simp] theorem State.modDrill_core_invalOf (s : State) (f : Drill → Drill) : (s.modDrill f).core.invalOf = s.core.invalOf := by simp [State.modDrill]
@[simp] theorem State.modDrill_core_qs (s : State) (f : Drill → Drill) : (s.modDrill f).core.qs = s.core.qs := by simp [State.modDrill]
@[simp] theorem State.modDrill_core_ports (s : State) (f : Drill → Drill) : (s.modDrill f).core.ports = s.core.ports := by simp [State.modDrill]
@[simp] theorem State.modDrill_core_edge (s : State) (f : Drill → Drill) : (s.modDrill f).core.edge = s.core.edge := by simp [State.modDrill]
@[simp] theorem State.modDrill_core_copies (s : State) (f : Drill → Drill) : (s.modDrill f).core.copies = s.core.copies := by simp [State.modDrill]
@[simp] theorem State.modDrill_core_loader (s : State) (f : Drill → Drill) : (s.modDrill f).core.loader = s.core.loader := by simp [State.modDrill]
@[simp] theorem State.modDrill_core_mat (s : State) (f : Drill → Drill) : (s.modDrill f).core.mat = s.core.mat := by simp [State.modDrill]
@[simp] theorem State.modDrill_core_drill (s : State) (f : Drill → Drill) : (s.modDrill f).core.drill = f s.core.drill := by simp [State.modDrill]
@[simp] theorem State.modDrill_core_ap (s : State) (f : Drill → Drill) : (s.modDrill f).core.ap = s.core.ap := by simp [State.modDrill]
@[simp] theorem State.modDrill_core_field (s : State) (f : Drill → Drill) : (s.modDrill f).core.field = s.core.field := by simp [State.modDrill]
@[simp] theorem State.modDrill_core_cellar (s : State) (f : Drill → Drill) : (s.modDrill f).core.cellar = s.core.cellar := by simp [State.modDrill]
@[simp] theorem State.modDrill_core_loft (s : State) (f : Drill → Drill) : (s.modDrill f).core.loft = s.core.loft := by simp [State.modDrill]

@[simp] theorem State.modDrill_cpu (s : State) (f : Drill → Drill) : (s.modDrill f).cpu = s.cpu := by simp [State.modDrill, State.cpu]

@[simp] theorem State.modAp_core_cpu (s : State) (f : Ap → Ap) : (s.modAp f).core.cpu = s.core.cpu := by simp [State.modAp]
@[simp] theorem State.modAp_core_on (s : State) (f : Ap → Ap) : (s.modAp f).core.on = s.core.on := by simp [State.modAp]
@[simp] theorem State.modAp_core_fq (s : State) (f : Ap → Ap) : (s.modAp f).core.fq = s.core.fq := by simp [State.modAp]
@[simp] theorem State.modAp_core_inval (s : State) (f : Ap → Ap) : (s.modAp f).core.inval = s.core.inval := by simp [State.modAp]
@[simp] theorem State.modAp_core_invalOf (s : State) (f : Ap → Ap) : (s.modAp f).core.invalOf = s.core.invalOf := by simp [State.modAp]
@[simp] theorem State.modAp_core_qs (s : State) (f : Ap → Ap) : (s.modAp f).core.qs = s.core.qs := by simp [State.modAp]
@[simp] theorem State.modAp_core_ports (s : State) (f : Ap → Ap) : (s.modAp f).core.ports = s.core.ports := by simp [State.modAp]
@[simp] theorem State.modAp_core_edge (s : State) (f : Ap → Ap) : (s.modAp f).core.edge = s.core.edge := by simp [State.modAp]
@[simp] theorem State.modAp_core_copies (s : State) (f : Ap → Ap) : (s.modAp f).core.copies = s.core.copies := by simp [State.modAp]
@[simp] theorem State.modAp_core_loader (s : State) (f : Ap → Ap) : (s.modAp f).core.loader = s.core.loader := by simp [State.modAp]
@[simp] theorem State.modAp_core_mat (s : State) (f : Ap → Ap) : (s.modAp f).core.mat = s.core.mat := by simp [State.modAp]
@[simp] theorem State.modAp_core_drill (s : State) (f : Ap → Ap) : (s.modAp f).core.drill = s.core.drill := by simp [State.modAp]
@[simp] theorem State.modAp_core_ap (s : State) (f : Ap → Ap) : (s.modAp f).core.ap = f s.core.ap := by simp [State.modAp]
@[simp] theorem State.modAp_core_field (s : State) (f : Ap → Ap) : (s.modAp f).core.field = s.core.field := by simp [State.modAp]
@[simp] theorem State.modAp_core_cellar (s : State) (f : Ap → Ap) : (s.modAp f).core.cellar = s.core.cellar := by simp [State.modAp]
@[simp] theorem State.modAp_core_loft (s : State) (f : Ap → Ap) : (s.modAp f).core.loft = s.core.loft := by simp [State.modAp]

@[simp] theorem State.modAp_cpu (s : State) (f : Ap → Ap) : (s.modAp f).cpu = s.cpu := by simp [State.modAp, State.cpu]

@[simp] theorem State.modField_core_cpu (s : State) (f : Field → Field) : (s.modField f).core.cpu = s.core.cpu := by simp [State.modField]
@[simp] theorem State.modField_core_on (s : State) (f : Field → Field) : (s.modField f).core.on = s.core.on := by simp [State.modField]
@[simp] theorem State.modField_core_fq (s : State) (f : Field → Field) : (s.modField f).core.fq = s.core.fq := by simp [State.modField]
@[simp] theorem State.modField_core_inval (s : State) (f : Field → Field) : (s.modField f).core.inval = s.core.inval := by simp [State.modField]
@[simp] theorem State.modField_core_invalOf (s : State) (f : Field → Field) : (s.modField f).core.invalOf = s.core.invalOf := by simp [State.modField]
@[simp] theorem State.modField_core_qs (s : State) (f : Field → Field) : (s.modField f).core.qs = s.core.qs := by simp [State.modField]
@[simp] theorem State.modField_core_ports (s : State) (f : Field → Field) : (s.modField f).core.ports = s.core.ports := by simp [State.modField]
@[simp] theorem State.modField_core_edge (s : State) (f : Field → Field) : (s.modField f).core.edge = s.core.edge := by simp [State.modField]
@[simp] theorem State.modField_core_copies (s : State) (f : Field → Field) : (s.modField f).core.copies = s.core.copies := by simp [State.modField]
@[simp] theorem State.modField_core_loader (s : State) (f : Field → Field) : (s.modField f).core.loader = s.core.loader := by simp [State.modField]
@[simp] theorem State.modField_core_mat (s : State) (f : Field → Field) : (s.modField f).core.mat = s.core.mat := by simp [State.modField]
@[simp] theorem State.modField_core_drill (s : State) (f : Field → Field) : (s.modField f).core.drill = s.core.drill := by simp [State.modField]
@[simp] theorem State.modField_core_ap (s : State) (f : Field → Field) : (s.modField f).core.ap = s.core.ap := by simp [State.modField]
@[simp] theorem State.modField_core_field (s : State) (f : Field → Field) : (s.modField f).core.field = f s.core.field := by simp [State.modField]
@[simp] theorem State.modField_core_cellar (s : State) (f : Field → Field) : (s.modField f).core.cellar = s.core.cellar := by simp [State.modField]
@[simp] theorem State.modField_core_loft (s : State) (f : Field → Field) : (s.modField f).core.loft = s.core.loft := by simp [State.modField]

@[simp] theorem State.modField_cpu (s : State) (f : Field → Field) : (s.modField f).cpu = s.cpu := by simp [State.modField, State.cpu]

@[simp] theorem State.modLoader_core_cpu (s : State) (f : Loader → Loader) : (s.modLoader f).core.cpu = s.core.cpu := by simp [State.modLoader]
@[simp] theorem State.modLoader_core_on (s : State) (f : Loader → Loader) : (s.modLoader f).core.on = s.core.on := by simp [State.modLoader]
@[simp] theorem State.modLoader_core_fq (s : State) (f : Loader → Loader) : (s.modLoader f).core.fq = s.core.fq := by simp [State.modLoader]
@[simp] theorem State.modLoader_core_inval (s : State) (f : Loader → Loader) : (s.modLoader f).core.inval = s.core.inval := by simp [State.modLoader]
@[simp] theorem State.modLoader_core_invalOf (s : State) (f : Loader → Loader) : (s.modLoader f).core.invalOf = s.core.invalOf := by simp [State.modLoader]
@[simp] theorem State.modLoader_core_qs (s : State) (f : Loader → Loader) : (s.modLoader f).core.qs = s.core.qs := by simp [State.modLoader]
@[simp] theorem State.modLoader_core_ports (s : State) (f : Loader → Loader) : (s.modLoader f).core.ports = s.core.ports := by simp [State.modLoader]
@[simp] theorem State.modLoader_core_edge (s : State) (f : Loader → Loader) : (s.modLoader f).core.edge = s.core.edge := by simp [State.modLoader]
@[simp] theorem State.modLoader_core_copies (s : State) (f : Loader → Loader) : (s.modLoader f).core.copies = s.core.copies := by simp [State.modLoader]
@[simp] theorem State.modLoader_core_loader (s : State) (f : Loader → Loader) : (s.modLoader f).core.loader = f s.core.loader := by simp [State.modLoader]
@[simp] theorem State.modLoader_core_mat (s : State) (f : Loader → Loader) : (s.modLoader f).core.mat = s.core.mat := by simp [State.modLoader]
@[simp] theorem State.modLoader_core_drill (s : State) (f : Loader → Loader) : (s.modLoader f).core.drill = s.core.drill := by simp [State.modLoader]
@[simp] theorem State.modLoader_core_ap (s : State) (f : Loader → Loader) : (s.modLoader f).core.ap = s.core.ap := by simp [State.modLoader]
@[simp] theorem State.modLoader_core_field (s : State) (f : Loader → Loader) : (s.modLoader f).core.field = s.core.field := by simp [State.modLoader]
@[simp] theorem State.modLoader_core_cellar (s : State) (f : Loader → Loader) : (s.modLoader f).core.cellar = s.core.cellar := by simp [State.modLoader]
@[simp] theorem State.modLoader_core_loft (s : State) (f : Loader → Loader) : (s.modLoader f).core.loft = s.core.loft := by simp [State.modLoader]

@[simp] theorem State.modLoader_cpu (s : State) (f : Loader → Loader) : (s.modLoader f).cpu = s.cpu := by simp [State.modLoader, State.cpu]

/-! ## Registers -/

@[simp] theorem State.setPc_pc (s : State) (v : Word) : (s.setPc v).pc = v := by simp [State.setPc, State.pc]

@[simp] theorem State.setPc_g (s : State) (v : Word) (r : BitVec 5) : (s.setPc v).g r = s.g r := by
  simp [State.setPc, State.g]

@[simp] theorem State.setPc_p (s : State) (v : Word) (n : BitVec 3) : (s.setPc v).p n = s.p n := by
  simp [State.setPc, State.p]

@[simp] theorem State.setG_pc (s : State) (r : BitVec 5) (v : Word) : (s.setG r v).pc = s.pc := by
  unfold State.setG; split <;> simp [State.pc]

@[simp] theorem State.setG_p (s : State) (r : BitVec 5) (v : Word) (n : BitVec 3) : (s.setG r v).p n = s.p n := by
  unfold State.setG; split <;> simp [State.p]

@[simp] theorem State.setP_pc (s : State) (n : BitVec 3) (v : Bool) : (s.setP n v).pc = s.pc := by
  unfold State.setP; split <;> simp [State.pc]

@[simp] theorem State.setP_g (s : State) (n : BitVec 3) (v : Bool) (r : BitVec 5) : (s.setP n v).g r = s.g r := by
  unfold State.setP; split <;> simp [State.g]

/-- A write of a general register: it reads back, g0 reads 0, and every other register keeps its value (R86). -/
theorem State.setG_g (s : State) (r : BitVec 5) (v : Word) (x : BitVec 5) :
    (s.setG r v).g x = if x = r ∧ r ≠ 0 then v else s.g x := by
  unfold State.setG
  by_cases hr : r = 0
  · simp [hr]
  · simp only [hr, if_false, State.g, State.modCpu_cpu, ne_eq, not_false_eq_true, and_true]
    rcases Classical.em (x = r) with rfl | h
    · simp; exact fun e => (hr e).elim
    · have : r.toNat ≠ x.toNat := mt BitVec.eq_of_toNat_eq (Ne.symm h)
      simp [h, this]

end Sys2Proof.Machine
end

