-- ==== Sys2Proof/Laws/Cache.lean ====
section
/-! SUPPORT. What the operations of the CACHE room do to the bytes that the core sees and to their homes (R319, R354, R390). -/

namespace Sys2Proof.Machine

/-! ## One line -/

/-- The bits of a mask of eight ones. -/
theorem mask8_getLsbD (i : Nat) : (0xFF#512).getLsbD i = decide (i < 8) := by
  have h : Nat.testBit 255 i = decide (i < 8) := Nat.testBit_two_pow_sub_one 8 i
  rw [BitVec.getLsbD_ofNat, h]
  by_cases hi : i < 8
  · have : i < 512 := by omega
    simp [hi, this]
  · simp [hi]

/-- A byte of a line replaced reads back; its other bytes stay. -/
theorem CLine.byte_setByte (l : CLine) (p q : Nat) (b : Byte) :
    (l.setByte p b).byte q = if q % 64 = p % 64 then b else l.byte q := by
  have hp : p % 64 < 64 := Nat.mod_lt _ (by decide)
  have hq : q % 64 < 64 := Nat.mod_lt _ (by decide)
  apply BitVec.eq_of_getLsbD_eq
  intro i hi
  have e : 8 * (q % 64) + i < 512 := by omega
  have key : ((l.setByte p b).byte q).getLsbD i =
      ((l.data.getLsbD (8 * (q % 64) + i) && !(!decide (8 * (q % 64) + i < 8 * (p % 64)) && decide (8 * (q % 64) + i - 8 * (p % 64) < 8))) ||
        (!decide (8 * (q % 64) + i < 8 * (p % 64)) && b.getLsbD (8 * (q % 64) + i - 8 * (p % 64)))) := by
    unfold CLine.byte CLine.setByte
    simp only [BitVec.getLsbD_extractLsb', BitVec.getLsbD_or, BitVec.getLsbD_and, BitVec.getLsbD_not, BitVec.getLsbD_shiftLeft,
      mask8_getLsbD, BitVec.getLsbD_setWidth, e, hi, decide_true, Bool.true_and]
    by_cases h : 8 * (q % 64) + i < 8 * (p % 64)
    · simp [h]
    · have : 8 * (q % 64) + i - 8 * (p % 64) < 512 := by omega
      simp [h, this]
  rw [key]
  by_cases h : q % 64 = p % 64
  · have e3 : 8 * (p % 64) + i - 8 * (p % 64) = i := by omega
    have e4 : ¬ (8 * (p % 64) + i < 8 * (p % 64)) := by omega
    rw [if_pos h, h, e3]
    simp [hi, e4]
  · rw [if_neg h]
    have e0 : (l.byte q).getLsbD i = l.data.getLsbD (8 * (q % 64) + i) := by
      unfold CLine.byte; simp only [BitVec.getLsbD_extractLsb', hi, decide_true, Bool.true_and]
    rw [e0]
    by_cases h2 : 8 * (q % 64) + i < 8 * (p % 64)
    · simp [h2]
    · have h3 : ¬ (8 * (q % 64) + i - 8 * (p % 64) < 8) := by omega
      have h4 : b.getLsbD (8 * (q % 64) + i - 8 * (p % 64)) = false := BitVec.getLsbD_of_ge b _ (by omega)
      rw [h4]; simp [h3]

@[simp] theorem CLine.setByte_addr (l : CLine) (p : Nat) (b : Byte) : (l.setByte p b).addr = l.addr := rfl
@[simp] theorem CLine.setByte_valid (l : CLine) (p : Nat) (b : Byte) : (l.setByte p b).valid = l.valid := rfl
@[simp] theorem CLine.setByte_dirty (l : CLine) (p : Nat) (b : Byte) : (l.setByte p b).dirty = l.dirty := rfl
@[simp] theorem CLine.setByte_err (l : CLine) (p : Nat) (b : Byte) : (l.setByte p b).err = l.err := rfl

/-- Sixteen bytes copied from memory into a line. -/
theorem CLine.foldl_setByte (mem : Memory) (base n : Nat) (l : CLine) (q : Nat) (hb : base % 64 + n ≤ 64) :
    let m := (List.range n).foldl (fun x i => x.setByte (base + i) (memGet mem (base + i))) l
    m.addr = l.addr ∧ m.valid = l.valid ∧ m.dirty = l.dirty ∧ m.err = l.err ∧
    m.byte q = if base % 64 ≤ q % 64 ∧ q % 64 < base % 64 + n then memGet mem (base - base % 64 + q % 64) else l.byte q := by
  induction n with
  | zero => simp <;> omega
  | succ n ih =>
    have ih := ih (by omega)
    simp only [List.range_succ, List.foldl_append, List.foldl_cons, List.foldl_nil] at *
    obtain ⟨h1, h2, h3, h4, h5⟩ := ih
    refine ⟨h1, h2, h3, h4, ?_⟩
    rw [CLine.byte_setByte, h5]
    have e : (base + n) % 64 = base % 64 + n := by omega
    rw [e]
    by_cases h : q % 64 = base % 64 + n
    · have h6 : base % 64 ≤ q % 64 ∧ q % 64 < base % 64 + (n + 1) := by omega
      have h7 : base + n = base - base % 64 + q % 64 := by omega
      rw [if_pos h, if_pos h6, h7]
    · rw [if_neg h]
      by_cases h6 : base % 64 ≤ q % 64 ∧ q % 64 < base % 64 + n
      · rw [if_pos h6, if_pos (by omega)]
      · rw [if_neg h6, if_neg (by omega)]

/-- The sector of pa copied from its home into its line. -/
theorem CLine.fillSector_spec (mem : Memory) (e1 e2 : NatSet) (l : CLine) (pa : Nat) (hl : l.addr = pa / 64 * 64) (q : Nat)
    (hq : q / 64 = pa / 64) :
    let m := l.fillSector mem e1 e2 pa
    m.addr = l.addr ∧ m.valid = l.valid ||| (1#4 <<< (pa / 16 % 4)) ∧ m.dirty = l.dirty ∧
    m.byte q = if q / 16 = pa / 16 then memGet mem q else l.byte q := by
  have hk : pa / 16 % 4 < 4 := Nat.mod_lt _ (by decide)
  have hb : (l.addr + 16 * (pa / 16 % 4)) % 64 = 16 * (pa / 16 % 4) := by omega
  have := CLine.foldl_setByte mem (l.addr + 16 * (pa / 16 % 4)) 16 l q (by omega)
  unfold CLine.fillSector
  simp only at this ⊢
  generalize (List.range 16).foldl _ l = m at this ⊢
  obtain ⟨h1, h2, h3, -, h5⟩ := this
  refine ⟨h1, ?_, h3, ?_⟩
  · rw [h2]
  · show m.byte q = _
    rw [h5, hb]
    have hq' := Nat.div_add_mod q 64
    by_cases h : q / 16 = pa / 16
    · have h6 : 16 * (pa / 16 % 4) ≤ q % 64 ∧ q % 64 < 16 * (pa / 16 % 4) + 16 := by omega
      have h7 : l.addr + 16 * (pa / 16 % 4) - 16 * (pa / 16 % 4) + q % 64 = q := by omega
      rw [if_pos h, if_pos h6, h7]
    · rw [if_neg h, if_neg (by omega)]

/-! ## The lines of a room -/

theorem Cellar.line_putLine (c : Cellar) (l : CLine) (a : Nat) :
    (c.putLine l).line a = if a / 64 * 64 = l.addr then some l else c.line a := by
  unfold Cellar.putLine Cellar.line
  simp only [List.find?_cons]
  by_cases h : a / 64 * 64 = l.addr
  · simp [h]
  · have : (l.addr == a / 64 * 64) = false := by simp; exact fun e => h e.symm
    rw [this, if_neg h]
    simp only [List.find?_filter]
    congr 1; funext x
    by_cases hx : x.addr = a / 64 * 64
    · simp [hx, h]
    · simp [hx]

theorem Cellar.line_dropLine (c : Cellar) (p a : Nat) :
    (c.dropLine p).line a = if a / 64 * 64 = p then none else c.line a := by
  unfold Cellar.dropLine Cellar.line
  simp only [List.find?_filter]
  by_cases h : a / 64 * 64 = p
  · rw [if_pos h]; simp; intro x _ hx e; exact hx (e ▸ h.symm ▸ rfl)
  · rw [if_neg h]; congr 1; funext x
    by_cases hx : x.addr = a / 64 * 64
    · simp [hx, h]
    · simp [hx]

/-- A line that is found has the address that was asked for. -/
theorem Cellar.line_addr (c : Cellar) (a : Nat) (l : CLine) (h : c.line a = some l) : l.addr = a / 64 * 64 := by
  have := List.find?_some h; simpa using this

/-! ## Write-back -/

/-- A write-back leaves every byte outside the line. -/
theorem memGet_homePutLine (mem : Memory) (e1 e2 : NatSet) (l : CLine) (a : Nat) (h : Memory.wf mem = true)
    (ha : a < l.addr ∨ l.addr + 64 ≤ a) : memGet (homePutLine mem e1 e2 l).1 a = memGet mem a := by
  refine (List.foldlRecOn (motive := fun y : Memory × NatSet × NatSet => Memory.wf y.1 = true ∧ memGet y.1 a = memGet mem a)
    _ _ ⟨h, rfl⟩ ?_).2
  rintro ⟨m, x1, x2⟩ ⟨hm, hg⟩ k hk
  have k8 := List.mem_range.1 hk
  show Memory.wf (if _ then _ else _ : Memory × NatSet × NatSet).1 = true ∧ memGet (if _ then _ else _ : Memory × NatSet × NatSet).1 a = _
  split
  · exact ⟨hm, hg⟩
  · refine List.foldlRecOn (motive := fun y : Memory => Memory.wf y = true ∧ memGet y a = memGet mem a) _ _ ⟨hm, hg⟩ ?_
    rintro y ⟨hy, hv⟩ i hi
    have i8 := List.mem_range.1 hi
    split
    · exact ⟨memSet_wf _ _ _ hy, by rw [memGet_memSet _ _ _ _ hy, if_neg (by omega)]; exact hv⟩
    · exact ⟨hy, hv⟩

/-! ## What the core sees -/

/-- The bytes that a core sees depend on its CACHE room and on the homes alone. -/
theorem State.viewByte_congr (s t : State) (a : Nat) (hc : t.core.cellar.cache = s.core.cellar.cache) (hm : t.mem = s.mem) :
    t.viewByte a = s.viewByte a := by
  simp only [State.viewByte, Cellar.line, hc, hm]

/-! ## The stash (R333) -/

theorem Cellar.Stashed.refl (c : Cellar) : c.Stashed c := ⟨rfl, rfl, fun _ _ => rfl⟩

/-- What a place of every range says of two rooms whose ranges are the same. -/
theorem stash_ranges {c d : Cellar} (h : (d.stash.map fun r => (r.va, r.len, r.off, r.pages)) = c.stash.map fun r => (r.va, r.len, r.off, r.pages))
    (P : Nat → List Nat → Prop) (hc : ∀ r ∈ c.stash, P r.off r.pages) : ∀ r ∈ d.stash, P r.off r.pages := by
  intro r hr
  have : (r.va, r.len, r.off, r.pages) ∈ c.stash.map fun r => (r.va, r.len, r.off, r.pages) := by
    rw [← h]; exact List.mem_map.2 ⟨r, hr, rfl⟩
  obtain ⟨q, hq, e⟩ := List.mem_map.1 this
  simp only [Prod.mk.injEq] at e
  rw [← e.2.2.1, ← e.2.2.2]; exact hc q hq

theorem Cellar.Stashed.trans {c d e : Cellar} (h : c.Stashed d) (k : d.Stashed e) : c.Stashed e := by
  obtain ⟨h1, h2, h3⟩ := h
  obtain ⟨k1, k2, k3⟩ := k
  refine ⟨?_, k2.trans h2, fun o ho => ?_⟩
  · rw [k1, h1]
  · rw [k3 o (stash_ranges h2 (fun off pages => o < off / 8 * 8 ∨ off + 4096 * pages.length ≤ o) ho), h3 o ho]

/-- The lines of the CACHE room have no part in it. -/
theorem Cellar.Stashed.lines {c d : Cellar} (h : c.Stashed d) (x : List CLine) (n : Nat) :
    ({ c with cache := x, order := n } : Cellar).Stashed { d with cache := x, order := n } := by
  obtain ⟨h1, h2, h3⟩ := h
  refine ⟨?_, h2, h3⟩
  rw [h1]

/-- A change of the stash leaves the lines. -/
theorem Cellar.Stashed.cache {c d : Cellar} (h : c.Stashed d) : d.cache = c.cache ∧ d.order = c.order := by rw [h.1]; exact ⟨rfl, rfl⟩

/-- A sector is a multiple of 16. -/
theorem sectorsOf_mod (pa n a : Nat) (h : a ∈ sectorsOf pa n) : a % 16 = 0 := by
  unfold sectorsOf at h
  split at h
  · simp at h
  · obtain ⟨k, -, e⟩ := List.mem_map.1 h; omega

/-- A doubleword copied into its place of a range. -/
theorem Cellar.stashCopy_stashed (c : Cellar) (mem : Memory) (e1 e2 : NatSet) (loc w : Nat) (r : StashR) (hr : r ∈ c.stash)
    (h1 : r.off / 8 * 8 ≤ 8 * w) (h2 : 8 * w + 8 ≤ r.off + 4096 * r.pages.length) : c.Stashed (c.stashCopy mem e1 e2 loc w) := by
  refine ⟨rfl, rfl, fun o ho => ?_⟩
  have := ho r hr
  refine memGet_memPut_out _ _ _ _ ?_
  have : (memBytes mem (8 * loc) 8).length = 8 := by simp [memBytes]
  omega

/-- A sector filled, or followed, in the stash (R333). -/
theorem Cellar.stashFill_stashed (c : Cellar) (mem : Memory) (e1 e2 : NatSet) (pa n : Nat) (w : Bool) (a : Nat) (ha : a % 16 = 0) :
    c.Stashed (c.stashFill mem e1 e2 pa n w a) ∧ (c.stashFill mem e1 e2 pa n w a).stash = c.stash := by
  unfold Cellar.stashFill
  split
  · exact ⟨.refl c, rfl⟩
  · rename_i r b hs
    obtain ⟨hr, hb⟩ : r ∈ c.stash ∧ r.byteOf a = some b := by
      obtain ⟨q, hq, e⟩ := List.exists_of_findSome?_eq_some hs
      cases hb : q.byteOf a with
      | none => rw [hb] at e; simp at e
      | some k =>
        rw [hb] at e; simp only [Option.map_some, Option.some.injEq, Prod.mk.injEq] at e
        rw [← e.1, ← e.2]; exact ⟨hq, hb⟩
    obtain ⟨hb16, hbl⟩ : b % 16 = 0 ∧ b + 16 ≤ 4096 * r.pages.length := by
      unfold StashR.byteOf at hb
      cases hi : r.pages.findIdx? (· == a / 4096) with
      | none => rw [hi] at hb; simp at hb
      | some i =>
        rw [hi] at hb; simp only [Option.map_some, Option.some.injEq] at hb
        obtain ⟨hl, -⟩ := List.findIdx?_eq_some_iff_getElem.1 hi
        omega
    refine List.foldlRecOn (motive := fun x : Cellar => c.Stashed x ∧ x.stash = c.stash) _ _ ⟨.refl c, rfl⟩ fun y hy k hk => ?_
    simp only [List.mem_cons, List.not_mem_nil, or_false] at hk
    split
    · refine ⟨hy.1.trans (Cellar.stashCopy_stashed y mem e1 e2 _ _ r (by rw [hy.2]; exact hr) ?_ ?_), hy.2⟩
      · omega
      · omega
    · exact hy

/-- Marking a range keeps where it stands. -/
theorem StashR.touch_place (r : StashR) (pa n : Nat) (w : Bool) :
    (fun r : StashR => (r.va, r.len, r.off, r.pages)) (r.touch pa n w) = (r.va, r.len, r.off, r.pages) := by
  unfold StashR.touch
  refine List.foldlRecOn (motive := fun x : StashR => (x.va, x.len, x.off, x.pages) = (r.va, r.len, r.off, r.pages)) _ _ rfl fun y hy _ _ => ?_
  split <;> exact hy

/-! ## The frame of an access -/

theorem AccessFrame.refl (s : State) : AccessFrame s s := ⟨rfl, rfl, rfl, .refl _, fun _ _ => ⟨rfl, .refl _⟩⟩

theorem AccessFrame.trans {s t u : State} (h : AccessFrame s t) (k : AccessFrame t u) : AccessFrame s u := by
  obtain ⟨h1, h2, h3, h4, h5⟩ := h
  obtain ⟨k1, k2, k3, k4, k5⟩ := k
  have hc : t.cur = s.cur := by rw [h1]
  refine ⟨?_, ?_, ?_, (h4.lines u.core.cellar.cache u.core.cellar.order).trans k4, fun i hi => ?_⟩
  · rw [k1, h1]
  · rw [k2, h2]
  · rw [k3, h3]
  · obtain ⟨a1, a2⟩ := h5 i hi
    obtain ⟨b1, b2⟩ := k5 i (by rw [hc]; exact hi)
    exact ⟨by rw [b1, a1], a2.trans b2⟩

/-- What of the other cores a change of the core in focus leaves. -/
theorem State.modCore_others (s : State) (f : Core → Core) (i : Fin 192) (hi : i ≠ s.cur) : (s.modCore f).cores[i] = s.cores[i] := by
  have hne : s.cur.val ≠ i.val := fun e => hi (Fin.ext e.symm)
  exact Vector.getElem_set_ne s.cur.isLt i.isLt hne

/-- A change of the core's CACHE room is within the frame of an access. -/
theorem AccessFrame.modCellar (s : State) (f : Cellar → Cellar)
    (hf : ∀ c, f c = { c with cache := (f c).cache, order := (f c).order }) : AccessFrame s (s.modCellar f) := by
  refine ⟨rfl, ?_, ?_, ?_, fun i hi => ?_⟩
  · simp
  · have : (s.modCellar f).core = { s.core with cellar := f s.core.cellar } := by simp [State.modCellar]
    rw [this, State.modCellar_cpu]; rfl
  · rw [State.modCellar_core_cellar, ← hf]; exact .refl _
  · have : (s.modCellar f).cores[i] = s.cores[i] := s.modCore_others _ i hi
    rw [this]; exact ⟨rfl, .refl _⟩

/-- A change of the homes is within the frame of an access. -/
theorem AccessFrame.homes (s : State) (m : Memory) (e1 e2 : NatSet) : AccessFrame s { s with mem := m, ecc1 := e1, ecc2 := e2 } :=
  ⟨rfl, rfl, rfl, .refl _, fun _ _ => ⟨rfl, .refl _⟩⟩

/-- A change of the control core within the frame of an access. -/
theorem AccessFrame.modCpu (s : State) (f : Cpu → Cpu)
    (hf : ∀ c, f c = { c with g := (f c).g, pc := (f c).pc, tlb := (f c).tlb, ecccnt := (f c).ecccnt }) : AccessFrame s (s.modCpu f) := by
  refine ⟨rfl, ?_, ?_, ?_, fun i hi => ?_⟩
  · rw [State.modCpu_cpu]; exact hf _
  · simp [State.modCpu, State.cpu]
  · rw [State.modCpu_core_cellar]; exact .refl _
  · have : (s.modCpu f).cores[i] = s.cores[i] := s.modCore_others _ i hi
    rw [this]; exact ⟨rfl, .refl _⟩

/-- A change of the stash of one core is within the frame of an access. -/
theorem AccessFrame.setStash (s t : State) (o : Fin 192) (d : Cellar) (hd : s.cores[o].cellar.Stashed d)
    (ht : t = { s with cores := s.cores.set o { s.cores[o] with cellar := d } }) :
    AccessFrame s t ∧ t.core.cellar.cache = s.core.cellar.cache ∧ t.core.cellar.order = s.core.cellar.order ∧ t.cpu = s.cpu := by
  have key : ∀ i : Fin 192, t.cores[i] = if o = i then { s.cores[i] with cellar := d } else s.cores[i] := by
    intro i
    rw [ht]
    by_cases e : o = i
    · subst e; rw [if_pos rfl]; exact Vector.getElem_set_self o.isLt
    · rw [if_neg e]; exact Vector.getElem_set_ne o.isLt i.isLt fun h => e (Fin.ext h)
  have hcur : t.cur = s.cur := by rw [ht]
  have hc : t.core = if o = s.cur then { s.core with cellar := d } else s.core := by
    have : t.core = t.cores[s.cur] := by unfold State.core; simp only [hcur]
    rw [this]; exact key s.cur
  have hs : t = { s with mem := t.mem, ecc1 := t.ecc1, ecc2 := t.ecc2, cores := t.cores } := by rw [ht]
  have hcpu : t.cpu = s.cpu := by unfold State.cpu; rw [hc]; split <;> rfl
  have hcel : s.core.cellar.Stashed t.core.cellar := by
    rw [hc]; split
    · rename_i e; subst e; exact hd
    · exact .refl _
  obtain ⟨e1, e2⟩ := hcel.cache
  refine ⟨⟨hs, by rw [hcpu], ?_, ?_, fun i _ => ?_⟩, e1, e2, hcpu⟩
  · rw [hcpu, hc]; split <;> rfl
  · have := hcel.lines t.core.cellar.cache t.core.cellar.order; exact this
  · rw [key i]; split
    · rename_i e; subst e; exact ⟨rfl, hd⟩
    · exact ⟨rfl, .refl _⟩

/-- Touching a stash: it stays within the frame of an access, and of the core in focus nothing but its stash changes. -/
theorem State.touchStash_spec (s : State) (pa n : Nat) (w : Bool) :
    AccessFrame s (s.touchStash pa n w) ∧ (s.touchStash pa n w).core.cellar.cache = s.core.cellar.cache ∧
    (s.touchStash pa n w).cpu = s.cpu ∧ (s.touchStash pa n w).mem = s.mem ∧ (s.touchStash pa n w).hostMem = s.hostMem := by
  unfold State.touchStash
  split
  · exact ⟨AccessFrame.refl s, rfl, rfl, rfl, rfl⟩
  · rename_i o _
    have st : ∀ c : Cellar, c.Stashed (let x := (sectorsOf pa n).foldl (fun x a => x.stashFill s.mem s.ecc1 s.ecc2 pa n w a) c
        { x with stash := x.stash.map (·.touch pa n w) }) := by
      intro c
      refine Cellar.Stashed.trans (d := (sectorsOf pa n).foldl (fun x a => x.stashFill s.mem s.ecc1 s.ecc2 pa n w a) c) ?_ ⟨rfl, ?_, fun _ _ => rfl⟩
      · exact List.foldlRecOn (motive := fun x : Cellar => c.Stashed x) _ _ (.refl c) fun y hy a ha =>
          hy.trans (y.stashFill_stashed s.mem s.ecc1 s.ecc2 pa n w a (sectorsOf_mod _ _ _ ha)).1
      · simp only [List.map_map]
        exact List.map_congr_left fun r _ => r.touch_place pa n w
    unfold State.modCoreAt
    split
    · rename_i ho
      obtain ⟨h1, h2, -, h3⟩ := AccessFrame.setStash s _ ⟨o, ho⟩ _ (st s.cores[o].cellar) rfl
      exact ⟨h1, h2, h3, rfl, rfl⟩
    · exact ⟨AccessFrame.refl s, rfl, rfl, rfl, rfl⟩

/-- Touching several doublewords of a stash. -/
theorem State.touches_spec (s : State) (base : Nat) (ks : List Nat) :
    let t := ks.foldl (fun s k => s.touchStash (base + 8 * k) 8 true) s
    AccessFrame s t ∧ t.core.cellar.cache = s.core.cellar.cache ∧ t.cpu = s.cpu ∧ t.mem = s.mem ∧ t.hostMem = s.hostMem := by
  refine List.foldlRecOn (motive := fun t : State => AccessFrame s t ∧ t.core.cellar.cache = s.core.cellar.cache ∧ t.cpu = s.cpu ∧ t.mem = s.mem ∧
    t.hostMem = s.hostMem) _ _ ⟨AccessFrame.refl s, rfl, rfl, rfl, rfl⟩ fun y hy k _ => ?_
  obtain ⟨a1, a2, a3, a4, a5⟩ := hy
  obtain ⟨b1, b2, b3, b4, b5⟩ := y.touchStash_spec (base + 8 * k) 8 true
  exact ⟨a1.trans b1, b2.trans a2, b3.trans a3, b4.trans a4, b5.trans a5⟩

/-! ## Write-back and fills -/

/-- Writing back one line. -/
theorem State.cleanLine_spec (s : State) (l : CLine) (h : Memory.wf s.mem = true) :
    AccessFrame s (s.cleanLine l) ∧ Memory.wf (s.cleanLine l).mem = true ∧ (s.cleanLine l).hostMem = s.hostMem ∧ (s.cleanLine l).cpu = s.cpu ∧
    (∀ a, a < l.addr ∨ l.addr + 64 ≤ a → memGet (s.cleanLine l).mem a = memGet s.mem a) ∧
    (∀ a, a / 64 * 64 ≠ l.addr → (s.cleanLine l).core.cellar.line a = s.core.cellar.line a) ∧
    ((s.cleanLine l).core.cellar.dropLine l.addr).cache = (s.core.cellar.dropLine l.addr).cache := by
  unfold State.cleanLine
  split
  · exact ⟨AccessFrame.refl s, h, rfl, rfl, fun _ _ => rfl, fun _ _ => rfl, rfl⟩
  · simp only
    generalize hu : (({ s with
      mem := (homePutLine s.mem s.ecc1 s.ecc2 l).1, ecc1 := (homePutLine s.mem s.ecc1 s.ecc2 l).2.1
      ecc2 := (homePutLine s.mem s.ecc1 s.ecc2 l).2.2 } : State).modCellar fun c => c.putLine { l with dirty := 0 }) = u
    have f1 : AccessFrame s u := by
      rw [← hu]; exact (AccessFrame.homes s _ _ _).trans (AccessFrame.modCellar _ _ fun _ => rfl)
    have um : u.mem = (homePutLine s.mem s.ecc1 s.ecc2 l).1 := by rw [← hu]; rfl
    have uh : u.hostMem = s.hostMem := by rw [← hu]; rfl
    have uc : u.cpu = s.cpu := by rw [← hu]; exact State.modCellar_cpu _ _
    have ul : u.core.cellar = s.core.cellar.putLine { l with dirty := 0 } := by rw [← hu, State.modCellar_core_cellar]; rfl
    obtain ⟨g1, g2, g3, g4, g5⟩ := u.touches_spec l.addr ((List.range 8).filter fun k => l.dirty.extractLsb' (8 * k) 8 != 0)
    refine ⟨f1.trans g1, ?_, g5.trans uh, g3.trans uc, fun a ha => ?_, fun a ha => ?_, ?_⟩
    · rw [g4, um]; exact homePutLine_wf _ _ _ _ h
    · rw [g4, um]; exact memGet_homePutLine _ _ _ _ _ h ha
    · unfold Cellar.line; rw [g2, ul]
      have := Cellar.line_putLine s.core.cellar { l with dirty := 0 } a
      rw [if_neg ha] at this; exact this
    · unfold Cellar.dropLine; rw [g2, ul]
      simp [Cellar.putLine, List.filter_filter]

/-- A sector made valid is valid; the others keep their bits. -/
theorem valid_or (v : BitVec 4) (j k : Nat) (hj : j < 4) (hk : k < 4) :
    (v ||| (1#4 <<< j)).getLsbD k = if k = j then true else v.getLsbD k := by
  have key : ∀ (v : BitVec 4) (j k : Fin 4), (v ||| (1#4 <<< j.val)).getLsbD k.val = if k.val = j.val then true else v.getLsbD k.val := by
    decide
  exact key v ⟨j, hj⟩ ⟨k, hk⟩

/-- What bringing a sector in does, of a list of lines that leave the room: the core then sees what it saw, and outside the lines that leave every byte stays, as the core sees it and at its home. -/
structure Brings (s t : State) (gone : List CLine) : Prop where
  frame : AccessFrame s t
  wf    : Memory.wf t.mem = true
  host  : t.hostMem = s.hostMem
  cpu   : t.cpu = s.cpu
  bytes : ∀ a, (∀ v ∈ gone, a < v.addr ∨ v.addr + 64 ≤ a) → t.viewByte a = s.viewByte a ∧ memGet t.mem a = memGet s.mem a

theorem Brings.refl (s : State) (h : Memory.wf s.mem = true) : Brings s s [] := ⟨AccessFrame.refl s, h, rfl, rfl, fun _ _ => ⟨rfl, rfl⟩⟩

theorem Brings.trans {s t u : State} {l m : List CLine} (h : Brings s t l) (k : Brings t u m) : Brings s u (l ++ m) := by
  refine ⟨h.frame.trans k.frame, k.wf, k.host.trans h.host, k.cpu.trans h.cpu, fun a ha => ?_⟩
  obtain ⟨h1, h2⟩ := h.bytes a fun v hv => ha v (by simp [hv])
  obtain ⟨k1, k2⟩ := k.bytes a fun v hv => ha v (by simp [hv])
  exact ⟨k1.trans h1, k2.trans h2⟩

/-- A line that leaves: it is written back and dropped. -/
theorem State.leave_spec (s : State) (v : CLine) (h : Memory.wf s.mem = true) :
    let t := (s.cleanLine v).modCellar fun c => c.dropLine v.addr
    Brings s t [v] ∧ (∀ a, t.core.cellar.line a = if a / 64 * 64 = v.addr then none else s.core.cellar.line a) ∧
    t.core.cellar.cache = (s.core.cellar.dropLine v.addr).cache := by
  intro t
  obtain ⟨c1, c2, c3, c4, c5, c6, c7⟩ := s.cleanLine_spec v h
  have hl : ∀ a, t.core.cellar.line a = if a / 64 * 64 = v.addr then none else s.core.cellar.line a := by
    intro a
    show (State.modCellar _ _).core.cellar.line a = _
    rw [State.modCellar_core_cellar, Cellar.line_dropLine]
    split
    · rfl
    · rename_i ne; exact c6 a ne
  refine ⟨⟨c1.trans (AccessFrame.modCellar _ _ fun _ => rfl), c2, c3, (State.modCellar_cpu _ _).trans c4, fun a ha => ?_⟩, hl, ?_⟩
  · have hv := ha v (by simp)
    have hm : memGet t.mem a = memGet s.mem a := c5 a hv
    refine ⟨?_, hm⟩
    simp only [State.viewByte]
    rw [hl a, if_neg (by omega), hm]
  · show (State.modCellar _ _).core.cellar.cache = _
    rw [State.modCellar_core_cellar]; exact c7

/-- A line put into the room with the sector of pa filled from its home. -/
theorem State.fill_spec (t : State) (n : CLine) (pa : Nat) (h : Memory.wf t.mem = true) (hn : n.addr = pa / 64 * 64)
    (hh : n.has pa = false) (hl : ∀ a, a / 64 = pa / 64 → n.has a = true → t.viewByte a = n.byte a)
    (hv : ∀ a, a / 64 = pa / 64 → n.has a = false → t.viewByte a = memGet t.mem a) :
    let u := t.modCellar fun c => { c.putLine (n.fillSector t.mem t.ecc1 t.ecc2 pa) with order := c.order + 1 }
    Brings t u [] ∧ ∃ l, u.core.cellar.line pa = some l ∧ l.has pa = true := by
  intro u
  have m4 : ∀ n, n % 4 < 4 := fun n => Nat.mod_lt _ (by decide)
  have sp := fun q hq => CLine.fillSector_spec t.mem t.ecc1 t.ecc2 n pa hn q hq
  have ad := (sp pa rfl).1.trans hn
  have ln : ∀ a, u.core.cellar.line a =
      if a / 64 * 64 = pa / 64 * 64 then some (n.fillSector t.mem t.ecc1 t.ecc2 pa) else t.core.cellar.line a := by
    intro a
    have := Cellar.line_putLine t.core.cellar (n.fillSector t.mem t.ecc1 t.ecc2 pa) a
    rw [ad] at this
    show (State.modCellar _ _).core.cellar.line a = _
    rw [State.modCellar_core_cellar]; exact this
  refine ⟨⟨AccessFrame.modCellar _ _ fun _ => rfl, h, rfl, State.modCellar_cpu _ _, fun a _ => ⟨?_, rfl⟩⟩, _, (ln pa).trans (if_pos rfl), ?_⟩
  · have e0 : u.viewByte a = match u.core.cellar.line a with
        | some l => if l.has a then l.byte a else memGet t.mem a
        | none => memGet t.mem a := rfl
    rw [e0, ln a]
    by_cases e : a / 64 * 64 = pa / 64 * 64
    · obtain ⟨-, hva, -, hb⟩ := sp a (by omega)
      rw [if_pos e]
      simp only [CLine.has, hva, hb]
      rw [valid_or _ _ _ (m4 _) (m4 _)]
      by_cases hs : a / 16 = pa / 16
      · have hk : a / 16 % 4 = pa / 16 % 4 := by rw [hs]
        have hz : n.has a = false := by rw [← hh]; unfold CLine.has; rw [hk]
        rw [if_pos hk, if_pos hs, if_pos rfl]; exact (hv a (by omega) hz).symm
      · have hk : a / 16 % 4 ≠ pa / 16 % 4 := by omega
        rw [if_neg hk, if_neg hs]
        cases hz : n.valid.getLsbD (a / 16 % 4) with
        | true => rw [if_pos rfl]; exact (hl a (by omega) hz).symm
        | false => rw [if_neg (by simp)]; exact (hv a (by omega) hz).symm
    · rw [if_neg e]; rfl
  · simp only [CLine.has, (sp pa rfl).2.1]; rw [valid_or _ _ _ (m4 _) (m4 _), if_pos rfl]

/-- A new line placed for pa, which no line of the room holds. -/
theorem State.placeLine_spec (s : State) (c : BitVec 2) (pa : Nat) (h : Memory.wf s.mem = true) (hl : s.core.cellar.line pa = none) :
    Brings s (s.placeLine c pa) (s.core.cellar.frame pa).2.toList ∧
    ∃ l, (s.placeLine c pa).core.cellar.line pa = some l ∧ l.has pa = true := by
  have same : ∀ (x : Cellar) (a : Nat), a / 64 = pa / 64 → x.line a = x.line pa := by intro x a e; unfold Cellar.line; rw [e]
  -- after the line that must go has left
  obtain ⟨t, ht, hb, hn⟩ : ∃ t : State,
      t = (match (s.core.cellar.frame pa).2 with
        | some v => (s.cleanLine v).modCellar fun c => c.dropLine v.addr
        | none => s) ∧
      Brings s t (s.core.cellar.frame pa).2.toList ∧ t.core.cellar.line pa = none := by
    refine ⟨_, rfl, ?_⟩
    cases (s.core.cellar.frame pa).2 with
    | none => exact ⟨Brings.refl s h, hl⟩
    | some v =>
      obtain ⟨c1, c2, -⟩ := s.leave_spec v h
      refine ⟨c1, (c2 pa).trans ?_⟩
      rw [hl]; split <;> rfl
  obtain ⟨n, hnad, hnv, e⟩ : ∃ n : CLine, n.addr = pa / 64 * 64 ∧ n.valid = 0 ∧
      s.placeLine c pa = t.modCellar fun c => { c.putLine (n.fillSector t.mem t.ecc1 t.ecc2 pa) with order := c.order + 1 } := by
    refine ⟨⟨pa / 64 * 64, (s.core.cellar.frame pa).1, s.core.cellar.placeCls c, s.core.cellar.order, 0, 0, 0, 0, 0⟩, rfl, rfl, ?_⟩
    subst ht
    unfold State.placeLine
    cases hv : s.core.cellar.frame pa with
    | mk b v => simp only [hv] <;> cases v <;> rfl
  have hz : ∀ a, n.has a = false := by intro a; unfold CLine.has; rw [hnv]; simp
  obtain ⟨f1, f2⟩ := t.fill_spec n pa hb.wf hnad (hz pa) (fun a _ k => by rw [hz a] at k; simp at k) fun a e _ => by
    unfold State.viewByte; rw [same t.core.cellar a e, hn]
  rw [e]
  refine ⟨?_, f2⟩
  have := hb.trans f1; rw [List.append_nil] at this; exact this

/-- A line that is used again becomes the youngest of its room, and nothing the core sees changes. -/
theorem State.hit_spec (s : State) (l : CLine) (pa : Nat) (h : Memory.wf s.mem = true) (hl : s.core.cellar.line pa = some l)
    (hh : l.has pa = true) :
    let u := s.modCellar fun c => { c.putLine { l with used := c.order } with order := c.order + 1 }
    Brings s u [] ∧ ∃ m, u.core.cellar.line pa = some m ∧ m.has pa = true := by
  intro u
  have ln : ∀ a, u.core.cellar.line a =
      if a / 64 * 64 = pa / 64 * 64 then some { l with used := s.core.cellar.order } else s.core.cellar.line a := by
    intro a
    have la : l.addr = pa / 64 * 64 := Cellar.line_addr _ _ _ hl
    show (State.modCellar _ _).core.cellar.line a = _
    rw [State.modCellar_core_cellar]
    refine (Cellar.line_putLine s.core.cellar { l with used := s.core.cellar.order } a).trans ?_
    show (if _ = l.addr then _ else _) = _
    rw [la]
  refine ⟨⟨AccessFrame.modCellar _ _ fun _ => rfl, h, rfl, State.modCellar_cpu _ _, fun a _ => ⟨?_, rfl⟩⟩, _, (ln pa).trans (if_pos rfl), hh⟩
  have e0 : u.viewByte a = match u.core.cellar.line a with
      | some l => if l.has a then l.byte a else memGet s.mem a
      | none => memGet s.mem a := rfl
  have e1 : s.viewByte a = match s.core.cellar.line a with
      | some l => if l.has a then l.byte a else memGet s.mem a
      | none => memGet s.mem a := rfl
  rw [e0, e1, ln a]
  by_cases e : a / 64 * 64 = pa / 64 * 64
  · have : s.core.cellar.line a = some l := by rw [← hl]; unfold Cellar.line; rw [show a / 64 = pa / 64 by omega]
    rw [if_pos e, this]; rfl
  · rw [if_neg e]

/-- The lines that bringing in the sector of pa evicts. -/
def Cellar.victims (c : Cellar) (pa : Nat) : List CLine :=
  match c.line pa with
  | none => (c.frame pa).2.toList
  | some l => if l.has pa || c.fillBanks.contains l.bank then [] else l :: ((c.dropLine l.addr).frame pa).2.toList

/-- The frame that a line takes depends on the lines and on the banks that take one. -/
theorem Cellar.frame_congr (c d : Cellar) (pa : Nat) (h1 : d.cache = c.cache) (h2 : d.move = c.move) (h3 : d.w3 = c.w3) :
    d.frame pa = c.frame pa := by
  unfold Cellar.frame Cellar.fillBanks; rw [h1, h2, h3]

/-- Bringing a sector into the CACHE room: the core then holds it, and outside the lines that leave every byte stays. -/
theorem State.fillOne_spec (s : State) (c : BitVec 2) (pa : Nat) (h : Memory.wf s.mem = true) :
    Brings s (s.fillOne c pa) (s.core.cellar.victims pa) ∧
    (c ≠ 3 → ∃ l, (s.fillOne c pa).core.cellar.line pa = some l ∧ l.has pa = true) := by
  have nil : ∀ {t : State} (m : List CLine), Brings s t [] → Brings s t m := fun m k =>
    ⟨k.frame, k.wf, k.host, k.cpu, fun a _ => k.bytes a (by simp)⟩
  have same : ∀ a, a / 64 = pa / 64 → s.core.cellar.line a = s.core.cellar.line pa := by intro a e; unfold Cellar.line; rw [e]
  unfold State.fillOne Cellar.victims
  cases hl : s.core.cellar.line pa with
  | some l =>
    have la := Cellar.line_addr _ _ _ hl
    simp only [hl]
    have vw : ∀ a, a / 64 = pa / 64 → s.viewByte a = if l.has a then l.byte a else memGet s.mem a := by
      intro a e; unfold State.viewByte; rw [same a e, hl]
    by_cases hh : l.has pa = true
    · rw [if_pos hh]
      obtain ⟨f1, f2⟩ := s.hit_spec l pa h hl hh
      exact ⟨nil _ f1, fun _ => f2⟩
    · rw [if_neg hh]
      have hf : l.has pa = false := by simpa using hh
      by_cases hc : c = 3
      · rw [if_pos hc]; exact ⟨nil _ (Brings.refl s h), fun hne => absurd hc hne⟩
      · rw [if_neg hc]
        by_cases hb : s.core.cellar.fillBanks.contains l.bank = true
        · rw [if_pos hb]
          obtain ⟨f1, f2⟩ := s.fill_spec { l with used := s.core.cellar.order } pa h la hf
            (fun a e k => by rw [vw a e]; exact if_pos k) (fun a e k => by rw [vw a e]; exact if_neg (by rw [show l.has a = false from k]; simp))
          exact ⟨nil _ f1, fun _ => f2⟩
        · rw [if_neg hb, hf]
          have hb' : s.core.cellar.fillBanks.contains l.bank = false := by simpa using hb
          rw [hb']
          obtain ⟨c1, c2, c3⟩ := s.leave_spec l h
          obtain ⟨p1, p2⟩ := ((s.cleanLine l).modCellar fun c => c.dropLine l.addr).placeLine_spec l.cls pa c1.wf ((c2 pa).trans (if_pos la.symm))
          have e : (((s.cleanLine l).modCellar fun c => c.dropLine l.addr).core.cellar).frame pa = (s.core.cellar.dropLine l.addr).frame pa := by
            have k := c1.frame.2.2.2.1.1
            refine Cellar.frame_congr _ _ _ c3 ?_ ?_
            · rw [k]; rfl
            · rw [k]; rfl
          rw [e] at p1
          exact ⟨by simpa using c1.trans p1, fun _ => p2⟩
  | none =>
    simp only [hl]
    by_cases hc : c = 3
    · rw [if_pos hc]; exact ⟨nil _ (Brings.refl s h), fun hne => absurd hc hne⟩
    · rw [if_neg hc]
      obtain ⟨p1, p2⟩ := s.placeLine_spec c pa h hl
      exact ⟨p1, fun _ => p2⟩

/-! ## Bytes put into the lines of a room -/

/-- Bytes put into a line: those of its own valid sectors take the new values, and nothing else of it but marks changes. -/
theorem CLine.putBytes_spec (l : CLine) (pa : Nat) (bs : List Byte) (d : Bool) (q : Nat) (hq : q / 64 * 64 = l.addr) :
    (l.putBytes pa bs d).addr = l.addr ∧ (l.putBytes pa bs d).valid = l.valid ∧
    (l.putBytes pa bs d).byte q = if pa ≤ q ∧ q < pa + bs.length ∧ l.has q = true then bs.getD (q - pa) 0 else l.byte q := by
  have key : ∀ (bs : List Byte) (m : CLine) (a : Nat), m.addr = l.addr → m.valid = l.valid →
      let r := bs.foldl (fun (x : CLine × Nat) b =>
        let (l, a) := x
        if l.addr == a / 64 * 64 && l.has a then
          let l := l.setByte a b
          ({ l with dirty := if d then l.dirty ||| (1#64 <<< (a % 64)) else l.dirty &&& ~~~(1#64 <<< (a % 64)),
                    err := l.err &&& ~~~(1#8 <<< (a / 8 % 8)), err1 := l.err1 &&& ~~~(1#8 <<< (a / 8 % 8)) }, a + 1)
        else (l, a + 1)) (m, a)
      r.1.addr = l.addr ∧ r.1.valid = l.valid ∧
      r.1.byte q = if a ≤ q ∧ q < a + bs.length ∧ l.has q = true then bs.getD (q - a) 0 else m.byte q := by
    intro bs
    induction bs with
    | nil => intro m a h1 h2; refine ⟨h1, h2, ?_⟩; rw [if_neg (by simp; omega)]; rfl
    | cons b bs ih =>
      intro m a h1 h2
      simp only [List.foldl_cons]
      have hm : m.has a = l.has a := by unfold CLine.has; rw [h2]
      by_cases hc : (m.addr == a / 64 * 64 && m.has a) = true
      · rw [if_pos hc]
        obtain ⟨i1, i2, i3⟩ := ih { m.setByte a b with
          dirty := if d then (m.setByte a b).dirty ||| (1#64 <<< (a % 64)) else (m.setByte a b).dirty &&& ~~~(1#64 <<< (a % 64)),
          err := (m.setByte a b).err &&& ~~~(1#8 <<< (a / 8 % 8)), err1 := (m.setByte a b).err1 &&& ~~~(1#8 <<< (a / 8 % 8)) } (a + 1) h1 h2
        refine ⟨i1, i2, i3.trans ?_⟩
        have hsb : ∀ e x y z, ({ m.setByte a b with dirty := x, err := y, err1 := z } : CLine).byte e = (m.setByte a b).byte e :=
          fun _ _ _ _ => rfl
        rw [hsb, CLine.byte_setByte]
        simp only [Bool.and_eq_true, beq_iff_eq] at hc
        by_cases e : q = a
        · subst e
          have h3 : ¬ (q + 1 ≤ q ∧ q < q + 1 + bs.length ∧ l.has q = true) := by omega
          have h4 : q ≤ q ∧ q < q + (b :: bs).length ∧ l.has q = true := ⟨by omega, by simp, by rw [← hm]; exact hc.2⟩
          rw [if_neg h3, if_pos rfl, if_pos h4]; simp
        · have hne : q % 64 ≠ a % 64 := by omega
          rw [if_neg hne]
          by_cases h3 : a + 1 ≤ q ∧ q < a + 1 + bs.length ∧ l.has q = true
          · have h4 : a ≤ q ∧ q < a + (b :: bs).length ∧ l.has q = true := ⟨by omega, by simp; omega, h3.2.2⟩
            have h5 : q - a = (q - (a + 1)) + 1 := by omega
            rw [if_pos h3, if_pos h4, h5]; rfl
          · have h4 : ¬ (a ≤ q ∧ q < a + (b :: bs).length ∧ l.has q = true) := by
              rintro ⟨x, y, z⟩; simp at y; exact h3 ⟨by omega, by omega, z⟩
            rw [if_neg h3, if_neg h4]
      · rw [if_neg hc]
        obtain ⟨i1, i2, i3⟩ := ih m (a + 1) h1 h2
        refine ⟨i1, i2, i3.trans ?_⟩
        by_cases e : q = a
        · subst e
          have h3 : ¬ (q + 1 ≤ q ∧ q < q + 1 + bs.length ∧ l.has q = true) := by omega
          have h4 : ¬ (q ≤ q ∧ q < q + (b :: bs).length ∧ l.has q = true) := by
            rintro ⟨-, -, z⟩; apply hc; rw [h1, hm, z, hq]; simp
          rw [if_neg h3, if_neg h4]
        · by_cases h3 : a + 1 ≤ q ∧ q < a + 1 + bs.length ∧ l.has q = true
          · have h4 : a ≤ q ∧ q < a + (b :: bs).length ∧ l.has q = true := ⟨by omega, by simp; omega, h3.2.2⟩
            have h5 : q - a = (q - (a + 1)) + 1 := by omega
            rw [if_pos h3, if_pos h4, h5]; rfl
          · have h4 : ¬ (a ≤ q ∧ q < a + (b :: bs).length ∧ l.has q = true) := by
              rintro ⟨x, y, z⟩; simp at y; exact h3 ⟨by omega, by omega, z⟩
            rw [if_neg h3, if_neg h4]
  exact key bs l pa rfl rfl

/-- Putting bytes keeps the address of a line. -/
theorem CLine.putBytes_addr (l : CLine) (pa : Nat) (bs : List Byte) (d : Bool) : (l.putBytes pa bs d).addr = l.addr := by
  unfold CLine.putBytes
  refine (List.foldlRecOn (motive := fun x : CLine × Nat => x.1.addr = l.addr) _ _ rfl ?_)
  rintro ⟨m, a⟩ h b -
  show (if _ then _ else _ : CLine × Nat).1.addr = _
  split <;> exact h

/-- The line of an address after bytes have been put into every line. -/
theorem Cellar.line_map_putBytes (c : Cellar) (pa : Nat) (bs : List Byte) (d : Bool) (a : Nat) :
    ({ c with cache := c.cache.map fun l => l.putBytes pa bs d } : Cellar).line a = (c.line a).map fun l => l.putBytes pa bs d := by
  unfold Cellar.line
  simp only [List.find?_map]
  congr 2; funext l; simp [CLine.putBytes_addr]

/-- What the core sees after bytes have been put into its lines. -/
theorem State.viewByte_putBytes (s : State) (pa : Nat) (bs : List Byte) (d : Bool) (a : Nat) :
    (s.modCellar fun c => { c with cache := c.cache.map fun l => l.putBytes pa bs d }).viewByte a =
      match s.core.cellar.line a with
      | some l => if l.has a then (if pa ≤ a ∧ a < pa + bs.length then bs.getD (a - pa) 0 else l.byte a) else memGet s.mem a
      | none => memGet s.mem a := by
  simp only [State.viewByte, State.modCellar_core_cellar, State.modCellar_mem, Cellar.line_map_putBytes]
  cases hl : s.core.cellar.line a with
  | none => rfl
  | some l =>
    obtain ⟨h1, h2, h3⟩ := CLine.putBytes_spec l pa bs d a (Cellar.line_addr _ _ _ hl).symm
    simp only [Option.map_some, CLine.has, h2, h3]
    by_cases hh : l.valid.getLsbD (a / 16 % 4) = true
    · simp [hh]
    · simp only [hh, Bool.false_eq_true, if_false]

/-! ## Counts -/

/-- Counting bit errors changes the control core's count alone. -/
theorem State.countEcc_eq (s : State) (a b : Nat) :
    ∃ n, s.countEcc a b = s.modCpu fun c => { c with ecccnt := n } := by
  unfold State.countEcc
  split
  · exact ⟨s.cpu.ecccnt, (State.modCpu_self s _ rfl).symm.trans (State.modCpu_congr _ _ _ rfl)⟩
  · exact ⟨_, State.modCpu_congr s _ (fun c => { c with ecccnt := _ }) rfl⟩

end Sys2Proof.Machine
end

