-- ==== Sys2Proof/Laws/Scalar.lean ====
section
/-! SUPPORT. What the shared operations of the scalar words do: guard, retirement, a register write. -/

namespace Sys2Proof.Machine

/-- A passing guard runs the instruction. -/
theorem State.guarded_true (s : State) (q : Guard) (f : State → State) (h : s.guard q = true) : s.guarded q f = f s := by
  simp only [State.guarded, h, if_true]

/-- A false guard retires. -/
theorem State.guarded_false (s : State) (q : Guard) (f : State → State) (h : s.guard q = false) : s.guarded q f = s.retire := by
  simp [State.guarded, h]

/-- Retirement below the end of the canonical range moves the pc and nothing else (R101). -/
theorem State.retire_next (s : State) (h : canonical (s.pc + 4).toInt = true) :
    s.retire = s.modCpu fun c => { c with pc := s.pc + 4 } := by
  simp only [State.retire, h, if_true, State.setPc]

/-- Retirement past the end of the canonical range traps with 0x22 at the next address (R101). -/
theorem State.retire_end (s : State) (h : canonical (s.pc + 4).toInt = false) :
    s.retire = (s.setPc (s.pc + 4)).trapAt 0x22 (s.pc + 4) (s.pc + 4) := by
  simp only [State.retire, h, Bool.false_eq_true, if_false]

/-- A change of the general registers and the pc alone. -/
theorem State.onlyRegs_modCpu (s : State) (g : Vector Word 32) (pc : Word) :
    OnlyRegs s (s.modCpu fun c => { c with g := g, pc := pc }) := by
  unfold OnlyRegs; simp

/-- An instruction that writes gd and retires. -/
theorem State.writeG_eq (s : State) (gd : BitVec 5) (v : Word) (h : canonical (s.pc + 4).toInt = true) :
    s.writeG gd v = (s.setG gd v).setPc (s.pc + 4) := by
  have : ((s.setG gd v).pc + 4) = s.pc + 4 := by simp
  simp only [State.writeG, State.retire, this, h, if_true]

/-- What an instruction that writes gd and retires does. -/
theorem State.writeG_spec (s : State) (gd : BitVec 5) (v : Word) (h : canonical (s.pc + 4).toInt = true) :
    Holds s (s.writeG gd v) gd v ∧ (s.writeG gd v).pc = s.pc + 4 ∧ OnlyRegs s (s.writeG gd v) := by
  rw [State.writeG_eq s gd v h]
  refine ⟨fun r => by simp [State.setG_g], by simp, ?_⟩
  have : (s.setG gd v).setPc (s.pc + 4) =
      s.modCpu fun c => { c with g := (if gd = 0 then s.cpu.g else s.cpu.g.set gd.toNat v), pc := s.pc + 4 } := by
    unfold State.setG State.setPc
    split <;> simp <;> exact State.modCpu_congr _ _ _ rfl
  rw [this]; exact State.onlyRegs_modCpu _ _ _

/-- A guarded register result completes. -/
theorem writes_of_exec (i : Instr) (q : Guard) (s : State) (gd : BitVec 5) (w : Word) (f : State → State) (h : s.goes q)
    (he : exec i s = .next (s.guarded q f)) (hf : f s = s.writeG gd w) : Writes i s gd w :=
  ⟨_, by rw [he, State.guarded_true s q _ h.1, hf], State.writeG_spec s gd w h.2⟩

end Sys2Proof.Machine
end

