-- ==== Sys2Proof/Laws/Traps.lean ====
section
/-! SUPPORT. What taking a trap does (R113, R367-R369). -/

namespace Sys2Proof.Machine

/-- Withdrawing deferred reads changes of a core its deferral tables only. -/
theorem State.withdrawAt_core (s : State) (i : Nat) (a : Agent) :
    (s.withdrawAt i a).core.cpu = s.core.cpu ∧ (s.withdrawAt i a).core.on = s.core.on ∧
    (s.withdrawAt i a).core.fq = s.core.fq := by
  have h : (s.withdrawAt i a).core = if s.core.cellar.banks.isEmpty then s.core else { s.core with cellar :=
      { s.core.cellar with banks := s.core.cellar.banks.map fun (e : Nat × DeferTab) => (e.1, e.2.withdraw i a) } } :=
    Vector.getElem_map (hi := s.cur.isLt) ..
  rw [h]; split <;> simp

@[simp] theorem State.withdraw_cpu (s : State) (a : Agent) : (s.withdraw a).cpu = s.cpu := by
  unfold State.withdraw State.cpu; split
  · exact (s.withdrawAt_core _ a).1
  · rfl

@[simp] theorem State.withdraw_on (s : State) (a : Agent) : (s.withdraw a).core.on = s.core.on := by
  unfold State.withdraw; split
  · exact (s.withdrawAt_core _ a).2.1
  · rfl

@[simp] theorem State.withdraw_fq (s : State) (a : Agent) : (s.withdraw a).core.fq = s.core.fq := by
  unfold State.withdraw; split
  · exact (s.withdrawAt_core _ a).2.2
  · rfl

/-- What withdrawing leaves of the device. -/
theorem State.withdraw_frame (s : State) (a : Agent) :
    s.withdraw a = { s with slices := (s.withdraw a).slices, cores := (s.withdraw a).cores, far := (s.withdraw a).far } := by
  unfold State.withdraw; split <;> rfl

/-- The status word of a trap's first state. -/
theorem statusWith_trap (w : Word) (m : Bool) :
    statusWith w true m true = (w &&& ~~~7#64) ||| (if m then 7 else 5) := by
  cases m <;> rfl

/-- A synchronous trap while NEST is 0 (R113, R368). -/
theorem State.trapAt_enters (s : State) (code : BitVec 8) (addr epc : Word) (h : s.cpu.nest = false) :
    Entered s (s.trapAt code addr epc) (code.setWidth 64) (if hasTaddr code then addr else 0) epc := by
  simp only [Entered, State.trapAt, State.withdraw_cpu, h, Bool.false_eq_true, if_false]
  refine State.modCpu_congr _ _ _ ?_
  simp [Cpu.enter, statusWith_trap, Cpu.mode]

/-- A trapping instruction. -/
theorem traps_of_exec (i : Instr) (s : State) (code : BitVec 8) (addr taddr : Word) (h : s.cpu.nest = false)
    (he : exec i s = .next (s.trap code addr)) (ht : (if hasTaddr code then addr else 0) = taddr) : Traps i s code taddr s.pc := by
  refine ⟨_, he, ?_⟩
  rw [← ht]; exact s.trapAt_enters code addr s.pc h

end Sys2Proof.Machine
end

