-- ==== Sys2Proof/Laws/Access.lean ====
section
/-! SUPPORT. What the scalar accesses do: translation, a read and a write of PLAIN memory (R102-R105, R377). -/

namespace Sys2Proof.Machine

/-- u is s but for the control core's translation cache and its count of bit errors: what translation and the counting of errors may change (R377, R390). -/
def State.Aside (s u : State) : Prop := ∃ f : Cpu → Cpu, u = s.modCpu f ∧ ∀ c, f c = { c with tlb := (f c).tlb, ecccnt := (f c).ecccnt }

theorem State.Aside.refl (s : State) : s.Aside s := ⟨fun c => c, s.modCpu_id.symm, fun _ => rfl⟩

theorem State.Aside.trans {s t u : State} (h : s.Aside t) (k : t.Aside u) : s.Aside u := by
  obtain ⟨f, rfl, hf⟩ := h
  obtain ⟨g, rfl, hg⟩ := k
  exact ⟨fun c => g (f c), State.modCpu_modCpu _ _ _, fun c => by
    show g (f c) = { c with tlb := (g (f c)).tlb, ecccnt := (g (f c)).ecccnt }
    rw [hg (f c), hf c]⟩

theorem State.Aside.count (s : State) (a b : Nat) : s.Aside (s.countEcc a b) := by
  obtain ⟨n, e⟩ := s.countEcc_eq a b; exact ⟨_, e, fun _ => rfl⟩

/-- The cellar of a core after a change of the control core in focus. -/
theorem State.modCpu_coreAt_cellar (s : State) (f : Cpu → Cpu) (o : Nat) : ((s.modCpu f).coreAt o).cellar = (s.coreAt o).cellar := by
  unfold State.coreAt
  by_cases h : o < 192
  · rw [dif_pos h, dif_pos h]
    by_cases e : (⟨o, h⟩ : Fin 192) = s.cur
    · have e' : o = s.cur.val := congrArg Fin.val e
      subst e'
      exact State.modCpu_core_cellar s f
    · have k : (s.modCpu f).cores[(⟨o, h⟩ : Fin 192)] = s.cores[(⟨o, h⟩ : Fin 192)] := s.modCore_others _ _ e
      exact congrArg Core.cellar k
  · rw [dif_neg h, dif_neg h, State.modCpu_core_cellar]

/-- Everything an access looks at but the translation cache and the count is as it was. -/
structure Keeps (s u : State) : Prop where
  frame    : AccessFrame s u
  cellar   : u.core.cellar = s.core.cellar
  mem      : u.mem = s.mem
  host     : u.hostMem = s.hostMem
  g        : u.cpu.g = s.cpu.g
  pc       : u.cpu.pc = s.cpu.pc
  owner    : ∀ pa, u.ownerOf pa = s.ownerOf pa
  viewByte : ∀ a, u.viewByte a = s.viewByte a
  viewErr  : ∀ l, u.viewErr l = s.viewErr l
  mergeErr : ∀ pa n, u.mergeErr pa n = s.mergeErr pa n
  evicts   : ∀ pa, u.evicts pa = s.evicts pa

theorem State.Aside.keeps {s u : State} (h : s.Aside u) : Keeps s u := by
  obtain ⟨f, rfl, hf⟩ := h
  have own : ∀ pa, (s.modCpu f).ownerOf pa = s.ownerOf pa := fun _ => rfl
  have held : ∀ l, (s.modCpu f).heldErr2 l = s.heldErr2 l := by
    intro l; unfold State.heldErr2; simp only [own, State.modCpu_coreAt_cellar, State.modCpu_ecc2]
  have err : ∀ l, (s.modCpu f).viewErr l = s.viewErr l := by
    intro l; unfold State.viewErr; simp only [State.modCpu_core_cellar, held]
  exact {
    frame := AccessFrame.modCpu s f fun c => by rw [hf c]
    cellar := State.modCpu_core_cellar _ _
    mem := rfl
    host := rfl
    g := by rw [State.modCpu_cpu, hf]
    pc := by rw [State.modCpu_cpu, hf]
    owner := own
    viewByte := fun a => State.viewByte_congr _ _ _ (by rw [State.modCpu_core_cellar]) rfl
    viewErr := err
    mergeErr := fun pa n => by unfold State.mergeErr; simp only [err, held]
    evicts := fun pa => by unfold State.evicts; simp only [own, State.modCpu_core_cellar] }

/-- Translation changes the translation cache, and the count of bit errors, and nothing else (R377, R390). -/
theorem State.xlateStrand_spec (s : State) (k : Kind) (va : Int) : s.Aside (s.xlateStrand k va).2 := by
  have walk : s.Aside (s.countWalk va) := State.Aside.count _ _ _
  unfold State.xlateStrand
  split
  · exact .refl s
  · split
    · exact .refl s
    · rename_i l _ _; exact ⟨fun c => { c with tlb := l }, rfl, fun _ => rfl⟩
    · split
      · exact walk
      · rename_i x _; exact walk.trans ⟨fun c => { c with tlb := tlbAdd 64 x c.tlb }, rfl, fun _ => rfl⟩

/-- An aligned access of 1, 2, 4 or 8 bytes lies in one sector and one doubleword. -/
theorem sectorsOf_aligned (pa n : Nat) (hn : n ∣ 8) (h0 : 0 < n) (ha : pa % n = 0) : sectorsOf pa n = [pa / 16 * 16] := by
  have h8 : n ≤ 8 := Nat.le_of_dvd (by decide) hn
  have e : (pa + n - 1) / 16 = pa / 16 := by
    obtain ⟨k, hk⟩ := hn
    have : n = 1 ∨ n = 2 ∨ n = 4 ∨ n = 8 := by
      rcases (show n = 1 ∨ n = 2 ∨ n = 3 ∨ n = 4 ∨ n = 5 ∨ n = 6 ∨ n = 7 ∨ n = 8 by omega) with h|h|h|h|h|h|h|h <;> subst h <;> omega
    rcases this with h | h | h | h <;> subst h <;> omega
  unfold sectorsOf rangeFrom
  rw [if_neg (by omega), e]
  simp [Nat.mul_comm]

theorem locsOf_aligned (pa n : Nat) (hn : n ∣ 8) (h0 : 0 < n) (ha : pa % n = 0) : locsOf pa n = [pa / 8] := by
  have h8 : n ≤ 8 := Nat.le_of_dvd (by decide) hn
  have e : (pa + n - 1) / 8 = pa / 8 := by
    obtain ⟨k, hk⟩ := hn
    have : n = 1 ∨ n = 2 ∨ n = 4 ∨ n = 8 := by
      rcases (show n = 1 ∨ n = 2 ∨ n = 3 ∨ n = 4 ∨ n = 5 ∨ n = 6 ∨ n = 7 ∨ n = 8 by omega) with h|h|h|h|h|h|h|h <;> subst h <;> omega
    rcases this with h | h | h | h <;> subst h <;> omega
  unfold locsOf rangeFrom
  rw [if_neg (by omega), e]
  simp

/-- The lines that bringing in a sector evicts depend on the sector alone. -/
theorem Cellar.victims_sector (c : Cellar) (pa : Nat) : c.victims (pa / 16 * 16) = c.victims pa := by
  have e : pa / 16 * 16 / 64 = pa / 64 := by omega
  have e2 : pa / 16 * 16 / 16 = pa / 16 := by omega
  unfold Cellar.victims Cellar.line Cellar.frame CLine.has; rw [e, e2]

/-- The lines that an access evicts, no stash owning its page. -/
theorem State.evicts_victims (s : State) (pa : Nat) (h : s.ownerOf pa = none) : s.evicts pa = s.core.cellar.victims pa := by
  unfold State.evicts Cellar.victims; rw [h]; rfl

/-- A read of PLAIN memory by the strand: the bytes that the core sees, within the frame of an access. -/
theorem State.readPlain_spec (s : State) (pa n : Nat) (hn : n ∣ 8) (h0 : 0 < n) (ha : pa % n = 0) (h : Memory.wf s.mem = true)
    (he : s.viewErr (pa / 8) = false) :
    ∃ t, s.readPlain pa n 0 = (some (s.view pa n), t) ∧ AccessFrame s t ∧ t.cpu.g = s.cpu.g ∧ t.cpu.pc = s.cpu.pc ∧ Memory.wf t.mem = true ∧
      t.hostMem = s.hostMem ∧
      ∀ a, s.apart pa a → t.viewByte a = s.viewByte a ∧ memGet t.mem a = memGet s.mem a := by
  have k := (State.Aside.count s (s.singles pa n) 0).keeps
  have e1 : (locsOf pa n).any s.viewErr = false := by rw [locsOf_aligned pa n hn h0 ha]; simp [he]
  cases ho : s.ownerOf pa with
  | some o =>
    obtain ⟨t1, t2, t3, t4, t5⟩ := (s.countEcc (s.singles pa n) 0).touchStash_spec pa n false
    refine ⟨(s.countEcc (s.singles pa n) 0).touchStash pa n false, ?_, k.frame.trans t1, ?_, ?_, ?_, ?_, fun a _ => ⟨?_, ?_⟩⟩
    · unfold State.readPlain
      simp only [e1, Bool.false_eq_true, if_false, k.owner, ho]
    · rw [t3, k.g]
    · rw [t3, k.pc]
    · rw [t4, k.mem]; exact h
    · rw [t5, k.host]
    · rw [State.viewByte_congr _ _ _ t2 t4, k.viewByte]
    · rw [t4, k.mem]
  | none =>
    obtain ⟨b, -⟩ := (s.countEcc (s.singles pa n) 0).fillOne_spec 0 (pa / 16 * 16) (by rw [k.mem]; exact h)
    rw [Cellar.victims_sector, k.cellar, ← s.evicts_victims pa ho] at b
    refine ⟨_, ?_, k.frame.trans b.frame, by rw [b.cpu, k.g], by rw [b.cpu, k.pc], b.wf, b.host.trans k.host, fun a hap => ?_⟩
    · unfold State.readPlain
      simp only [e1, Bool.false_eq_true, if_false, k.owner, ho, sectorsOf_aligned pa n hn h0 ha, List.foldl_cons, List.foldl_nil]
    · obtain ⟨v1, v2⟩ := b.bytes a hap
      exact ⟨v1.trans (k.viewByte a), by rw [v2, k.mem]⟩

/-- Engine writes and record writes: performed at the home, with the core's copy updated. Bytes outside stay. -/
theorem State.writeThrough_spec (s : State) (pa : Nat) (bs : List Byte) (h : Memory.wf s.mem = true) :
    let t := s.writeThrough pa bs
    AccessFrame s t ∧ t.cpu = s.cpu ∧ Memory.wf t.mem = true ∧ t.hostMem = s.hostMem ∧
    (∀ a, t.viewByte a = if pa ≤ a ∧ a < pa + bs.length then bs.getD (a - pa) 0 else s.viewByte a) ∧
    (∀ a, memGet t.mem a = if pa ≤ a ∧ a < pa + bs.length then bs.getD (a - pa) 0 else memGet s.mem a) := by
  intro t
  have f1 : AccessFrame s (s.homePut pa bs) := AccessFrame.homes s _ _ _
  have f2 : AccessFrame (s.homePut pa bs) ((s.homePut pa bs).lineUpdate pa bs) := AccessFrame.modCellar _ _ fun _ => rfl
  obtain ⟨t1, t2, t3, t4, t5⟩ := ((s.homePut pa bs).lineUpdate pa bs).touchStash_spec pa bs.length true
  have hm : ∀ a, memGet t.mem a = if pa ≤ a ∧ a < pa + bs.length then bs.getD (a - pa) 0 else memGet s.mem a := by
    intro a
    show memGet (State.touchStash _ _ _ _).mem a = _
    rw [t4]; exact memGet_memPut bs s.mem pa a h
  refine ⟨f1.trans (f2.trans t1), ?_, ?_, t5, fun a => ?_, hm⟩
  · exact t3.trans (State.modCellar_cpu _ _)
  · show Memory.wf (State.touchStash _ _ _ _).mem = true
    rw [t4]; exact memPut_wf _ _ _ h
  · have e1 : t.viewByte a = ((s.homePut pa bs).lineUpdate pa bs).viewByte a := State.viewByte_congr _ _ _ t2 t4
    have e2 := State.viewByte_putBytes (s.homePut pa bs) pa bs false a
    have e3 : memGet (s.homePut pa bs).mem a = if pa ≤ a ∧ a < pa + bs.length then bs.getD (a - pa) 0 else memGet s.mem a :=
      memGet_memPut bs s.mem pa a h
    rw [e1]; refine e2.trans ?_
    have hl : (s.homePut pa bs).core.cellar.line a = s.core.cellar.line a := rfl
    rw [hl, e3]
    unfold State.viewByte
    cases s.core.cellar.line a with
    | none => rfl
    | some l =>
      by_cases hh : l.has a = true
      · simp only [hh, if_true]
      · simp only [hh, Bool.false_eq_true, if_false]

/-- The strand's write of PLAIN memory: its bytes as the core sees them, and, of a stashed page, at their homes; outside an evicted line every other byte stays. -/
theorem State.strandPut_spec (s : State) (pa : Nat) (bs : List Byte) (hn : bs.length ∣ 8) (h0 : 0 < bs.length) (ha : pa % bs.length = 0)
    (h : Memory.wf s.mem = true) (he : s.mergeErr pa bs.length = false) :
    ∃ t, s.strandPut pa bs = some t ∧ AccessFrame s t ∧ t.cpu.g = s.cpu.g ∧ t.cpu.pc = s.cpu.pc ∧ Memory.wf t.mem = true ∧ t.hostMem = s.hostMem ∧
      (∀ a, pa ≤ a → a < pa + bs.length → t.viewByte a = bs.getD (a - pa) 0) ∧
      (∀ a, a < pa ∨ pa + bs.length ≤ a → s.apart pa a → t.viewByte a = s.viewByte a) ∧
      (∀ a, (s.ownerOf pa).isSome = false ∨ a < pa ∨ pa + bs.length ≤ a → s.apart pa a → memGet t.mem a = memGet s.mem a) := by
  have k := (State.Aside.count s (s.mergeSingles pa bs.length) 0).keeps
  have hw : Memory.wf (s.countEcc (s.mergeSingles pa bs.length) 0).mem = true := by rw [k.mem]; exact h
  cases ho : s.ownerOf pa with
  | some o =>
    obtain ⟨w1, w2, w3, w4, w5, w6⟩ := (s.countEcc (s.mergeSingles pa bs.length) 0).writeThrough_spec pa bs hw
    refine ⟨(s.countEcc (s.mergeSingles pa bs.length) 0).writeThrough pa bs, ?_, k.frame.trans w1, by rw [w2, k.g], by rw [w2, k.pc], w3,
      w4.trans k.host, fun a h1 h2 => ?_, fun a h1 _ => ?_, fun a h1 _ => ?_⟩
    · unfold State.strandPut
      simp only [he, Bool.false_eq_true, if_false, k.owner, ho]
    · rw [w5, if_pos ⟨h1, h2⟩]
    · rw [w5, if_neg (by omega), k.viewByte]
    · rw [w6, if_neg (by simp at h1; omega), k.mem]
  | none =>
    have h8 : bs.length ≤ 8 := Nat.le_of_dvd (by decide) hn
    obtain ⟨b, f5⟩ := (s.countEcc (s.mergeSingles pa bs.length) 0).fillOne_spec 0 (pa / 16 * 16) hw
    obtain ⟨l, hl, hh⟩ := f5 (by decide)
    rw [Cellar.victims_sector, k.cellar, ← s.evicts_victims pa ho] at b
    have sect : ∀ a, pa ≤ a → a < pa + bs.length → a / 16 = pa / 16 := by
      intro a h1 h2
      rcases (show bs.length = 1 ∨ bs.length = 2 ∨ bs.length = 3 ∨ bs.length = 4 ∨ bs.length = 5 ∨ bs.length = 6 ∨ bs.length = 7 ∨
        bs.length = 8 by omega) with h|h|h|h|h|h|h|h <;> rw [h] at hn ha h2 <;> omega
    refine ⟨((s.countEcc (s.mergeSingles pa bs.length) 0).fillOne 0 (pa / 16 * 16)).modCellar fun c =>
        { c with cache := c.cache.map fun l => l.putBytes pa bs true }, ?_,
      k.frame.trans (b.frame.trans (AccessFrame.modCellar _ _ fun _ => rfl)), ?_, ?_, b.wf, b.host.trans k.host,
      fun a h1 h2 => ?_, fun a h1 hap => ?_, fun a _ hap => ?_⟩
    · unfold State.strandPut
      simp only [he, Bool.false_eq_true, if_false, k.owner, ho, sectorsOf_aligned pa _ hn h0 ha, List.foldl_cons, List.foldl_nil]
    · rw [State.modCellar_cpu, b.cpu, k.g]
    · rw [State.modCellar_cpu, b.cpu, k.pc]
    · refine (State.viewByte_putBytes _ _ _ _ _).trans ?_
      have e := sect a h1 h2
      have la : ((s.countEcc (s.mergeSingles pa bs.length) 0).fillOne 0 (pa / 16 * 16)).core.cellar.line a = some l := by
        rw [← hl]; unfold Cellar.line
        have : a / 64 * 64 = pa / 16 * 16 / 64 * 64 := by omega
        rw [this]
      have hs : l.has a = true := by
        unfold CLine.has at hh ⊢
        have : a / 16 % 4 = pa / 16 * 16 / 16 % 4 := by omega
        rw [this]; exact hh
      rw [la]; simp only [hs, if_true, h1, h2, and_self]
    · refine (State.viewByte_putBytes _ _ _ _ _).trans ?_
      rw [← k.viewByte, ← (b.bytes a hap).1]
      unfold State.viewByte
      cases ((s.countEcc (s.mergeSingles pa bs.length) 0).fillOne 0 (pa / 16 * 16)).core.cellar.line a with
      | none => rfl
      | some m =>
        have : ¬ (pa ≤ a ∧ a < pa + bs.length) := by omega
        simp only [this, if_false]
    · exact (b.bytes a hap).2.trans (by rw [k.mem])

/-! ## Loads and stores as a whole -/

/-- A scalar access whose address passes its checks and translates. -/
theorem State.scalarPlace_ok (s u : State) (k : Kind) (ea : Int) (n : Nat) (x : Phys) (hc : canonical ea = true) (hn : ea % n = 0)
    (hx : s.xlateStrand k ea = (.ok x, u)) : s.scalarPlace k ea n = (.ok x, u) := by
  unfold State.scalarPlace
  simp only [hc, hn, hx]; simp

/-- An address that fails a check, or whose translation fails, traps. -/
theorem State.scalarPlace_fault (s : State) (k : Kind) (ea : Int) (n : Nat) :
    (canonical ea = false → s.scalarPlace k ea n = (.error (s.trap 0x22 (wordOf ea)), s)) ∧
    (canonical ea = true → ea % n ≠ 0 → s.scalarPlace k ea n = (.error (s.trap 0x13 (wordOf ea)), s)) ∧
    (∀ c u, canonical ea = true → ea % n = 0 → s.xlateStrand k ea = (.error c, u) →
      s.scalarPlace k ea n = (.error (u.trap c (wordOf ea)), u)) := by
  refine ⟨fun h => ?_, fun h h2 => ?_, fun c u h h2 h3 => ?_⟩
  · unfold State.scalarPlace; simp [h]
  · unfold State.scalarPlace; simp [h, h2]
  · unfold State.scalarPlace; simp only [h, h2, h3]; simp

/-- A register write and a retirement are within the frame of an access. -/
theorem AccessFrame.writeG (s : State) (gd : BitVec 5) (v : Word) (h : canonical (s.pc + 4).toInt = true) :
    AccessFrame s (s.writeG gd v) ∧ (s.writeG gd v).core.cellar = s.core.cellar ∧ (s.writeG gd v).mem = s.mem ∧
    (s.writeG gd v).hostMem = s.hostMem := by
  obtain ⟨-, -, e⟩ := s.writeG_spec gd v h
  unfold OnlyRegs at e
  refine ⟨?_, ?_, ?_, ?_⟩
  · rw [e]; exact AccessFrame.modCpu _ _ fun _ => rfl
  · rw [e]; simp
  · rw [e]; rfl
  · rw [e]; rfl

/-- A scalar load of a PLAIN page (R102, R103). -/
theorem State.scalarLoad_spec (s u : State) (ea : Int) (n : Nat) (gd : BitVec 5) (x : Phys) (g : Nat → Word)
    (hpc : canonical (s.pc + 4).toInt = true) (hc : canonical ea = true) (hx : s.xlateStrand .load ea = (.ok x, u))
    (ho : x.ext.once = false) (hm : (x.pa : Int) % 4096 = ea % 4096) (hw : Memory.wf s.mem = true) (hn : n ∣ 8) (h0 : 0 < n)
    (ha : ea % n = 0) (he : s.viewErr (x.pa / 8) = false) :
    ∃ t, s.scalarLoad ea n (fun v s => s.writeG gd (g v)) = t ∧ Holds s t gd (g (ofBytes (s.view x.pa n))) ∧ t.pc = s.pc + 4 ∧
      AccessFrame s t ∧ Memory.wf t.mem = true ∧ t.hostMem = s.hostMem ∧
      ∀ a, s.apart x.pa a → t.viewByte a = s.viewByte a ∧ memGet t.mem a = memGet s.mem a := by
  have k : Keeps s u := by have := (s.xlateStrand_spec .load ea).keeps; rw [hx] at this; exact this
  have hpa : x.pa % n = 0 := by
    obtain ⟨k, hk⟩ := hn
    have h8 : n ≤ 8 := Nat.le_of_dvd (by decide) ⟨k, hk⟩
    rcases (show n = 1 ∨ n = 2 ∨ n = 3 ∨ n = 4 ∨ n = 5 ∨ n = 6 ∨ n = 7 ∨ n = 8 by omega) with h|h|h|h|h|h|h|h <;> subst h <;> omega
  obtain ⟨t, r1, r2, r3, r4, r5, r6, r7⟩ := u.readPlain_spec x.pa n hn h0 hpa (by rw [k.mem]; exact hw) (by rw [k.viewErr]; exact he)
  have tpc : t.pc = s.pc := by unfold State.pc; rw [r4, k.pc]
  have tg : ∀ r, t.g r = s.g r := by intro r; unfold State.g; rw [r3, k.g]
  have vw : u.view x.pa n = s.view x.pa n := by unfold State.view; congr 1; funext i; exact k.viewByte _
  have cpc : canonical (t.pc + 4).toInt = true := by rw [tpc]; exact hpc
  obtain ⟨w1, w2, w3⟩ := t.writeG_spec gd (g (ofBytes (s.view x.pa n))) cpc
  obtain ⟨f1, f2, f3, f4⟩ := AccessFrame.writeG t gd (g (ofBytes (s.view x.pa n))) cpc
  refine ⟨t.writeG gd (g (ofBytes (s.view x.pa n))), ?_, ?_, ?_, k.frame.trans (r2.trans f1), ?_, ?_, fun a hap => ?_⟩
  · unfold State.scalarLoad
    rw [s.scalarPlace_ok u .load ea n x hc ha hx]
    unfold State.readPhys
    simp only [ho, Bool.false_eq_true, if_false, r1, vw]
  · intro r; rw [w1 r, tg r]
  · rw [w2, tpc]
  · rw [f3]; exact r5
  · rw [f4, r6, k.host]
  · have hap' : u.apart x.pa a := by intro v hv; rw [k.evicts] at hv; exact hap v hv
    obtain ⟨q1, q2⟩ := r7 a hap'
    refine ⟨?_, ?_⟩
    · rw [State.viewByte_congr _ _ _ (by rw [f2]) f3, q1, k.viewByte]
    · rw [f3, q2, k.mem]

/-- A scalar store to a PLAIN page (R102, R104). -/
theorem State.scalarStore_spec (s u : State) (ea : Int) (bs : List Byte) (x : Phys)
    (hpc : canonical (s.pc + 4).toInt = true) (hc : canonical ea = true) (hx : s.xlateStrand .store ea = (.ok x, u))
    (ho : x.ext.once = false) (hm : (x.pa : Int) % 4096 = ea % 4096) (hw : Memory.wf s.mem = true) (hn : bs.length ∣ 8) (h0 : 0 < bs.length)
    (ha : ea % bs.length = 0) (he : s.mergeErr x.pa bs.length = false) :
    ∃ t, s.scalarStore ea bs = t ∧ (∀ r, t.g r = s.g r) ∧ t.pc = s.pc + 4 ∧ AccessFrame s t ∧ Memory.wf t.mem = true ∧ t.hostMem = s.hostMem ∧
      (∀ a, x.pa ≤ a → a < x.pa + bs.length → t.viewByte a = bs.getD (a - x.pa) 0) ∧
      (∀ a, a < x.pa ∨ x.pa + bs.length ≤ a → s.apart x.pa a → t.viewByte a = s.viewByte a) ∧
      (∀ a, (s.ownerOf x.pa).isSome = false ∨ a < x.pa ∨ x.pa + bs.length ≤ a → s.apart x.pa a → memGet t.mem a = memGet s.mem a) := by
  have k : Keeps s u := by have := (s.xlateStrand_spec .store ea).keeps; rw [hx] at this; exact this
  have hpa : x.pa % bs.length = 0 := by
    have h8 : bs.length ≤ 8 := Nat.le_of_dvd (by decide) hn
    rcases (show bs.length = 1 ∨ bs.length = 2 ∨ bs.length = 3 ∨ bs.length = 4 ∨ bs.length = 5 ∨ bs.length = 6 ∨ bs.length = 7 ∨
        bs.length = 8 by omega) with h|h|h|h|h|h|h|h <;> rw [h] at hn ha ⊢ <;> omega
  obtain ⟨t, r1, r2, r3, r4, r5, r6, r7, r8, r9⟩ := u.strandPut_spec x.pa bs hn h0 hpa (by rw [k.mem]; exact hw) (by rw [k.mergeErr]; exact he)
  have tpc : t.pc = s.pc := by unfold State.pc; rw [r4, k.pc]
  have cpc : canonical (t.pc + 4).toInt = true := by rw [tpc]; exact hpc
  have fr : AccessFrame t (t.modCpu fun c => { c with pc := t.pc + 4 }) := AccessFrame.modCpu _ _ fun _ => rfl
  have hap' : ∀ a, s.apart x.pa a → u.apart x.pa a := by
    intro a hap v hv; rw [k.evicts] at hv; exact hap v hv
  have vt : ∀ a, (t.modCpu fun c => { c with pc := t.pc + 4 }).viewByte a = t.viewByte a := fun a =>
    State.viewByte_congr _ _ _ (by simp) rfl
  refine ⟨t.modCpu fun c => { c with pc := t.pc + 4 }, ?_, ?_, ?_, k.frame.trans (r2.trans fr), r5, r6.trans k.host, fun a h1 h2 => ?_,
    fun a h1 hap => ?_, fun a h1 hap => ?_⟩
  · unfold State.scalarStore
    rw [s.scalarPlace_ok u .store ea bs.length x hc ha hx]
    simp only [ho, Bool.false_eq_true, if_false, r1]
    exact t.retire_next cpc
  · intro r; unfold State.g; rw [State.modCpu_cpu]; show (if r = 0 then 0 else t.cpu.g[r.toNat]) = _; simp only [r3, k.g]
  · unfold State.pc; rw [State.modCpu_cpu]; show t.pc + 4 = _; rw [tpc]; rfl
  · rw [vt]; exact r7 a h1 h2
  · rw [vt, r8 a h1 (hap' a hap), k.viewByte]
  · show memGet t.mem a = _
    rw [r9 a (by rw [k.owner]; exact h1) (hap' a hap), k.mem]

end Sys2Proof.Machine
end

