-- ==== Sys2Proof/Tests/Slice0.lean ====
section
/-! SUPPORT. Tests of one decode or one step each, and for every obligation with hypotheses a state and operands that meet them. -/

namespace Sys2Proof.Tests

set_option Elab.async false

open Sys2Proof Sys2Proof.Machine

/-! ## Small states -/

/-- The device with the core in focus changed. -/
def core (f : Core → Core) : State := State.reset.modCore f

/-- General registers g0, g1, … as listed. -/
def regs (l : List Nat) : Vector Word 32 := Vector.ofFn fun i => BitVec.ofNat 64 (l.getD i.val 0)

/-- Four mapped pages: 0x2000 PLAIN, 0x3000 ONCE, 0x4000 that may not be written, and the last page of the range. -/
def pages : List Extent :=
  [⟨0x2000, 0x42000, 4096, true, true, true, true, false, false⟩, ⟨0x3000, 0x43000, 4096, true, true, false, true, true, false⟩,
   ⟨0x4000, 0x44000, 4096, true, false, true, true, false, false⟩, ⟨0xFFFFFFFFFFF000, 0x45000, 4096, true, true, true, true, false, false⟩]

/-- A running strand at 0x1000 with registers and status. -/
def strand (g : List Nat) (status : Nat) (f : Cpu → Cpu) : State :=
  core fun c => { c with cpu := f { c.cpu with run := .running, pc := 0x1000, tlb := pages, g := regs g, status := BitVec.ofNat 64 status } }

/-- A translation that succeeds with a given leaf. -/
def reaches (s : State) (k : Kind) (va : Int) (n : Nat) (x : Phys) : Bool :=
  canonical va && decide (va % n = 0) && decide ((x.pa : Int) % 4096 = va % 4096) &&
  (match (s.xlateStrand k va).1 with | .ok y => y == x | .error _ => false)

theorem ok_of (r : Except (BitVec 8) Phys × State) (x : Phys)
    (h : (match r.1 with | .ok y => y == x | .error _ => false) = true) : r = (.ok x, r.2) := by
  obtain ⟨a, b⟩ := r
  cases a with
  | error _ => simp at h
  | ok y => simp at h; simp [h]

theorem reaches_of (s : State) (k : Kind) (va : Int) (n : Nat) (x : Phys) (h : reaches s k va n x = true) :
    ∃ u, s.Reaches k va n x u := by
  simp only [reaches, Bool.and_eq_true, decide_eq_true_eq] at h
  exact ⟨_, h.1.1.1, h.1.1.2, ok_of _ x h.2, h.1.2⟩

/-- The leaf of page n of the list, with the byte in it. -/
def leaf (n off : Nat) : Phys := let e := pages.getD n ⟨0, 0, 0, false, false, false, false, false, false⟩; ⟨e.pa + off, e⟩

theorem test_decode_alu :
    ([0b1_101_000000_10011_01010_10101_0000000,
      0b1_101_000000_10011_01010_10101_0000001,
      0b1_101_000000_10011_01010_10101_0000010,
      0b1_101_000000_10011_01010_10101_0000011,
      0b1_101_000000_10011_01010_10101_0000100,
      0b1_101_000000_10011_01010_10101_0000101,
      0b1_101_000000_10011_01010_10101_0000110,
      0b1_101_000000_10011_01010_10101_0000111,
      0b1_101_000000_10011_01010_10101_0001000,
      0b1_101_000000_10011_01010_10101_0001001,
      0b1_101_000000_10011_01010_10101_0001010,
      0b1_101_000000_10011_01010_10101_0001011,
      0b1_101_000000_10011_01010_10101_0001100] : List Nat).map (decodeTableWord 32) =
    [some (.add ⟨true, 5⟩ 19 10 21),
     some (.sub ⟨true, 5⟩ 19 10 21),
     some (.and ⟨true, 5⟩ 19 10 21),
     some (.or ⟨true, 5⟩ 19 10 21),
     some (.xor ⟨true, 5⟩ 19 10 21),
     some (.andn ⟨true, 5⟩ 19 10 21),
     some (.sll ⟨true, 5⟩ 19 10 21),
     some (.srl ⟨true, 5⟩ 19 10 21),
     some (.sra ⟨true, 5⟩ 19 10 21),
     some (.min ⟨true, 5⟩ 19 10 21),
     some (.max ⟨true, 5⟩ 19 10 21),
     some (.minu ⟨true, 5⟩ 19 10 21),
     some (.maxu ⟨true, 5⟩ 19 10 21)] := by decide +kernel

theorem test_decode_immediate :
    ([0b1_101_000001_10011_01010_101001011100,
      0b1_101_000010_10011_01010_101001011100,
      0b1_101_000011_10011_01010_101001011100,
      0b1_101_000100_10011_01010_101001011100,
      0b1_101_000101_10011_01010_000000_101101,
      0b1_101_000110_10011_01010_000000_101101,
      0b1_101_000111_10011_01010_000000_101101] : List Nat).map (decodeTableWord 32) =
    [some (.addi ⟨true, 5⟩ 19 10 2652),
     some (.andi ⟨true, 5⟩ 19 10 2652),
     some (.ori ⟨true, 5⟩ 19 10 2652),
     some (.xori ⟨true, 5⟩ 19 10 2652),
     some (.slli ⟨true, 5⟩ 19 10 45),
     some (.srli ⟨true, 5⟩ 19 10 45),
     some (.srai ⟨true, 5⟩ 19 10 45)] := by decide +kernel

theorem test_decode_muldiv :
    ([0b1_101_001000_10011_01010_10101_0000000,
      0b1_101_001000_10011_01010_10101_0000001,
      0b1_101_001000_10011_01010_10101_0000010,
      0b1_101_001000_10011_01010_10101_0000011,
      0b1_101_001000_10011_01010_10101_0000100,
      0b1_101_001000_10011_01010_10101_0000101,
      0b1_101_001000_10011_01010_10101_0000110] : List Nat).map (decodeTableWord 32) =
    [some (.mul ⟨true, 5⟩ 19 10 21),
     some (.mulh ⟨true, 5⟩ 19 10 21),
     some (.mulhu ⟨true, 5⟩ 19 10 21),
     some (.div ⟨true, 5⟩ 19 10 21),
     some (.divu ⟨true, 5⟩ 19 10 21),
     some (.rem ⟨true, 5⟩ 19 10 21),
     some (.remu ⟨true, 5⟩ 19 10 21)] := by decide +kernel

theorem test_decode_constant_bit_compare :
    ([0b1_101_001001_10011_10101101001011100,
      0b1_101_001010_10011_10101101001011100,
      0b1_101_001011_10011_01010_10101_000_1_011,
      0b1_101_001100_10011_01010_000000000000,
      0b1_101_001100_10011_01010_000000000001,
      0b1_101_010000_011_10_01010_10101_0000_110,
      0b1_101_010000_011_10_01010_10101_1000_110] : List Nat).map (decodeTableWord 32) =
    [some (.lui ⟨true, 5⟩ 19 88668),
     some (.addpc ⟨true, 5⟩ 19 88668),
     some (.sel ⟨true, 5⟩ 19 10 21 true 3),
     some (.clz ⟨true, 5⟩ 19 10),
     some (.popc ⟨true, 5⟩ 19 10),
     some (.cmp ⟨true, 5⟩ 3 2 10 21 6),
     some (.cmpImm ⟨true, 5⟩ 3 2 10 21 6)] := by decide +kernel

theorem test_decode_branch :
    ([0b1_101_011000_1010100101101001011011,
      0b1_101_011001_1010100101101001011011,
      0b1_101_011010_10011_01010_101001011100] : List Nat).map (decodeTableWord 32) =
    [some (.br ⟨true, 5⟩ 2775643),
     some (.call ⟨true, 5⟩ 2775643),
     some (.jmp ⟨true, 5⟩ 19 10 2652)] := by decide +kernel

theorem test_decode_load_store :
    ([0b1_101_100000_10011_01010_101001011100,
      0b1_101_100001_10011_01010_101001011100,
      0b1_101_100010_10011_01010_101001011100,
      0b1_101_100011_10011_01010_101001011100,
      0b1_101_100100_10011_01010_101001011100,
      0b1_101_100101_10011_01010_101001011100,
      0b1_101_100110_10011_01010_101001011100,
      0b1_101_101000_10011_01010_101001011100,
      0b1_101_101001_10011_01010_101001011100,
      0b1_101_101010_10011_01010_101001011100,
      0b1_101_101011_10011_01010_101001011100] : List Nat).map (decodeTableWord 32) =
    [some (.ldS8 ⟨true, 5⟩ 19 10 2652),
     some (.ldZ8 ⟨true, 5⟩ 19 10 2652),
     some (.ldS16 ⟨true, 5⟩ 19 10 2652),
     some (.ldZ16 ⟨true, 5⟩ 19 10 2652),
     some (.ldS32 ⟨true, 5⟩ 19 10 2652),
     some (.ldZ32 ⟨true, 5⟩ 19 10 2652),
     some (.ld64 ⟨true, 5⟩ 19 10 2652),
     some (.st8 ⟨true, 5⟩ 19 10 2652),
     some (.st16 ⟨true, 5⟩ 19 10 2652),
     some (.st32 ⟨true, 5⟩ 19 10 2652),
     some (.st64 ⟨true, 5⟩ 19 10 2652)] := by decide +kernel

theorem test_decode_sync :
    ([0b1_101_101100_000000000000000_101_0000,
      0b1_101_101100_10011_01010_00000_101_0001,
      0b1_101_101100_10011_01010_00000_101_0010,
      0b1_101_101100_10011_01010_00000_101_0011,
      0b1_101_101100_10011_01010_00000_101_0100,
      0b1_101_101100_10011_01010_00000_101_0101,
      0b1_101_101100_10011_01010_00000_101_0110,
      0b1_101_101100_10011_01010_00000_101_0111,
      0b1_101_101100_10011_01010_00000_101_1000,
      0b1_101_101100_000000000000000_101_1001] : List Nat).map (decodeTableWord 32) =
    [some (.fence ⟨true, 5⟩ 5),
     some (.ldaZ8 ⟨true, 5⟩ 19 10 5),
     some (.ldaZ16 ⟨true, 5⟩ 19 10 5),
     some (.ldaZ32 ⟨true, 5⟩ 19 10 5),
     some (.lda64 ⟨true, 5⟩ 19 10 5),
     some (.stl8 ⟨true, 5⟩ 19 10 5),
     some (.stl16 ⟨true, 5⟩ 19 10 5),
     some (.stl32 ⟨true, 5⟩ 19 10 5),
     some (.stl64 ⟨true, 5⟩ 19 10 5),
     some (.bar ⟨true, 5⟩ 5)] := by decide +kernel

theorem test_decode_atom_once :
    ([0b1_101_101101_10011_01010_10101_101_000_1,
      0b1_101_101101_10011_01010_10101_101_001_1,
      0b1_101_101101_10011_01010_10101_101_010_1,
      0b1_101_101101_10011_01010_10101_101_011_1,
      0b1_101_101101_10011_01010_10101_101_100_1,
      0b1_101_101101_10011_01010_10101_101_101_1,
      0b1_101_101101_10011_01010_10101_101_110_1,
      0b1_101_101101_10011_01010_10101_101_111_1,
      0b1_101_101110_00000_01010_10101_101_0000,
      0b1_101_101110_10011_01010_00000_101_0001] : List Nat).map (decodeTableWord 32) =
    [some (.atomAdd ⟨true, 5⟩ 19 10 21 5 true),
     some (.atomAnd ⟨true, 5⟩ 19 10 21 5 true),
     some (.atomOr ⟨true, 5⟩ 19 10 21 5 true),
     some (.atomXor ⟨true, 5⟩ 19 10 21 5 true),
     some (.atomMin ⟨true, 5⟩ 19 10 21 5 true),
     some (.atomMax ⟨true, 5⟩ 19 10 21 5 true),
     some (.atomSwap ⟨true, 5⟩ 19 10 21 5 true),
     some (.atomCas ⟨true, 5⟩ 19 10 21 5 true),
     some (.clearw ⟨true, 5⟩ 10 21 5),
     some (.pres ⟨true, 5⟩ 19 10 5)] := by decide +kernel

theorem test_decode_command_launch :
    ([0b1_101_110000_10011_01010_101000_001011,
      0b1_101_110001_110_00_01010_10101_0000000,
      0b1_101_110010_01001_01010_101001011100,
      0b1_101_110011_00000_01010_000000000000,
      0b1_101_110100_10011_01010_10101_0000000,
      0b1_101_110100_10011_01010_000000000001,
      0b1_101_110100_10011_01010_000000000010,
      0b1_101_110101_00000_01010_000000000000,
      0b1_101_110101_00000_01010_000000000001,
      0b1_101_110101_10011_00000000000000010] : List Nat).map (decodeTableWord 32) =
    [some (.cmdf ⟨true, 5⟩ 19 10 40 11),
     some (.issue ⟨true, 5⟩ 6 10 21),
     some (.waitt ⟨true, 5⟩ 9 10 2652),
     some (.waitc ⟨true, 5⟩ 10),
     some (.patch ⟨true, 5⟩ 19 10 21),
     some (.arm ⟨true, 5⟩ 19 10),
     some (.lstat ⟨true, 5⟩ 19 10),
     some (.exit ⟨true, 5⟩ 10),
     some (.exitx ⟨true, 5⟩ 10),
     some (.yield ⟨true, 5⟩ 19)] := by decide +kernel

theorem test_decode_cellar_system :
    ([0b1_101_110110_10011_01010_000000000000,
      0b1_101_110110_10011_01010_000000000001,
      0b1_101_110110_10011_01010_10101_0000010,
      0b1_101_110110_10011_01010_000000000011,
      0b1_101_110110_10011_01010_000000000100,
      0b1_101_111000_0000000000000000000000,
      0b1_101_111000_0000000000000000000001,
      0b1_101_111000_0000000000000000000010,
      0b1_101_111001_10011_00000_001100011011,
      0b1_101_111010_00000_01010_001100011011] : List Nat).map (decodeTableWord 32) =
    [some (.wall ⟨true, 5⟩ 19 10),
     some (.wqry ⟨true, 5⟩ 19 10),
     some (.stash ⟨true, 5⟩ 19 10 21),
     some (.unstash ⟨true, 5⟩ 19 10),
     some (.drain ⟨true, 5⟩ 19 10),
     some (.trap ⟨true, 5⟩),
     some (.brk ⟨true, 5⟩),
     some (.eret ⟨true, 5⟩),
     some (.mfcr ⟨true, 5⟩ 19 795),
     some (.mtcr ⟨true, 5⟩ 795 10)] := by decide +kernel

theorem test_decode_headland :
    ([0b00000001_1001_000_1_000010010001101000101011001111000100110101011110011010101_01100_100011_10_10001111000011110001_1010100101101001011011,
      0b00000010_1001_000_1_000010010001101000101011001111000100110101011110011010101_01100_100011_10_10001111000011110001_1010100101101001011011,
      0b00000011_1001_000_1_001_00000000000000000011_00000000000000000000000010000000_000000000000000000000000000000000000000000000000000000000,
      0b00000100_1001_000_1_000010010001101000101011001111000100110101011110011010101_01100_100011_10_10001111000011110001_1010100101101001011011,
      0b00000101_1001_000_1_000010010001101000101011001111000100110101011110011010101_01100_100011_10_10001111000011110001_1010100101101001011011,
      0b00000110_1001_000_1_000010010001101000101011001111000100110101011110011010101_01100_100011_10_10001111000011110001_1010100101101001011011,
      0b00000111_1001_000_1_00000000000000000000000000000000_1010000000001111_1000000100100011010001010110011110001001101010111100110111100001,
      0b00001000_1001_000_1_10000001001000110100010101100111_1001101010111100_101000000000000000001111_0000000000000000000000000000000000000000,
      0b00001001_1001_000_1_0000000000000000000000000000000000000000_00000010_10000001001000110100010101100111_00000000000000000000000000000_101,
      0b00001010_1001_000_1_000010010001101000101011001111000100110101011110011010101_1001_000000000000000000000000000000000000000000000000000,
      0b00001011_1001_000_1_000010010001101000101011001111000100110101011110011010101_1001_000000000000000000000000000000000000000000000000000,
      0b00001100_1001_000_1_00000000000000000000000000000000000000000000000000000000000000000000000000000000000000000000000000000000_00100011] : List Nat).map (decodeTableWord 128) =
    [some (.loads ⟨9, 0, true⟩ ⟨5124095576030421, 12, 35, 2, 585969, 2775643⟩),
     some (.stores ⟨9, 0, true⟩ ⟨5124095576030421, 12, 35, 2, 585969, 2775643⟩),
     some (.dims ⟨9, 0, true⟩ 1 1856910077374814486058237952),
     some (.gather ⟨9, 0, true⟩ ⟨5124095576030421, 12, 35, 2, 585969, 2775643⟩),
     some (.scatter ⟨9, 0, true⟩ ⟨5124095576030421, 12, 35, 2, 585969, 2775643⟩),
     some (.scadd ⟨9, 0, true⟩ ⟨5124095576030421, 12, 35, 2, 585969, 2775643⟩),
     some (.push ⟨9, 0, true⟩ 0 40975 9305357566071262689),
     some (.pushi ⟨9, 0, true⟩ 2166572391 39612 10485775 0),
     some (.mark ⟨9, 0, true⟩ 0 2 2166572391 0 5),
     some (.accrst ⟨9, 0, true⟩ 5124095576030421 9 0),
     some (.accrd ⟨9, 0, true⟩ 5124095576030421 9 0),
     some (.resume ⟨9, 0, true⟩ 0 35)] := by decide +kernel

theorem test_decode_copy_hint :
    ([0b00010000_1001_000_1_000010010001101000101011001111000100110101011110011010101_0000000000000000000000000000000000000000000000000000000,
      0b00010001_1001_000_1_000010010001101000101011001111000100110101011110011010101_0000000000000000000000000000000000000000000000000000000,
      0b00010010_1001_000_1_000010010001101000101011001111000100110101011110011010101_1010000000000000000000001111000011110001_10_10100101_00000,
      0b00010011_1001_000_1_000010010001101000101011001111000100110101011110011010101_1010000000000000000000001111000011110001_10_0000000000000,
      0b00010100_1001_000_1_000010010001101000101011001111000100110101011110011010101_1010000000000000000000001111000011110001_10_0000000000000,
      0b00010101_1001_000_1_000010010001101000101011001111000100110101011110011010101_1010000000000000000000001111000011110001_10_0000000000000] : List Nat).map (decodeTableWord 128) =
    [some (.copy ⟨9, 0, true⟩ 5124095576030421 0),
     some (.copy2 ⟨9, 0, true⟩ 5124095576030421 0),
     some (.fill ⟨9, 0, true⟩ 5124095576030421 687194829041 2 165 0),
     some (.prefetch ⟨9, 0, true⟩ ⟨5124095576030421, 687194829041, 2, 0⟩),
     some (.reside ⟨9, 0, true⟩ ⟨5124095576030421, 687194829041, 2, 0⟩),
     some (.evict ⟨9, 0, true⟩ ⟨5124095576030421, 687194829041, 2, 0⟩)] := by decide +kernel

theorem test_decode_loader_drill :
    ([0b00100000_1001_000_1_000010010001101000101011001111000100110101011110011010101_0_1010000000000001_00000000000000000000000000000000000000,
      0b00100000_1001_000_1_000010010001101000101011001111000100110101011110011010101_1_10101_00000000000_1010000000000001_0000000000000000000000,
      0b00110000_1001_000_1_000010010001101000101011001111000100110101011110011010101_0000000000000000000000000000000000000000000000000000000,
      0b00110001_1001_000_1_000010010001101000101011001111000100110101011110011010101_0000000000000000000000000000000000000000000000000000000,
      0b00110010_1001_000_1_10001111000011110001_1_0_1_0_100000111100000001_101000000001_110000111000000101_100100000011_0000000000000000000000000000] : List Nat).map (decodeTableWord 128) =
    [some (.cfgld ⟨9, 0, true⟩ 5124095576030421 40961 0),
     some (.cfgldInband ⟨9, 0, true⟩ 5124095576030421 21 0 40961 0),
     some (.sow ⟨9, 0, true⟩ 5124095576030421 0),
     some (.reap ⟨9, 0, true⟩ 5124095576030421 0),
     some (.drillrun ⟨9, 0, true⟩ ⟨585969, true, false, true, false, 134913, 2561, 200197, 2307, 0⟩)] := by decide +kernel

theorem test_decode_ap :
    ([0b01000000_1001_000_1_000010010001101000101011001111000100110101011110011010101_10_1_0000000000000000000000000000000000000000000000000000,
      0b01000001_1001_000_1_000010010001101000101011001111000100110101011110011010101_0000000000000000000000000000000000000000000000000000000,
      0b01000010_1001_000_1_100000000000000111100001111000011110000111100000001_101000000001111111100000000111111110000000011110001_0000000000,
      0b01000011_1001_000_1_100000000000000111100001111000011110000111100000001_101000000001111111100000000111111110000000011110001_101001_1_000,
      0b01000100_1001_000_1_100000000000000111100001111000011110000111100000001_101001_1_000000000000000000000000000000000000000000000000000000,
      0b01000101_1001_000_1_100000000000000111100001111000011110000111100000001_0000000000000000000000000000000000000000000000000000000000000,
      0b01000110_1001_000_1_100000000000000111100001111000011110000111100000001_0000000000000000000000000000000000000000000000000000000000000,
      0b01000111_1001_000_1_100000000000000111100001111000011110000111100000001_1_10000001001000110100010101100111_0000000000000000000000000000,
      0b00010110_1001_000_1_0000000000000000000000000000000000000000000000000000000000000000000000000000000000000000000000000000000000000001] : List Nat).map (decodeTableWord 128) =
    [some (.bind ⟨9, 0, true⟩ 5124095576030421 2 true 0),
     some (.attn ⟨9, 0, true⟩ 5124095576030421 0),
     some (.kvseq ⟨9, 0, true⟩ 1125964583997185 1408470116925681 0),
     some (.kvapp ⟨9, 0, true⟩ 1125964583997185 1408470116925681 41 true 0),
     some (.kvbias ⟨9, 0, true⟩ 1125964583997185 41 true 0),
     some (.jmark ⟨9, 0, true⟩ 1125964583997185 0),
     some (.jcommit ⟨9, 0, true⟩ 1125964583997185 0),
     some (.jroll ⟨9, 0, true⟩ 1125964583997185 true 2166572391 0),
     some (.unassignedStreamOpcode ⟨9, 0, true⟩ 0x16 1)] := by decide +kernel

theorem test_decode_matrix :
    ([0b000001_1100100_1011010_1001101_1_1001_0110_10101_01010_101010010110100101,
      0b000010_1100100_1011010_1001101_1_1001_0110_10101_01010_101010010110100101,
      0b000011_1100100_1011010_1001101_1_1001_0110_10101_01010_101010010110100101,
      0b000100_1100100_1011010_1001101_1_1001_0110_10101_01010_101010010110100101,
      0b000101_1100100_1011010_1001101_1_1001_0110_10101_01010_101010010110100101,
      0b000110_1100100_1011010_1001101_1_1001_0110_10101_01010_101010010110100101,
      0b000111_1100100_1011010_1001101_1_1001_0110_10101_01010_101010010110100101,
      0b001000_0000000000000000000000000000000000000000000000000000000001] : List Nat).map (decodeTableWord 64) =
    [some (.mma ⟨100, 90, 77, true, 9, 6, 21, 10, 173477⟩),
     some (.mmaz ⟨100, 90, 77, true, 9, 6, 21, 10, 173477⟩),
     some (.mvec ⟨100, 90, 77, true, 9, 6, 21, 10, 173477⟩),
     some (.mmac ⟨100, 90, 77, true, 9, 6, 21, 10, 173477⟩),
     some (.mdrn ⟨100, 90, 77, true, 9, 6, 21, 10, 173477⟩),
     some (.spma ⟨100, 90, 77, true, 9, 6, 21, 10, 173477⟩),
     some (.spmb ⟨100, 90, 77, true, 9, 6, 21, 10, 173477⟩),
     some (.unassignedMatrixOperation 8 1)] := by decide +kernel
/-! ## Witnesses: integer words, branches, traps, control registers -/

theorem wit_IntegerResults : let s := strand [0, 2 ^ 63, 2 ^ 64 - 1] 0 id
    s.goes ⟨false, 0⟩ ∧ s.g 2 ≠ 0 ∧ s.g 3 = 0 ∧ (s.g 1).toInt = -2 ^ 63 ∧ (s.g 2).toInt = -1 := by decide +kernel

theorem wit_ConstantBitAndCompareResults : let s := strand [0, 5] 0 id
    s.goes ⟨false, 0⟩ ∧ (0 : BitVec 3) ≠ 7 ∧ (6 : BitVec 3) ≠ 7 ∧ (40 : BitVec 6).toNat + (23 : BitVec 6).toNat + 1 ≤ 64 := by
  decide +kernel

theorem wit_FalseGuardHasNoEffect : let s := strand [] 0 id
    (Instr.brk ⟨false, 1⟩).guard = some ⟨false, 1⟩ ∧ s.guard ⟨false, 1⟩ = false ∧ canonical (s.pc + 4).toInt = true := by decide +kernel

theorem wit_BranchResults :
    let s := strand [0, 2 ^ 56 - 4, 2 ^ 56, 0x2002] 0 id
    let e := strand [] 0 fun c => { c with pc := 0x00FFFFFFFFFFFFFC }
    s.guard ⟨false, 0⟩ = true ∧ s.cpu.nest = false ∧ canonical (s.pc.toInt + 4 * (0x3FFFFD : BitVec 22).toInt) = true ∧
    canonical ((s.g 1).toInt + (0 : BitVec 12).toInt) = true ∧ ((s.g 1).toInt + (0 : BitVec 12).toInt) % 4 = 0 ∧
    canonical ((s.g 2).toInt + (0 : BitVec 12).toInt) = false ∧ ((s.g 3).toInt + (0 : BitVec 12).toInt) % 4 ≠ 0 ∧
    canonical (e.pc.toInt + 4 * (1 : BitVec 22).toInt) = false ∧ e.cpu.nest = false ∧ e.pc = 0x00FFFFFFFFFFFFFC := by decide +kernel

/-- A launch of the core in focus. -/
def launched : Launch :=
  { recIx := 5, arm := 0, armT := 0, args := .replicate 8 0, pre := false, running := true, cores := [0], order := 0, start := some 0,
    budget := false, ending := none, saved := [] }

/-- A strand that runs for launch 5. -/
def onLaunch (s : State) : State :=
  { s with launches := [launched] }.modCore fun c => { c with on := { c.on with recIx := some 5 } }

theorem wit_TrapEntry :
    let s := strand [] 0 id
    let d := onLaunch (strand [] 7 id)
    let full := d.modFq fun f => { f with tail := 16 }
    let p := (strand [] 0 id).modFq fun f => { f with tail := 1, written := [(0, 0x40, true)] }
    s.cpu.nest = false ∧ s.guard ⟨false, 0⟩ = true ∧ ([0x10, 0x11] : List (BitVec 8)) ≠ [] ∧ s.core.fq.pending = none ∧
    d.guard ⟨false, 0⟩ = true ∧ d.cpu.nest = true ∧ d.core.on.recIx = some 5 ∧ d.launch 5 = some launched ∧ launched.ending = none ∧
    d.core.fq.isFull = false ∧ d.core.fq.waiting = [] ∧ full.core.fq.isFull = true ∧
    p.core.fq.pending = some 0x40 ∧ p.cpu.nest = false := by decide +kernel

theorem wit_ReturnFromTrap :
    let s (e : Word) := strand [] 1 fun c => { c with epc := e }
    (s 0x2000).guard ⟨false, 0⟩ = true ∧ (s 0x2000).super = true ∧ canonical (s 0x2000).cpu.epc.toInt = true ∧
    (s 0x2000).cpu.epc.extractLsb' 0 2 = 0 ∧ (s 0x2000).cpu.nest = false ∧ canonical (s 0x0100000000000000).cpu.epc.toInt = false ∧
    (s 0x2001).cpu.epc.extractLsb' 0 2 ≠ 0 ∧ canonical (s 0x2001).cpu.epc.toInt = true ∧ (strand [] 0 id).super = false := by decide +kernel

theorem wit_ControlRegisterReads :
    let s := onLaunch (strand [] 1 id)
    let m := (s.modCellar fun c => { c with move := some (2, 33) }).modCpu fun c => { c with psel := 64 }
    s.goes ⟨false, 0⟩ ∧ s.super = true ∧ s.core.on.recIx = some 5 ∧ s.core.cellar.move = none ∧ s.cpu.psel.toNat < 64 ∧
    m.goes ⟨false, 0⟩ ∧ m.core.cellar.move = some (2, 33) ∧ 64 ≤ m.cpu.psel.toNat := by decide +kernel

theorem wit_ControlRegisterWrites :
    (strand [] 1 id).goes ⟨false, 0⟩ ∧ (strand [] 1 id).super = true ∧ (strand [] 0 id).guard ⟨false, 0⟩ = true ∧
    (strand [] 0 id).cpu.nest = false ∧ (strand [] 0 id).super = false := by decide +kernel

/-! ## Witnesses: accesses to memory -/

theorem wit_ScalarAccessFaults :
    let s := strand [0, 2 ^ 56, 0x2001, 0x4000] 0 id
    accessOf s (.ld64 ⟨false, 0⟩ 4 1 0) = some (⟨false, 0⟩, 2 ^ 56, 8, .load) ∧ s.guard ⟨false, 0⟩ = true ∧ s.cpu.nest = false ∧
    canonical (2 ^ 56) = false ∧ accessOf s (.stl32 ⟨false, 0⟩ 4 2 0) = some (⟨false, 0⟩, 0x2001, 4, .store) ∧
    canonical 0x2001 = true ∧ (0x2001 : Int) % 4 ≠ 0 ∧ accessOf s (.st8 ⟨false, 0⟩ 4 3 0) = some (⟨false, 0⟩, 0x4000, 1, .store) ∧
    (match (s.xlateStrand .store 0x4000).1 with | .error c => c == 0x21 | .ok _ => false) = true := by decide +kernel

theorem wit_LoadResults : let s := strand [0, 0x2008] 0 id
    s.goes ⟨false, 0⟩ ∧ s.memOk ∧ (.ld64 ⟨false, 0⟩ 4 1 0, 8, false) ∈ loadForms ⟨false, 0⟩ 4 1 0 ∧
    (∃ u, s.Reaches .load ((s.g 1).toInt + (0 : BitVec 12).toInt) 8 (leaf 0 8) u) ∧ (leaf 0 8).ext.once = false ∧
    s.viewErr ((leaf 0 8).pa / 8) = false :=
  ⟨by decide +kernel, by decide +kernel, by decide +kernel, reaches_of _ _ _ _ _ (by decide +kernel), by decide +kernel, by decide +kernel⟩

theorem wit_StoreResults : let s := strand [0, 0x2FF8] 0 id
    s.goes ⟨false, 0⟩ ∧ s.memOk ∧ (.st64 ⟨false, 0⟩ 4 1 0, 8) ∈ storeForms ⟨false, 0⟩ 4 1 0 ∧
    (∃ u, s.Reaches .store ((s.g 1).toInt + (0 : BitVec 12).toInt) 8 (leaf 0 0xFF8) u) ∧ (leaf 0 0xFF8).ext.once = false ∧
    s.mergeErr (leaf 0 0xFF8).pa 8 = false :=
  ⟨by decide +kernel, by decide +kernel, by decide +kernel, reaches_of _ _ _ _ _ (by decide +kernel), by decide +kernel, by decide +kernel⟩

/-- A line of the CACHE room whose first byte is dirty. -/
def line (a : Nat) : CLine := ⟨a, 2, 0, 0, 15, 1, 0, 0, 7⟩

/-- A core of a launch that declares one level of a domain. -/
def levelled (d : Nat) (s : State) : State :=
  s.modCore fun c => { c with on := { c.on with lvl := c.on.lvl.set 0 (BitVec.ofNat 64 (2 ^ 63 + d * 2 ^ 32)) } }

theorem wit_AcquireAndReleaseResults :
    let s := strand [0, 0x2008, 0x3FF8] 0 id
    let w := levelled 3 s
    s.goes ⟨false, 0⟩ ∧ s.memOk ∧ w.goes ⟨false, 0⟩ ∧ w.memOk ∧ (leaf 0 8).ext.once = false ∧
    (∃ u, s.Reaches .load (s.g 1).toInt 8 (leaf 0 8) u) ∧ s.viewErr ((leaf 0 8).pa / 8) = false ∧
    s.core.on.scopeWide 0 = false ∧ w.core.on.scopeWide 0 = true ∧ (∃ u, w.Reaches .load (w.g 1).toInt 8 (leaf 0 8) u) ∧
    (∃ u, w.Reaches .store (w.g 1).toInt 8 (leaf 0 8) u ∧ (u.release 0).mergeErr (leaf 0 8).pa 8 = false) ∧
    (∃ u, s.Reaches .load (s.g 2).toInt 8 (leaf 1 0xFF8) u) ∧ (∃ u, s.Reaches .store (s.g 2).toInt 8 (leaf 1 0xFF8) u) ∧
    (leaf 1 0xFF8).ext.once = true ∧
    (let d := w.modCellar fun c => { c with cache := [line 0x42000] }
     d.core.on.scopeWide 0 = true ∧ line 0x42000 ∈ d.core.cellar.cache ∧ (line 0x42000).dirty.getLsbD 0 = true ∧ (line 0x42000).addr + 0 < (leaf 0 8).pa) :=
  ⟨by decide +kernel, by decide +kernel, by decide +kernel, by decide +kernel, by decide +kernel,
   reaches_of _ _ _ _ _ (by decide +kernel), by decide +kernel, by decide +kernel, by decide +kernel,
   reaches_of _ _ _ _ _ (by decide +kernel),
   ⟨_, ⟨by decide +kernel, by decide +kernel, ok_of _ _ (by decide +kernel), by decide +kernel⟩, by decide +kernel⟩,
   reaches_of _ _ _ _ _ (by decide +kernel), reaches_of _ _ _ _ _ (by decide +kernel), by decide +kernel⟩

/-- A second core of the same launch, at the barrier's start. -/
def twoCores (s : State) : State :=
  let s := levelled 4 { s with launches := [{ launched with cores := [0, 1] }] }
  (s.modCore fun c => { c with on := { c.on with recIx := some 5 } }).modCoreAt 1 fun c => { c with on := { s.core.on with recIx := some 5, rank := 1 } }

theorem wit_FenceAndBarrierResults :
    let s := strand [] 0 id
    let w := (levelled 3 s).modCellar fun c => { c with cache := [line 0x42000] }
    let b := twoCores s
    let e := b.modCoreAt 1 fun c => { c with cpu := { c.cpu with run := .exited } }
    let a := b.modCoreAt 1 fun c => { c with cpu := c.cpu.arrive (b.core.on.scopeLevel 0) }
    let n := levelled 6 s
    s.goes ⟨false, 0⟩ ∧ s.memOk ∧ s.core.on.scopeWide 0 = false ∧ s.core.on.scopeDomain 0 ≤ 2 ∧
    w.goes ⟨false, 0⟩ ∧ w.memOk ∧ w.core.on.scopeWide 0 = true ∧ w.core.cellar.cacheOk ∧ line 0x42000 ∈ w.core.cellar.cache ∧
    (line 0x42000).dirty.getLsbD 0 = true ∧ b.goes ⟨false, 0⟩ ∧ (2 < b.core.on.scopeDomain 0 ∧ b.core.on.scopeWide 0 = true) ∧ b.core.on.scopeDomain 0 ≠ 6 ∧
    (b.core.on.scopeLevel 0, b.cpu.episode) ∉ b.cpu.arrived ∧
    (∃ i ∈ b.party 0, i < 192 ∧ i ≠ b.cur.val ∧ (b.coreAt i).cpu.run ≠ .exited ∧ (b.core.on.scopeLevel 0, b.cpu.episode) ∉ (b.coreAt i).cpu.arrived) ∧
    e.goes ⟨false, 0⟩ ∧ 2 < e.core.on.scopeDomain 0 ∧ e.core.on.scopeDomain 0 ≠ 6 ∧
    (∀ i ∈ e.party 0, i ≠ e.cur.val → (e.coreAt i).cpu.run = .exited ∨ (e.core.on.scopeLevel 0, e.cpu.episode) ∈ (e.coreAt i).cpu.arrived) ∧
    a.goes ⟨false, 0⟩ ∧ 2 < a.core.on.scopeDomain 0 ∧ a.core.on.scopeDomain 0 ≠ 6 ∧
    (∀ i ∈ a.party 0, i ≠ a.cur.val → (a.coreAt i).cpu.run = .exited ∨ (a.core.on.scopeLevel 0, a.cpu.episode) ∈ (a.coreAt i).cpu.arrived) ∧
    n.goes ⟨false, 0⟩ ∧ (n.core.on.scopeDomain 0 = 6 ∧ lvlExtent (n.core.on.lvl.toList.getD (n.core.on.scopeLevel 0) 0) ≤ 1) := by
  have lines : ((levelled 3 (strand [] 0 id)).modCellar fun c => { c with cache := [line 0x42000] }).core.cellar.cacheOk := by
    refine ⟨by decide +kernel, ?_⟩
    have h : ((levelled 3 (strand [] 0 id)).modCellar fun c => { c with cache := [line 0x42000] }).core.cellar.cache = [line 0x42000] := by
      decide +kernel
    rw [h]; decide +kernel
  intro s w b e a n
  have narrow : s.goes ⟨false, 0⟩ ∧ s.memOk ∧ s.core.on.scopeWide 0 = false ∧ s.core.on.scopeDomain 0 ≤ 2 := by decide +kernel
  refine ⟨narrow.1, narrow.2.1, narrow.2.2.1, narrow.2.2.2, ?_, ?_, ?_, lines, ?_, ?_, ?_, ?_, ?_, ?_, ⟨1, ?_⟩, ?_⟩ <;> decide +kernel

theorem wit_AtomicResults :
    let s := strand [0, 0x2FF8, 0x3000, 0x4000] 0 id
    s.goes ⟨false, 0⟩ ∧ s.memOk ∧ s.cpu.nest = false ∧
    (∃ u, s.Reaches .load (s.g 1).toInt 8 (leaf 0 0xFF8) u ∧
      (u.flushWhere fun l => l.addr == (leaf 0 0xFF8).pa / 64 * 64).ecc2.contains ((leaf 0 0xFF8).pa / 8) = false) ∧
    (leaf 0 0xFF8).ext.once = false ∧ (leaf 0 0xFF8).ext.allows .store (!s.super) = true ∧
    (∃ u, s.Reaches .load (s.g 2).toInt 8 (leaf 1 0) u) ∧ (leaf 1 0).ext.once = true ∧
    (∃ u, s.Reaches .load (s.g 3).toInt 4 (leaf 2 0) u) ∧ (leaf 2 0).ext.allows .store (!s.super) = false :=
  ⟨by decide +kernel, by decide +kernel, by decide +kernel,
   ⟨_, ⟨by decide +kernel, by decide +kernel, ok_of _ _ (by decide +kernel), by decide +kernel⟩, by decide +kernel⟩,
   by decide +kernel, by decide +kernel, reaches_of _ _ _ _ _ (by decide +kernel), by decide +kernel,
   reaches_of _ _ _ _ _ (by decide +kernel), by decide +kernel⟩

theorem wit_OnceResults :
    let s := strand [0, 0x3FF8] 0 id
    let l := 0x43FF8 / 8
    let f : State := { s with full := [l] }
    let g : State := { s with slices := s.slices.set (s.porter.stackOf (l * 8)) { DeferTab.reset with entries := [⟨0, .strand, l, 8, 0, some (pages.getD 1 ⟨0, 0, 0, false, false, false, false, false, false⟩), some 7⟩] } }
    (.ld64 ⟨false, 0⟩ 4 1 0, 8, false) ∈ loadForms ⟨false, 0⟩ 4 1 0 ∧ (.st64 ⟨false, 0⟩ 4 1 0, 8) ∈ storeForms ⟨false, 0⟩ 4 1 0 ∧
    (leaf 1 0xFF8).ext.once = true ∧ (leaf 1 0xFF8).pa / 8 = l ∧
    (∀ t ∈ [s, f, g], t.goes ⟨false, 0⟩ ∧ t.memOk ∧ t.cpu.nest = false ∧ t.homeOf l = .slice (t.porter.stackOf (l * 8)) ∧ t.heldErr2 l = false ∧
      reaches t .load 0x3FF8 8 (leaf 1 0xFF8) = true ∧ reaches t .store 0x3FF8 8 (leaf 1 0xFF8) = true ∧ (t.g 1).toInt + (0 : BitVec 12).toInt = 0x3FF8) ∧
    ((s.tab (s.homeOf l)).1.got 0 .strand l = none ∧ s.full.contains l = false) ∧
    ((f.tab (f.homeOf l)).1.got 0 .strand l = none ∧ f.full.contains l = true) ∧ (g.tab (g.homeOf l)).1.got 0 .strand l = some 7 := by
  decide +kernel

theorem wit_PresenceAndClearResults :
    let s := strand [0, 0x3000, 4096, 0x3004, 2 ^ 56, 2 ^ 56 - 8, 16, 2 ^ 32 + 8, 2 ^ 63 - 8, 0x4000] 0 id
    let bad (a : Int) (n : Nat) : Prop := a % 8 ≠ 0 ∨ n % 8 ≠ 0 ∨ n = 0 ∨ 2 ^ 32 < n
    let ranges (r : BitVec 5) := s.clearRanges (pagePieces (s.g r).toInt (s.g 2).toNat ((s.g 2).toNat / 4096 + 2))
    s.goes ⟨false, 0⟩ ∧ s.cpu.nest = false ∧ s.memOk ∧ canonical (s.g 1).toInt = true ∧
    (∃ u, s.xlateStrand .load (s.g 1).toInt = (.ok (leaf 1 0), u)) ∧
    bad (s.g 3).toInt (s.g 2).toNat ∧ bad (s.g 1).toInt (s.g 0).toNat ∧ bad (s.g 1).toInt (s.g 7).toNat ∧
    (¬ bad (s.g 8).toInt (s.g 6).toNat ∧ 2 ^ 63 < (s.g 8).toInt + (s.g 6).toNat) ∧
    (¬ bad (s.g 4).toInt (s.g 2).toNat ∧ (s.g 4).toInt + (s.g 2).toNat ≤ 2 ^ 63 ∧ canonical (s.g 4).toInt = false) ∧
    (¬ bad (s.g 5).toInt (s.g 6).toNat ∧ canonical (s.g 5).toInt = true ∧ canonical ((s.g 5).toInt + (s.g 6).toNat - 1) = false) ∧
    (¬ bad (s.g 9).toInt (s.g 2).toNat ∧ canonical ((s.g 9).toInt + (s.g 2).toNat - 1) = true ∧
      (match (ranges 9).1 with | .error e => e == (0x21, 0x4000) | .ok _ => false) = true) ∧
    ¬ bad (s.g 1).toInt (s.g 2).toNat ∧ canonical ((s.g 1).toInt + (s.g 2).toNat - 1) = true ∧ (s.g 1).toInt % 4096 + (s.g 2).toNat ≤ 4096 ∧
    (match (ranges 1).1 with | .ok l => l == [(0x43000, 4096)] | .error _ => false) = true ∧
    ((locsOf 0x43000 4096).all fun l => !(ranges 1).2.heldErr2 l) = true ∧
    (∃ u, s.xlateStrand .store (s.g 1).toInt = (.ok (leaf 1 0), u)) ∧ (leaf 1 0).ext.once = true ∧ s.core.on.scopeWide 0 = false := by
  refine ⟨?_, ?_, ?_, ?_, ⟨_, ok_of _ _ ?_⟩, ?_, ?_, ?_, ?_, ?_, ?_, ?_, ?_, ?_, ?_, ?_, ?_, ⟨_, ok_of _ _ ?_⟩, ?_, ?_⟩ <;> decide +kernel

theorem wit_CacheRoomKeepsItsForm :
    let s := core fun c => { c with cellar := { c.cellar with cache := [line 0x42000] } }
    s.core.cellar.cacheOk ∧ line 0x42000 ∈ s.core.cellar.cache ∧ (s.strandPut 0x42000 [1]).isSome = true := by
  refine ⟨⟨by decide +kernel, ?_⟩, by decide +kernel, by decide +kernel⟩
  have h : (core fun c => { c with cellar := { c.cellar with cache := [line 0x42000] } }).core.cellar.cache = [line 0x42000] := by decide +kernel
  rw [h]; decide +kernel

/-! ## Witnesses: commands, waits, launches, the cellar words -/

/-- Queue q0 bound to out context 0x23 and selector tl9 mapped to it. -/
def bound (s : State) : State :=
  s.modCore fun c => { c with on := { c.on with qmap := c.on.qmap.set 0 0xA3, tlmap := c.on.tlmap.set 9 0xA3 } }

theorem wit_IssueResults :
    let s := bound (strand [] 0 id)
    let f := s.modQs fun q => { q with q := q.q.set 0 (List.replicate 16 ⟨0, none, false, false⟩) }
    let n := s.modQs fun q => { q with q := q.q.set 0 (List.replicate 15 ⟨0, none, false, false⟩) }
    let d : State := { n.modQs fun q => { q with drew := [(9, 5)] } with cyc := 5 }
    s.guard ⟨false, 0⟩ = true ∧ s.cpu.nest = false ∧ s.core.on.queueCtx 1 = none ∧ (9, d.cyc) ∈ d.core.qs.drew ∧ n.core.qs.drew = [] ∧
    f.guard ⟨false, 0⟩ = true ∧ f.core.on.queueCtx 0 ≠ none ∧ 16 ≤ f.core.qs.q[(0 : BitVec 3).toNat].length ∧
    n.guard ⟨false, 0⟩ = true ∧ canonical (n.pc + 4).toInt = true ∧ n.core.on.queueCtx 0 ≠ none ∧
    n.core.qs.q[(0 : BitVec 3).toNat].length < 16 := by decide +kernel

theorem wit_WaitExitAndYieldResults :
    let s : State := { bound (strand [0, 5, 6, 4] 0 id) with cyc := 5 }
    let d : State := { strand [0, 5, 6, 4] 256 id with cyc := 5 }
    let w : State := { strand [0, 5] 0 (fun c => { c with waitc := some 5 }) with cyc := 5 }
    let y (v : YieldSt) := strand [] 0 fun c => { c with yield := v }
    let b := bound (s.modQs fun q => { q with q := q.q.set 0 [⟨0x09 <<< 116, some 1, false, false⟩], issued := q.issued.set 9 1 })
    let r := s.modQs fun q => { q with issued := q.issued.set 9 1 }
    s.goes ⟨false, 0⟩ ∧ s.cpu.nest = false ∧ (0x10 : BitVec 5).getLsbD 4 = true ∧ (9 : BitVec 5).getLsbD 4 = false ∧
    s.core.on.tlCtx 8 = none ∧ s.core.on.tlCtx 9 ≠ none ∧ (s.g 0).toNat ≤ s.core.qs.completed[(9 : BitVec 4).toNat] ∧
    s.core.qs.completed[(9 : BitVec 4).toNat] < (s.g 1).toNat ∧ s.cyc % 2 ^ 64 < (s.g 2).toNat ∧ (s.g 1).toNat = s.cyc % 2 ^ 64 ∧
    (s.g 3).toNat ≤ s.cyc % 2 ^ 64 ∧ s.cpu.status.getLsbD 8 = false ∧
    d.goes ⟨false, 0⟩ ∧ (d.g 3).toNat < d.cyc % 2 ^ 64 ∧ d.cpu.waitc = none ∧ d.cpu.status.getLsbD 8 = true ∧
    w.goes ⟨false, 0⟩ ∧ w.cpu.waitc = some 5 ∧ (5 : Word).toNat ≤ w.cyc % 2 ^ 64 ∧
    s.core.drained = true ∧ b.guard ⟨false, 0⟩ = true ∧ b.core.drained = false ∧ b.discardCommands.core.drained = true ∧
    r.guard ⟨false, 0⟩ = true ∧ r.discardCommands.core.drained = false ∧
    (y .none).goes ⟨false, 0⟩ ∧ (y .none).cpu.yield = .none ∧ (y .waiting).goes ⟨false, 0⟩ ∧ (y .waiting).cpu.yield = .waiting ∧
    (y .refused).goes ⟨false, 0⟩ ∧ (y .refused).cpu.yield = .refused ∧ (y .taken).goes ⟨false, 0⟩ ∧ (y .taken).cpu.yield = .taken := by
  decide +kernel

/-- A record with one level of one core, rooms 16, 16, 16 and 16 banks, USER arming allowed, ASID 7, in state st, at index 0. -/
def withRecord (st : Nat) (s : State) : State :=
  { s with mem := memPut (memPut (memPut s.mem 0 (toBytes 8 (2048 + 0x30 + st) ++ toBytes 8 7 ++ toBytes 8 0x2000)) 0x20 (toBytes 8 (2 ^ 16 + 5))) 0x68 (toBytes 8 0x10101010) }

theorem wit_LaunchInstructionResults :
    let s (st : Nat) := withRecord st ((strand [0, 4096, 0] 0 id).modCore fun c => { c with on := { c.on with asid := 7 } })
    let o (st : Nat) := withRecord st (strand [0, 4096, 0] 0 id)
    let bad := (withRecord 1 ((strand [] 1 id)) ).modCore fun c => { c with on := { c.on with asid := 7 } }
    let z : State := { s 1 with mem := memPut (s 1).mem 0x98 [1] }
    let rd (s : State) := (s.syncRec 0).recHome 0
    let d (s : State) : Prop := s.super = false ∧ (rd s 8 % 2 ^ 16 ≠ s.core.on.asid.toNat ∨ (rd s 0).testBit 11 = false)
    (∀ st ∈ [0, 1, 2, 3, 4, 5], (s st).goes ⟨false, 0⟩ ∧ (s st).memOk ∧ ¬ d (s st) ∧ rd (s st) 0 % 16 = st) ∧
    (s 0).g 1 &&& 0xFFFFFFFFFFF8F000 ≠ 0 ∧ 2 ^ 12 ≤ ((s 0).g 1).toNat ∧ (s 0).g 2 &&& 0xFFFFFFFFFFF8F000 = 0 ∧
    d (o 1) ∧ (o 1).goes ⟨false, 0⟩ ∧ (o 1).memOk ∧ bad.super = true ∧
    recOk (rd (s 1)) = true ∧ recOk (rd z) = false ∧ z.goes ⟨false, 0⟩ ∧ z.memOk ∧ rd z 0 % 16 = 1 ∧ ¬ d z ∧
    recWide (rd (s 4)) = true ∧ ({ s 2 with launches := [{ launched with recIx := 0 }] } : State).launch 0 ≠ none := by
  decide +kernel

/-- The rooms that a launch with 16 banks each has. -/
def roomed (s : State) : State := s.modCellar fun c => { c with w1 := 16, w2 := 32, w3 := 48 }

theorem wit_WallResults :
    let s := roomed (strand [0, 2 ^ 10, 48 + 3 * 2 ^ 8, 50 + 3 * 2 ^ 8, 65 + 3 * 2 ^ 8, 49 + 3 * 2 ^ 8] 0 id)
    let m := s.modCellar fun c => { c with move := some (3, 50), cache := [{ line 0x42000 with bank := 49 }] }
    let f := s.modCore fun c => { c with on := { c.on with fixw := true } }
    let area (len : Nat) : StashR := ⟨0x2000, len, 32 * 65536, [0x42], [], []⟩
    let pad (p len : Nat) := s.modCellar fun c => { c with move := some (2, p), stash := [area len] }
    let n (x : BitVec 5) (s : State) := ((s.g x).extractLsb' 8 2).toNat
    let p (x : BitVec 5) (s : State) := ((s.g x).extractLsb' 0 8).toNat
    s.goes ⟨false, 0⟩ ∧ s.cpu.nest = false ∧ 2 ^ 10 ≤ (s.g 1).toNat ∧ n 0 s = 0 ∧ (s.g 2).toNat < 2 ^ 10 ∧ n 2 s = 3 ∧
    s.core.cellar.wall 3 = p 2 s ∧ s.core.on.fixw = false ∧ s.core.cellar.move = none ∧
    (s.core.cellar.wall 3 ≠ p 3 s ∧ s.core.wallRefusal 3 (p 3 s) = 0) ∧ 64 < p 4 s ∧
    m.goes ⟨false, 0⟩ ∧ m.core.on.fixw = false ∧ m.core.cellar.move = some (n 3 m, p 3 m) ∧ m.core.cellar.move ≠ some (n 5 m, p 5 m) ∧
    m.core.cellar.w3 < 50 ∧ f.goes ⟨false, 0⟩ ∧ f.core.on.fixw = true ∧
    (pad 33 4096).core.cellar.w2 < 33 ∧ (pad 33 4096).core.padPlan 2 33 = some [(32 * 65536, 4096, 33 * 65536)] ∧ Memory.wf (pad 33 4096).core.cellar.bytes = true ∧
    (pad 47 131072).core.padPlan 2 47 = none := by decide +kernel

theorem wit_StashAndDrainResults :
    let s := roomed (strand [0, 0x2000, 4096, 0x2004, 2 ^ 56, 2 ^ 56 - 4096, 8192, 1, 2, 3, 16 * 65536 + 4096, 2 ^ 63 - 4096, 0x7000] 0 id)
    let bad (a : Int) (n : Nat) : Prop := a % 4096 ≠ 0 ∨ n % 4096 ≠ 0 ∨ n = 0
    let v := s.modCellar fun c => { c with move := some (3, 50) }
    s.goes ⟨false, 0⟩ ∧ s.cpu.nest = false ∧ bad (s.g 3).toInt 4096 ∧ bad (s.g 1).toInt (s.g 0).toNat ∧
    (¬ bad (s.g 11).toInt (s.g 6).toNat ∧ 2 ^ 63 < (s.g 11).toInt + (s.g 6).toNat) ∧
    (¬ bad (s.g 4).toInt (s.g 2).toNat ∧ (s.g 4).toInt + (s.g 2).toNat ≤ 2 ^ 63 ∧ canonical (s.g 4).toInt = false) ∧
    (¬ bad (s.g 5).toInt (s.g 6).toNat ∧ canonical (s.g 5).toInt = true ∧ canonical ((s.g 5).toInt + (s.g 6).toNat - 1) = false) ∧
    (¬ bad (s.g 12).toInt (s.g 2).toNat ∧ (match (s.stashPages (pagePieces (s.g 12).toInt (s.g 2).toNat ((s.g 2).toNat / 4096 + 1))).1 with
      | .error e => e == (0x20, 0x7000) | .ok _ => false) = true) ∧
    (4 ≤ (s.g 2).toNat ∧ s.g 0 = 0 ∧ s.g 7 = 1 ∧ s.g 8 = 2 ∧ s.g 9 = 3 ∧ s.core.cellar.move = none) ∧
    v.goes ⟨false, 0⟩ ∧ v.g 9 = 3 ∧ v.core.cellar.move ≠ none := by decide +kernel

theorem wit_StashStatuses :
    let s := roomed (strand [0, 0x2000, 4096, 16 * 65536 + 4096] 0 id)
    let x : StashR := ⟨0x2000, 4096, 32 * 65536, [0x42], [1], [1]⟩
    let o : State := { s with owners := [(0x42, 1)] }
    let m := ({ s with owners := [(0x42, 0)] } : State).modCellar fun c => { c with stash := [x] }
    let full := s.modCellar fun c => { c with stash := List.replicate 16 { x with va := 0x5000, len := 0, pages := [] } }
    canonical ((s.g 1).toInt + (s.g 2).toNat - 1) = true ∧
    (match (s.stashPages (pagePieces (s.g 1).toInt (s.g 2).toNat ((s.g 2).toNat / 4096 + 1))).1 with | .ok l => l == [0x42] | .error _ => false) = true ∧
    ((s.core.padAlloc 4096).isSome = true ∧ s.core.padAlloc (s.g 3).toNat = none ∧ s.ownerOf (0x42 * 4096) = none ∧ s.core.cellar.stash.length < 16) ∧
    (o.goes ⟨false, 0⟩ ∧ o.ownerOf (0x42 * 4096) = some 1 ∧ (o.core.padAlloc 4096).isSome = true) ∧
    (m.goes ⟨false, 0⟩ ∧ m.ownerOf (0x42 * 4096) = some m.cur.val ∧ (m.core.padAlloc 4096).isSome = true) ∧
    (full.goes ⟨false, 0⟩ ∧ (full.core.padAlloc 4096).isSome = true ∧ 16 ≤ full.core.cellar.stash.length) ∧
    s.core.cellar.stash.find? (fun r => r.va == (s.g 1).toInt) = none ∧
    m.core.cellar.stash.find? (fun r => r.va == (m.g 1).toInt) = some x ∧ m.core.cellar.stash[0]? = some x := by decide +kernel

/-! ## Witnesses: events, the scheduler, the porter -/

/-- A record of the control core. -/
def record : FRec := ⟨0x15, 0, 0, 9, true, false, false, false, 1, 2, 3, 4, 5⟩

theorem wit_FaultQueueAndInvalidationResults :
    let s := strand [] 1 id
    let w := s.modFq fun f => { f with waiting := [record], base := 0x80000 }
    let full := w.modFq fun f => { f with tail := 16 }
    let dl := strand [] 256 id
    let busy := s.modCore fun c => { c with inval := (true, false) }
    let page : Extent := pages.getD 1 ⟨0, 0, 0, false, false, false, false, false, false⟩
    let old : DEntry := ⟨0, .strand, 0x43FF8 / 8, 8, 0, some page, none⟩
    let held : State := { s with slices := s.slices.set 3 { DeferTab.reset with entries := [old] } }
    let open' : State := { busy with slices := busy.slices.set 3 { DeferTab.reset with entries := [⟨0, .strand, 8, 8, 0, some ⟨0, 0, 4096, true, true, true, true, false, false⟩, none⟩] } }
    s.core.fq.waiting = [] ∧ full.core.fq.isFull = true ∧ w.core.fq.waiting = [record] ∧ w.core.fq.isFull = false ∧ w.memOk ∧
    s.goes ⟨false, 0⟩ ∧ s.super = true ∧ s.cpu.status.getLsbD 8 = false ∧ dl.cpu.status.getLsbD 8 = true ∧
    s.core.inval.1 = false ∧ s.porter.inval.1 = false ∧ busy.core.inval.1 = true ∧
    busy.invalOpen busy.core.invalOf (fun i => decide (i < 192) && (busy.coreAt i).on.asid == busy.core.on.asid) = false ∧
    open'.core.inval.1 = true ∧ open'.invalOpen open'.core.invalOf (fun i => decide (i < 192) && (open'.coreAt i).on.asid == open'.core.on.asid) = true ∧
    (s.modPorter fun p => { p with inval := (true, false) }).invalOpen s.porter.invalOf (fun i => decide (i < 192)) = false ∧
    (s.modPorter fun p => { p with inval := (true, false) }).porter.inval.1 = true ∧
    (old ∈ held.slices[3].entries ∧ old.core = held.cur.val ∧ old.agent = .strand ∧ old.page = some page ∧ page.va ≤ 0x3FF8 ∧ 0x3FF8 < page.va + page.len ∧
      inWindow 0x3FF8 = false ∧ (page.pa + ((0x3FF8 : Int) - page.va).toNat) / 8 = old.loc) ∧
    (∀ t ∈ held.tabs, (t.page held.cur.val .strand 0x3FF8).all fun y => y == page) := by decide +kernel

theorem wit_DeferralEventResults :
    let s : State := { strand [] 0 id with full := [8] }
    let k (n loc : Nat) (gone : Bool) : Ticket := ⟨n, 0, .strand, loc, 8, 0, none, false, gone⟩
    let t (x : Ticket) (used : Nat) : DeferTab := ⟨List.replicate used ⟨1, .strand, 8, 8, 0, none, none⟩, 2, 0, 0, [x]⟩
    let d (x : Ticket) (used : Nat) : State := { s with slices := s.slices.set 3 (t x used) }
    s.full.contains (64 / 8) = true ∧ s.full.contains (79 / 8) = false ∧ s.memOk ∧ 79 % 8 + 1 ≤ 8 ∧ s.homeOf (79 / 8) = .slice 0 ∧
    (∀ e ∈ [(k 0 9 false, 1023), (k 1 9 false, 0), (k 0 9 false, 1024), (k 1 8 false, 1024)], (d e.1 e.2).owners = [] ∧ (d e.1 e.2).core.cellar.banks = [] ∧
      (∀ j : Fin 12, j ≠ 3 → ∀ y ∈ (d e.1 e.2).slices[j].tickets, y.core ≠ (d e.1 e.2).cur.val ∨ y.agent ≠ .strand ∨ y.gone = true) ∧
      (d e.1 e.2).slices[3].tickets.find? (fun x => x.core == (d e.1 e.2).cur.val && x.agent == Agent.strand && !x.gone) = some e.1 ∧
      (e.1.num = (d e.1 e.2).slices[3].nextServe ↔ e.1.num = 0) ∧ (d e.1 e.2).slices[3].used = e.2 ∧ ((d e.1 e.2).full.contains e.1.loc = true ↔ e.1.loc = 8)) ∧
    (d (k 0 9 true) 0).slices[3].tickets.find? (fun x => x.core == s.cur.val && x.agent == Agent.strand && !x.gone) = none ∧
    (let o : State := { d (k 0 9 false) 0 with cyc := 4096 }; o.slices[3].since + 4096 ≤ o.cyc ∧ ∃ x ∈ o.slices[3].tickets, x.num = o.slices[3].nextServe ∧ x.tried = false) := by
  decide +kernel

theorem wit_OutsideAccessAndBitErrorResults :
    let s := core id
    let j := s.modPorter fun p => { p with ports := p.ports.set 2 (some 1) }
    s.memOk ∧ Config.hbmBytes < Config.hbmBytes - 8 + 16 ∧ Config.hbmBytes - 8 + 8 ≤ Config.hbmBytes ∧ s.porter.ports[(2 : BitVec 4).toNat] = none ∧
    j.memOk ∧ j.porter.ports[(2 : BitVec 4).toNat].isSome = true ∧ (Config.hbmBytes - 8) % 8 + 8 ≤ 8 ∧
    Config.hbmBytes / 8 - 1 < Config.hbmBytes / 8 ∧ 2 * 8192 - 1 < 524288 ∧ (2 * 8192 - 1) / 8192 < s.core.cellar.w3 ∧
    s.core.cellar.w3 ≤ 524287 / 8192 ∧ 2097151 < 2097152 ∧
    (let w : State := { s with ecc2 := [8], slices := s.slices.set (s.porter.stackOf 72) { DeferTab.reset with entries := [⟨0, .strand, 9, 8, 0, none, none⟩] } }
     let n := s.modField fun f => { f with nodes := [⟨0, 0, 0, 0, ⟨0, []⟩, false, none, .replicate 16 0, [], ⟨[], 0, false⟩, false, none, false, [], [], [], 0, 0, 0, 0,
       none, none, [], [], 0, false⟩] }
     ((w.tab (w.homeOf 9)).1.entries.any fun e => e.loc == 9 && e.val.isNone) = true ∧ w.full.contains 9 = false ∧ w.heldErr2 8 = true ∧ w.memOk ∧
       s.core.field.nodes[0 / 16]? = none ∧ (n.core.field.nodes[15 / 16]?).isSome = true) := by decide +kernel

/-- A stage-5 device with every core online and an ARMED record with one level of one core. -/
def armed : State :=
  { (withRecord 2 (core id)).modPorter fun p => { p with stage := 5, tests := .replicate 192 .online } with
    launches := [{ launched with recIx := 0, running := false, cores := [], start := none }] }

theorem wit_AdmissionResults :
    let s := ((withRecord 3 (onLaunch (core id))).modCore fun c => { c with on := { c.on with recIx := some 0 } })
    let r : State := { s with launches := [{ launched with recIx := 0 }] }
    let bad : State := { r with mem := memPut r.mem 0x10 [1] }
    let halted := r.modCpu fun c => { c with run := .halted }
    let pair : Launch := { launched with recIx := 0, cores := [0, 1] }
    let loads (i : Nat) := ({ r with launches := [pair] } : State).modCoreAt i fun c => { c with loader := ⟨some ⟨⟨none, 0, false, 0x20, true⟩, 0, 2, [], [], [0], [0], none⟩, none, some ⟨[], none⟩⟩ }
    (∀ t ∈ [r, bad, halted], t.core.loader.boot = none ∧ (∀ i ∈ launched.cores, (t.coreAt i).loader.boot = none) ∧ t.core.on.recIx = some 0 ∧ t.launch 0 = some { launched with recIx := 0 } ∧ t.core.mat.frozen = false) ∧
    launched.running = true ∧ launched.ending = none ∧ r.cpu.run = .off ∧ canonical (memNat r.mem (r.recAt 0 0x10) 8) = true ∧
    memNat r.mem (r.recAt 0 0x10) 8 % 4 = 0 ∧ bad.cpu.run = .off ∧ bad.cpu.nest = false ∧ memNat bad.mem (bad.recAt 0 0x10) 8 % 4 ≠ 0 ∧
    (∀ i ∈ [0, 1], (loads i).core.on.recIx = some 0 ∧ (loads i).launch 0 = some pair ∧ (loads i).core.mat.frozen = false) ∧
    ((loads 1).core.loader.boot = none ∧ (∃ i ∈ pair.cores, ((loads 1).coreAt i).loader.boot ≠ none)) ∧
    ((loads 0).core.loader.boot ≠ none ∧ (loads 0).core.loader.run ≠ none) ∧
    halted.cpu.run = .halted ∧ (core id).porter.stage ≠ 4 ∧ (core id).porter.stage ≠ 5 := by decide +kernel

theorem wit_AdmissionPass : ∃ l cores, armed.porter.stage = 5 ∧ armed.memOk ∧ armed.launches = [l] ∧ l.running = false ∧ l.pre = false ∧
    l.ending = none ∧ (armed.recHome l.recIx 0x90).testBit 15 = false ∧ armed.recHome l.recIx 0x18 = 0 ∧
    armed.impossible (coreOrder []) [l] = false ∧
    placement (coreOrder []) armed.freeCoreAt (armed.levelsOf l.recIx) = some cores ∧ ∀ i ∈ cores, i < 192 :=
  ⟨{ launched with recIx := 0, running := false, cores := [], start := none }, [0], by decide +kernel⟩

theorem wit_LaunchEndResults :
    let s := onLaunch (core id)
    let z := s.modCore fun c => { c with mat := { c.mat with frozen := true } }
    let v := z.modCellar fun c => { c with move := some (3, 50) }
    let x (b : Bool) := s.modCpu fun c => { c with run := .exited, exitX := b }
    let e : State := { s with launches := [{ launched with ending := some (3, 0x22) }] }
    let w : State := { s with launches := [{ launched with running := false }] }
    s.launch 5 = some launched ∧ s.memOk ∧ launched.running = true ∧ launched.ending = none ∧
    (∃ i ∈ launched.cores, (s.coreAt i).mat.frozen = false) ∧ (∃ i ∈ launched.cores, (s.coreAt i).cpu.run ≠ .exited) ∧
    z.launch 5 = some launched ∧ z.memOk ∧ (∀ i ∈ launched.cores, i < 192 ∧ (z.coreAt i).mat.frozen = true ∧ (z.coreAt i).cellar.move = none) ∧
    v.launch 5 = some launched ∧ v.memOk ∧ (∃ i ∈ launched.cores, (v.coreAt i).cellar.move ≠ none) ∧
    (∀ b, (x b).launch 5 = some launched ∧ (x b).memOk ∧ (∀ i ∈ launched.cores, ((x b).coreAt i).cpu.run = .exited) ∧
      ((∃ i ∈ launched.cores, ((x b).coreAt i).cpu.exitX = true) ↔ b = true)) ∧
    e.launch 5 = some { launched with ending := some (3, 0x22) } ∧ e.memOk ∧ w.launch 5 = some { launched with running := false } ∧ w.memOk := by
  refine ⟨?_, ?_, ?_, ?_, ⟨0, ?_⟩, ⟨0, ?_⟩, ?_, ?_, ?_, ?_, ?_, ⟨0, ?_⟩, ?_⟩ <;> decide +kernel

theorem wit_DeadlineAndGovernorResults :
    let s : State := { onLaunch (core id) with mem := memPut [] (5 * 256 + 0x88) [100], cyc := 100 }
    let g (st : BitVec 4) (n hi : Nat) := (core id).modPorter fun p => { p with stage := st, step := n, high := hi, samples := [3500], low := 49 }
    s.launch 5 = some launched ∧ memNat s.mem (s.recAt 5 0x88) 8 % 2 ^ 48 = 100 ∧ launched.budget = false ∧ launched.start = some 0 ∧
    launched.cores = 0 :: [] ∧ s.cyc = 0 + 100 ∧ ({ s with cyc := 99 } : State).cyc < 0 + 100 ∧ (core id).core.on.recIx = none ∧
    s.core.on.recIx = some 5 ∧ s.core.mat.frozen = false ∧ (∀ k : Fin 16, (s.core.field.regions[k]).st ≠ .frozen) ∧ (s.modMat fun m => { m with frozen := true }).core.mat.frozen = true ∧
    ((onLaunch (core id)).launch 5 = some launched ∧ memNat (onLaunch (core id)).mem ((onLaunch (core id)).recAt 5 0x88) 8 % 2 ^ 48 = 0) ∧
    (g 0 0 0).porter.step ≤ 3 ∧ (g 0 0 0).porter.cap ≤ 3 ∧ (g 7 0 0).porter.stage = 7 ∧ (g 5 3 9).porter.stage ≠ 0 ∧ (g 5 3 9).porter.stage ≠ 7 ∧
    (10 ≤ (g 5 3 9).porter.high + 1 ∧ (g 5 3 9).porter.step = 3 ∧ 3200 * 2 < [2901, 3500].sum) ∧ [2299, 3500].sum < 2900 * 2 ∧ 50 ≤ (g 5 1 0).porter.low + 1 ∧
    (let c : State := { (g 5 0 0) with launches := [{ launched with recIx := 0 }], mem := memPut [] 0x8E [1] }
     (c.recHome 0 0x88).testBit 48 = true ∧ c.launches = [{ launched with recIx := 0 }] ∧ c.porter.samples = [3500] ∧ c.porter.step = 0 ∧ c.porter.cap = 0) := by
  decide +kernel

theorem wit_BootResults :
    let s (n : BitVec 4) := (core id).modPorter fun p => { p with stage := n, fwlen := if n = 1 then 4095 else 0 }
    let t := (s 4).modPorter fun p => { p with tests := Vector.ofFn fun i => if i.val < 48 then .online else .untested }
    (s 1).porter.stage = 1 ∧ (s 6).porter.stage = 6 ∧ (s 2).porter.stage = 2 ∧ (s 3).porter.stage = 3 ∧ (s 4).porter.stage = 4 ∧
    (s 2).porter.fwlen.toNat < 4096 ∧ (s 0).porter.stage ≠ 1 ∧ t.porter.stage = 4 ∧ t.porter.tests[(95 : Fin 192)] = .untested ∧
    ∀ i : Fin 192, i.val < (95 : Fin 192).val / 48 * 48 → t.porter.tests[i] ≠ .untested := by decide +kernel

theorem wit_MailboxResults :
    let s (st : Nat) := (withRecord st (core id)).modPorter fun p => { p with stage := 5 }
    let z : State := { s 1 with mem := memPut (s 1).mem 0x98 [1] }
    let g : State := { s 2 with launches := [{ launched with recIx := 0, cores := [0] }] }
    let a := (core id).modPorter fun p => { p with attest := some 64, digest := [1] }
    (core id).porter.stage.toNat < 4 ∧ (∀ st ∈ [0, 1, 2, 3, 4, 5], 4 ≤ (s st).porter.stage.toNat ∧ (s st).recHome 0 0 % 16 = st ∧ (s st).memOk) ∧
    recOk ((s 1).recHome 0) = true ∧ recOk (z.recHome 0) = false ∧ (core id).launch 0 = none ∧
    g.launch 0 = some { launched with recIx := 0, cores := [0] } ∧ (core id).porter.hfqWait = [] ∧ Memory.wf a.hostMem = true ∧
    (core id).porter.attest = none ∧ a.porter.attest = some 64 ∧ a.porter.digest ≠ [] := by decide +kernel

theorem wit_LinksetResults :
    let s := core id
    let one := s.modPorter fun p => { p with ports := p.ports.set 2 (some 1) }
    let two := one.modPorter fun p => { p with ports := p.ports.set 3 (some 1) }
    s.porter.ports[(2 : BitVec 4).toNat] = none ∧ one.porter.ports[(2 : BitVec 4).toNat] = some 1 ∧
    (∀ j : BitVec 4, j ≠ 2 → one.porter.ports[j.toNat] ≠ some 1) ∧ two.porter.ports[(2 : BitVec 4).toNat] = some 1 ∧
    ∃ j : BitVec 4, j ≠ 2 ∧ two.porter.ports[j.toNat] = some 1 := by decide +kernel

/-! ## Witnesses: stream commands, links, ports -/

/-- A page table at 0x100000 that maps the first GiB onto itself, for every access. -/
def mapped (s : State) : State :=
  { s with mem := memPut (memPut (memPut s.mem 0x100000 (toBytes 8 0x101001)) 0x101000 (toBytes 8 0x102001)) 0x102000 (toBytes 8 63) }.modCore
    fun c => { c with on := { c.on with ptroot := 0x100000 } }

/-- A link of 4 slots. -/
def lk (prod cons : BitVec 20) (fmt : Nat) : Link :=
  ⟨1, 0, prod, cons, 4, fmt, 0, 0, none, 1, [], [], 0, [], [], [], 0⟩

/-- A node of plot (0, 0) with two inputs and one output, that adds them. -/
def adder : Node :=
  { region := 0, y := 0, x := 0, ctx := 0, blk := ⟨0, []⟩, comm := false, acc := none, regs := .replicate 16 0, red := [],
    replay := ⟨[], 0, false⟩, seen := false, packet := none, closing := false, eosIn := [], eosOut := [], fir := [], stIn := 0, stOut := 0,
    stCtx := 0, reason := 0, last := none, done := none, err1 := [], err2 := [], flags := 0, stopped := false }

/-- Region 0 ARMED with ports in1 and out1 and engine ports 1 to 7 bound; li0 of a node comes from in1 and its lo0 goes to out1. -/
def field : Field :=
  { regions := Vector.replicate 16 { Region.reset with st := .armed }, nodes := [adder], filters := []
    links := [lk (headEndpoint 1) (nodeEndpoint 0 0 0 0) 12, lk (nodeEndpoint 0 0 0 1) (headEndpoint 33) 12, lk (epEndpoint 6) (nodeEndpoint 0 0 0 2) 7,
      { lk (nodeEndpoint 0 0 0 3) (epEndpoint 5) 7 with buf := [(⟨0, 0x1090000000000000⟩, 1)] }, lk (nodeEndpoint 0 0 0 4) (epEndpoint 3) 1,
      lk (epEndpoint 4) (nodeEndpoint 0 0 0 5) 13]
    bindings := [⟨0, false, 1, false, 1, 0, 0, []⟩, ⟨0, false, 33, false, 1, 0, 0, []⟩, ⟨0, true, 6, false, 0, 0, 0, []⟩] }

/-- Engine context ctx has command number 1 of tl9 in hand. -/
def atCtx (ctx : Nat) (f : Core → Core) : State :=
  mapped (core fun c => f { c with
    field := field, on := { c.on with tlmap := c.on.tlmap.set 9 (BitVec.ofNat 8 (128 + ctx)) },
    qs := { c.qs with dlv := ⟨BitVec.ofNat 8 ctx, some 1, false, false⟩ } })

/-- A header of tl9 without a notice. -/
def hdr : CmdHdr := ⟨9, 0, false⟩

theorem passes_of (s : State) (h : CmdHdr) (op : BitVec 8)
    (p : (h.rsv == 0 && classOfCtx s.ctx == some (op.toNat / 16) && s.core.on.tlCtx h.tl == some s.ctx) = true) : s.passes h op := by
  simp only [Bool.and_eq_true, beq_iff_eq] at p
  exact ⟨p.1.1, p.1.2, p.2⟩

theorem wit_CompletionAndRefusalOfCommands :
    let s := atCtx 1 id
    streamOf (.push ⟨9, 1, false⟩ 0 0 0) = some (⟨9, 1, false⟩, 0x07) ∧ (⟨9, 1, false⟩ : CmdHdr).rsv ≠ 0 ∧
    streamOf (.fill hdr 0 0 0 0 0) = some (hdr, 0x12) ∧ hdr.rsv = 0 ∧ classOfCtx s.ctx ≠ some ((0x12 : BitVec 8).toNat / 16) ∧
    s.core.on.tlCtx 8 ≠ some s.ctx ∧ (9, Queues.reset.completed[(9 : Fin 16)] + 1) ∉ Queues.reset.above := by decide +kernel

theorem wit_DataCommandStarts :
    (atCtx 1 id).passes hdr 0x01 ∧ (atCtx 33 id).passes hdr 0x02 ∧ (atCtx 1 id).passes hdr 0x04 ∧ (atCtx 33 id).passes hdr 0x05 ∧
    (atCtx 33 id).passes hdr 0x06 := by
  refine ⟨?_, ?_, ?_, ?_, ?_⟩ <;> exact passes_of _ _ _ (by decide +kernel)

/-- A LOADS of 65 BF16 elements starts; one of an unassigned format is turned away. -/
theorem test_loads_starts :
    (match exec (.loads hdr ⟨0x2000, 12, 0, 0, 64, 1⟩) (atCtx 1 id) with
      | .next t => (t.port 1).run.any fun r => r.base == 0x2000 && r.cnt == [65, 1, 1, 1, 1] && r.idx == 0 | _ => false) = true ∧
    (match exec (.loads hdr ⟨0x2000, 15, 0, 0, 64, 1⟩) (atCtx 1 id) with
      | .next t => (t.port 1).run.isNone && t.core.fq.written == [(0, 0x50, true)] && t.core.qs.completed[(9 : Fin 16)] == 1 | _ => false) = true := by
  decide +kernel

/-- An accumulator node with one sum. -/
def summer (v : BitVec 32) : Node := { adder with acc := some ⟨3, 1, 1, 1, [v], 0, 0, 0, []⟩ }

theorem got_ok {α : Type} (g : Got α) (h : (match g with | .ok _ _ => true | _ => false) = true) : ∃ a u, g = .ok a u := by
  cases g <;> simp_all

theorem got_fault {α : Type} (g : Got α) (h : (match g with | .fault _ _ _ => true | _ => false) = true) : ∃ c a u, g = .fault c a u := by
  cases g <;> simp_all

/-- A data command under way, with its tag. -/
def run (k : PKind) (f : Nat) : PRun :=
  { tag := ⟨some 1, 9, false, 1, false⟩, kind := k, base := 0x2000, f := f, k := 12, chain := 0, hint := 0, cnt := [2], str := [1], par := .reset, scale := 0,
    limit := 2, idx := 0, pos := 0, out := [], buf := [], slot := [], acc := none, row := none, place := none, tries := 0, due := none, closed := false, tile := none }

/-- A port runs a command, with the extent of the first GiB. -/
def running (p : Nat) (r : PRun) (s : State) : State :=
  s.modPort p fun x => { x with run := some r, st := .running, ext := some ⟨0, 0, 2 ^ 30, true, true, true, true, false, false⟩ }

theorem wit_PortCommandResults :
    let s := atCtx 1 id
    let o := atCtx 33 fun c => { c with field := { c.field with nodes := [summer 5] } }
    (∀ op ∈ ([0x03, 0x07, 0x08, 0x09, 0x0C] : List (BitVec 8)), s.passes hdr op) ∧ o.passes hdr 0x0A ∧ o.passes hdr 0x0B ∧
    o.core.field.accNode 3 = some 0 ∧ o.core.field.nodes[0]? = some (summer 5) ∧ (summer 5).acc = some ⟨3, 1, 1, 1, [5], 0, 0, 0, []⟩ ∧
    inWindow (0x2000 : BitVec 57).toInt = false ∧
    (match (o.extentOf (0x2000 : BitVec 57).toInt).1 with
      | .ok e => e.holds 0x2000 && (match o.porter.checkLeaf e 0x2000 .store (!o.core.qs.dlv.sup) with
        | .ok x => !x.ext.once && !o.mergeErr x.pa 4 | .error _ => false) | .error _ => false) = true ∧ canonical ((0x2000 : BitVec 57).toInt + 3) = true ∧
    Memory.wf o.mem = true ∧
    (let p := (running 1 (run .loads 12) s).modPort 1 fun p => { p with st := .stalled }; (p.port 1).run ≠ none ∧ (p.port 1).st = .stalled) := by
  refine ⟨?_, passes_of _ _ _ (by decide +kernel), passes_of _ _ _ (by decide +kernel), ?_⟩
  · intro op h
    refine passes_of _ _ _ ?_
    revert op; decide +kernel
  · decide +kernel

theorem wit_LinkResults :
    let l : Link := { lk (headEndpoint 1) (headEndpoint 33) 12 with fly := [⟨0, 5⟩] }
    let z : Link := { lk (headEndpoint 1) (headEndpoint 33) 12 with slots := 0, result := [⟨0, 5⟩] }
    let s := core fun c => { c with field := { c.field with links := [l, z, lk (headEndpoint 2) (headEndpoint 34) 12] } }
    s.core.field.links[0]? = some l ∧ l.fly = ⟨0, 5⟩ :: [] ∧ l.filt = none ∧ l.expands = false ∧ l.slots ≠ 0 ∧
    s.core.field.links[1]? = some z ∧ z.slots = 0 ∧ z.buf = [] ∧ z.result = ⟨0, 5⟩ :: [] ∧ s.wants z = true ∧ z.filt = none ∧ z.expands = false ∧
    s.core.field.links[2]? = some (lk (headEndpoint 2) (headEndpoint 34) 12) ∧ (lk (headEndpoint 2) (headEndpoint 34) 12).fly = [] := by decide +kernel

theorem wit_PortMotionResults :
    let s := running 1 (run .loads 12) (atCtx 1 id)
    let u := running 1 (run .push 12) (atCtx 1 id)
    let o := running 33 (run .stores 12) (atCtx 33 fun c => { c with field := { c.field with
      links := c.field.links.map fun (l : Link) => if l.cons = headEndpoint 33 then { l with buf := [(⟨0, 5⟩, 1)] } else l } })
    let x := (atCtx 1 id).modPort 1 fun p => { p with st := .extent, want := 0x2000 }
    let e := { run .loads 12 with chain := 32, tries := 1, cnt := [2048] }
    let w := (running 1 (run .loads 12) s).modPort 1 fun p => { p with st := .extent, prev := [({ run .push 12 with out := [⟨0, 5⟩] }, 0)] }
    (∀ t ∈ [s, u], (t.core.loader.inband.all fun b => b.port != 1) = true ∧ (t.port 1).st = .running ∧ (t.port 1).spill = [] ∧ (t.port 1).prev = [] ∧
      t.core.field.linkFrom (headEndpoint 1) = some 0 ∧ (t.core.field.links[0]?).isSome = true ∧ 0 < t.core.field.freeFrom (headEndpoint 1)) ∧
    (s.port 1).run = some (run .loads 12) ∧ (u.port 1).run = some (run .push 12) ∧ (run .loads 12).out = [] ∧ (run .loads 12).closed = false ∧
    ((w.port 1).run = some (run .loads 12) ∧ (w.port 1).st = .extent ∧ (w.port 1).prev = [({ run .push 12 with out := [⟨0, 5⟩] }, 0)] ∧
      0 < w.core.field.freeFrom (headEndpoint 1) ∧ w.core.field.linkFrom (headEndpoint 1) = some 0) ∧
    (∃ bs v, s.portGet 1 (run .loads 12) ((run .loads 12).addr (offsetOf [2] [1] 0)) (run .loads 12).size false = .ok bs v) ∧
    (o.port 33).run = some (run .stores 12) ∧ (o.port 33).st = .running ∧ (o.port 33).spill = [] ∧ (o.port 33).discard = false ∧ (run .stores 12).full = false ∧ (run .stores 12).due = none ∧
    ((o.core.field.portLink 33).any fun l => (l.buf.all fun b => decide (1 ≤ b.2)) && l.head == some ⟨0, 5⟩) = true ∧
    (∃ a v, o.portPut 33 (run .stores 12) ((run .stores 12).addr (offsetOf [2] [1] 0)) (toBytes (run .stores 12).size 5) false = .ok a v) ∧
    (x.port 1).st = .extent ∧ (match (x.extentOf (x.port 1).want).1 with | .ok _ => true | .error _ => false) = true ∧
    ((running 1 e (atCtx 1 id)).port 1).run = some e ∧ e.kind = .loads ∧ e.chain = 32 ∧ e.tries ≠ 0 ∧ e.place ≠ some (e.size * offsetOf e.cnt e.str e.idx / 4096) ∧
    ∃ a v, (running 1 e (atCtx 1 id)).readSlot 1 e (e.base + 4128 * (e.size * offsetOf e.cnt e.str e.idx / 4096)) false = .ok a v := by
  refine ⟨?_, ?_, ?_, ?_, ?_, ?_, got_ok _ ?_, ?_, ?_, ?_, ?_, ?_, ?_, ?_, got_ok _ ?_, ?_, ?_, ?_, ?_, ?_, ?_, ?_, got_ok _ ?_⟩ <;> decide +kernel

theorem wit_CommandPortResults :
    let s := atCtx 0x40 id
    let w : BitVec 128 := (0x1090000000000000 : Word) ++ (0x1090000000000000 : Word)
    let h := s.modQs fun q => { q with hi := [(5, 0x1090000000000000)] }
    let n := s.modQs fun q => { q with notices := [7] }
    let full := n.modField fun f => f.modLink 2 fun l => { l with credit := 4 }
    s.portHead (epEndpoint 7) = none ∧ s.core.field.linkTo (epEndpoint 5) = some 3 ∧
    ((s.core.field.links[3]?).any fun l => (l.buf.all fun b => decide (1 ≤ b.2)) && l.head == some ⟨0, 0x1090000000000000⟩) = true ∧
    (s.core.qs.hi.find? fun x => x.1 == 5) = none ∧ ((h.core.qs.hi.find? fun x => x.1 == 5).map (·.2)) = some 0x1090000000000000 ∧
    decodeStream w = .copy hdr 0x21 0x10000000000000 ∧ w.extractLsb' 113 3 = 0 ∧ (w.extractLsb' 124 4).toNat = 1 ∧
    h.core.on.tlCtx (w.extractLsb' 116 4) = some 0x40 ∧ s.core.qs.notices = [] ∧ n.core.qs.notices = 7 :: [] ∧ n.core.field.bound true 6 = true ∧
    (core id).core.field.bound true 6 = false ∧ n.core.field.linkFrom (epEndpoint 6) = some 2 ∧ 0 < n.core.field.freeFrom (epEndpoint 6) ∧
    full.core.field.bound true 6 = true ∧ full.core.field.linkFrom (epEndpoint 6) = some 2 ∧ full.core.field.freeFrom (epEndpoint 6) = 0 := by
  decide +kernel

/-! ## Witnesses: service, the copy engine, the hints, the loader, the drill -/

/-- An ATTN under way that captured nothing. -/
def attnRun : ARun where
  tag := ⟨some 1, 9, false, 0x41, false⟩
  desc := ⟨.replicate 12 0⟩
  stages := .replicate 3 none
  sa := 0
  bias := []
  path := []
  q := []
  segq := []
  qin := []
  qend := false
  todo := []
  blks := []
  begun := []
  offer := none
  fresh := []
  merged := []
  states := []
  merges := 0
  rows := 0
  put := 0
  out := []

theorem wit_ServiceAndQuiescenceResults :
    let s := atCtx 1 id
    let p := (running 1 (run .loads 12) s).modPort 1 fun x => { x with st := .stalled }
    let h := (running 1 (run .loads 12) s).modPort 1 fun x => { x with st := .frozen, before := .stalled }
    let q := (running 1 (run .loads 12) s).modPort 1 fun x => { x with spill := [(0, 0)] }
    let c (n : Nat) (desc : Option Nat) : CRun := ⟨⟨some n, 9, false, 0x11, false⟩, none, desc, false, 0, 0, true, 64, 1, 0, 0, 0, 0, 0, 0, some false⟩
    let k := s.modCopy 0x40 fun x => { x with runs := [c 1 none, c 2 (some 0)] }
    let r : DRun := ⟨⟨some 1, 9, false, 0x32, false⟩, ⟨4, true, true, false, false, 0, 0, 0, 0, 0⟩, 3, false⟩
    let d := s.modDrill fun x => { x with stopped := true, run := some r }
    let a := attnRun
    let t := s.modCore fun x => { x with ap := { x.ap with stopped := true, run := some a } }
    let g (b : RState) := s.modField fun x => { x with regions := x.regions.set 15 { Region.reset with st := .frozen, before := b } }
    let held (b : RState) := (g b).modMat fun m => { m with frozen := true }
    let z : State := { (s.modField fun x => x.modLink 0 fun l => { l with buf := [(⟨0, 5⟩, 1)] }) with cyc := 65536 }
    let z' := (z.modCpu fun c => { c with qsnap := 0x4000 }).modFq fun f => { f with tail := 16 }
    ((s.port 1).run = none ∧ (p.port 1).run = some (run .loads 12) ∧ (p.port 1).st = .stalled ∧ (h.port 1).run = some (run .loads 12) ∧
      (h.port 1).st = .frozen ∧ (h.port 1).before = .stalled ∧ (q.port 1).run = some (run .loads 12) ∧ (q.port 1).st = .running) ∧
    ((s.copyCtx 0x40).runs = [] ∧ (k.copyCtx 0x40).runs = [c 1 none, c 2 (some 0)] ∧ ((k.copyCtx 0x40).runs.Pairwise fun a b => a.tag.num ≠ b.tag.num)) ∧
    (s.core.drill.stopped = false ∧ d.core.drill.stopped = true ∧ d.core.drill.reap = none ∧ d.core.drill.run = some r ∧ r.ops.count ≠ 0 ∧
      r.fired < r.ops.count.toNat ∧ d.core.drill.inq = []) ∧
    (s.core.ap.stopped = false ∧ t.core.ap.stopped = true ∧ t.core.ap.start = none ∧ t.core.ap.run = some a) ∧
    ((s.core.field.region 15).st ≠ .frozen ∧ s.core.mat.frozen = false ∧ ((g .armed).core.field.region 15).st = .frozen ∧ (g .armed).core.mat.frozen = false ∧
      (held .frozen).core.mat.frozen = true ∧ ((held .frozen).core.field.region 15).before = .frozen ∧ ((held .armed).core.field.region 15).before ≠ .frozen ∧
      ((g .armed).core.field.nodes.all fun e => e.region != 15) = true) ∧
    s.quiesced 0 = false ∧ z.quiesced 0 = true ∧ z'.quiesced 0 = true ∧ z'.cpu.qsnap ≠ 0 ∧ z'.memOk ∧ z'.core.fq.isFull = true ∧
    ((z.modFq fun f => { f with tail := 16 }).cpu.qsnap = 0 ∧ (z.modFq fun f => { f with tail := 16 }).core.fq.isFull = true ∧
      (z.modFq fun f => { f with tail := 16 }).quiesced 0 = true) := by decide +kernel

/-- A copy descriptor of 64 bytes from 0x2000 to loft byte 0x40, at 0x3000. -/
def withCopy (s : State) : State :=
  { s with mem := memPut s.mem 0x3000 (toBytes 8 0x2000 ++ toBytes 8 0x40 ++ toBytes 8 64 ++ toBytes 8 0x40) }

theorem wit_CopyStartResults :
    let s := withCopy (atCtx 0x40 id)
    s.passes hdr 0x10 ∧ s.passes hdr 0x11 ∧ s.passes hdr 0x12 ∧ (s.copyCtx s.ctx).runs = [] ∧
    (∃ bs v, s.readVirt (ctxAgent s.ctx) true 0x3000 32 = .ok bs v) ∧ (∃ c a v, s.readVirt (ctxAgent s.ctx) true (2 ^ 40) 32 = .fault c a v) ∧
    rowsFault 0x2000 0 64 1 = none ∧ rowsFault (2 ^ 56 - 32) 0 64 1 = some (0x24, 2 ^ 56 + 31) ∧ loftOk 0x40 0 64 1 = true ∧ loftOk (2 ^ 24) 0 64 1 = false := by
  refine ⟨passes_of _ _ _ ?_, passes_of _ _ _ ?_, passes_of _ _ _ ?_, ?_, got_ok _ ?_, got_fault _ ?_, ?_⟩ <;> decide +kernel

/-- The COPY of that descriptor starts with the operands of the descriptor, which are legal. -/
theorem test_copy_starts :
    (match exec (.copy hdr 0x3000 0) (withCopy (atCtx 0x40 id)) with
      | .next t => (t.copyCtx 0x40).runs.map (fun r => (r.src, r.dst, r.loft, r.width, r.rows, r.flt)) == [(0x2000, 0x40, true, 64, 1, none)] | _ => false) = true ∧
    (match exec (.copy hdr 0x3020 0) (withCopy (atCtx 0x40 id)) with
      | .next t => (t.copyCtx 0x40).runs == [] && t.core.fq.written == [(0, 0x54, true)] | _ => false) = true := by decide +kernel

theorem wit_CopyMotionResults :
    let r (src : Int) (fill : Option Byte) (flt : Option Bool) : CRun :=
      ⟨⟨some 1, 9, false, 0x12, false⟩, fill, none, false, src, 0x40, true, 64, 1, 0, 0, 0, 0, 0, 0, flt⟩
    let s (src : Int) (fill : Option Byte) (flt : Option Bool) := (atCtx 0x40 id).modCopy 0x40 fun x => { x with runs := [r src fill flt] }
    (∀ e ∈ [(0x2000, some 7, none), (0x2000, none, none), (0x2000, none, some true), (2 ^ 56 - 32, none, none)],
      ((s e.1 e.2.1 e.2.2).copyCtx 0x40).frozen = false ∧ (((s e.1 e.2.1 e.2.2).copyCtx 0x40).runs.Pairwise fun a b => a.tag.num ≠ b.tag.num) ∧
      ((s e.1 e.2.1 e.2.2).copyCtx 0x40).find (some (1 : Word).toNat) = some (r e.1 e.2.1 e.2.2) ∧ Memory.wf (s e.1 e.2.1 e.2.2).core.loft.bytes = true) ∧
    (r (2 ^ 56 - 32) none none).ranges = some (0x24, 2 ^ 56 + 31) ∧ rowsFault 0x2000 0 64 1 = none ∧
    ∃ bs u, (s 0x2000 none none).readVirtAt (ctxAgent 0x40) true 0x2000 64 0 = .ok bs u :=
  ⟨by decide +kernel, by decide +kernel, by decide +kernel, got_ok _ (by decide +kernel)⟩

theorem wit_HintResults :
    let s := (atCtx 0x40 id).modCore fun c => { c with on := { c.on with recIx := some 5 } }
    let p : State := { s with pins := [(5, 0x2000)] }
    let d := s.modCellar fun c => { c with cache := [line 0x2000] }
    s.passes hdr 0x13 ∧ s.passes hdr 0x14 ∧ s.passes hdr 0x15 ∧ s.hintXlate true (2 ^ 40) = none ∧
    (s.hintXlate true 0x2000).any (fun x => x.pa == 0x2000 && !x.ext.once) = true ∧ 0x2000 % 64 + 64 ≤ 64 ∧ s.ownerOf 0x2000 = none ∧
    s.core.on.recIx = some 5 ∧ (5, 0x2000) ∉ s.pins ∧ (5, 0x2000) ∈ p.pins ∧
    d.core.cellar.line 0x2000 = some (line 0x2000) ∧ (line 0x2000).dirty.getLsbD 0 = true := by
  refine ⟨passes_of _ _ _ ?_, passes_of _ _ _ ?_, passes_of _ _ _ ?_, ?_, ?_, ?_, ?_, ?_, ?_, ?_, ?_, ?_⟩ <;> decide +kernel

/-- An image of one group, for region 0, with no node, at 0x3000. -/
def withImage (s : State) : State :=
  { s with mem := memPut s.mem 0x3000 (toBytes 8 0x0000010100000002 ++ toBytes 8 0x1000000000000000) }

theorem wit_LoaderResults :
    let s := withImage (atCtx 0x4B id)
    let b : Inband := ⟨⟨some 1, 9, false, 0x20, false⟩, 0x3000, 1, 2⟩
    let i := s.modLoader fun l => { l with inband := some b }
    let r : LRun := ⟨⟨some 1, 9, false, 0x20, false⟩, 0x3000, 2, [], [], [0], [0], none⟩
    let q : LRun := { r with words := [0x0000010100000002, 0x1000000000000000], now := some 0 }
    let l (x : LRun) := s.modCore fun c => { c with loader := ⟨some x, none, none⟩, field := Field.reset }
    let bad := { q with bad := [(1, 0x32)] }
    s.passes hdr 0x20 ∧ (match (s.headerPass true (2 ^ 40)).1 with | .error _ => true | .ok _ => false) = true ∧
    (match (s.headerPass true 0x3000).1 with | .ok n => n == (2, [0]) | .error _ => false) = true ∧ selectedRegions [0] 0 = [0] ∧ s.core.field.bound false 1 = true ∧
    s.core.field.bound false 2 = false ∧ i.core.loader.inband = some b ∧ i.core.mat.frozen = false ∧ (i.port b.port.toNat).run = none ∧
    i.core.field.linkFrom (headEndpoint b.port.toNat) = some 0 ∧ 0 < i.core.field.freeFrom (headEndpoint b.port.toNat) ∧ canonical b.addr = true ∧
    (match (i.imageWord true b.addr).1 with | .ok _ => true | .error _ => false) = true ∧ s.core.loader.run = none ∧ (l r).core.loader.run = some r ∧
    (l r).core.mat.frozen = false ∧ (l r).core.field.mayLoad 0 = true ∧ (∀ x ∈ r.left, x < 0 → (l r).core.field.mayLoad x = false) ∧
    (l q).core.loader.run = some q ∧ (l q).core.mat.frozen = false ∧ 0 ∈ q.sel ∧ ((l q).core.loadRegion q.groups q.sel 0 (l q).cyc).isOk = true ∧
    (l bad).core.loader.run = some bad ∧
    (match (l bad).core.loadRegion bad.groups bad.sel 0 (l bad).cyc with | .error _ => true | .ok _ => false) = true := by
  refine ⟨passes_of _ _ _ ?_, ?_⟩ <;> decide +kernel

/-- A seed graph of one INPUT and one OUTPUT of width 8, one lane each, scale 1.0. -/
def graph : Graph := { nodes := [0x0000000008000000, 0x6000000008000000], v := 1, w := 1, scales := [0x3F800000], depth := 1, area := 0 }

/-- Its image at 0x3000, the header's check apart: word h. -/
def withSeed (h : Nat) (s : State) : State :=
  { s with mem := memPut s.mem 0x3000 (toBytes 8 h ++ toBytes 8 0x08000000 ++ toBytes 8 0x6000000008000000 ++ toBytes 8 0x3F800000) }

theorem wit_SeedCommandResults :
    let s := (withSeed 0x0001000400000001 (atCtx 0x49 id)).modCellar fun c => { c with w1 := 16, w2 := 32, w3 := 48 }
    let ws : List Word := [0x0000000008000000, 0x6000000008000000]
    let h : Word := 0x0001000400000001
    s.passes hdr 0x30 ∧ s.passes hdr 0x31 ∧ s.passes hdr 0x32 ∧
    (match (s.imageWord true (2 ^ 40)).1 with | .error _ => true | .ok _ => false) = true ∧
    (match (s.imageWord true 0x3000).1 with | .ok w => w == h | .error _ => false) = true ∧ seedHdrErr h = none ∧
    seedHdrErr (0 : Word) = some 0x43 ∧ (s.imageWords true 0x3008 (seedWords h - 1)).1 = (ws ++ [0x3F800000], []) ∧
    (ws.zipIdx.findSome? fun x => seedNodeErr ws (seedTab h) x.2 x.1) = none ∧ seedGraphErr ws (seedV h) (seedW h) = none ∧
    seedGraphErr ws (seedV h) 2 = some 0x43 ∧ (s.sowPlace h (ws ++ [0x3F800000])).isSome = true ∧
    ((s.modCellar fun c => { c with w1 := 0 }).sowPlace h (ws ++ [0x3F800000])).isNone = true := by
  refine ⟨passes_of _ _ _ ?_, passes_of _ _ _ ?_, passes_of _ _ _ ?_, ?_⟩ <;> decide +kernel

theorem wit_ReapWrites :
    let s := atCtx 0x49 id
    (0x3000 : BitVec 57) ≠ 0 ∧ (∃ a u, s.writeVirt true 0x3000 (List.replicate 32 0) = .ok a u) ∧
    ∃ c a u, s.writeVirt true (2 ^ 40) (List.replicate 32 0) = .fault c a u := by
  refine ⟨?_, got_ok _ ?_, got_fault _ ?_⟩ <;> decide +kernel

theorem wit_DrillRunResults :
    let r : DRun := ⟨⟨some 1, 9, false, 0x32, false⟩, ⟨4, false, false, false, false, 0, 0, 0, 0, 0⟩, 3, false⟩
    let s (f : Drill → Drill) := (atCtx 0x49 id).modDrill fun d => f { d with run := some r, graph := some graph }
    let take (t : Token) (f : Drill → Drill) := (s f).modField fun x => x.modLink 4 fun l => { l with buf := [(t, 1)] }
    let dlinks (t : State) (tok : Token) : Prop := t.core.field.linkTo (epEndpoint 3) = some 4 ∧
      ((t.core.field.links[4]?).any fun l => (l.buf.all fun b => decide (1 ≤ b.2)) && l.head == some tok) = true
    let fire := s fun d => { d with inq := [.vec [5]] }
    let full := s fun d => { d with inq := [.vec [5]], outq := List.replicate 4095 ⟨0, 0⟩ }
    let send (n : Nat) := s fun d => { d with outq := [⟨1, 1⟩], run := some { r with fired := n } }
    (core id).core.drill.run = none ∧
    (∀ t ∈ [take ⟨0, 5⟩ id, take ⟨0, 5⟩ fun d => { d with inq := List.replicate 3 (.vec []) }, take ⟨1, 0⟩ fun d => { d with asm := [5] }, take ⟨1, 0⟩ id],
      t.core.drill.run = some r ∧ t.core.drill.graph = some graph ∧ t.core.drill.stopped = false ∧ t.core.drill.frozen = false) ∧
    dlinks (take ⟨0, 5⟩ id) ⟨0, 5⟩ ∧ dlinks (take ⟨1, 0⟩ id) ⟨1, 0⟩ ∧ (take ⟨0, 5⟩ id).core.drill.vecs < 4 ∧ r.fired + (take ⟨0, 5⟩ id).core.drill.vecs < r.ops.count.toNat ∧
    4 ≤ (take ⟨0, 5⟩ fun d => { d with run := some { r with fired := 0, ops := { r.ops with count := 0 } }, inq := List.replicate 4 (.vec []) }).core.drill.vecs ∧
    stopLevel 0 = 0 ∧ (take ⟨1, 0⟩ fun d => { d with asm := [5] }).core.drill.asm.length = graph.v ∧ (take ⟨1, 0⟩ id).core.drill.asm.length ≠ graph.v ∧
    fire.core.drill.inq = [.vec [5]] ∧ fire.core.drill.outq.length + graph.w + 1 ≤ 4096 ∧ full.core.drill.inq = [.vec [5]] ∧
    4096 < full.core.drill.outq.length + graph.w + 1 ∧ graph.nodes[1]? = some 0x6000000008000000 ∧ seedKind 0x6000000008000000 = 3 ∧
    seedA 0x6000000008000000 < 1 ∧ seedOutLane 0x6000000008000000 < graph.w ∧
    (∀ n ∈ [3, 4], (send n).core.drill.outq = ⟨1, 1⟩ :: [] ∧ (send n).core.drill.frozen = false ∧ 0 < (send n).core.field.freeFrom (epEndpoint 4) ∧
      (send n).core.field.linkFrom (epEndpoint 4) = some 5 ∧ (send n).core.drill.inq = [] ∧ (send n).core.drill.run = some { r with fired := n } ∧
      (n = r.ops.count.toNat ↔ n = 4)) ∧
    (core id).core.drill.outq = [] := by decide +kernel

/-! ## Witnesses: the attention pipeline, the matrix node -/

/-- An ATTN descriptor at 0x3000: one row of 8 BF16 elements, 8 direct keys in blocks of 4, Q, output, records, K and V at 0x4000 to 0x8000. -/
def attnWords : List Nat :=
  [0x4000, 0x5000, 0x6000, 0x7000, 0x8000, 0, 0, 0, 0, 8 * 2 ^ 40 + 3 * 2 ^ 34, 12 * 2 ^ 14 + 12 * 2 ^ 9 + 12 * 2 ^ 4, 0, 0, 0, 0, 0]

def withAttn (s : State) : State := { s with mem := memPut s.mem 0x3000 (attnWords.flatMap (toBytes 8)) }

/-- A SCORE image at 0x9000 that sends its score on, and a header that is none at 0x9100. -/
def withStage (s : State) : State :=
  { s with mem := memPut s.mem 0x9000 (toBytes 8 0x0001000000010000 ++ toBytes 8 0x0000000001000000 ++ toBytes 8 0x02E0006800000000) }

theorem wit_AttentionStartResults :
    let s := withStage (withAttn (atCtx 0x4A id))
    let p : Stage := ⟨1, blockOfWords [0x0000000001000000, 0x02E0006800000000]⟩
    let t : Tag := ⟨some 1, 9, false, 0x41, false⟩
    let d : Desc := ⟨Vector.ofFn fun k => BitVec.ofNat 64 (attnWords.getD k.val 0)⟩
    let one (seq : Nat) : Desc := ⟨(d.w.set 10 (BitVec.ofNat 64 (12 * 2 ^ 14 + 12 * 2 ^ 9 + 12 * 2 ^ 4 + 2 ^ 20))).set 3 (BitVec.ofNat 64 seq)⟩
    s.passes hdr 0x40 ∧ s.passes hdr 0x41 ∧ (s.imageWords true 0x9000 2).1 = ([0x0001000000010000, 0x0000000001000000], []) ∧
    (s.imageWords true 0x9010 1).1 = ([0x02E0006800000000], []) ∧ stageWordOk 0x0001000000010000 0 = true ∧
    p.blk.check (some (0, p.declared)) = none ∧ stageWordOk 0x0001000000010000 1 = false ∧
    (Block.check ⟨1, []⟩ (some (0, 0))).isSome = true ∧ (∃ c a u, s.apList t (2 ^ 40) 8 16 = .fault c a u) ∧
    (∃ ws u, s.apList t 0x3000 8 16 = .ok ws u) ∧ d.bad [0, 0, 0, 0] = false ∧ d.bad [1] = true ∧ s.core.apLinks d = none ∧ d.src ≠ 1 ∧ (one 0).src = 1 ∧ (∃ c a u, s.attnSeq t (one (2 ^ 40)) = .fault c a u) ∧
    s.core.apLinks ⟨d.w.set 10 (BitVec.ofNat 64 (12 * 2 ^ 14 + 12 * 2 ^ 9 + 12 * 2 ^ 4 + 2 ^ 23))⟩ = some 0x53 := by
  refine ⟨passes_of _ _ _ ?_, passes_of _ _ _ ?_, ?_, ?_, ?_, ?_, ?_, ?_, got_fault _ ?_, got_ok _ ?_, ?_, ?_, ?_, ?_, ?_, got_fault _ ?_, ?_⟩ <;> decide +kernel

/-- The ATTN of that descriptor under way. -/
def attn (d : List Nat) : ARun :=
  { attnRun with desc := ⟨Vector.ofFn fun k => BitVec.ofNat 64 (d.getD k.val 0)⟩, sa := 0x3F800000, todo := [0, 1] }

def attnOn (r : ARun) : State := (withAttn (atCtx 0x4A id)).modCore fun c => { c with ap := { c.ap with run := some r } }

/-- The state of a row that a block has formed. -/
def rowSt : RowSt := ⟨0x3F800000, 0x3F800000, List.replicate 8 0x3F800000⟩

/-- The words of a descriptor with bits of word 10 set. -/
def flagged (x : Nat) : List Nat := attnWords.set 10 (12 * 2 ^ 14 + 12 * 2 ^ 9 + 12 * 2 ^ 4 + x)

theorem wit_AttentionStepResults :
    let r := attn attnWords
    let s := attnOn r
    let far := attnOn (attn (attnWords.set 0 (2 ^ 40)))
    let farK := attnOn (attn (attnWords.set 3 (2 ^ 40)))
    let mask : Stage := ⟨2, ⟨0, []⟩⟩
    let c := { r with stages := r.stages.set 1 (some mask) }
    let under (w : List Nat) (x : BRun) : ARun := { attn w with blks := [x] }
    let wide := attnWords.set 9 (8 * 2 ^ 40 + 3 * 2 ^ 34 + 16 * 2 ^ 29)
    let two (q : Nat) := attn ((flagged (2 ^ 21)).set 0 q)
    let m := { r with states := [(0, 0, rowSt), (1, 0, rowSt)], todo := [], fresh := [(0, 0), (1, 0)] }
    let e := { r with states := [(2, 0, rowSt)], todo := [] }
    let q := attn (flagged (2 ^ 23))
    let qs (tok : Token) (r : ARun) := (attnOn r).modField fun f => { f with links := [{ lk (nodeEndpoint 0 0 0 4) (epEndpoint 2) 12 with buf := [(tok, 1)] }] }
    let o := { attn (flagged (2 ^ 22)) with out := [⟨0, 5⟩], todo := [], rows := 1 }
    let os := (attnOn o).modField fun f => { f with links := [lk (epEndpoint 2) (nodeEndpoint 0 0 0 4) 12] }
    let turn (s : State) : Bool := s.core.mat.portOpen true && (!s.core.mat.lastAp || !s.core.takeable false)
    let held := { under attnWords ⟨0, [], none, none⟩ with offer := some 1 }
    ((core id).core.ap.run = none ∧ s.core.ap.run = some r ∧ s.core.ap.stopped = false ∧ s.core.ap.frozen = false ∧ 0 ∈ r.todo ∧ r.desc.fixo = false ∧
      r.desc.src ≠ 2 ∧ r.blks = [] ∧ (match (far.attnQ (attn (attnWords.set 0 (2 ^ 40)))).1 with | .error (some (_, _, i)) => i == 0 | _ => false) = true ∧
      (match farK.attnQ (attn (attnWords.set 3 (2 ^ 40))) with
        | (.ok r', u) => (match (gatherAt u (r'.desc.keysOf 0) fun j x => x.fetchKey r' j).1 with | .error (some _) => true | _ => false) | _ => false) = true ∧
      (match s.attnQ r with
        | (.ok r', u) => (match (gatherAt u (r'.desc.keysOf 0) fun j x => x.fetchKey r' j).1 with | .ok ks => ks.length == 4 | _ => false) | _ => false) = true) ∧
    ((∀ x ∈ [(attnWords, (⟨0, [], none, none⟩ : BRun)), (attnWords, ⟨0, [], some [], none⟩), (wide, ⟨0, [], some [], none⟩), (wide, ⟨0, [], some [], some []⟩)],
        (attnOn (under x.1 x.2)).core.ap.run = some (under x.1 x.2) ∧ turn (attnOn (under x.1 x.2)) = true ∧ 0 ∈ (under x.1 x.2).todo ∧
        (under x.1 x.2).desc.src ≠ 2 ∧ (under x.1 x.2).desc.fixo = false) ∧
      (attn wide).desc.dim = 136 ∧ (attn attnWords).desc.dim = 8 ∧ turn (s.modMat fun m => { m with frozen := true }) = false) ∧
    ((two 0x4000).desc.src = 2 ∧ (two 0x4000).desc.fixo = false ∧ (match ((attnOn (two 0x4000)).mergeStates (two 0x4000)).1 with | .ok xs => xs.length == 1 | _ => false) = true ∧
      (match ((attnOn (two (2 ^ 40))).mergeStates (two (2 ^ 40))).1 with | .error (some _) => true | _ => false) = true) ∧
    (c.stages[1] = some mask ∧ mask.declared.getLsbD 0 = false ∧ mask.declared.getLsbD 4 = false) ∧
    (match s.attnQ c with
      | (.ok r', u) => (match (gatherAt u (r'.desc.keysOf 0) fun j x => (x.attnKey r' j).bind fun y z => Got.ok (j, y) z).1 with | .ok _ => true | _ => false)
      | _ => false) = true ∧
    (m.states.find? (fun z => z.1 == 0 && z.2.1 == 0) = some (0, 0, rowSt) ∧ m.states.find? (fun z => z.1 == 1 && z.2.1 == 0) = some (1, 0, rowSt) ∧ m.stages[2] = none) ∧
    ((attnOn held).core.ap.run = some held ∧ held.offer = some 1 ∧ 0 ∉ r.begun ∧ r.offer ≠ some 0 ∧ 0 ∈ ({ r with begun := [0] } : ARun).begun) ∧
    (r.ready = none ∧ e.ready = some rowSt ∧ ((attnOn e).emitStores e [(0x5000, [0, 0]), (0x6000, toBytes 8 0)] 3).2 = none) ∧
    (q.desc.qport = true ∧ q.qend = false ∧ (qs ⟨0, 5⟩ q).core.field.linkTo (epEndpoint 2) = some 0 ∧
      (((qs ⟨0, 5⟩ q).core.field.links[0]?).any fun l => (l.buf.all fun b => decide (1 ≤ b.2)) && l.head == some ⟨0, 5⟩) = true ∧
      q.q.length ≠ q.desc.rows ∧ q.qin.length ≠ q.desc.dim ∧ ({ q with qin := List.replicate 8 0 } : ARun).qin.length = q.desc.dim ∧ stopLevel 0 = 0) ∧
    s.core.field.freeFrom (epEndpoint 2) = 0 ∧ o.out = ⟨0, 5⟩ :: [] ∧ 0 < os.core.field.freeFrom (epEndpoint 2) ∧
    os.core.field.linkFrom (epEndpoint 2) = some 0 ∧ o.desc.rows ≤ o.rows ∧ o.desc.qport = false := by
  refine ⟨?_, ?_, ?_, ?_, ?_, ?_, ?_, ?_, ?_⟩ <;> decide +kernel

/-- A sequence of 5 positions at 0x4000 on one node at 0x5000, its page table at 0x6000 with a page at 0x8000; format BF16, 8 elements. -/
def withSeq (refs len used : Nat) (s : State) : State :=
  { s with mem := memPut (memPut (memPut s.mem 0x4000 ([0x5000, 0xC000, len, used, 4, 12, 0, 0].flatMap (toBytes 8))) 0x5000
      ([0, 0x6000, len * 2 ^ 32, refs, 0, 0, 0, 0].flatMap (toBytes 8))) 0x6000 (toBytes 8 0x8000) }

/-- Two journal entries of that sequence at 0xC000, for the page's slots 3 and 4. -/
def withJournal (s : State) : State :=
  { s with mem := memPut (memPut s.mem 0xC000 ([0x8000, 3, 3, 0x5000].flatMap (toBytes 8))) 0xC040 ([0x8000, 4, 4, 0x5000].flatMap (toBytes 8)) }

/-- A node at 0x5800, a child of the one at 0x5000 or a root. -/
def withNode (parent : Nat) (s : State) : State := { s with mem := memPut s.mem 0x5800 ([parent, 0x7000, 0, 0, 0, 0, 0, 0].flatMap (toBytes 8)) }

/-- A kv command of 1 token from 0xA000. -/
def kv (op : BitVec 8) (src : Int) (flag : Bool) (n : Nat) : KvRun := ⟨⟨some 1, 9, false, op, false⟩, 0x4000, src, 1, flag, 0, n⟩

/-- Each form of a kv command whose reads and writes all succeed; whether it is then done. -/
theorem wit_KvCommandsComplete :
    let s := withJournal (withSeq 1 5 2 (atCtx 0x4A id))
    let done (s : State) (r : KvRun) : Option Bool := match (s.modAp fun a => { a with kv := some r }).kvStep r with | .ok x _ => some x.1 | _ => none
    let seq := { kv 0x42 0x5800 false 0 with cnt := 0 }
    let jr (n : Nat) (mk : Bool) := { kv 0x47 0 mk n with cnt := 0 }
    (∀ p ∈ [0, 0x5000], (withNode p s).passes hdr 0x42 ∧ done (withNode p s) seq = some true) ∧
    (∀ j ∈ [false, true], done s (kv 0x43 0xA000 j 0) = some true ∧ done s { kv 0x43 0xA000 j 0 with cnt := 2 } = some false) ∧
    (match s.apList seq.tag 0xA000 2 32 with | .ok ws _ => ws != [] | _ => false) = true ∧
    done s { kv 0x45 0 false 0 with cnt := 0 } = some true ∧ done s { kv 0x46 0 false 0 with cnt := 0 } = some true ∧
    (match s.readSeq seq.tag 0x4000 with | .ok q u => q.used == 2 && q.mark == 0 && [0, 1].all fun n => (u.strayEntry (jr n false) q q.jbase.toInt n).isNone | _ => false) = true ∧
    done s (jr 2 false) = some true ∧ done s (jr 1 false) = some true ∧ done s (jr 0 false) = some false ∧ done s (jr 0 true) = some false := by
  refine ⟨fun p h => ⟨passes_of _ _ _ ?_, ?_⟩, ?_⟩
  · revert p; decide +kernel
  · revert p; decide +kernel
  · decide +kernel

theorem wit_KvCommandResults :
    let s := withSeq 1 5 0 (atCtx 0x4A id)
    let b := s.modAp fun a => { a with stopped := true }
    let k := s.modAp fun a => { a with kv := some (kv 0x43 0xA000 false 0) }
    (∀ op ∈ ([0x42, 0x43, 0x44, 0x45, 0x46, 0x47] : List (BitVec 8)), s.passes hdr op) ∧ s.core.ap.stopped = false ∧ s.core.ap.frozen = false ∧
    b.core.ap.stopped = true ∧ b.passes hdr 0x42 ∧
    (∃ x u, k.kvStep (kv 0x43 0xA000 false 0) = .ok x u) ∧ (∃ c a u, k.kvStep (kv 0x43 (2 ^ 40) false 0) = .fault c a u) ∧
    k.core.ap.start = none ∧ k.core.ap.kv = some (kv 0x43 0xA000 false 0) ∧ s.core.ap.kv = none := by
  refine ⟨?_, ?_, ?_, ?_, passes_of _ _ _ ?_, got_ok _ ?_, got_fault _ ?_, ?_⟩
  · intro op h; refine passes_of _ _ _ ?_; revert op; decide +kernel
  all_goals decide +kernel

theorem wit_KvStepResults :
    let s (refs len used : Nat) := withSeq refs len used (atCtx 0x4A id)
    let t : Tag := (kv 0x43 0xA000 false 0).tag
    let leaf (refs len : Nat) : Bool := match (s refs len 0).readSeq t 0x4000 with
      | .ok q u => (match u.readNode t q.leaf.toInt with | .ok n _ => n.refs == refs && n.len == len | _ => false) | _ => false
    let fresh : State := { s 1 5 0 with mem := memPut (s 1 5 0).mem 0x5800 ([0x5000, 0x7000, 0, 0, 0, 0, 0, 0].flatMap (toBytes 8)) }
    leaf 1 5 = true ∧ leaf 2 5 = true ∧ leaf 1 4096 = true ∧
    (match (s 1 5 0).readSeq t 0x4000 with
      | .ok q u => (match u.seqPath t q with | .ok p v => (match v.slotOf t (pathParts p) q.len with | .ok x _ => x == (0x8000, 5) | _ => false) | _ => false)
      | _ => false) = true ∧
    (match fresh.freshNode t 0x5800 with
      | .ok n u => (match u.readPath t n.parent 15 [] with | .ok p _ => p.length == 1 | _ => false) | _ => false) = true ∧
    (∃ c a u, (s 1 5 0).freshNode t (2 ^ 40) = .fault c a u) ∧
    (∃ x u, fresh.kvStep { kv 0x42 0x5800 false 0 with desc := 0x4000 } = .ok x u) ∧
    (∃ x u, (s 1 5 0).kvStep (kv 0x43 0xA000 false 0) = .ok x u) ∧ (∃ ws u, (s 1 5 0).apList t 0xA000 2 32 = .ok ws u) ∧
    (∃ q u, (s 1 5 2).readDesc t 0x4000 = .ok q u) ∧ (∃ x u, (s 1 5 2).kvStep (kv 0x45 0 false 0) = .ok x u) ∧
    (∃ x u, (s 1 5 2).kvStep (kv 0x47 0 false 2) = .ok x u) ∧ (∃ c a u, (s 1 5 2).kvStep (kv 0x47 0 false 3) = .fault c a u) ∧
    (match (s 1 5 4).readSeq t 0x4000 with | .ok q u => q.used == 4 && q.cap == 4 && (u.strayEntry (kv 0x47 0 false 0) q q.jbase.toInt 0).isSome | _ => false) = true ∧
    (match (s 1 5 0).xlateNew .store t.user 0x5018 with | (.ok x, v) => !x.ext.once && x.pa == 0x5018 && !v.heldErr2 (0x5018 / 8) | _ => false) = true := by
  refine ⟨?_, ?_, ?_, ?_, ?_, got_fault _ ?_, got_ok _ ?_, got_ok _ ?_, got_ok _ ?_, got_ok _ ?_, got_ok _ ?_, got_ok _ ?_, got_fault _ ?_, ?_⟩ <;> decide +kernel

/-- The matrix node with 16 banks of MAT and a link to ep0 that holds a token; tl9 is its timeline. -/
def matrixAt (tok : Token) (f : Matrix → Matrix) : State :=
  (roomed (core fun c => { c with
    on := { c.on with tlmap := c.on.tlmap.set 9 0xC8 }
    field := { field with links := [{ lk (nodeEndpoint 0 0 0 0) (epEndpoint 0) 1 with buf := [(tok, 1)] }, lk (epEndpoint 1) (nodeEndpoint 0 0 0 1) 13] } })).modMat f

/-- A token of one row, one column and 32 coordinates of E4M3. -/
def tile (acc : Bool) : MTok := ⟨0, 0, 0, acc, 0, 0, 8, 8, 0⟩

/-- Token r in the array of a port, with a drain of one element to ep1 or to MAT, or a sum that stays. -/
def mrun (ap drain tomat : Bool) : MRun :=
  ⟨ap, 1, 1, drain, tomat, if drain then [.elem 5, .stop 1 1] else [], 0, 64, 13, 0, 1, 1, false, 0, [], none⟩

/-- A token of ep0 that has been taken, its passes still to come. -/
def passing (s : State) : MRun := { mrun false false false with pend := some ⟨1, tile true, 0, 0, 0, 0, [(s.core.cellar.bytes, s.core.loft.bytes)]⟩ }

theorem wit_MatrixTakeResults :
    let good := matrixAt ⟨0, 0x0400001002020000⟩ id
    let w := matrixAt ⟨0, 0⟩ fun m => { m with ep := ⟨true, 1, 1, false, [0]⟩ }
    let pitch := matrixAt ⟨0, 0⟩ fun m => { m with mawin := 2 ^ 36 }
    let wait := matrixAt ⟨0, 0⟩ fun m => { m with dq := List.replicate 1024 (some (0, 1)) }
    let both := (matrixAt ⟨0, 0⟩ fun m => { m with lastAp := false }).modAp fun a => { a with toks := [0] }
    let pend := matrixAt ⟨0, 0x0400001002020000⟩ fun m => { m with runs := [passing good] }
    let t := tile true
    (∀ s ∈ [good, w, pitch, wait, both, pend], s.core.mat.taking = false ∧ s.core.field.linkTo (epEndpoint 0) = some 0 ∧
      (s.core.field.links[0]?).any (fun l => l.buf.all fun b => decide (1 ≤ b.2)) = true) ∧
    (∀ s ∈ [good, w, pitch, wait, both], s.core.mat.runs = []) ∧
    good.portHead (epEndpoint 0) = some ⟨0, 0x0400001002020000⟩ ∧ good.core.mat.portOpen false = true ∧ good.core.takeable true = false ∧
    (∀ op ∈ [1, 2, 3, 4, 7], good.core.tokenBad false op t = false ∧ good.core.tokenWaits t = false) ∧ good.core.tokenBad false 0 t = true ∧
    good.core.tokenBad false 8 t = true ∧ (tokenOf ((8 : BitVec 6) ++ (0 : BitVec 58))).1 = 8 ∧
    w.core.tokenBad false 5 ⟨0, 0, 0, false, 0, 0, 0, 0, 0⟩ = false ∧ w.core.tokenWaits ⟨0, 0, 0, false, 0, 0, 0, 0, 0⟩ = false ∧ pitch.core.tokenBad false 6 t = false ∧ wait.core.tokenWaits (tile false) = true ∧
    both.core.mat.lastAp = false ∧ both.core.takeable true = true ∧
    (let held := good.modAp fun a => { a with run := some { attnRun with offer := some 0 } }; (held.core.mat.portOpen true && !held.core.ap.stopped && !held.core.ap.frozen && held.core.ap.run.any fun r => r.offer.isSome) = true) ∧
    (pend.core.mat.portOpen false = true ∧ (pend.core.mat.runs.countP fun r => r.pend.isSome) ≤ 1 ∧ (pend.core.mat.runs.findIdx? fun r => r.pend.isSome) = some 0 ∧
      pend.core.mat.runs[0]? = some (passing good) ∧ (passing good).pend = some ⟨1, tile true, 0, 0, 0, 0, [(pend.core.cellar.bytes, pend.core.loft.bytes)]⟩) := by
  decide +kernel

/-- The passes of MMA over zeros end with no fault; over an FW8 row that has no bytes they fault. -/
theorem wit_MatrixPasses :
    let s := matrixAt ⟨0, 0⟩ id
    let t := tile true
    let rows (t : MTok) (s : State) := (List.range t.rows).map (s.core.rowStrm s.fenv 0 1 t)
    let cols (t : MTok) (s : State) := (List.range t.cols).map (s.core.colStrm s.fenv 1 t)
    let reads (t : MTok) (s : State) : List RowRead := (rows t s).map fun r => (r, cols t s)
    firstFault 1 (chunkOf t.fa.toNat) t.depth (reads t s) = none ∧
    (firstFault 1 (chunkOf 10) t.depth (reads { t with fa := 10 } s)).isSome = true := by decide +kernel

theorem wit_MatrixTokenComplete :
    let s (ap d t : Bool) := matrixAt ⟨1, 0⟩ fun m => { m with runs := [mrun ap d t] }
    let hurt (x : State) : State := x.modCellar fun c => { c with err2 := [x.core.cellar.queueBase / 8] }
    let p := matrixAt ⟨1, 0⟩ fun m => { m with runs := [passing (matrixAt ⟨1, 0⟩ id)] }
    (∀ e ∈ [(false, false, false), (false, true, false), (false, true, true), (true, true, false)],
      ((s e.1 e.2.1 e.2.2).core.mat.runs.find? fun r => r.ap == e.1) = some (mrun e.1 e.2.1 e.2.2) ∧ (s e.1 e.2.1 e.2.2).core.mat.frozen = false) ∧
    (((p.core.mat.runs.find? fun r => r.ap == false).any fun r => r.pend.isSome) = true ∧
      ((p.matPass.core.mat.runs.find? fun x => x.ap == false && x.take == 1).any fun r => r.pend.isNone) = true) ∧
    (match ((s false true true).modMat fun m => { m with runs := [] }).tomatRows (mrun false true true) 1 0 0 with | (_, .ok f) => f == 0 | _ => false) = true ∧
    (match ((hurt (s false true true)).modMat fun m => { m with runs := [] }).tomatRows { mrun false true true with off := 15 * 65536 } 1 0 0 with | (_, .error e) => e == (0, 0) | _ => false) = true ∧
    (∀ x ∈ [s false true false, hurt (s false true false)], (match x.core.cellar.enqueue 0 (mrun false true false).elems with
      | .ok c => x.core.cellar.err2 == [] && memNat c.bytes x.core.cellar.queueBase 4 == 5 | .error _ => x.core.cellar.err2 != []) = true) := by decide +kernel

theorem wit_MatrixCompletionResults :
    let q (x : Option (Nat × Nat)) := matrixAt ⟨1, 0⟩ fun m => { m with dq := [x], closes := [(1, 1, 0)] }
    let hurt (x : State) : State := x.modCellar fun c => { c with err2 := [x.core.cellar.queueBase / 8] }
    let ctl (t : Token) := matrixAt t id
    (matrixAt ⟨0, 0⟩ id).core.mat.runs.find? (fun r => r.ap == true) = none ∧ (matrixAt ⟨0, 0⟩ id).core.mat.dq = [] ∧
    (∀ x ∈ [none, some (1, 1), some (0, 1)], (q x).core.mat.dq = x :: [] ∧ (q x).core.mat.frozen = false ∧ 0 < (q x).core.field.freeFrom (epEndpoint 1) ∧
      (q x).core.field.linkFrom (epEndpoint 1) = some 1 ∧ (q x).core.mat.closes = (1, 1, 0) :: [] ∧
      (q x).core.cellar.err2.contains (((q x).core.cellar.queueBase + 4 * (q x).core.mat.qpos) / 8) = false ∧
      (hurt (q x)).core.cellar.err2.contains (((q x).core.cellar.queueBase + 4 * (q x).core.mat.qpos) / 8) = true) ∧
    (∀ t ∈ [⟨1, 0⟩, drainToken, eosToken, (⟨2, 0⟩ : Token)], (ctl t).core.mat.portOpen false = true ∧ (ctl t).core.field.linkTo (epEndpoint 0) = some 0 ∧
      ((ctl t).core.field.links[0]?).any (fun l => (l.buf.all fun b => decide (1 ≤ b.2)) && l.head == some t) = true ∧ t.kind ≠ 0) ∧
    (core id).portHead (epEndpoint 0) = none := by decide +kernel

theorem wit_AccumulatorResults :
    let d (a : Acc) : Node := { summer 0 with acc := some a }
    let f (a : Acc) (t : List Token) : Field :=
      { field with
        regions := .replicate 16 { Region.reset with st := .armed, resident := [0] }, nodes := [d a]
        links := [{ lk (headEndpoint 1) (nodeEndpoint 0 0 0 0) 13 with buf := t.map fun x => (x, 1) }, lk (nodeEndpoint 0 0 0 0) (headEndpoint 33) 13] }
    let s (a : Acc) (t : List Token) := core fun c => { c with field := f a t }
    let a (j i got : Nat) : Acc := ⟨3, 2, 2, 1, [5, 6], i, j, got, []⟩
    let x : List (Acc × List Token) := [({ a 0 0 0 with out := [⟨0, 5⟩] }, []), (a 0 0 0, []), (a 1 0 0, [⟨0, 5⟩]), (a 0 0 0, [⟨0, 5⟩]), (a 1 1 0, [⟨1, 0⟩]),
      (a 1 0 0, [⟨1, 0⟩]), (a 1 1 0, [⟨1, 1⟩]), (a 1 1 1, [⟨1, 1⟩])]
    (∀ e ∈ x,
      ((s e.1 e.2).core.field.nodes.findIdx? fun d => match d.acc with | some a => a.num == (3 : BitVec 4) | none => false) = some 0 ∧
      (s e.1 e.2).core.field.nodes[0]? = some (d e.1) ∧ (d e.1).acc = some e.1 ∧ ((s e.1 e.2).core.field.region (d e.1).region).st = .armed ∧ (d e.1).stopped = false ∧
      ((s e.1 e.2).core.field.region (d e.1).region).resident.contains (d e.1).ctx = true ∧ (d e.1).eosIn.contains 0 = false ∧
      (s e.1 e.2).core.field.linkTo ((d e.1).ep 0) = some 0 ∧ (s e.1 e.2).core.field.linkFrom ((d e.1).ep 0) = some 1 ∧
      ((e.1.out ≠ [] ∨ e.2 ≠ []) → (s e.1 e.2).canFire (d e.1) = true ∧ (s e.1 e.2).selected (d e.1).region = some (d e.1).ctx) ∧
      0 < (s e.1 e.2).core.field.freeFrom ((d e.1).ep 0) ∧ ((s e.1 e.2).core.field.links[0]?).any (fun l => !l.expands && l.head == e.2.head?) = true) ∧
    (s (a 0 0 0) []).core.field.nodeIn (d (a 0 0 0)) 0 = [] ∧ ((core fun c => { c with field := { field with nodes := [summer 0] } }).core.field.region 0).resident.contains 0 = false ∧
    stopLevel 0 = 0 ∧ stopLevel 1 = 1 ∧ (a 1 1 1).sums.length = 2 * 1 := by decide +kernel

/-- A RECV.f32 from li0 to lo0. -/
def recv : BInstr := ⟨2, 0xE0, 0, 13, 0, 0⟩

/-- A node of context 0 with a block; li k comes from in1 with tokens a, li 1 with tokens b, and lo0 goes to out1. -/
def nodeAt (d : Node) (a b : List Token) (g : Region → Region) : State :=
  core fun c => { c with field := { field with
    regions := .replicate 16 (g { Region.reset with st := .armed, resident := [0], bound := [0] }), nodes := [d]
    links := [{ lk (headEndpoint 1) (nodeEndpoint 0 0 0 0) 13 with buf := a.map fun x => (x, 1) },
      { lk (headEndpoint 2) (nodeEndpoint 0 0 0 1) 13 with buf := b.map fun x => (x, 1) }, lk (nodeEndpoint 0 0 0 0) (headEndpoint 33) 13] } }

/-- A node with one input and one output that passes its element on. -/
def pass (policy : Nat) : Node := { adder with blk := ⟨BitVec.ofNat 64 (0x0000010001000000 + policy * 2 ^ 22), [recv]⟩ }

theorem wit_FiringResults :
    let ok := nodeAt (pass 0) [⟨0, 5⟩] [] id
    let two : Node := { adder with blk := ⟨0x0000020001000000, [recv, { recv with op := 2 }]⟩ }
    let wait : Node := { adder with blk := ⟨0x0400010001800000, [⟨4, 0xC1, 0, 18, 0, 1⟩, ⟨2, 0xE0, 0, 13, 1, 0⟩]⟩ }
    let wait2 : Node := { adder with blk := ⟨0x0400010001800000, [⟨4, 0xC1, 0xC2, 18, 0, 1⟩, ⟨2, 0xE0, 0, 13, 1, 0⟩, ⟨2, 0, 0, 13, 1, 0⟩]⟩ }
    let started (d : Node) (ts : List Token) : Firing := d.blk.fire ((nodeAt d ts [] id).nodeEnv d 0) d.red d.replay
    let waits : Node := { wait with fir := [started wait []] }
    let com : Node := { pass 0 with fir := [started (pass 0) [⟨0, 5⟩]] }
    let twice : Node := { adder with blk := ⟨0x1400020001800000, [{ recv with ta := 0x82 }, { recv with ta := 0x82 }, ⟨5, 0xE0, 0, 13, 0, 0⟩]⟩ }
    let tw := nodeAt twice [⟨0, 5⟩, ⟨0, 5⟩] [] id
    let ws (t : Token) := nodeAt waits [t] [] id
    let cs := nodeAt com [⟨0, 5⟩] [] id
    let d := pass 0
    d.region < 16 ∧ ok.core.field.nodes[0]? = some d ∧ ok.core.field.active d = true ∧ ok.core.field.badCtl d = false ∧ d.mayStart ok.cyc = true ∧
    d.strayStop (ok.nodeEnv d d.fir.length) = false ∧ ok.core.field.stopsReady d = false ∧ ok.canFire d = true ∧ ok.selected d.region = some d.ctx ∧
    (d.blk.fire (ok.nodeEnv d d.fir.length) d.red d.replay).fault = none ∧
    (nodeAt d [⟨3, 7⟩] [] id).core.field.badCtl d = true ∧
    (nodeAt two [⟨0, 5⟩, ⟨1, 0⟩] [] id).core.field.active two = true ∧ two.mayStart 0 = true ∧ (nodeAt two [⟨0, 5⟩, ⟨1, 0⟩] [] id).core.field.badCtl two = false ∧
    two.strayStop ((nodeAt two [⟨0, 5⟩, ⟨1, 0⟩] [] id).nodeEnv two 0) = true ∧ (nodeAt d [] [] id).canFire d = false ∧
    (nodeAt d [] [] fun g => { g with st := .unarmed }).core.field.active d = false ∧
    (cs.core.field.nodes[0]? = some com ∧ com.fir = started (pass 0) [⟨0, 5⟩] :: [] ∧ (cs.core.field.region com.region).st = .armed ∧
      (started (pass 0) [⟨0, 5⟩]).opens = [] ∧ (started (pass 0) [⟨0, 5⟩]).outs = [(0, ⟨0, 5⟩)] ∧ (⟨0, 5⟩ : Token) ≠ eosToken) ∧
    (waits.fir = started wait [] :: [] ∧ (started wait []).opens ≠ [] ∧ (ws ⟨0, 5⟩).core.field.nodes[0]? = some waits ∧
      (ws ⟨0, 5⟩).core.field.active waits = true ∧ ((started wait []).resume wait.blk ((ws ⟨0, 5⟩).nodeEnv waits 0)).fault = none ∧
      ((started wait2 []).resume wait2.blk ((nodeAt wait2 [⟨0, 5⟩, ⟨0, 6⟩] [] id).nodeEnv wait2 0)).fault.isSome = true) ∧ tw.core.field.nodes[0]? = some twice ∧
    tw.core.field.active twice = true ∧ tw.core.field.badCtl twice = false ∧ twice.mayStart tw.cyc = true ∧ twice.strayStop (tw.nodeEnv twice 0) = false ∧
    tw.core.field.stopsReady twice = false ∧ tw.canFire twice = true ∧ tw.selected 0 = some twice.ctx ∧
    (twice.blk.fire (tw.nodeEnv twice twice.fir.length) twice.red twice.replay).fault.isSome = true := by
  decide +kernel

/-- A walker node (MERGE op 0x61, JOIN op 0x62) over li0 and li1. -/
def walk (op : BitVec 8) (mode : Nat) : Node := { adder with blk := ⟨0x0400050001800000, [⟨op, 0xE0, 0, 13, 0, BitVec.ofNat 32 (8 + mode * 64)⟩]⟩ }

/-- What the clauses on a node's tokens ask of every state here: links that expand nothing, the node at its place and active, room at its outputs. -/
def plain (d : Node) (s : State) : Bool :=
  (List.range 3).all (fun i => (s.core.field.links[i]?).any fun l => !l.expands && l.buf.all fun b => decide (1 ≤ b.2)) &&
    s.core.field.nodes[0]? == some d && s.core.field.active d && s.core.field.roomEach d d.blk.outs

def st (n : Nat) : Token := ⟨1, BitVec.ofNat 64 n⟩

theorem wit_ControlTokenResults :
    let two : Node := { adder with blk := ⟨0x0800050001000000, [recv, { recv with imm := 1 }]⟩ }
    let ok := nodeAt two [st 0] [st 0] id
    let no := nodeAt two [st 0] [st 1] id
    let ab := nodeAt (pass 1) [st 0] [] id
    let eos := nodeAt two [eosToken] [eosToken] id
    let drain := nodeAt two [drainToken] [drainToken] id
    let bad := nodeAt two [⟨3, 7⟩] [] id
    (plain two ok = true ∧ ok.core.field.stopsReady two = true ∧ ok.core.field.heads two = st 0 :: [st 0] ∧ ok.canFire two = true ∧
      ok.selected two.region = some two.ctx) ∧
    (plain two no = true ∧ no.core.field.stopsReady two = true ∧ no.core.field.heads two = st 0 :: [st 1] ∧ stopLevel 1 ≠ stopLevel 0) ∧
    (plain two eos = true ∧ eos.core.field.stopsReady two = false ∧ (eos.core.field.nodeIn two 2)[two.held 2]? = none) ∧
    (plain (pass 1) ab = true ∧ (ab.core.field.nodeIn (pass 1) (0 : BitVec 3).toNat)[(pass 1).held 0]? = some (st 0) ∧ (pass 1).blk.policy = 1 ∧
      (pass 1).blk.li 0 ≠ 0) ∧
    (two.merge = none ∧ eos.core.field.allHeads two eosToken = true ∧ eos.core.field.allHeads two drainToken = false) ∧
    (plain two drain = true ∧ drain.core.field.badCtl two = false ∧ drain.core.field.roomEach two two.drainOuts = true ∧
      drain.core.field.allHeads two drainToken = true ∧ drain.core.field.allHeads two eosToken = false) ∧
    (plain two bad = true ∧ bad.core.field.badCtl two = true ∧ two.region < 16 ∧ two.blk.join3 = none) := by decide +kernel

/-- A MERGE node that closes its loop, and a mode-3 JOIN node that closes. -/
theorem wit_LoopCloses :
    let m := walk 0x61 0
    let j := walk 0x62 3
    let w : BInstr := ⟨0x61, 0xE0, 0, 13, 0, 8⟩
    let e (d : Node) (a b : List Token) := nodeAt d a b id
    let mc := { m with closing := true }
    let ms := { m with closing := true, seen := true }
    let me := { m with eosIn := [0] }
    let c := e j [st 0] [eosToken]
    (∀ d ∈ [m, mc, ms, me], d.merge = some w ∧ d.fir = [] ∧ d.blk.join3 = none) ∧ w.ib 2 0 = 0 ∧ w.ib 5 3 = 1 ∧
    (plain me (e me [] [eosToken]) = true ∧ me.eosIn.contains 0 = true ∧ ((e me [] [eosToken]).core.field.nodeIn me 1).head? = some eosToken) ∧
    (plain m (e m [⟨0, 5⟩] []) = true ∧ m.closing = false ∧ ((e m [⟨0, 5⟩] []).core.field.nodeIn m 0).head? ≠ some eosToken ∧ m.eosIn.contains 0 = false) ∧
    (plain m (e m [eosToken] []) = true ∧ ((e m [eosToken] []).core.field.nodeIn m 0).head? = some eosToken) ∧
    (plain ms (e ms [eosToken] [drainToken]) = true ∧ ((e ms [eosToken] [drainToken]).core.field.nodeIn ms 1).head? = some drainToken ∧ ms.seen = true) ∧
    (plain mc (e mc [eosToken] [drainToken]) = true ∧ ((e mc [eosToken] [drainToken]).core.field.nodeIn mc 1).head? = some drainToken ∧
      mc.seen = false ∧ mc.ep 0 ≠ mc.ep 1) ∧
    (plain j c = true ∧ j.blk.join3 = some ⟨0x62, 0xE0, 0, 13, 0, 200⟩ ∧ j.fir = [] ∧ j.ep 0 ≠ j.ep 1 ∧ c.core.field.nodeIn j 0 = [st 0] ∧ (st 0).kind = 1) ∧
    (c.core.field.linkTo (j.ep 0) = some 0 ∧ (c.core.field.links[0]?).any (fun l => l.fly.isEmpty) = true ∧
      (c.core.field.nodeIn j 1).head? = some eosToken ∧ c.core.field.badCtl j = false ∧ j.strayStop (c.nodeEnv j 0) = false) := by decide +kernel

/-- The lead of a CFG packet. -/
def lead (hops kind body : Nat) : Word := BitVec.ofNat 64 (2 * 2 ^ 62 + hops * 2 ^ 54 + body * 2 ^ 36 + kind * 2 ^ 32)

/-- An idle node that takes a packet: its lead, the words so far, and how many are to come. -/
def idler (p : Option Packet) : Node := { pass 0 with eosIn := [0], packet := p }

theorem wit_PacketAndSwapResults :
    let off : State := nodeAt (pass 0) [] [] fun g => { g with st := .unarmed }
    let s : State := { (nodeAt { pass 0 with ctx := 1 } [] [] fun g => { g with bound := [0, 1] }).modField fun f => { f with links :=
      [{ lk (headEndpoint 1) (nodeEndpoint 0 0 1 0) 13 with buf := [(⟨0, 5⟩, 1)] }, lk (nodeEndpoint 0 0 1 0) (headEndpoint 33) 13] } with cyc := 100 }
    let u : State := s.modCellar fun c => { c with areas := [⟨0, 65536, 0, 1, true⟩, ⟨65536, 65536, 3, 0, true⟩] }
    (core id).core.field.nodes[0]? = none ∧ (off.core.field.region 0).st ≠ .armed ∧
    (s.core.field.region 0).st = .armed ∧
    ((s.core.field.region 0).bound.find? fun c => !(s.core.field.region 0).resident.contains c && s.readyCtx 0 c) = some 1 ∧
    (s.core.field.region 0).resident = [0] ∧ (s.core.field.region 0).pinned.contains 0 = false ∧ s.readyCtx 0 0 = false ∧
    (s.core.field.region 0).lastReady 0 + 64 ≤ s.cyc ∧
    ((u.core.cellar.areas.find? fun a => a.owner == 0 && a.ctx == 1) = some ⟨0, 65536, 0, 1, true⟩ ∧
      (u.core.cellar.areas.find? fun a => a.owner == 0 && a.ctx == 0) = none ∧
      ∀ d ∈ u.core.field.nodes, u.core.cellar.bad (256 * plotIndex d.y d.x) 256 = false) ∧ (nodeAt (pass 0) [] [] id).core.field.packetReady (pass 0) = false := by decide +kernel

/-- Whether the idle node of a packet under way has a CFG word at its input and room at its output. -/
def cfgAt (p : Option Packet) (w : Word) : Bool :=
  let d := idler p
  let f := (nodeAt d [⟨2, w⟩] [] id).core.field
  f.nodes[0]? == some d && f.packetReady d && (f.availTo (d.ep 0)).head? == some ⟨2, w⟩ && f.freeFrom (d.ep 0) != 0 &&
  (List.range 3).all fun i => (f.links[i]?).any fun l => !l.expands && l.buf.all fun b => decide (1 ≤ b.2)

theorem wit_Packets :
    (idler none).region < 16 ∧ cfgAt none 0 = true ∧ cfgAt none (lead 0 0 2) = true ∧ cfgAt none (lead 1 0 2) = true ∧
    cfgAt (some ⟨0, lead 0 0 2, [], 2⟩) 0x0000010001000000 = true ∧
    cfgAt (some ⟨0, lead 0 0 2, [0x0000010001000000], 1⟩) 0x02E0006800000000 = true ∧ cfgAt (some ⟨0, lead 0 1 2, [1], 1⟩) 7 = true ∧
    cfgAt (some ⟨0, lead 0 0 2, [0], 1⟩) 0 = true ∧ cfgAt (some ⟨0, lead 1 0 2, [], 1⟩) 7 = true ∧
    ([0, lead 0 0 2, lead 1 0 2].all fun w => (nodeAt (idler none) [⟨2, w⟩] [] id).core.field.leadAt (idler none) == some (0, w)) = true := by decide +kernel

theorem wit_PacketEnds :
    let d := idler none
    let f := (nodeAt d [] [] id).core.field
    leadOk d 0 = false ∧ leadOk d (lead 0 0 2) = true ∧ leadHops (lead 0 0 2) = 0 ∧ leadOk d (lead 1 0 2) = true ∧ leadHops (lead 1 0 2) ≠ 0 ∧
    leadOut (lead 1 0 2) = 0 ∧ f.packetFault d (lead 0 0 2) [0x0000010001000000, 0x02E0006800000000] = none ∧
    f.packetFault d (lead 0 1 2) [1, 7] = none ∧ leadKind (lead 0 1 2) = 1 ∧ leadKind (lead 0 0 2) ≠ 1 ∧
    (f.packetFault d (lead 0 0 2) [0, 0]).isSome = true := by decide +kernel

/-! ## Well-formed terms -/

/-- The negated guard p0 is refused (R59). -/
theorem test_wf_guard1 : ([
    .add ⟨true, 0⟩ 0 0 0, .sub ⟨true, 0⟩ 0 0 0, .and ⟨true, 0⟩ 0 0 0, .or ⟨true, 0⟩ 0 0 0, .xor ⟨true, 0⟩ 0 0 0, .andn ⟨true, 0⟩ 0 0 0,
    .sll ⟨true, 0⟩ 0 0 0, .srl ⟨true, 0⟩ 0 0 0, .sra ⟨true, 0⟩ 0 0 0, .min ⟨true, 0⟩ 0 0 0, .max ⟨true, 0⟩ 0 0 0, .minu ⟨true, 0⟩ 0 0 0,
    .maxu ⟨true, 0⟩ 0 0 0, .addi ⟨true, 0⟩ 0 0 0, .andi ⟨true, 0⟩ 0 0 0, .ori ⟨true, 0⟩ 0 0 0, .xori ⟨true, 0⟩ 0 0 0, .slli ⟨true, 0⟩ 0 0 0,
    .srli ⟨true, 0⟩ 0 0 0, .srai ⟨true, 0⟩ 0 0 0, .mul ⟨true, 0⟩ 0 0 0, .mulh ⟨true, 0⟩ 0 0 0, .mulhu ⟨true, 0⟩ 0 0 0, .div ⟨true, 0⟩ 0 0 0,
    .divu ⟨true, 0⟩ 0 0 0, .rem ⟨true, 0⟩ 0 0 0, .remu ⟨true, 0⟩ 0 0 0, .lui ⟨true, 0⟩ 0 0, .addpc ⟨true, 0⟩ 0 0,
    .sel ⟨true, 0⟩ 0 0 0 false 0, .clz ⟨true, 0⟩ 0 0, .popc ⟨true, 0⟩ 0 0, .cmp ⟨true, 0⟩ 0 0 0 0 0, .cmpImm ⟨true, 0⟩ 0 0 0 0 0,
    .br ⟨true, 0⟩ 0, .call ⟨true, 0⟩ 0, .jmp ⟨true, 0⟩ 0 0 0, .ldS8 ⟨true, 0⟩ 0 0 0, .ldZ8 ⟨true, 0⟩ 0 0 0, .ldS16 ⟨true, 0⟩ 0 0 0,
    .ldZ16 ⟨true, 0⟩ 0 0 0, .ldS32 ⟨true, 0⟩ 0 0 0, .ldZ32 ⟨true, 0⟩ 0 0 0, .ld64 ⟨true, 0⟩ 0 0 0] : List Instr).all (fun i => !i.wf) = true := by decide +kernel

/-- The negated guard p0 is refused (R59). -/
theorem test_wf_guard2 : ([
    .st8 ⟨true, 0⟩ 0 0 0, .st16 ⟨true, 0⟩ 0 0 0, .st32 ⟨true, 0⟩ 0 0 0, .st64 ⟨true, 0⟩ 0 0 0, .fence ⟨true, 0⟩ 0, .ldaZ8 ⟨true, 0⟩ 0 0 0,
    .ldaZ16 ⟨true, 0⟩ 0 0 0, .ldaZ32 ⟨true, 0⟩ 0 0 0, .lda64 ⟨true, 0⟩ 0 0 0, .stl8 ⟨true, 0⟩ 0 0 0, .stl16 ⟨true, 0⟩ 0 0 0,
    .stl32 ⟨true, 0⟩ 0 0 0, .stl64 ⟨true, 0⟩ 0 0 0, .bar ⟨true, 0⟩ 0, .atomAdd ⟨true, 0⟩ 0 0 0 0 false, .atomAnd ⟨true, 0⟩ 0 0 0 0 false,
    .atomOr ⟨true, 0⟩ 0 0 0 0 false, .atomXor ⟨true, 0⟩ 0 0 0 0 false, .atomMin ⟨true, 0⟩ 0 0 0 0 false, .atomMax ⟨true, 0⟩ 0 0 0 0 false,
    .atomSwap ⟨true, 0⟩ 0 0 0 0 false, .atomCas ⟨true, 0⟩ 0 0 0 0 false, .clearw ⟨true, 0⟩ 0 0 0, .pres ⟨true, 0⟩ 0 0 0,
    .cmdf ⟨true, 0⟩ 0 0 0 0, .issue ⟨true, 0⟩ 0 0 0, .waitt ⟨true, 0⟩ 0 0 0, .waitc ⟨true, 0⟩ 0, .patch ⟨true, 0⟩ 0 0 0, .arm ⟨true, 0⟩ 0 0,
    .lstat ⟨true, 0⟩ 0 0, .exit ⟨true, 0⟩ 0, .exitx ⟨true, 0⟩ 0, .yield ⟨true, 0⟩ 0, .wall ⟨true, 0⟩ 0 0, .wqry ⟨true, 0⟩ 0 0,
    .stash ⟨true, 0⟩ 0 0 0, .unstash ⟨true, 0⟩ 0 0, .drain ⟨true, 0⟩ 0 0, .trap ⟨true, 0⟩, .brk ⟨true, 0⟩, .eret ⟨true, 0⟩,
    .mfcr ⟨true, 0⟩ 0 0, .mtcr ⟨true, 0⟩ 0 0] : List Instr).all (fun i => !i.wf) = true := by decide +kernel

/-- Every other check refuses a term of its own: a condition 7, a CMDF past bit 63, a timeline 16, registers that do not exist, an engine context past 0x4B, accesses of 3 bytes and a misaligned one, an order that names a core twice or core 192, codes that no fetch or encoding earns, assigned numbers. -/
theorem test_wf_others : ([
    .cmp ⟨false, 0⟩ 0 0 0 0 7, .cmpImm ⟨false, 0⟩ 0 0 0 0 7, .cmdf ⟨false, 0⟩ 0 0 32 32, .waitt ⟨false, 0⟩ 16 0 0,
    .mfcr ⟨false, 0⟩ 0 0xFFF, .mtcr ⟨false, 0⟩ 0xFFF 0, .commandComplete 0x4C 0, .onceLocationFill 0 3 0, .onceLocationFill 4 8 0,
    .hostMemoryAccess 0 3 true 0, .hostMemoryAccess 1 2 true 0, .remoteRequest 0 0 3 false 0, .remoteRequest 0 2 4 false 0,
    .admissionPass [1, 1], .admissionPass [192], .coreSelfTestDone 192 true false, .reservedEncoding [], .reservedEncoding [0x12],
    .fetchFault 0x23 0, .unassignedStreamOpcode ⟨0, 0, false⟩ 1 0, .unassignedMatrixOperation 7 0] : List Instr).all (fun i => !i.wf) = true := by
  decide +kernel

/-- Reserved encodings are refused (R59): a word of no opcode, a reserved bit, the negated guard p0. -/
theorem test_decode_refuses :
    ([0b0_000_111111_00000_00000_000000000000, 0b0_000_000000_00000_00000_00000_1111111, 0b1_000_000001_00000_00000_000000000000] : List Nat).all
      (fun w => (decodeTableWord 32 w).isNone) = true := by decide +kernel

/-! ## Witnesses: encodings and steps -/

/-- Words of each clause about reserved encodings, at the ends of their ranges. -/
theorem wit_EarnedCodes :
    let op (w : BitVec 32) := (w.extractLsb' 22 6).toNat
    let fn (w : BitVec 32) := (w.extractLsb' 0 7).toNat
    ([(13 : BitVec 32), 127].all fun w => op w == 0x00 && decide (13 ≤ fn w)) = true ∧ ([(0x02000007 : BitVec 32), 0x0200007F].all fun w => op w == 0x08 && decide (7 ≤ fn w)) = true ∧
    ([(0x01400040 : BitVec 32), 0x01C00800].all fun w => decide (5 ≤ op w) && decide (op w ≤ 7) && w.extractLsb' 6 6 != 0) = true ∧
    ([(0x02C00010 : BitVec 32), 0x02C00070].all fun w => op w == 0x0B && (w.extractLsb' 0 7).extractLsb' 4 3 != 0) = true ∧
    op 0x03000002 = 0x0C ∧ 2 ≤ fn 0x03000002 ∧ op 0x03000081 = 0x0C ∧ fn 0x03000081 < 2 ∧ (0x03000081 : BitVec 32).extractLsb' 7 5 ≠ 0 ∧
    op 0x04000008 = 0x10 ∧ ((0x04000008 : BitVec 32).extractLsb' 0 7).extractLsb' 3 3 ≠ 0 ∧
    op 0x04000007 = 0x10 ∧ ((0x04000007 : BitVec 32).extractLsb' 0 7).extractLsb' 0 3 = 7 ∧
    op 0x0C000FC1 = 0x30 ∧ 64 < ((0x0C000FC1 : BitVec 32).extractLsb' 6 6).toNat + ((0x0C000FC1 : BitVec 32).extractLsb' 0 6).toNat + 1 ∧
    crExists 0x000 = true ∧ crExists 0x39F = true ∧ (0x31F : BitVec 12) < 0x39F := by decide +kernel

theorem wit_EncodingsReadBack :
    (Instr.addi ⟨false, 0⟩ 5 3 0xFFC).wf = true ∧ encode (.addi ⟨false, 0⟩ 5 3 0xFFC) = some (.scalar 0x004A3FFC) ∧
    (Instr.kvapp ⟨6, 0, false⟩ 0x1C000 0x1C400 1 true 0).wf = true ∧
    encode (.kvapp ⟨6, 0, false⟩ 0x1C000 0x1C400 1 true 0) = some (.stream 0x43600000000038000000000007100018) ∧
    (Instr.mma ⟨127, 127, 7, false, 1, 2, 8, 10, 40⟩).wf = true ∧
    encode (.mma ⟨127, 127, 7, false, 1, 2, 8, 10, 40⟩) = some (.matrix 0x07FFF0E124280028) := by decide +kernel

theorem wit_WordsHaveOneReading :
    (match decodeScalar 0x004A3FFC with | .ok i => i == .addi ⟨false, 0⟩ 5 3 0xFFC | .error _ => false) = true := by decide +kernel

/-- A running strand in user mode at 0x2000, with a word in its page. -/
def fetching (w : Nat) (f : Cpu → Cpu) : State :=
  { strand [] 0 (fun c => f { c with pc := 0x2000 }) with mem := memPut [] 0x42000 (toBytes 4 w) }

theorem wit_StepRunsWhatComesNext :
    let s := fetching 0x004A3FFC id
    let bad := fetching 0xFFFFFFFF id
    let far := fetching 0 fun c => { c with pc := 0x7000 }
    let due := s.modFq fun f => { f with written := [(0, 0x50, true)], tail := 1 }
    let ev : State := { s with agenda := [⟨5, 3, .ev .powerUp⟩] }
    let st : State := { (atCtx 1 id).modQs fun q => { q with pairs := [(1, ⟨0x07, some 1, false, false⟩)] } with agenda := [⟨1, 0, .start 1⟩] }
    let tk : State := { matrixAt ⟨0, 0x0400001002020000⟩ id with agenda := [⟨1, 0, .take false⟩] }
    let at' (s : State) : State := ({ s with agenda := [], cur := 0 } : State).tick 1
    let fw (x : Setup) : State := { s with agenda := [⟨0, 0, .firmware x⟩] }
    let hs : State := { s with agenda := [⟨0, 0, .hostStore 0x100 [7]⟩] }
    let mb : State := { s with agenda := [⟨0, 0, .mbWrite 0 5⟩] }
    let dueBad := bad.modFq fun f => { f with written := [(0, 0x50, true)], tail := 1 }
    let full : State := { s.modFq fun f => { f with tail := 16, waiting := [⟨0x15, 4, 1, 9, true, false, false, false, 1, 2, 3, 4, 5⟩] } with agenda := [⟨1, 0, .ev (.headlandElementSend 1)⟩] }
    let both : State := far.modFq fun f => { f with written := [(0, 0x50, true)], tail := 1 }
    let turn (s : State) : State := { s with agenda := [⟨1, 0, .strand⟩] }
    ((turn s).agenda = ⟨1, 0, .strand⟩ :: [] ∧ (at' s).cpu.run = .running ∧ (at' s).core.fq.holdsStrand = false) ∧
    ((fw s.porter.setup).agenda = ⟨0, 0, .firmware s.porter.setup⟩ :: [] ∧ hs.agenda = ⟨0, 0, .hostStore 0x100 [7]⟩ :: [] ∧ mb.agenda = ⟨0, 0, .mbWrite 0 5⟩ :: []) ∧
    ((match (both.tick 1).fetchWord.1 with | .error _ => true | _ => false) = true ∧ (both.tick 1).core.fq.pending.isSome = true ∧ (both.tick 1).cpu.run = .running) ∧
    ((match (due.tick 1).fetchWord.1 with | .ok _ => true | _ => false) = true) ∧
    -- ADDI does not trap, so that the pending trap comes before it; a reserved encoding traps itself
    (let v := (due.tick 1).fetchWord.2; (match exec (.addi ⟨false, 0⟩ 5 3 0xFFC) v with | .next t => !t.cpu.nest | _ => false) = true) ∧
    (let v := (dueBad.tick 1).fetchWord.2; v.core.fq.pending.isSome = true ∧ v.cpu.nest = false ∧
      (match decodeScalar 0xFFFFFFFF with
        | .error cs => (match exec (.reservedEncoding cs) v with | .next t => t.cpu.nest && t.cpu.epc == v.pc && t.pc == t.cpu.tvec | _ => false)
        | _ => false) = true) ∧
    (full.agenda = ⟨1, 0, .ev (.headlandElementSend 1)⟩ :: [] ∧ unitOf (.headlandElementSend 1) = some 1 ∧ (at' full).core.fq.holds 1 = true) ∧
    (∀ t ∈ [s, bad, far, due], t.agenda = [] ∧ (t.tick 1).cpu.run = .running ∧ (t.tick 1).core.fq.holdsStrand = false ∧ (t.tick 1).cpu.nest = false) ∧
    (s.tick 1).core.fq.pending = none ∧ (due.tick 1).core.fq.pending.isSome = true ∧
    (match (s.tick 1).fetchWord.1 with | .ok w => w == 0x004A3FFC | _ => false) = true ∧
    (match decodeScalar 0x004A3FFC with | .ok i => i == .addi ⟨false, 0⟩ 5 3 0xFFC | _ => false) = true ∧
    (match (bad.tick 1).fetchWord.1 with | .ok w => w == 0xFFFFFFFF | _ => false) = true ∧
    (match decodeScalar 0xFFFFFFFF with | .error _ => true | _ => false) = true ∧
    (match (far.tick 1).fetchWord.1 with | .error _ => true | _ => false) = true ∧
    ev.agenda = ⟨5, 3, .ev .powerUp⟩ :: [] ∧ unitOf .powerUp = none ∧
    ((at' st).core.nextCommand (1 : BitVec 8).toNat).isSome = true ∧ (at' st).core.canStart (1 : BitVec 8).toNat = true ∧
    (at' tk).core.matHead false = some ⟨0, 0x0400001002020000⟩ ∧ (at' tk).core.fq.holds 0x48 = false ∧
    canonical s.pc.toInt = true ∧ (match (s.xlateStrand .fetch s.pc.toInt).1 with | .ok x => x.pa == 0x42000 | _ => false) = true ∧
    (s.xlateStrand .fetch s.pc.toInt).2.heldErr2 (0x42000 / 8) = false ∧ (s.xlateStrand .fetch s.pc.toInt).2.cpu.icache = [] := by decide +kernel

theorem wit_StepsKeepMemoryCanonical :
    State.reset.memOk ∧ (match step State.reset with | .next _ => true | _ => false) = true ∧ (fetching 0x004A3FFC id).memOk ∧
    (match step (fetching 0x004A3FFC id) with | .next _ => true | _ => false) = true := by decide +kernel

/-- A step of the strand runs ADDI g5, g3, −4 and moves on. -/
theorem test_step_addi :
    (match step (fetching 0x004A3FFC id) with | .next t => t.cpu.g[5] == -4 && t.cpu.pc == 0x2004 | _ => false) = true := by decide +kernel

end Sys2Proof.Tests
end

section
/-! SUPPORT. The results of the integer words as numbers (R92, R93, R95), and what a guarded word that writes one does. -/

namespace Sys2Proof.Machine

/-! ## Immediates and results of the ALU group -/

/-- The zero-extended 12-bit immediate as a number. -/
theorem imm12z_eq (imm : BitVec 12) : imm12z imm = BitVec.ofNat 64 imm.toNat :=
  BitVec.eq_of_toNat_eq (by simp [imm12z])

/-- A sum of words is the sum of any two integers that stand for them. -/
theorem add_ofInt (a : Word) (v : Int) : a + BitVec.ofInt 64 v = BitVec.ofInt 64 (a.toInt + v) := by
  rw [BitVec.ofInt_add, BitVec.ofInt_toInt]

theorem alu_add (a b : Word) : alu .add a b = BitVec.ofNat 64 (a.toNat + b.toNat) := by
  rw [BitVec.ofNat_add, BitVec.ofNat_toNat, BitVec.ofNat_toNat, BitVec.setWidth_eq, BitVec.setWidth_eq]; rfl

theorem alu_add_imm (a : Word) (imm : BitVec 12) : alu .add a (imm12s imm) = BitVec.ofInt 64 (a.toInt + imm.toInt) :=
  add_ofInt a imm.toInt

theorem alu_sub (a b : Word) : alu .sub a b = BitVec.ofInt 64 (a.toInt - b.toInt) := by
  rw [Int.sub_eq_add_neg, BitVec.ofInt_add, BitVec.ofInt_neg, BitVec.ofInt_toInt, BitVec.ofInt_toInt]
  exact BitVec.sub_eq_add_neg a b

theorem shiftLeft_ofNat (a : Word) (n : Nat) : a <<< n = BitVec.ofNat 64 (a.toNat * 2 ^ n) :=
  BitVec.eq_of_toNat_eq (by simp [Nat.shiftLeft_eq])

theorem ushiftRight_ofNat (a : Word) (n : Nat) : a >>> n = BitVec.ofNat 64 (a.toNat / 2 ^ n) := by
  have h : a.toNat / 2 ^ n < 2 ^ 64 := Nat.lt_of_le_of_lt (Nat.div_le_self _ _) a.isLt
  refine BitVec.eq_of_toNat_eq ?_
  rw [BitVec.toNat_ushiftRight, Nat.shiftRight_eq_div_pow, BitVec.toNat_ofNat, Nat.mod_eq_of_lt h]

theorem sshiftRight_ofInt (a : Word) (n : Nat) : a.sshiftRight n = BitVec.ofInt 64 (a.toInt / 2 ^ n) := by
  rw [← BitVec.ofInt_toInt (x := a.sshiftRight n), BitVec.toInt_sshiftRight, Int.shiftRight_eq_div_pow]; simp

/-- The amount of an immediate shift is below 64 as it stands. -/
theorem shiftAmount_mod (n : BitVec 6) : (n.setWidth 64).toNat % 64 = n.toNat := by
  have := n.isLt; simp; omega

theorem alu_sll (a b : Word) : alu .sll a b = BitVec.ofNat 64 (a.toNat * 2 ^ (b.toNat % 64)) := shiftLeft_ofNat a _

theorem alu_srl (a b : Word) : alu .srl a b = BitVec.ofNat 64 (a.toNat / 2 ^ (b.toNat % 64)) := ushiftRight_ofNat a _

theorem alu_sra (a b : Word) : alu .sra a b = BitVec.ofInt 64 (a.toInt / 2 ^ (b.toNat % 64)) := sshiftRight_ofInt a _

theorem alu_sll_imm (a : Word) (n : BitVec 6) : alu .sll a (n.setWidth 64) = BitVec.ofNat 64 (a.toNat * 2 ^ n.toNat) := by
  rw [alu_sll, shiftAmount_mod]

theorem alu_srl_imm (a : Word) (n : BitVec 6) : alu .srl a (n.setWidth 64) = BitVec.ofNat 64 (a.toNat / 2 ^ n.toNat) := by
  rw [alu_srl, shiftAmount_mod]

theorem alu_sra_imm (a : Word) (n : BitVec 6) : alu .sra a (n.setWidth 64) = BitVec.ofInt 64 (a.toInt / 2 ^ n.toNat) := by
  rw [alu_sra, shiftAmount_mod]

theorem alu_min (a b : Word) : alu .min a b = BitVec.ofInt 64 (min a.toInt b.toInt) := by
  simp only [alu, BitVec.slt_iff_toInt_lt]
  split
  · next h => rw [Int.min_eq_left (Int.le_of_lt h), BitVec.ofInt_toInt]
  · next h => rw [Int.min_eq_right (Int.not_lt.mp h), BitVec.ofInt_toInt]

theorem alu_max (a b : Word) : alu .max a b = BitVec.ofInt 64 (max a.toInt b.toInt) := by
  simp only [alu, BitVec.slt_iff_toInt_lt]
  split
  · next h => rw [Int.max_eq_right (Int.le_of_lt h), BitVec.ofInt_toInt]
  · next h => rw [Int.max_eq_left (Int.not_lt.mp h), BitVec.ofInt_toInt]

theorem alu_minu (a b : Word) : alu .minu a b = BitVec.ofNat 64 (min a.toNat b.toNat) := by
  simp only [alu, BitVec.ult_iff_toNat_lt]
  split
  · next h => rw [Nat.min_eq_left (Nat.le_of_lt h), BitVec.ofNat_toNat, BitVec.setWidth_eq]
  · next h => rw [Nat.min_eq_right (Nat.not_lt.mp h), BitVec.ofNat_toNat, BitVec.setWidth_eq]

theorem alu_maxu (a b : Word) : alu .maxu a b = BitVec.ofNat 64 (max a.toNat b.toNat) := by
  simp only [alu, BitVec.ult_iff_toNat_lt]
  split
  · next h => rw [Nat.max_eq_right (Nat.le_of_lt h), BitVec.ofNat_toNat, BitVec.setWidth_eq]
  · next h => rw [Nat.max_eq_left (Nat.not_lt.mp h), BitVec.ofNat_toNat, BitVec.setWidth_eq]

/-! ## Results of the MULDIV group -/

theorem muldiv_mul (a b : Word) : muldiv .mul a b = BitVec.ofNat 64 (a.toNat * b.toNat) :=
  BitVec.eq_of_toNat_eq (by simp [muldiv])

theorem muldiv_div (a b : Word) (h : b ≠ 0) : muldiv .div a b = BitVec.ofInt 64 (a.toInt.tdiv b.toInt) := if_neg h

theorem muldiv_divu (a b : Word) (h : b ≠ 0) : muldiv .divu a b = BitVec.ofNat 64 (a.toNat / b.toNat) := by
  have hlt : a.toNat / b.toNat < 2 ^ 64 := Nat.lt_of_le_of_lt (Nat.div_le_self _ _) a.isLt
  refine (if_neg h).trans (BitVec.eq_of_toNat_eq ?_)
  rw [BitVec.toNat_udiv, BitVec.toNat_ofNat, Nat.mod_eq_of_lt hlt]

/-- The remainder takes the sign of the dividend: it is what the quotient toward zero leaves. -/
theorem muldiv_rem (a b : Word) (h : b ≠ 0) :
    muldiv .rem a b = BitVec.ofInt 64 (a.toInt - b.toInt * a.toInt.tdiv b.toInt) := by
  rw [← Int.tmod_def]; exact if_neg h

theorem muldiv_remu (a b : Word) (h : b ≠ 0) : muldiv .remu a b = BitVec.ofNat 64 (a.toNat % b.toNat) := by
  have hlt : a.toNat % b.toNat < 2 ^ 64 := Nat.lt_of_le_of_lt (Nat.mod_le _ _) a.isLt
  refine (if_neg h).trans (BitVec.eq_of_toNat_eq ?_)
  rw [BitVec.toNat_umod, BitVec.toNat_ofNat, Nat.mod_eq_of_lt hlt]

/-- A zero divisor: quotients are all ones, remainders the dividend. -/
theorem muldiv_zero (a b : Word) (h : b = 0) :
    muldiv .div a b = 0xFFFFFFFFFFFFFFFF ∧ muldiv .divu a b = 0xFFFFFFFFFFFFFFFF ∧ muldiv .rem a b = a ∧ muldiv .remu a b = a := by
  subst h; exact ⟨rfl, rfl, rfl, rfl⟩

/-- The most negative number over -1: the quotient wraps round to it, and nothing remains. -/
theorem muldiv_overflow (a b : Word) (ha : a.toInt = -2 ^ 63) (hb : b.toInt = -1) :
    muldiv .div a b = BitVec.ofInt 64 (-2 ^ 63) ∧ muldiv .rem a b = 0 := by
  have h0 : b ≠ 0 := by rintro rfl; simp at hb
  rw [muldiv_div a b h0, muldiv_rem a b h0, ha, hb]
  decide

/-! ## Words that write a register -/

/-- A guarded word whose meaning writes the value v to gd leaves v there. -/
theorem writes_value {i : Instr} {q : Guard} {s : State} {gd : BitVec 5} {f : State → Word} {v : Word} (h : s.goes q)
    (he : exec i s = .next (s.guarded q fun s => s.writeG gd (f s))) (hv : f s = v) : Writes i s gd v :=
  writes_of_exec i q s gd v _ h he (congrArg (s.writeG gd) hv)

/-! ## Reserved encodings -/

/-- A word with an empty cell, or with a reserved field that is not zero, decodes to the codes it earns (R59, R61). -/
theorem decodeScalar_reserved (w : BitVec 32) {c : Cell32} (hc : decodeCell w (guardOf w) = c)
    (h : c.1 = none ∨ c.2 = true) : decodeScalar w = .error (encodingCodes (guardOf w) c) := by
  simp only [decodeScalar, hc]
  match c, h with
  | (none, _), _ => rfl
  | (some _, true), _ => rfl
  | (some _, false), h => simp at h

/-- An empty cell earns 0x10. -/
theorem earns_unassigned (w : BitVec 32) (h : (decodeCell w (guardOf w)).1 = none) : Earns w 0x10 :=
  ⟨_, decodeScalar_reserved w rfl (.inl h), by simp [encodingCodes, h]⟩

/-- A reserved field that is not zero earns 0x11. -/
theorem earns_reservedField (w : BitVec 32) (h : (decodeCell w (guardOf w)).2 = true) : Earns w 0x11 :=
  ⟨_, decodeScalar_reserved w rfl (.inr h), by simp [encodingCodes, h]⟩

/-- The function numbers that the ALU table assigns end at 12 (R64). -/
theorem decAlu_unassigned (q : Guard) (gd ga gb : BitVec 5) (fn : BitVec 7) (h : 13 ≤ fn.toNat) :
    decAlu q gd ga gb fn = empty32 := by
  obtain ⟨k, hk⟩ := Nat.exists_eq_add_of_le' h
  unfold decAlu; rw [hk]; rfl

/-- The function numbers that the MULDIV table assigns end at 6 (R64). -/
theorem decMulDiv_unassigned (q : Guard) (gd ga gb : BitVec 5) (fn : BitVec 7) (h : 7 ≤ fn.toNat) :
    decMulDiv q gd ga gb fn = empty32 := by
  obtain ⟨k, hk⟩ := Nat.exists_eq_add_of_le' h
  unfold decMulDiv; rw [hk]; rfl

/-- A shift by an immediate reserves imm12[11:6] (R93). -/
theorem decodeCell_shift_reserved (w : BitVec 32) (q : Guard) (h5 : 5 ≤ (w.extractLsb' 22 6).toNat)
    (h7 : (w.extractLsb' 22 6).toNat ≤ 7) : (decodeCell w q).2 = ((w.extractLsb' 0 12).extractLsb' 6 6 != 0) := by
  obtain h | h | h : (w.extractLsb' 22 6).toNat = 5 ∨ (w.extractLsb' 22 6).toNat = 6 ∨ (w.extractLsb' 22 6).toNat = 7 := by omega
  all_goals unfold decodeCell; rw [h]; rfl

/-- The field imm12[11:6] stands at bits [11:6] of the word (R60). -/
theorem imm12_high_field (w : BitVec 32) : (w.extractLsb' 0 12).extractLsb' 6 6 = w.extractLsb' 6 6 := by
  rw [BitVec.extractLsb'_extractLsb'_of_le (by omega)]

/-! ## The statement -/

/-- Settles O1: each result is the number that its value lemma gives, and each reserved encoding an empty cell or a reserved field. -/
theorem integerResults : Obligations.IntegerResults := by
  unfold Obligations.IntegerResults
  refine ⟨fun q gd ga gb s h => ?_, fun q gd ga imm n s h => ?_, fun q gd ga gb s h => ?_, fun w => ?_, rfl, rfl⟩
  · exact ⟨writes_value h rfl (alu_add ..), writes_value h rfl (alu_sub ..), writes_value h rfl rfl, writes_value h rfl rfl,
      writes_value h rfl rfl, writes_value h rfl rfl, writes_value h rfl (alu_sll ..), writes_value h rfl (alu_srl ..),
      writes_value h rfl (alu_sra ..), writes_value h rfl (alu_min ..), writes_value h rfl (alu_max ..),
      writes_value h rfl (alu_minu ..), writes_value h rfl (alu_maxu ..)⟩
  · exact ⟨writes_value h rfl (alu_add_imm ..), writes_value h rfl rfl,
      writes_value h rfl (congrArg (s.g ga ||| ·) (imm12z_eq imm)), writes_value h rfl (congrArg (s.g ga ^^^ ·) (imm12z_eq imm)),
      writes_value h rfl (alu_sll_imm ..), writes_value h rfl (alu_srl_imm ..), writes_value h rfl (alu_sra_imm ..)⟩
  · refine ⟨writes_value h rfl (muldiv_mul ..), writes_value h rfl rfl, writes_value h rfl rfl, fun hb => ?_, fun hb => ?_,
      fun ha hb => ?_⟩
    · exact ⟨writes_value h rfl (muldiv_div _ _ hb), writes_value h rfl (muldiv_divu _ _ hb),
        writes_value h rfl (muldiv_rem _ _ hb), writes_value h rfl (muldiv_remu _ _ hb)⟩
    · obtain ⟨hdiv, hdivu, hrem, hremu⟩ := muldiv_zero (s.g ga) (s.g gb) hb
      exact ⟨writes_value h rfl hdiv, writes_value h rfl hdivu, writes_value h rfl hrem, writes_value h rfl hremu⟩
    · obtain ⟨hdiv, hrem⟩ := muldiv_overflow (s.g ga) (s.g gb) ha hb
      exact ⟨writes_value h rfl hdiv, writes_value h rfl hrem⟩
  · refine ⟨fun hop hfn => earns_unassigned w ?_, fun hop hfn => earns_unassigned w ?_, fun h5 h7 hr => earns_reservedField w ?_⟩
    · simp only [decodeCell, hop, decAlu_unassigned _ _ _ _ _ hfn, empty32]
    · simp only [decodeCell, hop, decMulDiv_unassigned _ _ _ _ _ hfn, empty32]
    · rw [decodeCell_shift_reserved w _ h5 h7, imm12_high_field]; simpa using hr

end Sys2Proof.Machine
end

section
/-! SUPPORT. The constant, bit and compare words (R62, R94, R96-R98, R106): their results bit by bit, what a predicate write leaves, and the reserved encodings. -/

namespace Sys2Proof.Machine

/-! ## Results -/

/-- The 17-bit pattern at bits [28:12] as a number (R94). -/
theorem imm17v_eq (imm : BitVec 17) : imm17v imm = BitVec.ofInt 64 (imm.toInt * 2 ^ 12) := by
  unfold imm17v BitVec.signExtend
  rw [BitVec.toInt_append_zero, Int.mul_comm]

/-- leadZeros counts the zero bits above the highest bit that is one. -/
theorem leadZeros_spec (x n : Nat) : leadZeros x n ≤ n ∧ (∀ i, n - leadZeros x n ≤ i → i < n → x.testBit i = false) ∧
    (leadZeros x n < n → x.testBit (n - 1 - leadZeros x n) = true) := by
  induction n with
  | zero => simp [leadZeros]
  | succ n ih =>
    obtain ⟨hle, hzero, hone⟩ := ih
    cases hb : x.testBit n with
    | true => simp [leadZeros, hb]; omega
    | false =>
      have e : leadZeros x (n + 1) = 1 + leadZeros x n := by simp [leadZeros, hb]
      rw [e]
      refine ⟨by omega, fun i hlo hhi => ?_, fun hlt => ?_⟩
      · obtain rfl | hi : i = n ∨ i < n := by omega
        · exact hb
        · exact hzero i (by omega) hi
      · rw [show n + 1 - 1 - (1 + leadZeros x n) = n - 1 - leadZeros x n by omega]
        exact hone (by omega)

/-- popcount counts the positions below n that hold a one. -/
theorem popcount_eq_countP (x n : Nat) : popcount x n = (List.range n).countP x.testBit := by
  induction n with
  | zero => rfl
  | succ n ih => rw [popcount, ih, List.range_succ, List.countP_append, List.countP_singleton]

/-- CMDF takes the field's bits from ga, counted from its bit 0, and every other bit from gd (R106). -/
theorem insertField_getLsbD (d a : Word) (pos width i : Nat) (hi : i < 64) :
    (insertField d a pos width).getLsbD i = if pos ≤ i ∧ i < pos + width then a.getLsbD (i - pos) else d.getLsbD i := by
  have mask : (BitVec.ofNat 64 ((2 ^ width - 1) * 2 ^ pos)).getLsbD i = decide (pos ≤ i ∧ i < pos + width) := by
    rw [BitVec.getLsbD_ofNat, Nat.testBit_mul_two_pow, Nat.testBit_two_pow_sub_one, Bool.eq_iff_iff]
    simp only [hi, decide_true, Bool.true_and, Bool.and_eq_true, decide_eq_true_eq]; omega
  simp only [insertField, BitVec.getLsbD_or, BitVec.getLsbD_and, BitVec.getLsbD_not, BitVec.getLsbD_shiftLeft, mask, hi]
  split
  · next h => simp [h]
  · next h => simp [h]

/-- SEL takes ga when the predicate differs from the negation bit (R96). -/
theorem sel_eq (p neg : Bool) (a b : Word) : (if p != neg then a else b) = if p = !neg then a else b := by
  cases p <;> cases neg <;> rfl

/-- The conditions of CMP as relations between words (R62). -/
theorem condOf_iff (a b : Word) :
    (condOf 0 a b = true ↔ a = b) ∧ (condOf 1 a b = true ↔ a ≠ b) ∧
    (condOf 2 a b = true ↔ a.toInt < b.toInt) ∧ (condOf 3 a b = true ↔ b.toInt ≤ a.toInt) ∧
    (condOf 4 a b = true ↔ a.toNat < b.toNat) ∧ (condOf 5 a b = true ↔ b.toNat ≤ a.toNat) ∧
    (condOf 6 a b = true ↔ a &&& b ≠ 0) := by
  refine ⟨beq_iff_eq, bne_iff_ne, BitVec.slt_iff_toInt_lt, ?_, BitVec.ult_iff_toNat_lt, ?_, bne_iff_ne⟩
  · show (!a.slt b) = true ↔ _
    rw [Bool.not_eq_true', ← Bool.not_eq_true, BitVec.slt_iff_toInt_lt, Int.not_lt]
  · show (!a.ult b) = true ↔ _
    rw [Bool.not_eq_true', ← Bool.not_eq_true, BitVec.ult_iff_toNat_lt, Nat.not_lt]

/-! ## Words that write a predicate -/

/-- One bit of a byte replaced. -/
theorem replaceBit_getLsbD (x : BitVec 8) (n m : Nat) (hm : m < 8) (v : Bool) :
    (if v then x ||| (1#8 <<< n) else x &&& ~~~(1#8 <<< n)).getLsbD m = if m = n then v else x.getLsbD m := by
  have bit : (1#8 <<< n).getLsbD m = decide (m = n) := by
    rw [BitVec.getLsbD_shiftLeft, Bool.eq_iff_iff]; simp [hm]; omega
  cases v
  · simp only [Bool.false_eq_true, if_false, BitVec.getLsbD_and, BitVec.getLsbD_not, bit, hm]
    split <;> simp [*]
  · simp only [if_true, BitVec.getLsbD_or, bit]
    split <;> simp [*]

/-- A write of a predicate: it reads back, p0 reads 1, and every other predicate keeps its value (R86). -/
theorem State.setP_p (s : State) (n : BitVec 3) (v : Bool) (m : BitVec 3) :
    (s.setP n v).p m = if m = n ∧ n ≠ 0 then v else s.p m := by
  unfold State.setP
  by_cases hn : n = 0
  · simp [hn]
  · simp only [hn, if_false, State.p, State.modCpu_cpu, replaceBit_getLsbD _ _ _ m.isLt, BitVec.toNat_inj]
    by_cases hm : m = n
    · subst hm; simp only [hn, if_true, if_false, ne_eq, not_false_eq_true, and_self]
    · simp [hm]

/-- A guarded word whose meaning writes one predicate: the others, the registers and the rest of the device stay. -/
theorem writes_predicate {i : Instr} {q : Guard} {s : State} {pd : BitVec 3} {f : State → Bool} (h : s.goes q)
    (he : exec i s = .next (s.guarded q fun s => (s.setP pd (f s)).retire)) :
    ∃ t, exec i s = .next t ∧ t.pc = s.pc + 4 ∧ (t = s.modCpu fun c => { c with p := t.cpu.p, pc := t.cpu.pc }) ∧
      (∀ n, n ≠ pd → t.p n = s.p n) ∧ t.p 0 = true ∧ (pd ≠ 0 → t.p pd = f s) := by
  obtain ⟨hq, hpc⟩ := h
  have ht : (s.setP pd (f s)).retire = (s.setP pd (f s)).setPc (s.pc + 4) := by
    rw [State.retire_next _ (by rw [State.setP_pc]; exact hpc), State.setP_pc]; rfl
  refine ⟨(s.setP pd (f s)).setPc (s.pc + 4), by rw [he, State.guarded_true _ _ _ hq, ht], State.setPc_pc _ _, ?_, ?_, rfl, ?_⟩
  · unfold State.setP State.setPc
    split <;> simp <;> exact State.modCpu_congr _ _ _ rfl
  · intro n hn; simp [State.setP_p, hn]
  · intro h0; rw [State.setPc_p, State.setP_p, if_pos ⟨rfl, h0⟩]

/-! ## A constant in two words -/

/-- A number of the range that LUI or ADDPC reaches with an ADDI after it, in two parts (R94). -/
theorem constant_parts (e : Int) (hlo : -2 ^ 28 - 2048 ≤ e) (hhi : e ≤ 2 ^ 28 - 2049) :
    ∃ (hi : BitVec 17) (lo : BitVec 12), hi.toInt * 2 ^ 12 + lo.toInt = e := by
  refine ⟨BitVec.ofInt 17 ((e + 2048) / 4096), BitVec.ofInt 12 e, ?_⟩
  rw [BitVec.toInt_ofInt, BitVec.toInt_ofInt, Int.bmod_eq_of_le (by omega) (by omega), Int.bmod_def]
  split <;> omega

/-- The guard ⟨false, 0⟩ names p0, which reads 1: it passes in every state (R58, R86). -/
theorem State.guard_always (s : State) : s.guard ⟨false, 0⟩ = true := rfl

/-- ADDI after a word that left v in gd adds its immediate to v. -/
theorem addi_after {i : Instr} {s : State} {gd : BitVec 5} {v : Word} (hw : Writes i s gd v) (hgd : gd ≠ 0)
    (hpc : canonical (s.pc + 8).toInt = true) (lo : BitVec 12) :
    ∃ t u, exec i s = .next t ∧ exec (.addi ⟨false, 0⟩ gd gd lo) t = .next u ∧ u.g gd = v + BitVec.ofInt 64 lo.toInt := by
  obtain ⟨t, ht, hold, htpc, -⟩ := hw
  have hv : t.g gd = v := by rw [hold, if_pos ⟨rfl, hgd⟩]
  have next : t.goes ⟨false, 0⟩ := ⟨t.guard_always, by
    rw [htpc, show s.pc + 4 + 4 = s.pc + 8 by rw [BitVec.add_assoc]; rfl]; exact hpc⟩
  obtain ⟨u, hu, hold', -, -⟩ : Writes (.addi ⟨false, 0⟩ gd gd lo) t gd (v + BitVec.ofInt 64 lo.toInt) :=
    writes_value next rfl (congrArg (· + BitVec.ofInt 64 lo.toInt) hv)
  exact ⟨t, u, ht, hu, by rw [hold', if_pos ⟨rfl, hgd⟩]⟩

/-! ## Reserved encodings -/

/-- The function numbers that BITS assigns are 0 and 1 (R97). -/
theorem decBits_unassigned (q : Guard) (gd ga gb : BitVec 5) (fn : BitVec 7) (h : 2 ≤ fn.toNat) :
    decBits q gd ga gb fn = empty32 := by
  obtain ⟨k, hk⟩ := Nat.exists_eq_add_of_le' h
  unfold decBits; rw [hk]; rfl

/-- CLZ and POPC reserve gb (R97). -/
theorem decBits_reserved (q : Guard) (gd ga gb : BitVec 5) (fn : BitVec 7) (h : fn.toNat < 2) :
    (decBits q gd ga gb fn).2 = (gb != 0) := by
  obtain h | h : fn.toNat = 0 ∨ fn.toNat = 1 := by omega
  all_goals unfold decBits; rw [h]; rfl

/-- CMP reserves fn[5:3] (R62). -/
theorem decCmp_reserved (q : Guard) (gd ga gb : BitVec 5) (fn : BitVec 7) :
    (decCmp q gd ga gb fn).2 = (fn.extractLsb' 3 3 != 0) := by
  unfold decCmp; dsimp only
  split
  · rfl
  · split <;> rfl

/-- Condition 7 is no condition (R62). -/
theorem decCmp_unassigned (q : Guard) (gd ga gb : BitVec 5) (fn : BitVec 7) (h : fn.extractLsb' 0 3 = 7) :
    (decCmp q gd ga gb fn).1 = none := by
  unfold decCmp; dsimp only; rw [if_pos h]

/-- CMDF's width stands at bits [5:0] of the word (R60, R106). -/
theorem imm12_low_field (w : BitVec 32) : (w.extractLsb' 0 12).extractLsb' 0 6 = w.extractLsb' 0 6 := by
  rw [BitVec.extractLsb'_extractLsb'_of_le (by omega)]

/-- A field past bit 63 is a reserved encoding (R106). -/
theorem decodeCell_cmdf_reserved (w : BitVec 32) (q : Guard) (h : (w.extractLsb' 22 6).toNat = 0x30) :
    (decodeCell w q).2 = decide (64 < (w.extractLsb' 6 6).toNat + (w.extractLsb' 0 6).toNat + 1) := by
  rw [← imm12_low_field, ← imm12_high_field]
  unfold decodeCell; rw [h]; rfl

/-! ## The statement -/

/-- CLZ leaves the number of zero bits above the highest one. -/
theorem clz_counts (q : Guard) (gd ga : BitVec 5) (s : State) (h : s.goes q) :
    ∃ k : Nat, k ≤ 64 ∧ (∀ i, 64 - k ≤ i → i < 64 → (s.g ga).getLsbD i = false) ∧
      (k < 64 → (s.g ga).getLsbD (63 - k) = true) ∧ Writes (.clz q gd ga) s gd (BitVec.ofNat 64 k) := by
  obtain ⟨hle, hzero, hone⟩ := leadZeros_spec (s.g ga).toNat 64
  exact ⟨_, hle, hzero, hone, writes_value h rfl rfl⟩

/-- CMP in both forms completes with the condition combined into pd (R98). -/
theorem compare_completes (q : Guard) (pd : BitVec 3) (cmb : BitVec 2) (ga gb imm : BitVec 5) (cond : BitVec 3) (s : State)
    (h : s.goes q) (i : Instr) (b : Word)
    (hi : (i = .cmp q pd cmb ga gb cond ∧ b = s.g gb) ∨ (i = .cmpImm q pd cmb ga imm cond ∧ b = BitVec.ofInt 64 imm.toInt)) :
    ∃ t, exec i s = .next t ∧ t.pc = s.pc + 4 ∧ (t = s.modCpu fun c => { c with p := t.cpu.p, pc := t.cpu.pc }) ∧
      (∀ n, n ≠ pd → t.p n = s.p n) ∧ t.p 0 = true ∧
      (pd ≠ 0 → t.p pd = combine cmb (s.p pd) (condOf cond (s.g ga) b)) := by
  obtain ⟨rfl, rfl⟩ | ⟨rfl, rfl⟩ := hi
  · exact writes_predicate (f := fun s => combine cmb (s.p pd) (condOf cond (s.g ga) (s.g gb))) h rfl
  · exact writes_predicate (f := fun s => combine cmb (s.p pd) (condOf cond (s.g ga) (imm5s imm))) h rfl

/-- LUI or ADDPC, then ADDI: every number of the range, as it stands or from the word's own address (R94). -/
theorem constant_in_two_words (gd : BitVec 5) (s : State) (h : s.goes ⟨false, 0⟩) (hpc : canonical (s.pc + 8).toInt = true)
    (hgd : gd ≠ 0) (e : Int) (hlo : -2 ^ 28 - 2048 ≤ e) (hhi : e ≤ 2 ^ 28 - 2049) :
    ∃ (hi : BitVec 17) (lo : BitVec 12) (t u t' u' : State),
      exec (.lui ⟨false, 0⟩ gd hi) s = .next t ∧ exec (.addi ⟨false, 0⟩ gd gd lo) t = .next u ∧ u.g gd = BitVec.ofInt 64 e ∧
      exec (.addpc ⟨false, 0⟩ gd hi) s = .next t' ∧ exec (.addi ⟨false, 0⟩ gd gd lo) t' = .next u' ∧
      u'.g gd = s.pc + BitVec.ofInt 64 e := by
  obtain ⟨hi, lo, rfl⟩ := constant_parts e hlo hhi
  have hlui : Writes (.lui ⟨false, 0⟩ gd hi) s gd (BitVec.ofInt 64 (hi.toInt * 2 ^ 12)) := writes_value h rfl (imm17v_eq hi)
  have haddpc : Writes (.addpc ⟨false, 0⟩ gd hi) s gd (s.pc + BitVec.ofInt 64 (hi.toInt * 2 ^ 12)) :=
    writes_value h rfl (congrArg (s.pc + ·) (imm17v_eq hi))
  obtain ⟨t, u, ht, hu, hv⟩ := addi_after hlui hgd hpc lo
  obtain ⟨t', u', ht', hu', hv'⟩ := addi_after haddpc hgd hpc lo
  refine ⟨hi, lo, t, u, t', u', ht, hu, ?_, ht', hu', ?_⟩
  · rw [hv, BitVec.ofInt_add]
  · rw [hv', BitVec.ofInt_add, BitVec.add_assoc]

/-- Settles O2, from the results' lemmas, the write of one predicate, and the parts of a constant. -/
theorem constantBitAndCompareResults : Obligations.ConstantBitAndCompareResults := by
  unfold Obligations.ConstantBitAndCompareResults
  refine ⟨fun q gd ga gb imm neg n pos width s h => ?_, fun q pd cmb ga gb imm cond s h _ i b hi => ?_,
    fun gd ga gb s h => ⟨writes_value h rfl rfl, fun hpc hgd => constant_in_two_words gd s h hpc hgd⟩, fun w => ?_,
    rfl, rfl, rfl, rfl, rfl⟩
  · refine ⟨writes_value h rfl (imm17v_eq imm), writes_value h rfl ?_, writes_value h rfl (sel_eq ..), clz_counts q gd ga s h,
      writes_value h rfl (congrArg _ (popcount_eq_countP ..)), fun _ => ⟨_, writes_value h rfl rfl, fun i hi => ?_⟩⟩
    · rw [imm17v_eq, add_ofInt]
    · rw [Nat.add_assoc]; exact insertField_getLsbD _ _ _ _ _ hi
  · obtain ⟨t, ht, htpc, frame, others, p0, hpd⟩ := compare_completes q pd cmb ga gb imm cond s h i b hi
    obtain ⟨eq, ne, lt, ge, ltu, geu, tst⟩ := condOf_iff (s.g ga) b
    exact ⟨t, ht, htpc, frame, others, p0, fun h0 => ⟨condOf cond (s.g ga) b,
      by rintro rfl; exact eq, by rintro rfl; exact ne, by rintro rfl; exact lt, by rintro rfl; exact ge,
      by rintro rfl; exact ltu, by rintro rfl; exact geu, by rintro rfl; exact tst,
      by rintro rfl; exact hpd h0, by rintro rfl; exact hpd h0, by rintro rfl; exact hpd h0, by rintro rfl; exact hpd h0⟩⟩
  · refine ⟨fun hop hr => earns_reservedField w ?_, fun hop hfn => earns_unassigned w ?_, fun hop hfn hr => earns_reservedField w ?_,
      fun hop hr => earns_reservedField w ?_, fun hop hc => earns_unassigned w ?_, fun hop hr => earns_reservedField w ?_⟩
    · simpa only [decodeCell, hop, decSel, cell, bne_iff_ne] using hr
    · simp only [decodeCell, hop, decBits_unassigned _ _ _ _ _ hfn, empty32]
    · simpa only [decodeCell, hop, decBits_reserved _ _ _ _ _ hfn, bne_iff_ne] using hr
    · simpa only [decodeCell, hop, decCmp_reserved, bne_iff_ne] using hr
    · simp only [decodeCell, hop, decCmp_unassigned _ _ _ _ _ hc]
    · rw [decodeCell_cmdf_reserved w _ hop]; exact decide_eq_true hr

end Sys2Proof.Machine
end

section
/-! SUPPORT. Branches (R99-R101): what a taken branch leaves, when one traps, and the trap of a step past the last canonical word. -/

namespace Sys2Proof.Machine

/-! ## Withdrawing and the control core -/

/-- A change of the control core in focus leaves every core's cellar. -/
theorem State.modCpu_cores_cellar (s : State) (f : Cpu → Cpu) (i : Nat) (h : i < 192) :
    (s.modCpu f).cores[i].cellar = s.cores[i].cellar := by
  have := s.modCpu_coreAt_cellar f i
  unfold State.coreAt at this
  rwa [dif_pos h, dif_pos h] at this

/-- Which reads are deferred does not depend on the control core. -/
theorem State.modCpu_hasDeferred (s : State) (f : Cpu → Cpu) (i : Nat) (a : Agent) :
    (s.modCpu f).hasDeferred i a = s.hasDeferred i a := by
  unfold State.hasDeferred
  congr 1
  rw [Bool.eq_iff_iff, Vector.any_eq_true, Vector.any_eq_true]
  simp only [State.modCpu_cores_cellar]

/-- Withdrawing every read of an agent and changing the control core do not meet. -/
theorem State.modCpu_withdrawAt (s : State) (f : Cpu → Cpu) (i : Nat) (a : Agent) :
    (s.modCpu f).withdrawAt i a = (s.withdrawAt i a).modCpu f := by
  unfold State.withdrawAt State.modCpu State.modCore State.setCore State.core
  simp only [Vector.map_set, State.mk.injEq, true_and, and_true]
  congr 1
  rw [Fin.getElem_fin, Fin.getElem_fin, Vector.getElem_map]
  split <;> rfl

/-- A change of the control core passes a withdrawal unchanged. -/
theorem State.modCpu_withdraw (s : State) (f : Cpu → Cpu) (a : Agent) : (s.modCpu f).withdraw a = (s.withdraw a).modCpu f := by
  unfold State.withdraw
  rw [State.modCpu_hasDeferred, State.modCpu_cur]
  split
  · exact s.modCpu_withdrawAt f _ a
  · rfl

/-! ## Traps at the end of the canonical range -/

/-- The pc at a trap is not seen: the handler's first state is that of any other pc. -/
theorem Entered.of_setPc {s t : State} {pc cause taddr epc : Word} (h : Entered (s.setPc pc) t cause taddr epc) :
    Entered s t cause taddr epc := by
  unfold Entered at h ⊢
  rw [h, State.setPc, State.modCpu_withdraw, State.modCpu_modCpu, State.modCpu_cpu]

/-- A word that retires as the last of the canonical range traps at the address after it, while NEST is 0 (R101). -/
theorem State.retire_traps (s : State) (hn : s.cpu.nest = false) (h : canonical (s.pc + 4).toInt = false) :
    Entered s s.retire 0x22 (s.pc + 4) (s.pc + 4) := by
  have hn' : (s.setPc (s.pc + 4)).cpu.nest = false := by rw [State.setPc, State.modCpu_cpu]; exact hn
  rw [State.retire_end s h]
  exact ((s.setPc (s.pc + 4)).trapAt_enters 0x22 (s.pc + 4) (s.pc + 4) hn').of_setPc

/-- A register write leaves NEST. -/
theorem State.setG_nest (s : State) (r : BitVec 5) (v : Word) : (s.setG r v).cpu.nest = s.cpu.nest := by
  unfold State.setG; split
  · rfl
  · rw [State.modCpu_cpu]; rfl

/-- A guarded word that writes gd, at the last canonical address: it retires, and the step past it traps (R101). -/
theorem guarded_write_at_end {i : Instr} {q : Guard} {s : State} {gd : BitVec 5} {f : State → Word} (hn : s.cpu.nest = false)
    (hpc : canonical (s.pc + 4).toInt = false) (he : exec i s = .next (s.guarded q fun s => s.writeG gd (f s))) :
    ∃ t, exec i s = .next t ∧ Entered (if s.guard q then s.setG gd (f s) else s) t 0x22 (s.pc + 4) (s.pc + 4) := by
  refine ⟨_, he, ?_⟩
  cases hq : s.guard q with
  | false => rw [State.guarded_false s q _ hq]; exact s.retire_traps hn hpc
  | true =>
    rw [State.guarded_true s q _ hq]
    have retired := (s.setG gd (f s)).retire_traps ((s.setG_nest gd _).trans hn) (by rwa [State.setG_pc])
    rwa [State.setG_pc] at retired

/-! ## Taken branches -/

/-- A register takes a value and the pc another: the two that a linking branch changes. -/
theorem State.setG_goto_spec (s : State) (r : BitVec 5) (v pc : Word) :
    Holds s ((s.setG r v).goto pc) r v ∧ ((s.setG r v).goto pc).pc = pc ∧ OnlyRegs s ((s.setG r v).goto pc) := by
  unfold State.goto
  refine ⟨fun x => by rw [State.setPc_g, State.setG_g], State.setPc_pc _ _, ?_⟩
  have : (s.setG r v).setPc pc = s.modCpu fun c => { c with g := (if r = 0 then s.cpu.g else s.cpu.g.set r.toNat v), pc := pc } := by
    unfold State.setG State.setPc
    split
    · exact State.modCpu_congr _ _ _ rfl
    · rw [State.modCpu_modCpu]; exact State.modCpu_congr _ _ _ rfl
  rw [this]; exact State.onlyRegs_modCpu _ _ _

section
variable {q : Guard} {off : BitVec 22} {gd ga : BitVec 5} {imm : BitVec 12} {s : State}

/-- BR with a guard that passes: its target is checked, then the pc moves there (R99). -/
theorem exec_br (hq : s.guard q = true) : exec (.br q off) s = .next (
    if canonical (branchTarget s.pc off) then s.goto (wordOf (branchTarget s.pc off))
    else s.trap 0x22 (wordOf (branchTarget s.pc off))) :=
  congrArg Host.Outcome.next (State.guarded_true s q _ hq)

/-- CALL with a guard that passes: the same check goes before the write of g31 (R99). -/
theorem exec_call (hq : s.guard q = true) : exec (.call q off) s = .next (
    if canonical (branchTarget s.pc off) then (s.setG 31 (s.pc + 4)).goto (wordOf (branchTarget s.pc off))
    else s.trap 0x22 (wordOf (branchTarget s.pc off))) :=
  congrArg Host.Outcome.next (State.guarded_true s q _ hq)

/-- JMP with a guard that passes: the target comes from the ga that stood before, and both checks go before the write of gd (R100). -/
theorem exec_jmp (hq : s.guard q = true) : exec (.jmp q gd ga imm) s = .next (
    if !canonical (s.ea ga imm) then s.trap 0x22 (wordOf (s.ea ga imm))
    else if s.ea ga imm % 4 ≠ 0 then s.trap 0x13 (wordOf (s.ea ga imm))
    else (s.setG gd (s.pc + 4)).goto (wordOf (s.ea ga imm))) :=
  congrArg Host.Outcome.next (State.guarded_true s q _ hq)

/-- A branch to a canonical target. -/
theorem br_continues (hq : s.guard q = true) (hc : canonical (branchTarget s.pc off) = true) :
    exec (.br q off) s = .next (s.modCpu fun c => { c with pc := wordOf (branchTarget s.pc off) }) := by
  rw [exec_br hq, if_pos hc]; rfl

theorem call_continues (hq : s.guard q = true) (hc : canonical (branchTarget s.pc off) = true) :
    ∃ t, exec (.call q off) s = .next t ∧ Holds s t 31 (s.pc + 4) ∧ t.pc = wordOf (branchTarget s.pc off) ∧ OnlyRegs s t :=
  ⟨_, by rw [exec_call hq, if_pos hc], s.setG_goto_spec ..⟩

theorem jmp_continues (hq : s.guard q = true) (hc : canonical (s.ea ga imm) = true) (ha : s.ea ga imm % 4 = 0) :
    ∃ t, exec (.jmp q gd ga imm) s = .next t ∧ Holds s t gd (s.pc + 4) ∧ t.pc = wordOf (s.ea ga imm) ∧ OnlyRegs s t :=
  ⟨_, by rw [exec_jmp hq, hc, Bool.not_true, if_neg Bool.false_ne_true, if_neg (fun h => h ha)], s.setG_goto_spec ..⟩

/-! ## Branches that trap -/

theorem br_traps (hn : s.cpu.nest = false) (hq : s.guard q = true) (hc : canonical (branchTarget s.pc off) = false) :
    Traps (.br q off) s 0x22 (wordOf (branchTarget s.pc off)) s.pc :=
  traps_of_exec _ s 0x22 (wordOf _) _ hn (by rw [exec_br hq, hc, if_neg Bool.false_ne_true]) rfl

theorem call_traps (hn : s.cpu.nest = false) (hq : s.guard q = true) (hc : canonical (branchTarget s.pc off) = false) :
    Traps (.call q off) s 0x22 (wordOf (branchTarget s.pc off)) s.pc :=
  traps_of_exec _ s 0x22 (wordOf _) _ hn (by rw [exec_call hq, hc, if_neg Bool.false_ne_true]) rfl

theorem jmp_traps_range (hn : s.cpu.nest = false) (hq : s.guard q = true) (hc : canonical (s.ea ga imm) = false) :
    Traps (.jmp q gd ga imm) s 0x22 (wordOf (s.ea ga imm)) s.pc :=
  traps_of_exec _ s 0x22 (wordOf _) _ hn (by rw [exec_jmp hq, hc, Bool.not_false, if_pos rfl]) rfl

theorem jmp_traps_misaligned (hn : s.cpu.nest = false) (hq : s.guard q = true) (hc : canonical (s.ea ga imm) = true)
    (ha : s.ea ga imm % 4 ≠ 0) : Traps (.jmp q gd ga imm) s 0x13 (wordOf (s.ea ga imm)) s.pc :=
  traps_of_exec _ s 0x13 (wordOf _) _ hn (by rw [exec_jmp hq, hc, Bool.not_true, if_neg Bool.false_ne_true, if_pos ha]) rfl

end

/-- ADDI at the last canonical word (R101). -/
theorem addi_traps_at_end (q : Guard) (gd ga : BitVec 5) (imm : BitVec 12) (s : State) (hn : s.cpu.nest = false)
    (hpc : s.pc = 0x00FFFFFFFFFFFFFC) : ∃ t, exec (.addi q gd ga imm) s = .next t ∧
      Entered (if s.guard q then s.setG gd (s.g ga + BitVec.ofInt 64 imm.toInt) else s) t 0x22 0x0100000000000000 0x0100000000000000 := by
  have hnext : s.pc + 4 = 0x0100000000000000 := by rw [hpc]; rfl
  have h := guarded_write_at_end (i := .addi q gd ga imm) (q := q) (s := s) (gd := gd)
    (f := fun s => s.g ga + BitVec.ofInt 64 imm.toInt) hn (by rw [hnext]; rfl) rfl
  rwa [hnext] at h

/-! ## The statement -/

/-- Settles O4: taken branches, branches that trap, and the step past the last canonical word. -/
theorem branchResults : Obligations.BranchResults := by
  unfold Obligations.BranchResults
  refine ⟨fun q off gd ga imm s hq => ⟨fun hb => ⟨br_continues hq hb, call_continues hq hb⟩, fun hj ha => jmp_continues hq hj ha⟩,
    fun q off gd ga imm s hn => ⟨fun hq hb => ⟨br_traps hn hq hb, call_traps hn hq hb⟩, fun hq hj => jmp_traps_range hn hq hj,
      fun hq hj ha => jmp_traps_misaligned hn hq hj ha, addi_traps_at_end q gd ga imm s hn⟩, rfl, rfl⟩

end Sys2Proof.Machine
end

section
/-! SUPPORT. MTCR and the refused accesses to control registers (R88-R90, R111). -/

namespace Sys2Proof.Machine

/-! ## What a write keeps of its word -/

/-- MODE, PMODE and NEST of a word, put back into the low bits of a status (R89). -/
theorem statusWith_bits (w v : Word) :
    statusWith w (v.getLsbD 0) (v.getLsbD 1) (v.getLsbD 2) = (w &&& ~~~7#64) ||| (v &&& 7#64) := by
  have low : (BitVec.ofBool (v.getLsbD 2) ++ BitVec.ofBool (v.getLsbD 1) ++ BitVec.ofBool (v.getLsbD 0)).setWidth 64 = v &&& 7#64 := by
    ext i hi
    have seven : (7#64)[i] = decide (i < 3) := Nat.testBit_two_pow_sub_one 3 i
    rw [BitVec.getElem_and, seven, BitVec.getElem_setWidth, BitVec.getLsbD_append, BitVec.getLsbD_append]
    match i with
    | 0 => simp
    | 1 => simp
    | 2 => simp
    | i + 3 => simp
  rw [statusWith, low]

/-- Bits [hi:0] of a word. -/
theorem keep_low (v : Word) (hi : Nat) : keep v hi 0 = BitVec.ofNat 64 (v.toNat % 2 ^ (hi + 1)) := by
  simp [keep, bits]

/-- The quiescence window that a word asks for (R388). -/
theorem clampQwin_eq (v : Word) : clampQwin v =
    if v.toNat % 2 ^ 32 = 0 then 0 else if v.toNat % 2 ^ 32 < 1024 then 1024 else v.setWidth 32 := by
  have hb : bits v.toNat 31 0 = v.toNat % 2 ^ 32 := rfl
  simp only [clampQwin, hb]
  split
  · rfl
  · split
    · next h => rw [Nat.max_eq_right (Nat.le_of_lt h)]; rfl
    · next h =>
      rw [Nat.max_eq_left (Nat.not_lt.mp h)]
      exact BitVec.eq_of_toNat_eq (by simp)

/-! ## Writes that complete -/

section
variable {q : Guard} {cr : BitVec 12} {gd ga : BitVec 5} {s : State}

/-- MTCR of a register that the mode may write: it takes ga, and the word retires. -/
theorem exec_mtcr_permitted (hq : s.guard q = true) (hf : crWriteFault s.super cr.toNat = none) :
    exec (.mtcr q cr ga) s = .next (s.crWrite cr.toNat (s.g ga)).retire := by
  refine congrArg Host.Outcome.next ((State.guarded_true s q _ hq).trans ?_)
  rw [hf]

/-- MTCR of one of the control core's own registers. -/
theorem sets_of_crWrite {f : Cpu → Cpu} (h : s.goes q) (hf : crWriteFault s.super cr.toNat = none)
    (hw : s.crWrite cr.toNat (s.g ga) = s.modCpu f) (hp : (f s.cpu).pc = s.cpu.pc) : Sets (.mtcr q cr ga) s f := by
  obtain ⟨hq, hpc⟩ := h
  have pc : (s.modCpu f).pc = s.pc := by rw [State.pc, State.modCpu_cpu]; exact hp
  unfold Sets
  rw [exec_mtcr_permitted hq hf, hw, State.retire_next _ (by rwa [pc]), State.modCpu_modCpu, pc]

/-- MTCR of a register of the matrix node. -/
theorem mtcr_of_modMat {f : Matrix → Matrix} (h : s.goes q) (hf : crWriteFault s.super cr.toNat = none)
    (hw : s.crWrite cr.toNat (s.g ga) = s.modMat f) :
    exec (.mtcr q cr ga) s = .next ((s.modMat f).modCpu fun c => { c with pc := s.pc + 4 }) := by
  obtain ⟨hq, hpc⟩ := h
  have pc : (s.modMat f).pc = s.pc := by rw [State.pc, State.modMat_cpu]; rfl
  rw [exec_mtcr_permitted hq hf, hw, State.retire_next _ (by rwa [pc]), pc]

/-! ## Accesses that trap -/

/-- MTCR of a register that the mode may not write. -/
theorem mtcr_traps {c : BitVec 8} (hq : s.guard q = true) (hn : s.cpu.nest = false) (hf : crWriteFault s.super cr.toNat = some c) :
    Traps (.mtcr q cr ga) s c 0 s.pc := by
  refine traps_of_exec _ s c 0 _ hn (congrArg Host.Outcome.next ((State.guarded_true s q _ hq).trans ?_)) (ite_self 0)
  rw [hf]

/-- MFCR of a register that the mode may not read. -/
theorem mfcr_traps {c : BitVec 8} (hq : s.guard q = true) (hn : s.cpu.nest = false) (hf : crReadFault s.super cr.toNat = some c) :
    Traps (.mfcr q gd cr) s c 0 s.pc := by
  refine traps_of_exec _ s c 0 _ hn (congrArg Host.Outcome.next ((State.guarded_true s q _ hq).trans ?_)) (ite_self 0)
  rw [hf]

/-- ERET in USER (R90). -/
theorem eret_traps_user (hq : s.guard q = true) (hn : s.cpu.nest = false) (hs : s.super = false) :
    Traps (.eret q) s 0x12 0 s.pc := by
  refine traps_of_exec _ s 0x12 0 _ hn (congrArg Host.Outcome.next ((State.guarded_true s q _ hq).trans ?_)) rfl
  rw [hs, if_neg Bool.false_ne_true]

end

/-! ## The registers by number -/

/-- The number of a scale register. -/
theorem scale_number (n : Fin 16) : (0x310 + BitVec.ofNat 12 n.val).toNat = 0x310 + n.val := by
  have := n.isLt
  rw [BitVec.toNat_add, BitVec.toNat_ofNat, Nat.mod_eq_of_lt (by omega : n.val < 2 ^ 12)]
  exact Nat.mod_eq_of_lt (by simp; omega)

/-- Both modes may write a scale register. -/
theorem crWriteFault_scale (super : Bool) (n : Fin 16) : crWriteFault super (0x310 + n.val) = none := by
  have := n.isLt
  have user : crUserWrites (0x310 + n.val) = true := by
    simp [crUserWrites]; omega
  rw [crWriteFault, if_pos user]

/-- A write of scale register n. -/
theorem State.crWrite_scale (s : State) (n : Fin 16) (v : Word) :
    s.crWrite (0x310 + n.val) v = s.modMat fun m => { m with sc := m.sc.set n (v.setWidth 32) } := by
  have := n.isLt
  unfold State.crWrite
  rw [dif_pos (by omega)]
  simp only [Nat.add_sub_cancel_left]

/-- SUPER may write what SUPER alone may write. -/
theorem crWriteFault_super {super : Bool} (hs : super = true) {k : Nat} (hk : crSuperWrites k = true) :
    crWriteFault super k = none := by
  rw [crWriteFault, hk, hs]
  split <;> rfl

/-- A register that no mode may write (R90): no scale register, and none of the others with a write column in the table (R88). -/
theorem crWriteFault_readOnly (super : Bool) (cr : BitVec 12) (hsc : cr < 0x310 ∨ 0x31F < cr)
    (hcr : cr ∉ ([0x002, 0x003, 0x004, 0x006, 0x007, 0x008, 0x010, 0x040, 0x084, 0x100, 0x184, 0x202, 0x203, 0x204, 0x205, 0x207,
      0x208, 0x20A, 0x20B, 0x300, 0x301, 0x3A0] : List (BitVec 12))) :
    crWriteFault super cr.toNat = some 0x10 := by
  simp only [BitVec.lt_def, BitVec.ofNat_eq_ofNat, BitVec.toNat_ofNat] at hsc
  simp only [List.mem_cons, ← BitVec.toNat_inj, BitVec.ofNat_eq_ofNat, BitVec.toNat_ofNat, not_or] at hcr
  have user : crUserWrites cr.toNat = false := by simp [crUserWrites, hcr]; omega
  have sup : crSuperWrites cr.toNat = false := by simp [crSuperWrites, hcr]; omega
  simp only [crWriteFault, user, sup, Bool.false_eq_true, if_false]

/-- The registers that USER may not read (R88). -/
theorem crReadFault_user (cr : BitVec 12) (hcr : cr ∈ ([0x004, 0x005, 0x006, 0x007, 0x008, 0x040, 0x080, 0x200, 0x201, 0x202, 0x203,
    0x204, 0x205, 0x206, 0x207, 0x208, 0x209, 0x20A, 0x20B] : List (BitVec 12))) : crReadFault false cr.toNat = some 0x12 := by
  simp only [List.mem_cons, List.not_mem_nil, or_false, ← BitVec.toNat_inj, BitVec.ofNat_eq_ofNat, BitVec.toNat_ofNat] at hcr
  have hidden : crHidden cr.toNat = true := by simp [crHidden]; omega
  simp only [crReadFault, hidden, Bool.not_false, Bool.and_self, if_true]

/-- The registers that USER may not write and SUPER may (R88). -/
theorem crWriteFault_user (cr : BitVec 12) (hcr : cr ∈ ([0x002, 0x004, 0x006, 0x007, 0x008, 0x040, 0x202, 0x203, 0x204, 0x205, 0x207,
    0x208, 0x20A, 0x20B] : List (BitVec 12))) : crWriteFault false cr.toNat = some 0x12 := by
  simp only [List.mem_cons, List.not_mem_nil, or_false, ← BitVec.toNat_inj, BitVec.ofNat_eq_ofNat, BitVec.toNat_ofNat] at hcr
  have user : crUserWrites cr.toNat = false := by simp [crUserWrites]; omega
  have sup : crSuperWrites cr.toNat = true := by simp [crSuperWrites]; omega
  simp only [crWriteFault, user, sup, Bool.false_eq_true, if_false, if_true]

/-! ## The statement -/

/-- MTCR of the registers that SUPER alone may write and that stand in the control core. -/
theorem mtcr_super_sets (q : Guard) (ga : BitVec 5) (s : State) (h : s.goes q) (hs : s.super = true) :
    let v := s.g ga
    Sets (.mtcr q 0x002 ga) s (fun c => { c with status := (c.status &&& ~~~7#64) ||| (v &&& 7#64) }) ∧
    Sets (.mtcr q 0x004 ga) s (fun c => { c with tvec := v &&& ~~~3#64 }) ∧
    Sets (.mtcr q 0x006 ga) s (fun c => { c with epc := v }) ∧
    Sets (.mtcr q 0x007 ga) s (fun c => { c with ksave0 := v }) ∧
    Sets (.mtcr q 0x008 ga) s (fun c => { c with ksave1 := v }) ∧
    Sets (.mtcr q 0x208 ga) s (fun c => { c with rsel := v.setWidth 12 }) ∧
    Sets (.mtcr q 0x20A ga) s (fun c => { c with qsnap := v &&& ~~~63#64 }) ∧
    Sets (.mtcr q 0x20B ga) s (fun c => { c with ecccnt := v }) ∧
    Sets (.mtcr q 0x040 ga) s (fun c => { c with qwin :=
      if v.toNat % 2 ^ 32 = 0 then 0 else if v.toNat % 2 ^ 32 < 1024 then 1024 else v.setWidth 32 }) := by
  refine ⟨sets_of_crWrite h (crWriteFault_super hs rfl) ?status rfl, sets_of_crWrite h (crWriteFault_super hs rfl) rfl rfl,
    sets_of_crWrite h (crWriteFault_super hs rfl) rfl rfl, sets_of_crWrite h (crWriteFault_super hs rfl) rfl rfl,
    sets_of_crWrite h (crWriteFault_super hs rfl) rfl rfl, sets_of_crWrite h (crWriteFault_super hs rfl) rfl rfl,
    sets_of_crWrite h (crWriteFault_super hs rfl) rfl rfl, sets_of_crWrite h (crWriteFault_super hs rfl) rfl rfl,
    sets_of_crWrite h (crWriteFault_super hs rfl) ?qwin rfl⟩
  case status =>
    simp only [← statusWith_bits]; rfl
  case qwin =>
    rw [← clampQwin_eq]; rfl

/-- Settles O8: each writable register by its own write, the refused accesses by the code their table gives. -/
theorem controlRegisterWrites : Obligations.ControlRegisterWrites := by
  unfold Obligations.ControlRegisterWrites
  refine ⟨fun q ga s h => ?_, fun q gd ga s hq hn => ⟨fun hs => ⟨fun cr hcr => ?_, fun cr hcr => ?_, eret_traps_user hq hn hs⟩,
    fun cr _ hsc hcr => mtcr_traps hq hn (crWriteFault_readOnly s.super cr hsc hcr)⟩⟩
  · refine ⟨sets_of_crWrite h rfl rfl rfl, sets_of_crWrite h rfl rfl rfl, sets_of_crWrite h rfl rfl rfl,
      sets_of_crWrite h rfl rfl rfl, sets_of_crWrite h rfl rfl rfl, mtcr_of_modMat h rfl ?mawin, mtcr_of_modMat h rfl ?mdest,
      fun n => mtcr_of_modMat h ?_ ?_, mtcr_super_sets q ga s h⟩
    case mawin => rw [← keep_low _ 47]; rfl
    case mdest => rw [← keep_low _ 37]; rfl
    · rw [scale_number]; exact crWriteFault_scale s.super n
    · rw [scale_number]; exact s.crWrite_scale n (s.g ga)
  · exact mfcr_traps hq hn (by rw [hs]; exact crReadFault_user cr hcr)
  · exact mtcr_traps hq hn (by rw [hs]; exact crWriteFault_user cr hcr)

end Sys2Proof.Machine
end
